-- ==== Sys2Proof/Word.lean ====
section
/-!
DEFINITION. The words the part exchanges and the unit of time.

A field keeps the width the Formats chapter gives it (spec/11_formats.md R185): one byte, two bytes, or the three bytes
of a tag. Moments and spans of time are whole microseconds, since line gaps are counted in microseconds and every other
time in milliseconds (spec/00_scope.md Table 0-4).
-/

namespace Sys2Proof

/-- One byte of a frame, a message or the configuration record. -/
abbrev Byte := BitVec 8

/-- A two-byte field (R185). -/
abbrev Word16 := BitVec 16

/-- A reefer tag: three bytes (R185). -/
abbrev Tag := BitVec 24

/-- A moment or a span of time in microseconds. -/
abbrev Micros := Nat

/-- `t` milliseconds as microseconds. -/
def millis (t : Nat) : Micros := 1000 * t

end Sys2Proof
end

