-- ==== Sys2Proof/Config.lean ====
section
/-!
DEFINITION. What an implementation of the part fixes: the capacities and spans the rules state as numbers, and the one
free value of the model.
-/

namespace Sys2Proof.Config

/-- A FREE VALUE: nothing constrains it and nothing in Lean evaluates it. It decides an order of acts that the spec
leaves open; `State.choices` says which of them have been used (log 5, log 6). -/
opaque freeValue : Nat → Nat

/-- Entries of the neighbour table (R19). -/
def neighbourCapacity : Nat := 12
/-- Crane contexts (R76). -/
def craneCapacity : Nat := 4
/-- Entries of a downlink queue (R90, R91). -/
def downlinkCapacity : Nat := 4
/-- Custody records (R124). -/
def custodyCapacity : Nat := 384
/-- Entries of the holdback list (R131). -/
def holdbackCapacity : Nat := 32
/-- Reports of the alert intake (R141). -/
def alertCapacity : Nat := 8
/-- Reports of the routine intake (R141). -/
def routineCapacity : Nat := 32
/-- Pairs of the seen filter (R155). -/
def seenCapacity : Nat := 256
/-- Records of the delivery store (R155). -/
def storeCapacity : Nat := 256
/-- Frames of transmit class 0, and of class 1 (Table 4-2). -/
def classCapacity : Nat := 8
/-- Messages of the control queue, and of the drain queue (R165, R166). -/
def queueCapacity : Nat := 8
/-- Messages of the terminal uplink queue (R166). -/
def terminalCapacity : Nat := 4
/-- Beacon timer expiries that end LISTEN (R37). -/
def listenExpiries : Nat := 12
/-- The longest wait for the configuration memory's ready indication (R176). -/
def readyLimit : Micros := millis 20
/-- The pause that ends a partial message (R161). -/
def parserPause : Micros := millis 2
/-- The carrier time that must be exceeded for JABBER (R71). -/
def jabberLimit : Micros := millis 20
/-- The quiet time that ends a fault (R74). -/
def recoveryTime : Micros := millis 50
/-- A backoff slot (R60). -/
def slot : Micros := 20

end Sys2Proof.Config
end

