-- ==== Sys2Proof/Syntax.lean ====
section
/-!
DEFINITION. The commands: one constructor for each row of spec/opcode_table.json, and the fields they carry.

Every command carries `dt`, the microseconds that have passed since the command before it (log 1). A command that stands
for a message or a frame carries its fields at the widths of spec/11_formats.md; which values of a field make the message
or frame malformed is said in Machine/Formats.lean (R188, R190), and a command whose fields are such values runs as the
malformed message or frame does (log 15).
-/

namespace Sys2Proof

/-- Class of a reefer report (R122). -/
inductive ReportClass where
  | routine
  | alert
  deriving DecidableEq, Repr

/-- A reefer report as it is bundled, held and stored (R139, R149, Table 11-4). The two temperatures are two's complement
tenths of a degree Celsius. -/
structure Report where
  tag : Tag
  segment : Byte
  seq : Byte
  setPoint : Word16
  supply : Word16
  alarm : BitVec 4
  cls : ReportClass
  deriving DecidableEq, Repr

/-- One item of a BEACON as it stands in the frame (Table 11-2). -/
structure BeaconItem where
  segment : Byte
  kind : Byte
  score : Word16
  deriving DecidableEq, Repr

/-- Reason of a REFUSE (Table 11-3, Table 6-3). -/
inductive RefuseReason where
  | full
  | notClaimed
  | pendingOther
  | anchoredHere
  | yielded
  | notRunning
  deriving DecidableEq, Repr

/-- The body of a quay line frame by kind (Table 11-2). -/
inductive FrameBody where
  | beacon (flags : Byte) (interval : Word16) (c : Byte) (items : List BeaconItem)
  | craneUp (crane seq : Byte) (period : Word16) (late : Byte) (payload : List Byte)
  | craneDown (crane seq : Byte) (deadline : Word16) (payload : List Byte)
  | offer (crane token segment : Byte) (period : Word16) (late : Byte)
  | take (crane token : Byte)
  | refuse (crane token : Byte) (reason : RefuseReason)
  | commit (crane token : Byte)
  | cancel (crane token : Byte)
  | bundle (reports : List Report)
  deriving DecidableEq, Repr

/-- A quay line frame (Table 11-1); length and check follow from it. -/
structure Frame where
  sender : Byte
  dest : Byte
  body : FrameBody
  deriving DecidableEq, Repr

/-- A message from the radio unit by kind (Table 11-5). -/
inductive Inbound where
  | radioStatus (shadowMap : Word16)
  | qualitySample (segment margin : Byte)
  | reeferReport (tag : Tag) (segment seq : Byte) (setPoint supply : Word16) (alarm margin : Byte)
  | craneAttach (crane segment : Byte)
  | cranePosition (crane segment : Byte)
  | craneDetach (crane : Byte)
  | craneUplink (crane seq margin : Byte) (payload : List Byte)
  | craneDownlink (crane seq : Byte) (deadline : Word16) (payload : List Byte)
  | drain (limit : Byte)
  | hold
  | resume
  | stateQuery
  | restart
  deriving DecidableEq, Repr

/-- The commands of the part: one constructor for each row of spec/opcode_table.json. `place` is a position counted from
the head (0) of the queue it names. -/
inductive Instr where
  | powerUp (dt : Micros)
  | resetInputAsserted (dt : Micros)
  | resetInputReleased (dt : Micros)
  | configReadComplete (dt : Micros) (record : Vector Byte 24)
  | configReadyTimeout (dt : Micros)
  | parserTimeout (dt : Micros)
  | inboundMessageRejected (dt : Micros) (bytes : List Byte)
  | radioStatus (dt : Micros) (shadowMap : Word16)
  | qualitySample (dt : Micros) (segment margin : Byte)
  | reeferReport (dt : Micros) (tag : Tag) (segment seq : Byte) (setPoint supply : Word16) (alarm margin : Byte)
  | craneAttach (dt : Micros) (crane segment : Byte)
  | cranePosition (dt : Micros) (crane segment : Byte)
  | craneDetach (dt : Micros) (crane : Byte)
  | craneUplink (dt : Micros) (crane seq margin : Byte) (payload : List Byte)
  | craneDownlink (dt : Micros) (crane seq : Byte) (deadline : Word16) (payload : List Byte)
  | drain (dt : Micros) (limit : Byte)
  | hold (dt : Micros)
  | resume (dt : Micros)
  | stateQuery (dt : Micros)
  | restart (dt : Micros)
  | outboundMessageSent (dt : Micros)
  | supervisionTimerExpiry (dt : Micros)
  | beaconTimerExpiry (dt : Micros)
  | neighbourStalePoint (dt : Micros) (address : Byte)
  | neighbourRemovalPoint (dt : Micros) (address : Byte)
  | craneStaleExpiry (dt : Micros) (crane : Byte)
  | craneUpAgeLimit (dt : Micros) (place : Nat)
  | craneDownRemainingZero (dt : Micros) (place : Nat)
  | downlinkDeadline (dt : Micros) (crane : Byte) (place : Nat)
  | offerGuardExpiry (dt : Micros) (crane : Byte)
  | pendingGuardExpiry (dt : Micros) (crane : Byte)
  | holdbackExpiry (dt : Micros) (tag : Tag)
  | bundleWaitExpiry (dt : Micros)
  | deferGapEnd (dt : Micros)
  | transmissionComplete (dt : Micros)
  | collision (dt : Micros)
  | carrierAppears (dt : Micros)
  | jabberDetected (dt : Micros)
  | lineOpenReported (dt : Micros)
  | faultRecoveryExpiry (dt : Micros)
  | receivedFrameDiscarded (dt : Micros) (bytes : List Byte)
  | addressClash (dt : Micros)
  | beacon (dt : Micros) (sender dest flags : Byte) (interval : Word16) (c : Byte) (items : List BeaconItem)
  | craneUp (dt : Micros) (sender dest crane seq : Byte) (period : Word16) (late : Byte) (payload : List Byte)
  | craneDown (dt : Micros) (sender dest crane seq : Byte) (deadline : Word16) (payload : List Byte)
  | offer (dt : Micros) (sender dest crane token segment : Byte) (period : Word16) (late : Byte)
  | take (dt : Micros) (sender dest crane token : Byte)
  | refuse (dt : Micros) (sender dest crane token : Byte) (reason : RefuseReason)
  | commit (dt : Micros) (sender dest crane token : Byte)
  | cancel (dt : Micros) (sender dest crane token : Byte)
  | bundle (dt : Micros) (sender dest : Byte) (reports : List Report)
  | carrierEnds (dt : Micros)
  | lineConditionOk (dt : Micros)
  deriving DecidableEq, Repr

end Sys2Proof
end

