-- ==== Sys2Proof/Machine/Formats.lean ====
section
/-!
DEFINITION. The Formats chapter (spec/11_formats.md R185 to R191): the check, the layouts of line frames and radio
messages, and the conditions that make one malformed. `encodeFrame`, `encodeInbound` write the bytes; `readFrame`,
`readMessage` read them back in the order of checks of R68 and R162.
-/

namespace Sys2Proof.Machine

/-! ### Fields and the check -/

/-- The high byte of a two-byte field (R185: sent first). -/
def hiByte (w : Word16) : Byte := w.extractLsb' 8 8

/-- The low byte of a two-byte field. -/
def loByte (w : Word16) : Byte := w.extractLsb' 0 8

/-- Two bytes, high byte first, as a field (R185). -/
def word16 (hi lo : Byte) : Word16 := hi ++ lo

/-- The three bytes of a tag, high byte first (R185). -/
def tagBytes (t : Tag) : List Byte := [t.extractLsb' 16 8, t.extractLsb' 8 8, t.extractLsb' 0 8]

/-- Three bytes, high byte first, as a tag (R185). -/
def tagOf (a b c : Byte) : Tag := a ++ b ++ c

/-- One shift of the check register: left one place, combined with 0x1021 when the bit shifted out was 1 (R186). -/
def crcShift (r : Word16) : Word16 := if r.msb then (r <<< 1) ^^^ 0x1021#16 else r <<< 1

/-- One byte of the check: into the upper eight bits, then eight shifts (R186). -/
def crcByte (r : Word16) (b : Byte) : Word16 := Nat.repeat crcShift 8 (r ^^^ (b ++ 0#8))

/-- The CRC-16 of R186 over a run of bytes. -/
def crc16 (bytes : List Byte) : Word16 := bytes.foldl crcByte 0xFFFF#16

/-- Bytes followed by their check, high byte first (R186). -/
def withCrc (bytes : List Byte) : List Byte := bytes ++ [hiByte (crc16 bytes), loByte (crc16 bytes)]

/-- The check of R186: computed over every byte but the last two and compared with those two. -/
def crcHolds (bytes : List Byte) : Bool := bytes == withCrc (bytes.take (bytes.length - 2))

/-! ### Bundled reports, BEACON items and reason codes -/

/-- The alarm-and-class byte (Table 11-4): alarm code in bits 0 to 3, class in bit 7, the rest 0. -/
def alarmClassByte (alarm : BitVec 4) (cls : ReportClass) : Byte :=
  (if cls = .alert then 8#4 else 0#4) ++ alarm

/-- Class bit of an alarm-and-class byte (Table 11-4). -/
def classOfByte (b : Byte) : ReportClass := if b.msb then .alert else .routine

/-- A bundled report, ten bytes (Table 11-4). -/
def reportBytes (r : Report) : List Byte :=
  tagBytes r.tag ++ [r.segment, r.seq, hiByte r.setPoint, loByte r.setPoint, hiByte r.supply, loByte r.supply,
    alarmClassByte r.alarm r.cls]

/-- A BEACON item, four bytes (Table 11-2). -/
def itemBytes (i : BeaconItem) : List Byte := [i.segment, i.kind, hiByte i.score, loByte i.score]

/-- Bundled reports laid one after another (Table 11-4); unassigned bits are ignored (R186). -/
def readReports : List Byte → Option (List Report)
  | [] => some []
  | t2 :: t1 :: t0 :: g :: q :: s1 :: s0 :: u1 :: u0 :: a :: rest =>
    (readReports rest).map fun rs =>
      { tag := tagOf t2 t1 t0, segment := g, seq := q, setPoint := word16 s1 s0, supply := word16 u1 u0,
        alarm := a.extractLsb' 0 4, cls := classOfByte a } :: rs
  | _ => none

/-- BEACON items laid one after another (Table 11-2). -/
def readItems : List Byte → Option (List BeaconItem)
  | [] => some []
  | g :: k :: s1 :: s0 :: rest =>
    (readItems rest).map fun is => { segment := g, kind := k, score := word16 s1 s0 } :: is
  | _ => none

/-- Code of a REFUSE reason (Table 11-3). -/
def refuseCode : RefuseReason → Byte
  | .full => 1 | .notClaimed => 2 | .pendingOther => 3 | .anchoredHere => 4 | .yielded => 5 | .notRunning => 6

/-- The REFUSE reason of a code; none for a code outside 1..6 (R188). -/
def refuseReasonOf (b : Byte) : Option RefuseReason :=
  if b = 1 then some .full else if b = 2 then some .notClaimed else if b = 3 then some .pendingOther
  else if b = 4 then some .anchoredHere else if b = 5 then some .yielded else if b = 6 then some .notRunning else none

/-! ### Conditions on single fields -/

/-- A crane identifier lies in 1..31 (R188, R190). -/
def craneInRange (c : Byte) : Bool := decide (1 ≤ c.toNat ∧ c.toNat ≤ 31)

/-- A segment lies in 0..127 (R188, R190). -/
def segmentInRange (g : Byte) : Bool := decide (g.toNat ≤ 127)

/-- A payload holds 1..48 bytes (R188, R190). -/
def payloadInRange (p : List Byte) : Bool := decide (1 ≤ p.length ∧ p.length ≤ 48)

/-- A period lies in 0..4095 (R188). -/
def periodInRange (p : Word16) : Bool := decide (p.toNat ≤ 4095)

/-- A sender address lies in 1..62 (R188). -/
def senderInRange (a : Byte) : Bool := decide (1 ≤ a.toNat ∧ a.toNat ≤ 62)

/-! ### Quay line frames -/

/-- Kind code of a frame (Table 11-2). -/
def bodyKind : FrameBody → Byte
  | .beacon .. => 1 | .craneUp .. => 2 | .craneDown .. => 3 | .offer .. => 4 | .take .. => 5
  | .refuse .. => 6 | .commit .. => 7 | .cancel .. => 8 | .bundle .. => 9

/-- The body bytes of a frame (Table 11-2). -/
def bodyBytes : FrameBody → List Byte
  | .beacon flags interval c items =>
    [flags, hiByte interval, loByte interval, c, BitVec.ofNat 8 items.length] ++ items.flatMap itemBytes
  | .craneUp crane seq period late payload =>
    [crane, seq, hiByte period, loByte period, late, BitVec.ofNat 8 payload.length] ++ payload
  | .craneDown crane seq deadline payload =>
    [crane, seq, hiByte deadline, loByte deadline, BitVec.ofNat 8 payload.length] ++ payload
  | .offer crane token segment period late => [crane, token, segment, hiByte period, loByte period, late]
  | .take crane token => [crane, token]
  | .refuse crane token reason => [crane, token, refuseCode reason]
  | .commit crane token => [crane, token]
  | .cancel crane token => [crane, token]
  | .bundle reports => BitVec.ofNat 8 reports.length :: reports.flatMap reportBytes

/-- The conditions of R188 on the fields of a body. -/
def bodyWellFormed : FrameBody → Bool
  | .beacon _ _ _ items => decide (items.length ≤ 16) && items.all fun i => segmentInRange i.segment
  | .craneUp crane _ period _ payload => craneInRange crane && periodInRange period && payloadInRange payload
  | .craneDown crane _ _ payload => craneInRange crane && payloadInRange payload
  | .offer crane _ segment period _ => craneInRange crane && segmentInRange segment && periodInRange period
  | .take crane _ => craneInRange crane
  | .refuse crane _ _ => craneInRange crane
  | .commit crane _ => craneInRange crane
  | .cancel crane _ => craneInRange crane
  | .bundle reports =>
    decide (1 ≤ reports.length ∧ reports.length ≤ 24) && reports.all fun r => segmentInRange r.segment

/-- A frame that is not malformed (R188). -/
def frameWellFormed (f : Frame) : Bool := senderInRange f.sender && bodyWellFormed f.body

/-- The bytes of a frame on the line (R187): kind, sender, destination, body length, body, check. -/
def encodeFrame (f : Frame) : List Byte :=
  withCrc ([bodyKind f.body, f.sender, f.dest, BitVec.ofNat 8 (bodyBytes f.body).length] ++ bodyBytes f.body)

/-- The body of a frame of the given kind, where its length is the one Table 11-2 gives (R188). -/
def readBody (kind : Byte) (body : List Byte) : Option FrameBody :=
  if kind = 1 then
    match body with
    | flags :: i1 :: i0 :: c :: n :: rest =>
      if rest.length = 4 * n.toNat then (readItems rest).map fun is => .beacon flags (word16 i1 i0) c is else none
    | _ => none
  else if kind = 2 then
    match body with
    | crane :: seq :: p1 :: p0 :: late :: l :: rest =>
      if rest.length = l.toNat then some (.craneUp crane seq (word16 p1 p0) late rest) else none
    | _ => none
  else if kind = 3 then
    match body with
    | crane :: seq :: d1 :: d0 :: l :: rest =>
      if rest.length = l.toNat then some (.craneDown crane seq (word16 d1 d0) rest) else none
    | _ => none
  else if kind = 4 then
    match body with
    | [crane, token, segment, p1, p0, late] => some (.offer crane token segment (word16 p1 p0) late)
    | _ => none
  else if kind = 5 then
    match body with
    | [crane, token] => some (.take crane token)
    | _ => none
  else if kind = 6 then
    match body with
    | [crane, token, reason] => (refuseReasonOf reason).map fun r => .refuse crane token r
    | _ => none
  else if kind = 7 then
    match body with
    | [crane, token] => some (.commit crane token)
    | _ => none
  else if kind = 8 then
    match body with
    | [crane, token] => some (.cancel crane token)
    | _ => none
  else if kind = 9 then
    match body with
    | n :: rest => if rest.length = 10 * n.toNat then (readReports rest).map fun rs => .bundle rs else none
    | _ => none
  else none

/-- What the first two checks of reception find (R68, R162). -/
inductive Checked (α : Type) where
  | badCheck
  | malformed
  | good (x : α)
  deriving DecidableEq, Repr

/-- The CRC check and the well-formedness check of a received frame, in that order (R68, R186, R188). -/
def readFrame (bytes : List Byte) : Checked Frame :=
  if 6 ≤ bytes.length ∧ crcHolds bytes then
    match bytes.take (bytes.length - 2) with
    | kind :: sender :: dest :: len :: body =>
      if len.toNat ≤ 250 ∧ len.toNat = body.length then
        match readBody kind body with
        | some b => if frameWellFormed ⟨sender, dest, b⟩ then .good ⟨sender, dest, b⟩ else .malformed
        | none => .malformed
      else .malformed
    | _ => .malformed
  else .badCheck

/-! ### Radio messages -/

/-- Kind code of an inbound message (Table 11-5). -/
def inboundKind : Inbound → Byte
  | .radioStatus .. => 0x21 | .qualitySample .. => 0x22 | .reeferReport .. => 0x23 | .craneAttach .. => 0x24
  | .cranePosition .. => 0x25 | .craneDetach .. => 0x26 | .craneUplink .. => 0x27 | .craneDownlink .. => 0x28
  | .drain .. => 0x29 | .hold => 0x2A | .resume => 0x2B | .stateQuery => 0x2C | .restart => 0x2D

/-- Body bytes of an inbound message (Table 11-5). -/
def inboundBytes : Inbound → List Byte
  | .radioStatus m => [hiByte m, loByte m]
  | .qualitySample g m => [g, m]
  | .reeferReport tag g q sp su alarm margin =>
    tagBytes tag ++ [g, q, hiByte sp, loByte sp, hiByte su, loByte su, alarm, margin]
  | .craneAttach crane g => [crane, g]
  | .cranePosition crane g => [crane, g]
  | .craneDetach crane => [crane]
  | .craneUplink crane seq margin payload => [crane, seq, margin, BitVec.ofNat 8 payload.length] ++ payload
  | .craneDownlink crane seq deadline payload =>
    [crane, seq, hiByte deadline, loByte deadline, BitVec.ofNat 8 payload.length] ++ payload
  | .drain limit => [limit]
  | .hold | .resume | .stateQuery | .restart => []

/-- The conditions of R190 on the fields of a message. -/
def inboundWellFormed : Inbound → Bool
  | .qualitySample g _ => segmentInRange g
  | .reeferReport _ g _ _ _ _ _ => segmentInRange g
  | .craneAttach crane g => craneInRange crane && segmentInRange g
  | .cranePosition crane g => craneInRange crane && segmentInRange g
  | .craneDetach crane => craneInRange crane
  | .craneUplink crane _ _ payload => craneInRange crane && payloadInRange payload
  | .craneDownlink crane _ _ payload => craneInRange crane && payloadInRange payload
  | .radioStatus _ | .drain _ | .hold | .resume | .stateQuery | .restart => true

/-- The bytes of an inbound message (R189): kind, length, body, check. -/
def encodeInbound (m : Inbound) : List Byte :=
  withCrc ([inboundKind m, BitVec.ofNat 8 (inboundBytes m).length] ++ inboundBytes m)

/-- The message of a kind and a body, where the length is the one Table 11-5 gives (R190). -/
def readInboundBody (kind : Byte) (body : List Byte) : Option Inbound :=
  if kind = 0x21 then
    match body with
    | [m1, m0] => some (.radioStatus (word16 m1 m0))
    | _ => none
  else if kind = 0x22 then
    match body with
    | [g, m] => some (.qualitySample g m)
    | _ => none
  else if kind = 0x23 then
    match body with
    | [t2, t1, t0, g, q, s1, s0, u1, u0, alarm, margin] =>
      some (.reeferReport (tagOf t2 t1 t0) g q (word16 s1 s0) (word16 u1 u0) alarm margin)
    | _ => none
  else if kind = 0x24 then
    match body with
    | [crane, g] => some (.craneAttach crane g)
    | _ => none
  else if kind = 0x25 then
    match body with
    | [crane, g] => some (.cranePosition crane g)
    | _ => none
  else if kind = 0x26 then
    match body with
    | [crane] => some (.craneDetach crane)
    | _ => none
  else if kind = 0x27 then
    match body with
    | crane :: seq :: margin :: l :: payload =>
      if payload.length = l.toNat then some (.craneUplink crane seq margin payload) else none
    | _ => none
  else if kind = 0x28 then
    match body with
    | crane :: seq :: d1 :: d0 :: l :: payload =>
      if payload.length = l.toNat then some (.craneDownlink crane seq (word16 d1 d0) payload) else none
    | _ => none
  else if kind = 0x29 then
    match body with
    | [limit] => some (.drain limit)
    | _ => none
  else if kind = 0x2A then
    if body = [] then some .hold else none
  else if kind = 0x2B then
    if body = [] then some .resume else none
  else if kind = 0x2C then
    if body = [] then some .stateQuery else none
  else if kind = 0x2D then
    if body = [] then some .restart else none
  else none

/-- The two checks of a complete inbound message, in that order (R162, R186, R190). -/
def readMessage (bytes : List Byte) : Checked Inbound :=
  if crcHolds bytes then
    match bytes.take (bytes.length - 2) with
    | kind :: len :: body =>
      if len.toNat = body.length then
        match readInboundBody kind body with
        | some m => if inboundWellFormed m then .good m else .malformed
        | none => .malformed
      else .malformed
    | _ => .malformed
  else .badCheck

end Sys2Proof.Machine
end

