-- ==== Sys2Proof/WellFormed.lean ====
section
/-!
DEFINITION. Which commands the outside can send as what they are called: a message row carries a message that is not
malformed (R190), a frame row a frame that is not malformed (R188), and a row that says the bytes are rejected carries
bytes that the checks reject (R68, R162). Every command has a meaning whether or not it is well formed (log 15, log 16).
-/

namespace Sys2Proof

open Sys2Proof.Machine

/-- The bytes are one complete message (R161: kind, length, that many body bytes, two check bytes) that fails a check of
R162. -/
def isRejectedMessage (bytes : List Byte) : Bool :=
  (match bytes with
    | _ :: len :: rest => decide (rest.length = len.toNat + 2)
    | _ => false) &&
  (match readMessage bytes with
    | .good _ => false
    | _ => true)

/-- The bytes are a frame that some station discards: it fails a check of R68, or it is for one other station. -/
def isDiscardedFrame (bytes : List Byte) : Bool :=
  match readFrame bytes with
  | .good f => decide (f.dest ≠ 63)
  | _ => true

/-- The check of a command. -/
def Instr.wf : Instr → Bool
  | .inboundMessageRejected _ bytes => isRejectedMessage bytes
  | .qualitySample _ g m => inboundWellFormed (.qualitySample g m)
  | .reeferReport _ tag g q sp su alarm margin => inboundWellFormed (.reeferReport tag g q sp su alarm margin)
  | .craneAttach _ crane g => inboundWellFormed (.craneAttach crane g)
  | .cranePosition _ crane g => inboundWellFormed (.cranePosition crane g)
  | .craneDetach _ crane => inboundWellFormed (.craneDetach crane)
  | .craneUplink _ crane seq margin payload => inboundWellFormed (.craneUplink crane seq margin payload)
  | .craneDownlink _ crane seq deadline payload => inboundWellFormed (.craneDownlink crane seq deadline payload)
  | .neighbourStalePoint _ address => senderInRange address
  | .neighbourRemovalPoint _ address => senderInRange address
  | .craneStaleExpiry _ crane => craneInRange crane
  | .craneUpAgeLimit _ place => decide (place < Config.classCapacity)
  | .craneDownRemainingZero _ place => decide (place < Config.classCapacity)
  | .downlinkDeadline _ crane place => craneInRange crane && decide (place < Config.downlinkCapacity)
  | .offerGuardExpiry _ crane => craneInRange crane
  | .pendingGuardExpiry _ crane => craneInRange crane
  | .holdbackExpiry _ tag => decide (tag ≠ 0)
  | .receivedFrameDiscarded _ bytes => isDiscardedFrame bytes
  | .beacon _ sender dest flags interval c items => frameWellFormed ⟨sender, dest, .beacon flags interval c items⟩
  | .craneUp _ sender dest crane seq period late payload =>
    frameWellFormed ⟨sender, dest, .craneUp crane seq period late payload⟩
  | .craneDown _ sender dest crane seq deadline payload =>
    frameWellFormed ⟨sender, dest, .craneDown crane seq deadline payload⟩
  | .offer _ sender dest crane token segment period late =>
    frameWellFormed ⟨sender, dest, .offer crane token segment period late⟩
  | .take _ sender dest crane token => frameWellFormed ⟨sender, dest, .take crane token⟩
  | .refuse _ sender dest crane token reason => frameWellFormed ⟨sender, dest, .refuse crane token reason⟩
  | .commit _ sender dest crane token => frameWellFormed ⟨sender, dest, .commit crane token⟩
  | .cancel _ sender dest crane token => frameWellFormed ⟨sender, dest, .cancel crane token⟩
  | .bundle _ sender dest reports => frameWellFormed ⟨sender, dest, .bundle reports⟩
  | .powerUp _ | .resetInputAsserted _ | .resetInputReleased _ | .configReadComplete _ _ | .configReadyTimeout _
  | .parserTimeout _ | .radioStatus _ _ | .drain _ _ | .hold _ | .resume _ | .stateQuery _ | .restart _
  | .outboundMessageSent _ | .supervisionTimerExpiry _ | .beaconTimerExpiry _ | .bundleWaitExpiry _ | .deferGapEnd _
  | .transmissionComplete _ | .collision _ | .carrierAppears _ | .jabberDetected _ | .lineOpenReported _
  | .faultRecoveryExpiry _ | .addressClash _ | .carrierEnds _ | .lineConditionOk _ => true

end Sys2Proof
end

