-- ==== Sys2Proof/Decode.lean ====
section
/-!
DEFINITION. The command that a word of the opcode table spells. spec/opcode_table.json gives none of its 53 rows any bits
("fields": [] in each, and no match or mask), so no word spells a command: the commands are events, and the bytes of the
messages and frames among them are read by Machine/Formats.lean (log 22).
-/

namespace Sys2Proof

/-- The command a word spells by the table's bits: none, since no row gives bits (log 22). -/
def decodeTableWord (_nbits _w : Nat) : Option Instr := none

end Sys2Proof
end

