-- ==== Sys2Proof/Machine/State.lean ====
section
/-!
DEFINITION. The state of the part, block by block (spec/00_scope.md Table 0-1), as plain data.

An entry, context or record that the spec calls free is one that is absent from its list. Collections the spec calls
unordered (neighbour entries, crane contexts, custody records, holdback entries) are held strictly rising by their key;
queues are held oldest first (log 9).
-/

namespace Sys2Proof.Machine

/-- Why the part stops with a fault: the spec describes no event that stops it, so there is no reason (safe). HALT is a
run state (R180) and the line FAULT a line state (R73); neither is a fault of the machine. -/
inductive Fault where
  deriving DecidableEq, Repr

/-- Why a command has no meaning. -/
inductive Refusal where
  /-- Raised by `exec` for a command that has no meaning yet, with its mnemonic; safe. Every command has its meaning, so
  nothing raises it. -/
  | notModelled (mnemonic : String)
  deriving DecidableEq, Repr

/-! ### STC, the start controller -/

/-- Run states (Table 10-1). -/
inductive RunState where
  | load | halt | listen | run
  deriving DecidableEq, Repr

/-- Halt reasons (R176, R177, R182). -/
inductive HaltReason where
  | none | configAbsent | badAddress
  deriving DecidableEq, Repr

/-- Reset causes (R182, R183). -/
inductive ResetCause where
  | cold | request | supervision
  deriving DecidableEq, Repr

/-- ROLE (Table 10-2). -/
inductive Role where
  | edge | gateway
  deriving DecidableEq, Repr

/-- BUNDLE_MODE (Table 10-2, R143). -/
inductive BundleMode where
  | single | split
  deriving DecidableEq, Repr

/-- The loaded configuration, every field in the range of Table 10-2; times in milliseconds. -/
structure Settings where
  address : Byte
  role : Role
  homeFirst : Nat
  homeCount : Nat
  beaconBase : Nat
  qualShift : Nat
  hyst : Nat
  claimFloor : Nat
  shadowCap : Nat
  hbBase : Nat
  bundleMode : BundleMode
  bundleLimit : Nat
  bundleWait : Nat
  handoverGuard : Nat
  craneStale : Nat
  radioWatch : Nat
  deriving DecidableEq, Repr

/-- What a figure of the configuration reads as while none is loaded. No rule reads one then (log 17). -/
def Settings.empty : Settings where
  address := 0
  role := .edge
  homeFirst := 0
  homeCount := 0
  beaconBase := 0
  qualShift := 0
  hyst := 0
  claimFloor := 0
  shadowCap := 0
  hbBase := 0
  bundleMode := .single
  bundleLimit := 0
  bundleWait := 0
  handoverGuard := 0
  craneStale := 0
  radioWatch := 0

/-- State of STC (R176 to R184). -/
structure Stc where
  runState : RunState
  haltReason : HaltReason
  cause : ResetCause
  warmCount : Nat
  /-- The loaded configuration; none from a reset to the end of LOAD, and in HALT (R178, R180, R182). -/
  loaded : Option Settings
  /-- When the configuration memory was selected for the read under way (R176). -/
  readSince : Option Micros
  deriving DecidableEq, Repr

/-! ### CVE, the coverage engine -/

/-- Claim states (Table 3-1). -/
inductive Claim where
  | unclaimed | claimed | held
  deriving DecidableEq, Repr

/-- A segment record (Table 1-2). -/
structure Segment where
  acc : Nat
  quality : Nat
  heard : Bool
  primed : Bool
  shadow : Bool
  claim : Claim
  score : Nat
  deriving DecidableEq, Repr

/-- The reset value of a segment record (Table 1-2). -/
def Segment.reset : Segment :=
  { acc := 0, quality := 0, heard := false, primed := false, shadow := false, claim := .unclaimed, score := 0 }

/-- State of CVE (R3, R36, R37, R50, R53); the beacon slot is `Lnc.class2` (R49). -/
structure Cve where
  /-- One record for each home segment, by map position (R1, R3). -/
  segments : List Segment
  /-- The end of the running beacon gap (R36). -/
  beaconDue : Option Micros
  /-- The running beacon gap in ms (R17). -/
  beaconGap : Nat
  listenCount : Nat
  /-- The BEACON built while the slot's BEACON is transmitted (R50). -/
  successor : Option Frame
  notifiedClaimed : Word16
  notifiedHeld : Word16
  deriving DecidableEq, Repr

/-! ### NBT, the neighbour table -/

/-- Kinds of an advertised item (Table 11-3). -/
inductive ItemKind where
  | none | claim | held
  deriving DecidableEq, Repr

/-- An item of an advertisement list (R21, R22). -/
structure AdvItem where
  segment : Byte
  kind : ItemKind
  score : Nat
  deriving DecidableEq, Repr

/-- A neighbour entry in use (Table 2-1); its silence is the time since `heardAt` (R28). -/
structure Neighbour where
  address : Byte
  listen : Bool
  radioLost : Bool
  interval : Nat
  advertisedC : Nat
  items : List AdvItem
  stale : Bool
  heardAt : Micros
  deriving DecidableEq, Repr

/-- State of NBT (R19): the entries in use, by rising address. -/
structure Nbt where
  entries : List Neighbour
  deriving DecidableEq, Repr

/-! ### CRU, the crane relay unit -/

/-- A downlink queue entry (R90); `deadline` is a moment. -/
structure Downlink where
  seq : Byte
  payload : List Byte
  deadline : Micros
  deriving DecidableEq, Repr

/-- Offer phases (Table 6-1); the guard runs in AWAITING REPLY alone. -/
inductive OfferPhase where
  | sendingOffer
  | awaitingReply (guardDue : Micros)
  | committing
  deriving DecidableEq, Repr

/-- States of a context that is not FREE, with the handover fields each holds (Table 5-1, R100, R111). -/
inductive ContextState where
  | anchored
  | offering (peer token : Byte) (phase : OfferPhase)
  | pending (peer token : Byte) (guardDue : Micros)
  deriving DecidableEq, Repr

/-- A crane context that is not FREE (Table 5-1). -/
structure Context where
  crane : Byte
  position : Byte
  state : ContextState
  lastUplink : Micros
  measuring : Bool
  /-- Measured heartbeat period in ms, or absent. -/
  period : Option Nat
  stale : Bool
  late : Nat
  queue : List Downlink
  retryAt : Micros
  deriving DecidableEq, Repr

/-- State of CRU (R76): the contexts that are not FREE, by rising crane identifier. -/
structure Cru where
  tokenCounter : Byte
  contexts : List Context
  deriving DecidableEq, Repr

/-! ### RFI, the reefer intake -/

/-- A custody record (R124). -/
structure Custody where
  tag : Tag
  segment : Byte
  seq : Byte
  alarm : BitVec 4
  deriving DecidableEq, Repr

/-- A holdback entry (R131). -/
structure Held where
  report : Report
  expiry : Micros
  deriving DecidableEq, Repr

/-- State of RFI: custody records and holdback entries, each by rising tag. -/
structure Rfi where
  custody : List Custody
  holdback : List Held
  deriving DecidableEq, Repr

/-! ### BAS, the bundle assembler -/

/-- Buffer states (Table 8-1). -/
inductive BufferState where
  | empty | filling | closed | sending
  deriving DecidableEq, Repr

/-- A bundle buffer (R144). -/
structure Buffer where
  state : BufferState
  room : Nat
  reports : List Report
  deriving DecidableEq, Repr

/-- An EMPTY buffer; its room count is "not in use" (Table 8-1, log 20). -/
def Buffer.reset : Buffer := { state := .empty, room := 0, reports := [] }

/-- State of BAS (R141). -/
structure Bas where
  alertIntake : List Report
  routineIntake : List Report
  buffers : List Buffer
  waitDue : Option Micros
  deriving DecidableEq, Repr

/-! ### GDS, the gateway delivery store -/

/-- A record of the delivery store (R155); `inHand` marks the record in hand (R159). -/
structure Stored where
  report : Report
  station : Byte
  inHand : Bool
  deriving DecidableEq, Repr

/-- Drain states (R155). -/
inductive Drain where
  | idle
  | draining (allowed sent : Nat)
  deriving DecidableEq, Repr

/-- State of GDS (R155). -/
structure Gds where
  seen : List (Tag × Byte)
  store : List Stored
  drain : Drain
  deriving DecidableEq, Repr

/-! ### LNC, the line controller -/

/-- The four transmit classes (Table 4-2). -/
inductive TxClass where
  | crane | handover | beacon | bundle
  deriving DecidableEq, Repr

/-- A frame in a transmit class (R56). -/
structure TxFrame where
  frame : Frame
  attempts : Nat
  /-- When it was given to LNC. -/
  givenAt : Micros
  /-- The age limit of a CRANE UP (R87) or the deadline of a CRANE DOWN (R94), in ms; 0 for other frames, which have none. -/
  life : Nat
  /-- Its owner's withdrawal was refused while it was being transmitted (R58, R87, R94). -/
  withdrawRefused : Bool
  /-- The buffer whose bundle it is (R150); 0 for other frames. -/
  buffer : Nat
  deriving DecidableEq, Repr

/-- Line states (Table 4-1). The candidate is the head of the named class (R59, R62); `onLine` is the frame as it goes
out (R64). -/
inductive LineState where
  | idle
  | defer (cls : TxClass) (gapEnd : Micros)
  | sending (cls : TxClass) (onLine : Frame)
  | fault
  deriving DecidableEq, Repr

/-- Line fault kinds (R73, R74): NONE, JABBER, and OPEN, called `cut` here since `open` is a word of Lean. -/
inductive FaultKind where
  | none | jabber | cut
  deriving DecidableEq, Repr

/-- State of LNC (R55, R56, R63, R67, R71, R74). -/
structure Lnc where
  line : LineState
  faultKind : FaultKind
  class0 : List TxFrame
  class1 : List TxFrame
  class2 : List TxFrame
  class3 : List TxFrame
  /-- A frame is under reception (R67). -/
  receiving : Bool
  /-- The start of the running carrier timer (R71). -/
  carrierSince : Option Micros
  /-- The start of the running recovery timer (R74). -/
  recoverySince : Option Micros
  generator : Word16
  deriving DecidableEq, Repr

/-! ### RLC, the radio link controller -/

/-- The inbound parser (R161): the bytes so far and the moment of the last one. -/
inductive Parser where
  | waiting
  | assembling (got : List Byte) (last : Micros)
  deriving DecidableEq, Repr

/-- Reasons of a CRANE REJECT (Table 11-6). -/
inductive RejectReason where
  | full | yielded | notRunning
  deriving DecidableEq, Repr

/-- A message of the control queue; a STATE REPORT is built only when it is taken (R171, R172). -/
inductive ControlMsg where
  | coverageNotice (claimed held : Word16)
  | craneRedirect (crane target : Byte)
  | craneReject (crane : Byte) (reason : RejectReason)
  | stateReport
  deriving DecidableEq, Repr

/-- Status of a DRAIN END (Table 11-6). -/
inductive DrainStatus where
  | done | busy
  deriving DecidableEq, Repr

/-- A message of the drain queue (R158, R159). -/
inductive DrainMsg where
  | record (report : Report) (station : Byte)
  | ended (count remaining : Nat) (status : DrainStatus)
  deriving DecidableEq, Repr

/-- A TERMINAL UPLINK and the moment it joined its queue (R166). -/
structure TermUplink where
  crane : Byte
  seq : Byte
  anchor : Byte
  period : Word16
  late : Byte
  payload : List Byte
  joinedAt : Micros
  deriving DecidableEq, Repr

/-- The sticky flags (R173). -/
structure StickyFlags where
  addressClash : Bool
  neighbourFull : Bool
  custodyFull : Bool
  linkError : Bool
  deriving DecidableEq, Repr

/-- All flags clear. -/
def StickyFlags.clear : StickyFlags :=
  { addressClash := false, neighbourFull := false, custodyFull := false, linkError := false }

/-- The occasion set (Table 9-4). -/
structure Occasions where
  listen : Bool
  run : Bool
  halt : Bool
  faultStart : Bool
  faultEnd : Bool
  radioLost : Bool
  radioBack : Bool
  flagSet : Bool
  query : Bool
  deriving DecidableEq, Repr

/-- The empty occasion set. -/
def Occasions.empty : Occasions :=
  { listen := false, run := false, halt := false, faultStart := false, faultEnd := false, radioLost := false,
    radioBack := false, flagSet := false, query := false }

/-- The contents of a STATE REPORT (R172). -/
structure StateReport where
  runState : RunState
  haltReason : HaltReason
  radioLost : Bool
  lineFault : Bool
  faultKind : FaultKind
  flags : StickyFlags
  cause : ResetCause
  warmCount : Nat
  active : Nat
  custody : Nat
  fresh : Nat
  claimed : Nat
  occasions : Occasions
  deriving DecidableEq, Repr

/-- A message to the radio unit as it goes out (Table 11-6). -/
inductive Outbound where
  | coverageNotice (claimed held : Word16)
  | craneDeliver (crane seq : Byte) (payload : List Byte)
  | craneRedirect (crane target : Byte)
  | craneReject (crane : Byte) (reason : RejectReason)
  | terminalUplink (crane seq anchor : Byte) (period : Word16) (late : Byte) (payload : List Byte)
  | drainRecord (report : Report) (station : Byte)
  | drainEnd (count remaining : Nat) (status : DrainStatus)
  | stateReport (report : StateReport)
  deriving DecidableEq, Repr

/-- State of RLC (R161, R165 to R175). -/
structure Rlc where
  parser : Parser
  control : List ControlMsg
  terminal : List TermUplink
  drainQueue : List DrainMsg
  /-- The outbound message in progress on the link (R167, R168). -/
  inProgress : Option Outbound
  /-- The flow state: true for STOPPED, false for FLOWING (R167). -/
  stopped : Bool
  flags : StickyFlags
  occasions : Occasions
  radioLost : Bool
  /-- The end of the running supervision time (R169). -/
  supervisionDue : Option Micros
  deriving DecidableEq, Repr

/-! ### Pins and the whole -/

/-- The inputs whose level the part follows: the reset input (R182), and the transceiver's carrier and line condition
(R59, R72). A reset does not change a level (log 7). -/
structure Pins where
  resetHeld : Bool
  carrier : Bool
  lineOpen : Bool
  deriving DecidableEq, Repr

/-- The whole state. `now`, `choices` and `pending` are the model's own: the moment of the latest command (log 1), how
many free values have been used (log 5), and the commands that wait, oldest first. -/
structure State where
  now : Micros
  choices : Nat
  pins : Pins
  stc : Stc
  cve : Cve
  nbt : Nbt
  cru : Cru
  rfi : Rfi
  bas : Bas
  gds : Gds
  lnc : Lnc
  rlc : Rlc
  pending : List Instr
  deriving DecidableEq, Repr

/-! ### Reset values (each block's own, R3, R19, R34, R36, R37, R53, R55, R63, R75, R76, R124, R131, R141, R155, R175) -/

/-- CVE after a reset; there is a record for each home segment once LOAD ends (R3, log 17). -/
def Cve.reset : Cve :=
  { segments := [], beaconDue := none, beaconGap := 0, listenCount := 0, successor := none, notifiedClaimed := 0,
    notifiedHeld := 0 }

/-- NBT after a reset (R19). -/
def Nbt.reset : Nbt := { entries := [] }

/-- CRU after a reset (R76). -/
def Cru.reset : Cru := { tokenCounter := 0, contexts := [] }

/-- RFI after a reset (R124, R131). -/
def Rfi.reset : Rfi := { custody := [], holdback := [] }

/-- BAS after a reset; the buffers are arranged once LOAD ends (R141, R143, log 17). -/
def Bas.reset : Bas := { alertIntake := [], routineIntake := [], buffers := [], waitDue := none }

/-- GDS after a reset (R155). -/
def Gds.reset : Gds := { seen := [], store := [], drain := .idle }

/-- LNC after a reset (R55, R75); the generator's state is discarded (R63, log 8). -/
def Lnc.reset : Lnc :=
  { line := .idle, faultKind := .none, class0 := [], class1 := [], class2 := [], class3 := [], receiving := false,
    carrierSince := none, recoverySince := none, generator := 0 }

/-- RLC after a reset (R175). -/
def Rlc.reset : Rlc :=
  { parser := .waiting, control := [], terminal := [], drainQueue := [], inProgress := none, stopped := false,
    flags := .clear, occasions := .empty, radioLost := false, supervisionDue := none }

/-- STC after power has come up (R182): LOAD, with the configuration memory selected (R176). -/
def Stc.reset : Stc :=
  { runState := .load, haltReason := .none, cause := .cold, warmCount := 0, loaded := none, readSince := some 0 }

/-- The part right after power-up (R182, log 19): every block in its reset state, LOAD begun, the queue of commands empty. -/
def State.reset : State :=
  { now := 0, choices := 0, pins := { resetHeld := false, carrier := false, lineOpen := false }, stc := .reset,
    cve := .reset, nbt := .reset, cru := .reset, rfi := .reset, bas := .reset, gds := .reset, lnc := .reset,
    rlc := .reset, pending := [] }

/-! ### Replacing one block -/

/-- `s` with another `now`. -/
def State.setNow (s : State) (x : Micros) : State := { s with now := x }
/-- `s` with another `choices`. -/
def State.setChoices (s : State) (x : Nat) : State := { s with choices := x }
/-- `s` with other pin levels. -/
def State.setPins (s : State) (x : Pins) : State := { s with pins := x }
/-- `s` with another STC. -/
def State.setStc (s : State) (x : Stc) : State := { s with stc := x }
/-- `s` with another CVE. -/
def State.setCve (s : State) (x : Cve) : State := { s with cve := x }
/-- `s` with another NBT. -/
def State.setNbt (s : State) (x : Nbt) : State := { s with nbt := x }
/-- `s` with another CRU. -/
def State.setCru (s : State) (x : Cru) : State := { s with cru := x }
/-- `s` with another RFI. -/
def State.setRfi (s : State) (x : Rfi) : State := { s with rfi := x }
/-- `s` with another BAS. -/
def State.setBas (s : State) (x : Bas) : State := { s with bas := x }
/-- `s` with another GDS. -/
def State.setGds (s : State) (x : Gds) : State := { s with gds := x }
/-- `s` with another LNC. -/
def State.setLnc (s : State) (x : Lnc) : State := { s with lnc := x }
/-- `s` with another RLC. -/
def State.setRlc (s : State) (x : Rlc) : State := { s with rlc := x }
/-- `s` with another queue of commands. -/
def State.setPending (s : State) (x : List Instr) : State := { s with pending := x }

end Sys2Proof.Machine
end

