-- ==== Sys2Proof/Machine/Operands.lean ====
section
/-!
DEFINITION. What a received field is brought to before it is used: the rules that name a range for it (R22, R85, R90,
R120, R156, R158, R164) and the modulo-256 comparison of sequence numbers (R121).
-/

namespace Sys2Proof.Machine

/-- "Clamped to a..b" (spec/00_scope.md 0.6.3). -/
def clampNat (lo hi x : Nat) : Nat := max lo (min hi x)

/-- A temperature clamped to −400..+500 tenths of a degree (R120, R156). -/
def clampTemp (t : Word16) : Word16 := BitVec.ofInt 16 (max (-400) (min 500 t.toInt))

/-- A report with both temperatures clamped. -/
def clampReport (r : Report) : Report := { r with setPoint := clampTemp r.setPoint, supply := clampTemp r.supply }

/-- A downlink deadline in ms: 0 is taken as 1, above 1000 as 1000 (R90, R164). -/
def clampDeadline (d : Word16) : Nat := clampNat 1 1000 d.toNat

/-- A DRAIN limit: 0 is taken as 1, above 64 as 64 (R158). -/
def clampLimit (l : Byte) : Nat := clampNat 1 64 l.toNat

/-- An advertised interval in ms, from units of 10 ms, clamped to 50..8000 (R22). -/
def storedInterval (w : Word16) : Nat := clampNat 50 8000 (10 * w.toNat)

/-- An advertised C; above 4 is stored as 4 (R22). -/
def storedC (c : Byte) : Nat := min 4 c.toNat

/-- An item score; above 511 is stored as 511 (R22). -/
def storedScore (w : Word16) : Nat := min 511 w.toNat

/-- The kind of an item; a code that is none of NONE, CLAIM and HELD is stored as NONE (R22, Table 11-3). -/
def storedKind (b : Byte) : ItemKind := if b = 1 then .claim else if b = 2 then .held else .none

/-- An item as it is stored (R22). -/
def storedItem (i : BeaconItem) : AdvItem :=
  { segment := i.segment, kind := storedKind i.kind, score := storedScore i.score }

/-- A measured period: whole milliseconds, 0 gives 1, above 4095 gives 4095 (R85). -/
def measuredPeriod (elapsed : Micros) : Nat := clampNat 1 4095 (elapsed / 1000)

/-- An offered period; 0 is stored as absent (R111). -/
def offeredPeriod (p : Word16) : Option Nat := if p = 0 then none else some p.toNat

/-- A period as a frame or message carries it: 0 when absent (R85, R95, R100). -/
def periodField (p : Option Nat) : Word16 := BitVec.ofNat 16 (p.getD 0)

/-- A late count as a frame or message carries it. -/
def lateField (n : Nat) : Byte := BitVec.ofNat 8 n

/-- `seq` is newer than `s`: (seq − s) mod 256 lies in 1..127 (R121). -/
def newerSeq (seq s : Byte) : Bool := decide (1 ≤ (seq - s).toNat ∧ (seq - s).toNat ≤ 127)

end Sys2Proof.Machine
end

