-- ==== Sys2Proof/Machine/Tables.lean ====
section
/-!
DEFINITION. Unordered collections held in one canonical form: strictly rising by a numeric key (log 9), so that no key
stands twice and equal collections are equal lists.
-/

namespace Sys2Proof.Machine

/-- The table with `x` in the place its key gives, replacing what had that key. -/
def tablePut {α : Type} (key : α → Nat) (x : α) : List α → List α
  | [] => [x]
  | y :: ys =>
    if key x < key y then x :: y :: ys
    else if key x = key y then x :: ys
    else y :: tablePut key x ys

/-- The entry with a key. -/
def tableFind {α : Type} (key : α → Nat) (k : Nat) (l : List α) : Option α := l.find? fun x => decide (key x = k)

/-- The table without the entry of a key. -/
def tableErase {α : Type} (key : α → Nat) (k : Nat) (l : List α) : List α := l.filter fun x => decide (key x ≠ k)

/-- The canonical form: keys strictly rising. -/
abbrev TableSorted {α : Type} (key : α → Nat) (l : List α) : Prop := l.Pairwise fun x y => key x < key y

/-- A queue of a capacity that drops its oldest item to take a new one (R91, R142, R156, R166). -/
def pushDropOldest {α : Type} (capacity : Nat) (x : α) (q : List α) : List α :=
  if q.length < capacity then q ++ [x] else q.drop 1 ++ [x]

end Sys2Proof.Machine
end

