-- ==== Sys2Proof/Machine/Ops.lean ====
section
/-!
DEFINITION. Named operations that several blocks share: the passing of time, the run state as the blocks consult it, the
home and watch ranges (R1, R2), and RLC's outbound queues (R165, R166).
-/

namespace Sys2Proof.Machine

/-! ### Time and run state -/

/-- `dt` microseconds pass before the command is taken (log 1). -/
def State.advance (dt : Micros) (s : State) : State := s.setNow (s.now + dt)

/-- The loaded configuration as the blocks read it (R178). -/
def State.cfg (s : State) : Settings := s.stc.loaded.getD .empty

/-- The run state is LISTEN or RUN. -/
def State.running (s : State) : Bool := s.stc.runState = .listen || s.stc.runState = .run

/-- A timer that runs and whose time has come (log 2). -/
def dueBy (now : Micros) (due : Option Micros) : Bool :=
  match due with
  | some t => decide (t ≤ now)
  | none => false

/-! ### Home and watch range -/

/-- The map position of a home segment; none for any other segment (R1). -/
def homePosition (c : Settings) (g : Byte) : Option Nat :=
  if c.homeFirst ≤ g.toNat ∧ g.toNat < c.homeFirst + c.homeCount then some (g.toNat - c.homeFirst) else none

/-- The segment at a map position (R1). -/
def segmentAt (c : Settings) (i : Nat) : Byte := BitVec.ofNat 8 (c.homeFirst + i)

/-- A segment of the watch range (R2); a station with no home range has none. -/
def inWatchRange (c : Settings) (g : Byte) : Bool :=
  decide (c.homeCount ≠ 0 ∧ c.homeFirst - 4 ≤ g.toNat ∧ g.toNat ≤ min 127 (c.homeFirst + c.homeCount + 3))

/-- The claim field of a segment; none where it is not a home segment (R34). -/
def State.claimOf (s : State) (g : Byte) : Option Claim :=
  (homePosition s.cfg g).bind fun i => (s.cve.segments[i]?).map (·.claim)

/-- The segment is a home segment in state CLAIMED. -/
def State.claimedHere (s : State) (g : Byte) : Bool := s.claimOf g = some .claimed

/-! ### Crane contexts as other blocks ask about them -/

/-- An active context: ANCHORED or OFFERING (R78). -/
def Context.active (c : Context) : Bool :=
  match c.state with
  | .pending .. => false
  | _ => true

/-- Key of the context table. -/
def Context.key (c : Context) : Nat := c.crane.toNat

/-- The context that holds a crane (R77). -/
def State.contextOf (s : State) (crane : Byte) : Option Context := tableFind Context.key crane.toNat s.cru.contexts

/-- C, the number of active contexts (R78). -/
def State.activeCount (s : State) : Nat := s.cru.contexts.countP Context.active

/-- Some active context has the segment as its position (R78). -/
def State.activeAt (s : State) (g : Byte) : Bool := s.cru.contexts.any fun c => c.active && c.position = g

/-- `s` with a context in the table (new, or in place of the one that held the crane). -/
def State.putContext (s : State) (c : Context) : State :=
  s.setCru { s.cru with contexts := tablePut Context.key c s.cru.contexts }

/-- `s` without the context of a crane: it is FREE; its downlink queue, guard and stale watch go with it (R82, R93). -/
def State.dropContext (s : State) (crane : Byte) : State :=
  s.setCru { s.cru with contexts := tableErase Context.key crane.toNat s.cru.contexts }

/-- One more late frame, saturating at 255 (R89). -/
def Context.addLate (c : Context) : Context := { c with late := min 255 (c.late + 1) }

/-- The late count of the context holding the crane rises by one; no context, no change (R87, R88, R89). -/
def State.countLate (s : State) (crane : Byte) : State :=
  match s.contextOf crane with
  | some c => s.putContext c.addLate
  | none => s

/-! ### RLC's queues -/

/-- The message is a STATE REPORT. -/
def ControlMsg.isReport (m : ControlMsg) : Bool := m = .stateReport

/-- The message is a DRAIN END. -/
def DrainMsg.isEnd (m : DrainMsg) : Bool :=
  match m with
  | .ended .. => true
  | .record .. => false

/-- A message joins the control queue; at 8 the oldest message other than the STATE REPORT is dropped (R165). -/
def State.queueControl (s : State) (m : ControlMsg) : State :=
  let q := s.rlc.control
  let kept := if q.length < Config.queueCapacity then q else q.eraseP fun x => !x.isReport
  s.setRlc { s.rlc with control := kept ++ [m] }

/-- A TERMINAL UPLINK joins its queue; at 4 the oldest is dropped (R166). -/
def State.queueTerminal (s : State) (m : TermUplink) : State :=
  s.setRlc { s.rlc with terminal := pushDropOldest Config.terminalCapacity m s.rlc.terminal }

/-- A message joins the drain queue; at 8 the oldest DRAIN END is dropped (R166). -/
def State.queueDrain (s : State) (m : DrainMsg) : State :=
  let q := s.rlc.drainQueue
  let kept := if q.length < Config.queueCapacity then q else q.eraseP DrainMsg.isEnd
  s.setRlc { s.rlc with drainQueue := kept ++ [m] }

end Sys2Proof.Machine
end

