-- ==== Sys2Proof/Machine/Flags.lean ====
section
/-!
DEFINITION. The part's status bits: the occasion set and when a STATE REPORT is queued (R171), the sticky flags (R173),
and the contents of a STATE REPORT (R172).
-/

namespace Sys2Proof.Machine

/-- Occasions of a STATE REPORT (Table 9-4). -/
inductive Occasion where
  | listen | run | halt | faultStart | faultEnd | radioLost | radioBack | flagSet | query
  deriving DecidableEq, Repr

/-- The set with an occasion in it. -/
def Occasions.add (o : Occasions) : Occasion → Occasions
  | .listen => { o with listen := true }
  | .run => { o with run := true }
  | .halt => { o with halt := true }
  | .faultStart => { o with faultStart := true }
  | .faultEnd => { o with faultEnd := true }
  | .radioLost => { o with radioLost := true }
  | .radioBack => { o with radioBack := true }
  | .flagSet => { o with flagSet := true }
  | .query => { o with query := true }

/-- An occasion is recorded; outside LOAD a STATE REPORT is queued unless one is waiting (R171). -/
def State.recordOccasion (o : Occasion) (s : State) : State :=
  let t := s.setRlc { s.rlc with occasions := s.rlc.occasions.add o }
  if s.stc.runState ≠ .load ∧ ControlMsg.stateReport ∉ s.rlc.control then t.queueControl .stateReport else t

/-- The four sticky flags (R173). -/
inductive Sticky where
  | addressClash | neighbourFull | custodyFull | linkError
  deriving DecidableEq, Repr

/-- Whether a flag is set. -/
def StickyFlags.get (f : StickyFlags) : Sticky → Bool
  | .addressClash => f.addressClash
  | .neighbourFull => f.neighbourFull
  | .custodyFull => f.custodyFull
  | .linkError => f.linkError

/-- The flags with one set. -/
def StickyFlags.set (f : StickyFlags) : Sticky → StickyFlags
  | .addressClash => { f with addressClash := true }
  | .neighbourFull => { f with neighbourFull := true }
  | .custodyFull => { f with custodyFull := true }
  | .linkError => { f with linkError := true }

/-- A sticky flag is set; going from clear to set records FLAG SET, and setting a set flag changes nothing (R173). -/
def State.setFlag (k : Sticky) (s : State) : State :=
  if s.rlc.flags.get k then s
  else (s.setRlc { s.rlc with flags := s.rlc.flags.set k }).recordOccasion .flagSet

/-- The FRESH count (R33). -/
def State.freshCount (s : State) : Nat := s.nbt.entries.countP fun e => !e.stale

/-- The number of home segments in state CLAIMED (R172). -/
def State.claimedCount (s : State) : Nat := s.cve.segments.countP fun r => r.claim = .claimed

/-- The contents of a STATE REPORT built now (R172). -/
def State.stateReport (s : State) : StateReport :=
  { runState := s.stc.runState, haltReason := s.stc.haltReason, radioLost := s.rlc.radioLost,
    lineFault := decide (s.lnc.line = .fault), faultKind := s.lnc.faultKind, flags := s.rlc.flags, cause := s.stc.cause,
    warmCount := s.stc.warmCount, active := s.activeCount, custody := s.rfi.custody.length, fresh := s.freshCount,
    claimed := s.claimedCount, occasions := s.rlc.occasions }

end Sys2Proof.Machine
end

