-- ==== Sys2Proof/Machine/Neighbours.lean ====
section
/-!
DEFINITION. NBT, the neighbour table (spec/02_neighbour_records.md R19 to R33): what an entry keeps of a BEACON, intake,
aging and the claimant query (the FRESH count of R33 is in Machine/Flags.lean).
-/

namespace Sys2Proof.Machine

/-- Key of the neighbour table. -/
def Neighbour.key (e : Neighbour) : Nat := e.address.toNat

/-- Key of an advertisement list. -/
def AdvItem.key (i : AdvItem) : Nat := i.segment.toNat

/-- An item joins an advertisement list in its place; a segment already there keeps its first item (R21). -/
def keepFirst (i : AdvItem) (l : List AdvItem) : List AdvItem :=
  if l.any fun x => x.segment = i.segment then l else tablePut AdvItem.key i l

/-- The advertisement list of a BEACON: its items within the watch range, ascending, the first of a segment kept (R21),
each brought into range (R22). -/
def keptItems (c : Settings) (items : List BeaconItem) : List AdvItem :=
  ((items.filter fun i => inWatchRange c i.segment).map storedItem).foldl (fun l i => keepFirst i l) []

/-- The entry a BEACON makes: FRESH, silence 0 (R22, R24, R25). Flags: bit 0 LISTEN, bit 1 RADIO_LOST (Table 11-3). -/
def beaconEntry (now : Micros) (sender flags : Byte) (interval : Word16) (c : Byte) (kept : List AdvItem) : Neighbour :=
  { address := sender, listen := flags.getLsbD 0, radioLost := flags.getLsbD 1, interval := storedInterval interval,
    advertisedC := storedC c, items := kept, stale := false, heardAt := now }

/-- The entry that gives way to a new sender: the STALE entry longest silent, the lowest address among equals (R26). DESIGN
CHOICE: silences are equal when they are so to the microsecond (log 23). The entries come by rising address. -/
def displaced (entries : List Neighbour) : Option Neighbour :=
  (entries.filter Neighbour.stale).foldl (init := none) fun best e =>
    match best with
    | none => some e
    | some b => if e.heardAt < b.heardAt then some e else some b

/-- Intake of a BEACON dispatched to NBT (Table 2-2, R20, R23 to R27). -/
def State.beaconIntake (s : State) (sender flags : Byte) (interval : Word16) (c : Byte) (items : List BeaconItem) : State :=
  if !s.running || s.cfg.homeCount = 0 || sender = s.cfg.address then s
  else
    let kept := keptItems s.cfg items
    let entries := s.nbt.entries
    let entry := beaconEntry s.now sender flags interval c kept
    if kept = [] then s.setNbt { entries := tableErase Neighbour.key sender.toNat entries }
    else if (tableFind Neighbour.key sender.toNat entries).isSome ∨ entries.length < Config.neighbourCapacity then
      s.setNbt { entries := tablePut Neighbour.key entry entries }
    else
      match displaced entries with
      | some e => s.setNbt { entries := tablePut Neighbour.key entry (tableErase Neighbour.key e.key entries) }
      | none => s.setFlag .neighbourFull

/-- The silence of an entry (R28). -/
def Neighbour.silence (e : Neighbour) (now : Micros) : Micros := now - e.heardAt

/-- A FRESH entry whose silence exceeds 3 × interval becomes STALE (R28, R29). -/
def State.stalePoint (s : State) (address : Byte) : State :=
  match tableFind Neighbour.key address.toNat s.nbt.entries with
  | some e =>
    if millis (3 * e.interval) < e.silence s.now then
      s.setNbt { entries := tablePut Neighbour.key { e with stale := true } s.nbt.entries }
    else s
  | none => s

/-- An entry whose silence exceeds 6 × interval is freed (R28, R30). -/
def State.removalPoint (s : State) (address : Byte) : State :=
  match tableFind Neighbour.key address.toNat s.nbt.entries with
  | some e =>
    if millis (6 * e.interval) < e.silence s.now then
      s.setNbt { entries := tableErase Neighbour.key address.toNat s.nbt.entries }
    else s
  | none => s

/-- A claimant of a segment (R32): address, score of its item, advertised C. -/
structure Claimant where
  address : Byte
  score : Nat
  advertisedC : Nat
  deriving DecidableEq, Repr

/-- What an entry answers to the claimant query for a segment (R32). -/
def claimantOf (g : Byte) (e : Neighbour) : Option Claimant :=
  if e.stale || e.listen || e.radioLost then none
  else
    (e.items.find? fun i => i.segment = g && i.kind = .claim).map fun i =>
      { address := e.address, score := i.score, advertisedC := e.advertisedC }

/-- The claimant query for a segment (R32), by rising address. -/
def State.claimants (s : State) (g : Byte) : List Claimant := s.nbt.entries.filterMap (claimantOf g)

end Sys2Proof.Machine
end

