-- ==== Sys2Proof/Machine/Segments.lean ====
section
/-!
DEFINITION. CVE's segment records (spec/01_segment_quality_and_scores.md R4 to R15): samples, smoothing, quality, decay,
shadow, load penalty and score, and the claim decision of one segment (spec/03_coverage_claims_and_beacons.md R40 to R42).
-/

namespace Sys2Proof.Machine

/-- The quality of an accumulator (R8). -/
def qualityOf (a : Nat) : Nat := (a + 8) / 16

/-- The accumulator after a sample `m` with QUAL_SHIFT `k` (R7): a step toward 16 × m, its magnitude rounded to the
nearest, a half away from zero. -/
def steppedAcc (k a m : Nat) : Nat :=
  let d : Int := 16 * (m : Int) - (a : Int)
  let step := (d.natAbs + 2 ^ (k - 1)) / 2 ^ k
  if d < 0 then a - step else a + step

/-- A record after a sample (R6, R7, R8). -/
def Segment.sample (k m : Nat) (r : Segment) : Segment :=
  let a := if r.primed then steppedAcc k r.acc m else 16 * m
  { r with acc := a, quality := qualityOf a, heard := true, primed := true }

/-- A record after idle decay and the clearing of heard (R9). -/
def Segment.decay (r : Segment) : Segment :=
  if !r.heard && decide (0 < r.acc) then
    let a := r.acc - max 1 (r.acc / 8)
    { r with acc := a, quality := qualityOf a, heard := false }
  else { r with heard := false }

/-- CVE applies a sample to a segment in LISTEN or RUN; a segment that is no home segment is ignored (R4). -/
def State.applySample (s : State) (g margin : Byte) : State :=
  if s.running then
    match homePosition s.cfg g with
    | some i =>
      s.setCve { s.cve with segments := s.cve.segments.modify i (Segment.sample s.cfg.qualShift margin.toNat) }
    | none => s
  else s

/-- RADIO STATUS: every home segment takes the entry at its map position, bit `i` for position `i` (R10, R185). -/
def State.setShadows (s : State) (shadowMap : Word16) : State :=
  if s.running then
    s.setCve { s.cve with segments := s.cve.segments.mapIdx fun i r => { r with shadow := shadowMap.getLsbD i } }
  else s

/-- R, the number of custody records (R11, R124). -/
def State.custodyCount (s : State) : Nat := s.rfi.custody.length

/-- The load penalty P (R11). -/
def State.penalty (s : State) : Nat := 32 * s.activeCount + s.custodyCount / 4

/-- The load class (R16). -/
def loadClass (p : Nat) : Nat := min 3 (p / 64)

/-- The score of a record after decay (R12 to R15). -/
def scoreOf (c : Settings) (p : Nat) (radioLost : Bool) (r : Segment) : Nat :=
  let h := if r.claim = .claimed then c.hyst else 0
  let t : Int := 2 * (r.quality : Int) - (p : Int) + (h : Int)
  let clamped := min 511 t.toNat
  let capped := if r.shadow then min clamped c.shadowCap else clamped
  if radioLost then 0 else capped

/-- A claimant outranks the station's score (R40). -/
def outranks (own : Byte) (score : Nat) (n : Claimant) : Bool :=
  decide (score < n.score) || (n.score = score && decide (n.address.toNat < own.toNat))

/-- The station would claim a segment (R41). -/
def State.wouldClaim (s : State) (g : Byte) (score : Nat) : Bool :=
  s.stc.runState = .run && !s.rlc.radioLost && decide (s.cfg.claimFloor ≤ score) &&
    !(s.claimants g).any (outranks s.cfg.address score)

/-- The claim a segment comes to (R42). -/
def State.decideClaim (s : State) (g : Byte) (score : Nat) : Claim :=
  if s.wouldClaim g score then .claimed
  else if s.stc.runState = .run && !s.rlc.radioLost && s.activeAt g then .held
  else .unclaimed

/-- Decay, score and decision of the record at a map position (R38, stages 1 and 3), with the penalty of stage 2. -/
def State.decided (s : State) (p : Nat) (i : Nat) (r : Segment) : Segment :=
  let d := r.decay
  let score := scoreOf s.cfg p s.rlc.radioLost d
  { d with score := score, claim := s.decideClaim (segmentAt s.cfg i) score }

/-- The home segments that are CLAIMED in `before` and not in `after`, ascending: those for which *claim lost* is raised
(R44). -/
def lostSegments (c : Settings) (before after : List Segment) : List Byte :=
  ((before.zip after).zipIdx.filter fun x => x.1.1.claim = .claimed && x.1.2.claim ≠ .claimed).map fun x =>
    segmentAt c x.2

/-- *claim lost* at RFI: every custody record of the segment is released (R129). -/
def State.releaseCustody (s : State) (g : Byte) : State :=
  s.setRfi { s.rfi with custody := s.rfi.custody.filter fun r => r.segment ≠ g }

/-- The decisions of an evaluation over all home segments, with the *claim lost* events they raise in ascending order
(R38 stages 1 to 3, R44). A decision on one segment touches no other, and P was read before the first. -/
def State.decideAll (s : State) : State :=
  let after := s.cve.segments.mapIdx (s.decided s.penalty)
  (lostSegments s.cfg s.cve.segments after).foldl State.releaseCustody (s.setCve { s.cve with segments := after })

/-- A map of the home segments in a claim state: bit `i` for map position `i` (R53, R185). -/
def claimMap (k : Claim) (segments : List Segment) : Word16 :=
  BitVec.ofNat 16 ((segments.zipIdx.map fun x => if x.1.claim = k then 2 ^ x.2 else 0).sum)

/-- A COVERAGE NOTICE is queued when a map differs from the one last notified (R54). -/
def State.noticeIfChanged (s : State) : State :=
  let claimed := claimMap .claimed s.cve.segments
  let held := claimMap .held s.cve.segments
  if claimed = s.cve.notifiedClaimed ∧ held = s.cve.notifiedHeld then s
  else
    (s.setCve { s.cve with notifiedClaimed := claimed, notifiedHeld := held }).queueControl
      (.coverageNotice claimed held)

/-- CVE takes a departure from a segment: a hold with no active context left there ends (R45). -/
def State.departure (s : State) (g : Byte) : State :=
  match homePosition s.cfg g with
  | some i =>
    if s.claimOf g = some .held ∧ s.activeAt g = false then
      State.noticeIfChanged
        (s.setCve { s.cve with segments := s.cve.segments.modify i fun r => { r with claim := .unclaimed } })
    else s
  | none => s

end Sys2Proof.Machine
end

