-- ==== Sys2Proof/Machine/Line.lean ====
section
/-!
DEFINITION. LNC, the line controller (spec/04_the_quay_line.md R55 to R75): the generator, the transmit classes, the
opening of a DEFER, giving and withdrawing frames, carrier, and the entry into FAULT. What an outcome does at the owner
of a frame is in Machine/Outcomes.lean.
-/

namespace Sys2Proof.Machine

/-! ### The generator (R63) -/

/-- The feedback bit: exclusive-or of bits 16, 14, 13 and 11, which are numbered from 1 (R63). -/
def feedback (g : Word16) : Bool := g.getLsbD 15 ^^ g.getLsbD 13 ^^ g.getLsbD 12 ^^ g.getLsbD 10

/-- One advance: every bit one place up, the feedback bit in as bit 1 (R63). -/
def advanceGen (g : Word16) : Word16 := (g <<< 1) ||| (if feedback g then 1 else 0)

/-- The `j` lowest bits of a register as a number (R63). -/
def lowBits (j : Nat) (g : Word16) : Nat := g.toNat % 2 ^ j

/-- The seed at the end of LOAD: the own address in the low bits (R63). -/
def seedOf (address : Byte) : Word16 := address.setWidth 16

/-! ### Classes, gaps and attempt limits (Tables 4-2, R60) -/

/-- The frames of a class, oldest first. -/
def Lnc.frames (l : Lnc) : TxClass → List TxFrame
  | .crane => l.class0
  | .handover => l.class1
  | .beacon => l.class2
  | .bundle => l.class3

/-- The classes with the frames of one replaced. -/
def Lnc.setFrames (l : Lnc) (c : TxClass) (q : List TxFrame) : Lnc :=
  match c with
  | .crane => { l with class0 := q }
  | .handover => { l with class1 := q }
  | .beacon => { l with class2 := q }
  | .bundle => { l with class3 := q }

/-- The attempt limit of a class (Table 4-2). -/
def TxClass.limit : TxClass → Nat
  | .crane => 4 | .handover => 4 | .beacon => 2 | .bundle => 8

/-- The class gap in µs (R60). -/
def TxClass.gap : TxClass → Micros
  | .crane => 40 | .handover => 80 | .beacon => 120 | .bundle => 120

/-- Whether the class has a base backoff (R60). -/
def TxClass.hasBase : TxClass → Bool
  | .crane => false | .handover => false | .beacon => true | .bundle => true

/-- A candidate's gap and the generator after its draws: class gap, then the base backoff, then the collision backoff
(R60, R63). -/
def gapOf (c : TxClass) (attempts : Nat) (g : Word16) : Micros × Word16 :=
  let g1 := if c.hasBase then advanceGen g else g
  let base := if c.hasBase then lowBits 4 g1 else 0
  let g2 := if attempts = 0 then g1 else advanceGen g1
  let backoff := if attempts = 0 then 0 else lowBits (min attempts 4) g2
  (c.gap + Config.slot * base + Config.slot * backoff, g2)

/-- The lowest-numbered class that holds a frame, with its head (R59). -/
def Lnc.candidate (l : Lnc) : Option (TxClass × TxFrame) :=
  match l.class0, l.class1, l.class2, l.class3 with
  | f :: _, _, _, _ => some (.crane, f)
  | [], f :: _, _, _ => some (.handover, f)
  | [], [], f :: _, _ => some (.beacon, f)
  | [], [], [], f :: _ => some (.bundle, f)
  | [], [], [], [] => none

/-- R59: in IDLE on an idle line with a frame waiting, LNC (active in LISTEN and RUN, R55) enters DEFER with the
candidate's gap. -/
def State.openDefer (s : State) : State :=
  if s.running && s.lnc.line = .idle && !s.pins.carrier then
    match s.lnc.candidate with
    | some (c, f) =>
      let gap := gapOf c f.attempts s.lnc.generator
      s.setLnc { s.lnc with line := .defer c (s.now + gap.1), generator := gap.2 }
    | none => s
  else s

/-- R62: the candidate has left its class, so the DEFER ends and a fresh one opens if a frame waits. -/
def State.reopenDefer (s : State) : State := (s.setLnc { s.lnc with line := .idle }).openDefer

/-- The line state is a DEFER for a candidate of the class. -/
def Lnc.deferring (l : Lnc) (c : TxClass) : Bool :=
  match l.line with
  | .defer c' _ => c' = c
  | _ => false

/-- A frame of the class is being transmitted. -/
def Lnc.transmitting (l : Lnc) (c : TxClass) : Bool :=
  match l.line with
  | .sending c' _ => c' = c
  | _ => false

/-- The transmit enable: on exactly while a frame is put on the line (R55, R64, R72). -/
def State.transmitEnable (s : State) : Bool :=
  match s.lnc.line with
  | .sending .. => true
  | _ => false

/-! ### Giving frames (R57) -/

/-- A frame as it joins a class. -/
def newTx (now : Micros) (frame : Frame) (life buffer : Nat) : TxFrame :=
  { frame := frame, attempts := 0, givenAt := now, life := life, withdrawRefused := false, buffer := buffer }

/-- A frame joins the tail of a class that has room (R57), and a DEFER may open (R59). -/
def State.joinClass (s : State) (c : TxClass) (f : TxFrame) : State :=
  (s.setLnc (s.lnc.setFrames c (s.lnc.frames c ++ [f]))).openDefer

/-- The crane of a CRANE UP; none for any other frame. -/
def craneUpCrane (b : FrameBody) : Option Byte :=
  match b with
  | .craneUp crane .. => some crane
  | _ => none

/-- A crane frame has been lost: a CRANE UP raises the late count of the context holding its crane, a CRANE DOWN belongs
to no context (R87, R88, R94). -/
def State.craneFrameLost (s : State) (f : TxFrame) : State :=
  match craneUpCrane f.frame.body with
  | some crane => s.countLate crane
  | none => s

/-- A frame is given to class 0; at 8 frames the oldest not being transmitted is removed as DISCARDED (R57, R88), and
R62 applies if it was the candidate of a DEFER. -/
def State.giveCrane (s : State) (frame : Frame) (life : Nat) : State :=
  let f := newTx s.now frame life 0
  let q := s.lnc.class0
  if q.length < Config.classCapacity then s.joinClass .crane f
  else
    let victim := if s.lnc.transmitting .crane then 1 else 0
    let t := s.setLnc { s.lnc with class0 := (q ++ [f]).eraseIdx victim }
    let u := match q[victim]? with
      | some old => t.craneFrameLost old
      | none => t
    if s.lnc.deferring .crane then u.reopenDefer else u

/-- An answer of the handover protocol whose loss has no consequence here (REFUSE, CANCEL) is given to class 1; a full
class discards it at once (R57, R103, R109). -/
def State.giveAnswer (s : State) (frame : Frame) : State :=
  if s.lnc.class1.length < Config.classCapacity then s.joinClass .handover (newTx s.now frame 0 0) else s

/-- A bundle is given to class 3 (R57, R147). -/
def State.giveBundle (s : State) (frame : Frame) (buffer : Nat) : State :=
  s.joinClass .bundle (newTx s.now frame 0 buffer)

/-- CVE puts a BEACON into the slot: it waits as the successor while the slot's BEACON is transmitted, and otherwise
replaces what is there, with R62 if that was the candidate (R49, R50, R57). -/
def State.putBeacon (s : State) (frame : Frame) : State :=
  if s.lnc.transmitting .beacon then s.setCve { s.cve with successor := some frame }
  else
    let t := s.setLnc { s.lnc with class2 := [newTx s.now frame 0 0] }
    if s.lnc.deferring .beacon then t.reopenDefer else t.openDefer

/-! ### Withdrawal (R58, R87, R94) -/

/-- CRU withdraws the frame at a place of class 0. While it is being transmitted LNC refuses, and CRU keeps that in mind;
otherwise it is removed without an outcome, a CRANE UP counting as late (R87, R94), with R62 if it was the candidate. -/
def State.withdrawCrane (s : State) (place : Nat) : State :=
  match s.lnc.class0[place]? with
  | some f =>
    if s.lnc.transmitting .crane && place = 0 then
      s.setLnc { s.lnc with class0 := s.lnc.class0.set 0 { f with withdrawRefused := true } }
    else
      let t := (s.setLnc { s.lnc with class0 := s.lnc.class0.eraseIdx place }).craneFrameLost f
      if s.lnc.deferring .crane && place = 0 then t.reopenDefer else t
  | none => s

/-- The age limit of a CRANE UP, or the remaining time of a CRANE DOWN, has run out (R87, R94). -/
def TxFrame.expired (f : TxFrame) (now : Micros) : Bool := decide (f.givenAt + millis f.life ≤ now)

/-- The remaining time of a CRANE DOWN in ms: its deadline less the whole milliseconds it has waited (R94). -/
def TxFrame.remaining (f : TxFrame) (now : Micros) : Nat := f.life - (now - f.givenAt) / 1000

/-! ### End of an attempt, carrier and faults -/

/-- The own transmission has ended outside a fault: IDLE; the carrier timer starts if another station's carrier is still
present (R71), and R59 applies (R64, R65). -/
def State.endAttempt (s : State) : State :=
  (s.setLnc { s.lnc with
    line := .idle,
    carrierSince := if s.pins.carrier then some s.now else none }).openDefer

/-- The successor BEACON, if CVE holds one, enters the slot with attempt count 0 and the earlier BEACON leaves it without
a further attempt (R50); otherwise nothing changes. -/
def State.enterSuccessor (s : State) : State :=
  match s.cve.successor with
  | some b =>
    (s.setCve { s.cve with successor := none }).setLnc { s.lnc with class2 := [newTx s.now b 0 0] }
  | none => s

/-- An attempt at a class 0 frame has ended with the frame still at the head: a withdrawal that was refused is made again
and accepted (R87, R94, log 10). -/
def State.remakeWithdrawal (s : State) : State :=
  match s.lnc.class0 with
  | f :: rest => if f.withdrawRefused then (s.setLnc { s.lnc with class0 := rest }).craneFrameLost f else s
  | [] => s

/-- What an attempt that ends without an outcome leaves in the class it was for (R50, R65, R72, R87, R94). -/
def State.attemptCut (s : State) (c : TxClass) : State :=
  match c with
  | .crane => s.remakeWithdrawal
  | .beacon => s.enterSuccessor
  | .handover | .bundle => s

/-- Carrier appears (R61, R67, R71, R74). -/
def State.carrierAppears (s : State) : State :=
  if s.pins.carrier then s
  else
    let t := s.setPins { s.pins with carrier := true }
    if !s.running then t
    else
      match s.lnc.line with
      | .idle | .defer .. =>
        t.setLnc { s.lnc with line := .idle, receiving := true, carrierSince := some s.now }
      | .sending .. => t
      | .fault => t.setLnc { s.lnc with carrierSince := some s.now, recoverySince := none }

/-- Carrier ends, whatever frame it carried having been taken or not (R59, R71, R74). -/
def State.carrierEnds (s : State) : State :=
  if !s.pins.carrier then s
  else
    let t := s.setPins { s.pins with carrier := false }
    if !s.running then t
    else
      match s.lnc.line with
      | .sending .. => t
      | .fault =>
        t.setLnc { s.lnc with
          receiving := false, carrierSince := none,
          recoverySince := if s.pins.lineOpen then none else some s.now }
      | .idle | .defer .. => (t.setLnc { s.lnc with receiving := false, carrierSince := none }).openDefer

/-- LNC enters FAULT with a kind and tells RLC (R73); the recovery timer runs only on an idle line reported OK (R74). -/
def State.enterFault (s : State) (kind : FaultKind) : State :=
  State.recordOccasion .faultStart
    (s.setLnc { s.lnc with
      line := .fault, faultKind := kind, receiving := false,
      recoverySince := if s.pins.carrier || s.pins.lineOpen then none else some s.now })

/-- The carrier timer exceeds 20 ms in IDLE or DEFER: JABBER (R71). -/
def State.jabber (s : State) : State :=
  match s.lnc.line, s.lnc.carrierSince with
  | .idle, some t => if s.running && decide (t + Config.jabberLimit < s.now) then s.enterFault .jabber else s
  | .defer .., some t => if s.running && decide (t + Config.jabberLimit < s.now) then s.enterFault .jabber else s
  | _, _ => s

/-- The transceiver reports the line open (R72, R74). -/
def State.lineOpens (s : State) : State :=
  let t := s.setPins { s.pins with lineOpen := true }
  if !s.running then t
  else
    match s.lnc.line with
    | .fault => t.setLnc { s.lnc with recoverySince := none }
    | .sending c _ =>
      let cut := t.setLnc { s.lnc with
        line := .idle, carrierSince := if s.pins.carrier then some s.now else none }
      (cut.attemptCut c).enterFault .cut
    | .idle | .defer .. => t.enterFault .cut

/-- The line condition returns to OK; on an idle line the recovery timer begins to run (R74). -/
def State.lineOk (s : State) : State :=
  if !s.pins.lineOpen then s
  else
    let t := s.setPins { s.pins with lineOpen := false }
    if s.running && s.lnc.line = .fault && !s.pins.carrier then
      t.setLnc { s.lnc with recoverySince := some s.now }
    else t

/-- The recovery timer has run 50 ms: the fault ends (R74). -/
def State.faultEnds (s : State) : State :=
  if s.running && s.lnc.line = .fault && dueBy s.now (s.lnc.recoverySince.map (· + Config.recoveryTime)) then
    State.openDefer (State.recordOccasion .faultEnd
      (s.setLnc { s.lnc with line := .idle, recoverySince := none }))
  else s

end Sys2Proof.Machine
end

