-- ==== Sys2Proof/Machine/Handover.lean ====
section
/-!
DEFINITION. CRU's crane contexts and anchor handover (spec/05_crane_contexts_and_relay.md R76 to R96,
spec/06_anchor_handover.md R97 to R119): freeing, the outcomes of handover frames, the offer, the replies, and the target.
-/

namespace Sys2Proof.Machine

/-! ### Freeing and returning a context -/

/-- A context is freed; where it was active, CVE takes a departure from its position (R45, R82). -/
def State.freeContext (s : State) (c : Context) : State :=
  let t := s.dropContext c.crane
  if c.active then t.departure c.position else t

/-- Twice HANDOVER_GUARD from now: the backoff of R101, R104, R105 and R106. -/
def State.backoffEnd (s : State) : Micros := s.now + millis (2 * s.cfg.handoverGuard)

/-- The context returns to ANCHORED, peer, token and phase cleared, with the given retry-not-before. -/
def State.returnToAnchored (s : State) (c : Context) (retryAt : Micros) : State :=
  s.putContext { c with state := .anchored, retryAt := retryAt }

/-- A frame of this station. -/
def State.ownFrame (s : State) (dest : Byte) (body : FrameBody) : Frame :=
  { sender := s.cfg.address, dest := dest, body := body }

/-! ### Outcomes of class 1 frames (R101, R104, R111) -/

/-- The context in OFFERING with a token, and its peer and phase. -/
def State.offeringWith (s : State) (crane token : Byte) : Option (Context × Byte × OfferPhase) :=
  (s.contextOf crane).bind fun c =>
    match c.state with
    | .offering peer tok phase => if tok = token then some (c, peer, phase) else none
    | _ => none

/-- SENT of an OFFER: the guard starts and the phase becomes AWAITING REPLY (R101). -/
def State.offerSent (s : State) (crane token : Byte) : State :=
  match s.offeringWith crane token with
  | some (c, peer, .sendingOffer) =>
    s.putContext { c with
      state := .offering peer token (.awaitingReply (s.now + millis s.cfg.handoverGuard)) }
  | _ => s

/-- DISCARDED of an OFFER: back to ANCHORED with a backoff (R101). -/
def State.offerDiscarded (s : State) (crane token : Byte) : State :=
  match s.offeringWith crane token with
  | some (c, _, .sendingOffer) => s.returnToAnchored c s.backoffEnd
  | _ => s

/-- SENT of a COMMIT: CRANE REDIRECT, then the context is freed (R104). -/
def State.commitSent (s : State) (crane token : Byte) : State :=
  match s.offeringWith crane token with
  | some (c, peer, .committing) => (s.queueControl (.craneRedirect crane peer)).freeContext c
  | _ => s

/-- DISCARDED of a COMMIT addressed to `peer`: CANCEL in every case, and a context still COMMITTING returns to ANCHORED
with a backoff (R104). -/
def State.commitDiscarded (s : State) (peer crane token : Byte) : State :=
  let t := s.giveAnswer (s.ownFrame peer (.cancel crane token))
  match t.offeringWith crane token with
  | some (c, _, .committing) => t.returnToAnchored c t.backoffEnd
  | _ => t

/-- DISCARDED of a TAKE: the PENDING context with its crane and token is freed (R111). -/
def State.takeDiscarded (s : State) (crane token : Byte) : State :=
  match s.contextOf crane with
  | some c =>
    match c.state with
    | .pending _ tok _ => if tok = token then s.dropContext crane else s
    | _ => s
  | none => s

/-- What SENT of a class 1 frame does at CRU (R101, R104, R111). -/
def State.handoverSent (s : State) (f : Frame) : State :=
  match f.body with
  | .offer crane token .. => s.offerSent crane token
  | .commit crane token => s.commitSent crane token
  | _ => s

/-- What DISCARDED of a class 1 frame does at CRU (R101, R103, R104, R109, R111). -/
def State.handoverDiscarded (s : State) (f : Frame) : State :=
  match f.body with
  | .offer crane token .. => s.offerDiscarded crane token
  | .commit crane token => s.commitDiscarded f.dest crane token
  | .take crane token => s.takeDiscarded crane token
  | _ => s

/-- A handover frame is given to class 1; a full class answers DISCARDED at once (R57, R100, R103, R111). -/
def State.giveHandover (s : State) (f : Frame) : State :=
  if s.lnc.class1.length < Config.classCapacity then s.joinClass .handover (newTx s.now f 0 0)
  else s.handoverDiscarded f

/-! ### Attach, position, detach (R79 to R82) -/

/-- A context created by CRANE ATTACH (R80, Table 5-1). -/
def attachedContext (now : Micros) (crane segment : Byte) : Context :=
  { crane := crane, position := segment, state := .anchored, lastUplink := now, measuring := false, period := none,
    stale := false, late := 0, queue := [], retryAt := now }

/-- The position of a context is set; a change of an active context is a departure from the old position, taken after
the context holds the new one (R81). -/
def State.setPosition (s : State) (c : Context) (segment : Byte) : State :=
  if c.position = segment then s
  else
    let t := s.putContext { c with position := segment }
    if c.active then t.departure c.position else t

/-- CRANE ATTACH at CRU (R79, Table 5-2). -/
def State.attach (s : State) (crane segment : Byte) : State :=
  if s.stc.runState ≠ .run then s.queueControl (.craneReject crane .notRunning)
  else
    match s.contextOf crane with
    | some c =>
      if c.active then s.setPosition c segment
      else s.putContext { c with state := .anchored, position := segment }
    | none =>
      if s.cru.contexts.length < Config.craneCapacity then s.putContext (attachedContext s.now crane segment)
      else s.queueControl (.craneReject crane .full)

/-- CRANE POSITION at CRU (R81). -/
def State.position (s : State) (crane segment : Byte) : State :=
  match s.contextOf crane with
  | some c => s.setPosition c segment
  | none => s

/-- CRANE DETACH at CRU (R82): a PENDING context and an unknown crane ignore it. -/
def State.detach (s : State) (crane : Byte) : State :=
  match s.contextOf crane with
  | some c => if c.active then s.freeContext c else s
  | none => s

/-! ### Downlinks (R90 to R95) -/

/-- A downlink joins the queue of an active context holding the crane; at 4 entries the oldest is dropped and counts as
late (R90, R91). -/
def State.joinDownlink (s : State) (crane seq : Byte) (deadline : Nat) (payload : List Byte) : State :=
  match s.contextOf crane with
  | some c =>
    if c.active then
      let entry : Downlink := { seq := seq, payload := payload, deadline := s.now + millis deadline }
      let d := if c.queue.length < Config.downlinkCapacity then c else c.addLate
      s.putContext { d with queue := pushDropOldest Config.downlinkCapacity entry c.queue }
    else s
  | none => s

/-- The deadline of the entry at a place of a downlink queue has passed: dropped, and late (R92). -/
def State.downlinkDue (s : State) (crane : Byte) (place : Nat) : State :=
  match s.contextOf crane with
  | some c =>
    match c.queue[place]? with
    | some e => if e.deadline ≤ s.now then s.putContext { c.addLate with queue := c.queue.eraseIdx place } else s
    | none => s
  | none => s

/-- CRANE DOWNLINK at CRU of a gateway: a CRANE DOWN to all stations (R94), and the downlink to an active context of its
own (R95). RLC has brought the deadline into 1..1000 (R164). -/
def State.downlink (s : State) (crane seq : Byte) (deadline : Nat) (payload : List Byte) : State :=
  (s.giveCrane (s.ownFrame 63 (.craneDown crane seq (BitVec.ofNat 16 deadline) payload)) deadline).joinDownlink crane
    seq deadline payload

/-! ### Uplinks and the handover window (R84 to R86, R97 to R100) -/

/-- A context after steps 1 and 2 of R85. -/
def Context.relayed (c : Context) (now : Micros) : Context :=
  { c with
    period := if c.measuring then some (measuredPeriod (now - c.lastUplink)) else c.period,
    measuring := true, stale := false, lastUplink := now }

/-- Of two claimants the better target: higher score, then lower C, then lower address (R99). -/
def betterTarget (a b : Claimant) : Bool :=
  decide (b.score < a.score) ||
    (a.score = b.score &&
      (decide (a.advertisedC < b.advertisedC) ||
        (a.advertisedC = b.advertisedC && decide (a.address.toNat < b.address.toNat))))

/-- The target for a segment: the best eligible claimant, one whose advertised C is below 4 (R99). -/
def State.target (s : State) (g : Byte) : Option Claimant :=
  ((s.claimants g).filter fun n => decide (n.advertisedC < 4)).foldl (init := none) fun best n =>
    match best with
    | none => some n
    | some b => if betterTarget n b then some n else some b

/-- A context wants handover: ANCHORED, and its position is not a CLAIMED home segment (R97). -/
def State.wantsHandover (s : State) (c : Context) : Bool := c.state = .anchored && !s.claimedHere c.position

/-- The offer of R100 to a target, for a context after its relay steps. -/
def State.offerTo (s : State) (c : Context) (peer : Byte) : State :=
  let token := s.cru.tokenCounter + 1
  let t := (s.setCru { s.cru with tokenCounter := token }).putContext
    { c with state := .offering peer token .sendingOffer }
  t.giveHandover (s.ownFrame peer (.offer c.crane token c.position (periodField c.period) (lateField c.late)))

/-- The handover window of a context: an OFFER when all five conditions of R98 hold. -/
def State.handoverWindow (s : State) (crane : Byte) : State :=
  match s.contextOf crane with
  | some c =>
    if s.wantsHandover c && c.period.isSome && !c.stale && decide (c.retryAt ≤ s.now) then
      match s.target c.position with
      | some n => s.offerTo c n.address
      | none => s
    else s
  | none => s

/-- CRANE UPLINK at CRU: relayed for an active context and otherwise discarded (R84, R85), with TERMINAL UPLINK at a
gateway (R95), and then the handover window (R98). The age limit is the period carried, or CRANE_STALE (R85, R87). -/
def State.uplink (s : State) (crane seq : Byte) (payload : List Byte) : State :=
  match s.contextOf crane with
  | some old =>
    if old.active then
      let c := old.relayed s.now
      let t := s.putContext c
      let body := FrameBody.craneUp crane seq (periodField c.period) (lateField c.late) payload
      let u := t.giveCrane (s.ownFrame 63 body) (c.period.getD s.cfg.craneStale)
      let v :=
        if s.cfg.role = .gateway then
          u.queueTerminal { crane := crane, seq := seq, anchor := s.cfg.address, period := periodField c.period,
                            late := lateField c.late, payload := payload, joinedAt := s.now }
        else u
      v.handoverWindow crane
    else s
  | none => s

/-- The stale watch of a context: silence longer than CRANE_STALE makes it stale (R86, log 13). -/
def State.staleWatch (s : State) (crane : Byte) : State :=
  match s.contextOf crane with
  | some c =>
    if !c.stale && decide (c.lastUplink + millis s.cfg.craneStale < s.now) then
      s.putContext { c with stale := true, period := none, measuring := false }
    else s
  | none => s

/-- A received CRANE UP at a gateway (R96): TERMINAL UPLINK with the sender as anchor; an EDGE station ignores it. -/
def State.passUplink (s : State) (sender crane seq : Byte) (period : Word16) (late : Byte) (payload : List Byte) : State :=
  if s.cfg.role = .gateway then
    s.queueTerminal { crane := crane, seq := seq, anchor := sender, period := period, late := late, payload := payload,
                      joinedAt := s.now }
  else s

/-! ### The offerer's replies and guard (R102 to R106) -/

/-- A reply matches a context in OFFERING in phase SENDING OFFER or AWAITING REPLY (R102). -/
def State.matchingOffer (s : State) (sender crane token : Byte) : Option Context :=
  (s.offeringWith crane token).bind fun x =>
    if x.2.1 = sender ∧ x.2.2 ≠ .committing then some x.1 else none

/-- A TAKE that repeats the one a COMMITTING context has accepted (R103). -/
def State.repeatedTake (s : State) (sender crane token : Byte) : Bool :=
  match s.offeringWith crane token with
  | some (_, peer, .committing) => peer = sender
  | _ => false

/-- TAKE at the offerer (R103). -/
def State.takeReply (s : State) (sender crane token : Byte) : State :=
  match s.matchingOffer sender crane token with
  | some c =>
    (s.putContext { c with state := .offering sender token .committing }).giveHandover
      (s.ownFrame sender (.commit crane token))
  | none =>
    if s.repeatedTake sender crane token then s else s.giveAnswer (s.ownFrame sender (.cancel crane token))

/-- Uses the next free value to choose between two orders of the same acts (log 6). -/
def State.eitherOrder (s : State) (one other : State → State) : State :=
  let t := s.setChoices (s.choices + 1)
  if Config.freeValue s.choices % 2 = 0 then one t else other t

/-- REFUSE at the offerer (R105, Table 6-2). On ANCHORED_HERE the order of the CRANE REJECT and of the departure's notice
is free (log 6). -/
def State.refuseReply (s : State) (sender crane token : Byte) (reason : RefuseReason) : State :=
  match s.matchingOffer sender crane token with
  | some c =>
    match reason with
    | .anchoredHere =>
      s.eitherOrder (fun t => (t.freeContext c).queueControl (.craneReject crane .yielded))
        (fun t => (t.queueControl (.craneReject crane .yielded)).freeContext c)
    | .yielded => s.returnToAnchored c c.retryAt
    | .notClaimed | .full | .pendingOther | .notRunning => s.returnToAnchored c s.backoffEnd
  | none => s

/-- The guard of a context in AWAITING REPLY expires (R106). -/
def State.offerGuard (s : State) (crane : Byte) : State :=
  match s.contextOf crane with
  | some c =>
    match c.state with
    | .offering _ _ (.awaitingReply due) => if due ≤ s.now then s.returnToAnchored c s.backoffEnd else s
    | _ => s
  | none => s

/-! ### The target (R109 to R114) -/

/-- The PENDING context an accepted OFFER makes (R111). -/
def pendingContext (now : Micros) (guard : Nat) (sender crane token segment : Byte) (period : Word16) (late : Byte) :
    Context :=
  { crane := crane, position := segment, state := .pending sender token (now + millis guard), lastUplink := now,
    measuring := false, period := offeredPeriod period, stale := false, late := late.toNat, queue := [], retryAt := now }

/-- A REFUSE to the sender of an OFFER (R109). -/
def State.refuseOffer (s : State) (sender crane token : Byte) (reason : RefuseReason) : State :=
  s.giveAnswer (s.ownFrame sender (.refuse crane token reason))

/-- OFFER at the target: the checks of Table 6-3 in order (R109 to R111). -/
def State.offerReceived (s : State) (sender crane token segment : Byte) (period : Word16) (late : Byte) : State :=
  if s.stc.runState ≠ .run ∨ s.rlc.radioLost then s.refuseOffer sender crane token .notRunning
  else
    match s.contextOf crane with
    | some c =>
      if c.active then
        if s.cfg.address.toNat < sender.toNat then s.refuseOffer sender crane token .anchoredHere
        else
          ((s.freeContext c).queueControl (.craneReject crane .yielded)).refuseOffer sender crane token .yielded
      else s.refuseOffer sender crane token .pendingOther
    | none =>
      if !s.claimedHere segment then s.refuseOffer sender crane token .notClaimed
      else if Config.craneCapacity ≤ s.cru.contexts.length then s.refuseOffer sender crane token .full
      else
        (s.putContext (pendingContext s.now s.cfg.handoverGuard sender crane token segment period late)).giveHandover
          (s.ownFrame sender (.take crane token))

/-- A PENDING context whose crane, token and peer are those of a frame (R112, R113). -/
def State.matchingPending (s : State) (sender crane token : Byte) : Option Context :=
  (s.contextOf crane).bind fun c =>
    match c.state with
    | .pending peer tok _ => if peer = sender ∧ tok = token then some c else none
    | _ => none

/-- COMMIT at the target: a matching PENDING context becomes ANCHORED (R112). -/
def State.commitReceived (s : State) (sender crane token : Byte) : State :=
  match s.matchingPending sender crane token with
  | some c => s.putContext { c with state := .anchored }
  | none => s

/-- CANCEL at the target: a matching PENDING context is freed (R113). -/
def State.cancelReceived (s : State) (sender crane token : Byte) : State :=
  match s.matchingPending sender crane token with
  | some _ => s.dropContext crane
  | none => s

/-- The guard of a PENDING context expires: freed, and nothing is sent (R114). -/
def State.pendingGuard (s : State) (crane : Byte) : State :=
  match s.contextOf crane with
  | some c =>
    match c.state with
    | .pending _ _ due => if due ≤ s.now then s.dropContext crane else s
    | _ => s
  | none => s

/-! ### The beginning of the radio-lost condition (R83) -/

/-- A list in an order that free values pick: each item is put at a free place among those after it (log 5). -/
def shuffled {α : Type} (n : Nat) : List α → List α
  | [] => []
  | x :: xs => (shuffled (n + 1) xs).insertIdx (Config.freeValue n % (xs.length + 1)) x

/-- CRU frees some contexts, one after another, each that was active reporting its departure (R45, R83). -/
def State.freeContexts (s : State) (cs : List Context) : State := cs.foldl State.freeContext s

end Sys2Proof.Machine
end

