-- ==== Sys2Proof/Machine/Coverage.lean ====
section
/-!
DEFINITION. CVE's evaluations (spec/03_coverage_claims_and_beacons.md R36 to R54): the BEACON, the evaluation at a beacon
timer expiry, the end of LISTEN, and the withdrawal.
-/

namespace Sys2Proof.Machine

/-- The kind code of a claim state in a BEACON (Tables 3-1, 11-3). -/
def claimKind : Claim → Byte
  | .unclaimed => 0
  | .claimed => 1
  | .held => 2

/-- The flags byte of a BEACON (R51, Table 11-3). -/
def beaconFlags (listen radioLost gateway : Bool) : Byte :=
  (if listen then 1#8 else 0#8) ||| (if radioLost then 2#8 else 0#8) ||| (if gateway then 4#8 else 0#8)

/-- The items of a BEACON, one for each home segment, ascending (R52). -/
def beaconItems (c : Settings) (segments : List Segment) : List BeaconItem :=
  segments.mapIdx fun i r =>
    { segment := segmentAt c i, kind := claimKind r.claim, score := BitVec.ofNat 16 r.score }

/-- The BEACON CVE builds now, with the C its evaluation read (R51, R52). -/
def State.beaconFrame (s : State) (c : Nat) : Frame :=
  s.ownFrame 63
    (.beacon (beaconFlags (s.stc.runState = .listen) s.rlc.radioLost (s.cfg.role = .gateway))
      (BitVec.ofNat 16 (s.cve.beaconGap / 10)) (BitVec.ofNat 8 c) (beaconItems s.cfg s.cve.segments))

/-- The beacon gap that begins now, from the penalty of this expiry (R16, R17). -/
def State.startGap (s : State) (p : Nat) : State :=
  let gap := s.cfg.beaconBase * (1 + loadClass p)
  s.setCve { s.cve with beaconGap := gap, beaconDue := some (s.now + millis gap) }

/-- The LISTEN count and the end of LISTEN: the twelfth expiry enters RUN before its evaluation (R37, R181). -/
def State.countListen (s : State) : State :=
  if s.stc.runState = .listen then
    let n := s.cve.listenCount + 1
    let t := s.setCve { s.cve with listenCount := n }
    if n = Config.listenExpiries then State.recordOccasion .run (t.setStc { s.stc with runState := .run }) else t
  else s

/-- The evaluation at a beacon timer expiry: all stages of R38, or R39 for a station with no home range. -/
def State.evaluate (s : State) : State :=
  if s.cfg.homeCount = 0 then s.startGap s.penalty
  else
    let t := s.decideAll.startGap s.penalty
    (t.putBeacon (t.beaconFrame s.activeCount)).noticeIfChanged

/-- The beacon timer expires (R36 to R39). -/
def State.beaconExpiry (s : State) : State :=
  if s.running && dueBy s.now s.cve.beaconDue then s.countListen.evaluate else s

/-- The withdrawal at the beginning of the radio-lost condition (R47): an evaluation without an expiry, the gap left as it
runs. A station with no home range makes none. -/
def State.withdraw (s : State) : State :=
  if s.cfg.homeCount = 0 then s
  else
    let t := s.decideAll
    (t.putBeacon (t.beaconFrame s.activeCount)).noticeIfChanged

end Sys2Proof.Machine
end

