-- ==== Sys2Proof/Machine/Bundles.lean ====
section
/-!
DEFINITION. BAS, the bundle assembler, and GDS, the gateway delivery store
(spec/08_bundle_assembly_and_gateway_delivery.md R141 to R160).
-/

namespace Sys2Proof.Machine

/-! ### Buffers (R143 to R149) -/

/-- The capacity of a buffer (R143). -/
def bufferCapacity : BundleMode → Nat
  | .single => 24
  | .split => 12

/-- The number of buffers (R143). -/
def bufferCount : BundleMode → Nat
  | .single => 1
  | .split => 2

/-- The effective limit (R143). -/
def effectiveLimit (c : Settings) : Nat :=
  if 1 ≤ c.bundleLimit ∧ c.bundleLimit ≤ bufferCapacity c.bundleMode then c.bundleLimit else bufferCapacity c.bundleMode

/-- The receiving buffer's place: the one in FILLING, otherwise an EMPTY one (R145). DESIGN CHOICE (log 24): of two EMPTY
buffers the lower-numbered one. R145 leaves this open and says that nothing the part does or shows depends on it. -/
def receivingBuffer (bs : List Buffer) : Option Nat :=
  match bs.findIdx? fun b => b.state = .filling with
  | some i => some i
  | none => bs.findIdx? fun b => b.state = .empty

/-- The FILLING buffer closes: wait timer stopped, CLOSED, its bundle given to class 3 (R147, R149). -/
def State.closeBuffer (s : State) (i : Nat) : State :=
  match s.bas.buffers[i]? with
  | some b =>
    let t := s.setBas { s.bas with buffers := s.bas.buffers.set i { b with state := .closed }, waitDue := none }
    t.giveBundle { sender := s.cfg.address, dest := 63, body := .bundle b.reports } i
  | none => s

/-- A report is put into the buffer at a place (R146), and the closing test of R147 follows. -/
def State.fillBuffer (s : State) (i : Nat) (r : Report) : State :=
  match s.bas.buffers[i]? with
  | some b =>
    let limit := effectiveLimit s.cfg
    let opens : Bool := b.state = .empty
    let room := (if opens then limit else b.room) - 1
    let b' : Buffer := { state := .filling, room := room, reports := (if opens then [] else b.reports) ++ [r] }
    let t := s.setBas { s.bas with
      buffers := s.bas.buffers.set i b',
      waitDue := if opens then some (s.now + millis s.cfg.bundleWait) else s.bas.waitDue }
    if room = 0 ∨ r.cls = .alert then t.closeBuffer i else t
  | none => s

/-- One move: channel A from the alert intake, channel B from the routine intake only while the alert intake is empty
(R145); none when no buffer can receive or both intakes are empty. -/
def State.oneMove (s : State) : Option State :=
  (receivingBuffer s.bas.buffers).bind fun i =>
    match s.bas.alertIntake, s.bas.routineIntake with
    | r :: rest, _ => some ((s.setBas { s.bas with alertIntake := rest }).fillBuffer i r)
    | [], r :: rest => some ((s.setBas { s.bas with routineIntake := rest }).fillBuffer i r)
    | [], [] => none

/-- Moves one after another until none is possible, at most `n` of them (R145). -/
def State.movesUpTo : Nat → State → State
  | 0, s => s
  | n + 1, s =>
    match s.oneMove with
    | some t => State.movesUpTo n t
    | none => s

/-- All moves that are possible (R145): each takes one report out of an intake. -/
def State.makeMoves (s : State) : State :=
  s.movesUpTo (s.bas.alertIntake.length + s.bas.routineIntake.length)

/-- RFI forwards a report: it joins its intake, a full intake dropping its oldest, and the moves follow (R139, R142). -/
def State.forward (s : State) (r : Report) : State :=
  State.makeMoves
    (match r.cls with
      | .alert => s.setBas { s.bas with alertIntake := pushDropOldest Config.alertCapacity r s.bas.alertIntake }
      | .routine => s.setBas { s.bas with routineIntake := pushDropOldest Config.routineCapacity r s.bas.routineIntake })

/-- The wait timer expires: the FILLING buffer closes, and the moves that makes possible follow (R145, R147). -/
def State.bundleWait (s : State) : State :=
  if dueBy s.now s.bas.waitDue then
    match s.bas.buffers.findIdx? fun b => b.state = .filling with
    | some i => (s.closeBuffer i).makeMoves
    | none => s
  else s

/-- The first attempt of a bundle starts: its buffer becomes SENDING (R64, R150). -/
def State.bufferSending (s : State) (i : Nat) : State :=
  s.setBas { s.bas with buffers := s.bas.buffers.modify i fun b => { b with state := .sending } }

/-! ### The delivery store (R155 to R157) -/

/-- A record of a class that is not in hand (R157). -/
def Stored.mayGiveWay (k : ReportClass) (x : Stored) : Bool := x.report.cls = k && !x.inHand

/-- The store with an offered report as its newest record; none where it is refused (R157, Table 8-3). -/
def offerStore (x : Stored) (store : List Stored) : Option (List Stored) :=
  if store.length < Config.storeCapacity then some (store ++ [x])
  else if store.any (Stored.mayGiveWay .routine) then some (store.eraseP (Stored.mayGiveWay .routine) ++ [x])
  else if x.report.cls = .alert ∧ store.any (Stored.mayGiveWay .alert) then
    some (store.eraseP (Stored.mayGiveWay .alert) ++ [x])
  else none

/-- GDS takes one bundled report (R156). -/
def Gds.intake (g : Gds) (station : Byte) (r : Report) : Gds :=
  if r.tag = 0 then g
  else if (r.tag, r.seq) ∈ g.seen then g
  else
    match offerStore { report := clampReport r, station := station, inHand := false } g.store with
    | some store => { g with store := store, seen := pushDropOldest Config.seenCapacity (r.tag, r.seq) g.seen }
    | none => g

/-- GDS takes the reports of a bundle in order (R154, R156); it exists in a GATEWAY alone (R155). -/
def State.gdsIntake (s : State) (station : Byte) (reports : List Report) : State :=
  if s.cfg.role = .gateway then s.setGds (reports.foldl (fun g r => g.intake station r) s.gds) else s

/-! ### Draining (R158, R159) -/

/-- The oldest record is taken in hand and its DRAIN RECORD queued (R159); an empty store leaves none in hand. -/
def State.takeInHand (s : State) : State :=
  match s.gds.store with
  | x :: rest =>
    (s.setGds { s.gds with store := { x with inHand := true } :: rest }).queueDrain (.record x.report x.station)
  | [] => s

/-- DRAIN at GDS (R158); the limit has been brought into 1..64. -/
def State.drainRequest (s : State) (limit : Nat) : State :=
  match s.gds.drain with
  | .idle =>
    if s.gds.store = [] then s.queueDrain (.ended 0 0 .done)
    else (s.setGds { s.gds with drain := .draining limit 0 }).takeInHand
  | .draining .. => s.queueDrain (.ended 0 s.gds.store.length .busy)

/-- RLC has taken the DRAIN RECORD of the record in hand (R159, steps 1 to 4). -/
def State.handOver (s : State) : State :=
  match s.gds.drain with
  | .draining allowed sent =>
    let store := s.gds.store.eraseP Stored.inHand
    if allowed - 1 = 0 ∨ store = [] then
      (s.setGds { s.gds with store := store, drain := .idle }).queueDrain (.ended (sent + 1) store.length .done)
    else (s.setGds { s.gds with store := store, drain := .draining (allowed - 1) (sent + 1) }).takeInHand
  | .idle => s

/-! ### The outcome of a bundle (R150, R154) -/

/-- A bundle's outcome: at a gateway a SENT bundle is delivered to GDS first; then the buffer is EMPTY and the moves that
makes possible follow (R150, R154). -/
def State.bundleOutcome (s : State) (sent : Bool) (i : Nat) : State :=
  match s.bas.buffers[i]? with
  | some b =>
    let t := if sent then s.gdsIntake s.cfg.address b.reports else s
    State.makeMoves (t.setBas { t.bas with buffers := t.bas.buffers.set i Buffer.reset })
  | none => s

end Sys2Proof.Machine
end

