-- ==== Sys2Proof/Machine/Reefers.lean ====
section
/-!
DEFINITION. RFI, the reefer intake (spec/07_reefer_custody_and_holdback.md R120 to R140): the class and the path of a
report, custody, holdback, and overheard bundles.
-/

namespace Sys2Proof.Machine

/-- Key of the custody table. -/
def Custody.key (r : Custody) : Nat := r.tag.toNat

/-- Key of the holdback list. -/
def Held.key (e : Held) : Nat := e.report.tag.toNat

/-- The custody record of a tag (R124). -/
def State.custodyOf (s : State) (t : Tag) : Option Custody := tableFind Custody.key t.toNat s.rfi.custody

/-- The holdback entry of a tag (R131). -/
def State.heldOf (s : State) (t : Tag) : Option Held := tableFind Held.key t.toNat s.rfi.holdback

/-- The class of a report (R122). -/
def State.classOf (s : State) (t : Tag) (alarm : BitVec 4) : ReportClass :=
  let last : BitVec 4 :=
    match s.custodyOf t, s.heldOf t with
    | some r, _ => r.alarm
    | none, some e => e.report.alarm
    | none, none => 0
  if alarm = last then .routine else .alert

/-- The segment counts as claimed for RFI: a CLAIMED home segment, in RUN (R123). -/
def State.rfiClaims (s : State) (g : Byte) : Bool := s.stc.runState = .run && s.claimedHere g

/-- The holdback time HB in ms (R132, R133). -/
def State.holdbackTime (s : State) (margin : Byte) (g : Byte) (cls : ReportClass) : Nat :=
  let hb := s.cfg.hbBase + 2 * (255 - margin.toNat)
  match cls with
  | .alert => hb / 4
  | .routine => if s.claimants g = [] then hb else 2 * hb

/-- The entry a report makes in the holdback list (R131, R132). -/
def State.heldEntry (s : State) (r : Report) (margin : Byte) : Held :=
  { report := r, expiry := s.now + millis (s.holdbackTime margin r.segment r.cls) }

/-- The ROUTINE entry that gives way to an ALERT: the latest expiry, the lowest tag among equals (R135). DESIGN CHOICE:
expiries are equal when they are so to the microsecond (log 23). The entries come by rising tag. -/
def routineVictim (l : List Held) : Option Held :=
  (l.filter fun e => e.report.cls = .routine).foldl (init := none) fun best e =>
    match best with
    | none => some e
    | some b => if b.expiry < e.expiry then some e else some b

/-- A report with no entry takes the holdback path (R135). -/
def State.enterHoldback (s : State) (r : Report) (margin : Byte) : State :=
  let e := s.heldEntry r margin
  let l := s.rfi.holdback
  if l.length < Config.holdbackCapacity then s.setRfi { s.rfi with holdback := tablePut Held.key e l }
  else
    match r.cls, routineVictim l with
    | .alert, some v => s.setRfi { s.rfi with holdback := tablePut Held.key e (tableErase Held.key v.key l) }
    | _, _ => s

/-- A newer report replaces its tag's entry; an entry whose class was ALERT stays ALERT (R134). -/
def State.replaceHeld (s : State) (old : Held) (r : Report) (margin : Byte) : State :=
  let r' := if old.report.cls = .alert then { r with cls := .alert } else r
  s.setRfi { s.rfi with holdback := tablePut Held.key (s.heldEntry r' margin) s.rfi.holdback }

/-- A custody record as a report makes it (R124, R125, R126). -/
def custodyFrom (r : Report) : Custody := { tag := r.tag, segment := r.segment, seq := r.seq, alarm := r.alarm }

/-- The tag is taken into custody, or its record updated, from a report. -/
def State.putCustody (s : State) (r : Report) : State :=
  s.setRfi { s.rfi with custody := tablePut Custody.key (custodyFrom r) s.rfi.custody }

/-- The record of a tag is released (R128, R130). -/
def State.dropCustody (s : State) (t : Tag) : State :=
  s.setRfi { s.rfi with custody := tableErase Custody.key t.toNat s.rfi.custody }

/-- The entry of a tag is removed (R126, R136, R137). -/
def State.dropHeld (s : State) (t : Tag) : State :=
  s.setRfi { s.rfi with holdback := tableErase Held.key t.toNat s.rfi.holdback }

/-- The routing of a report that has passed R120, by the first line of Table 7-1 that fits it (R123, R125 to R128). -/
def State.routeReport (s : State) (r : Report) (margin : Byte) : State :=
  match s.custodyOf r.tag with
  | some rec =>
    if !newerSeq r.seq rec.seq then s
    else if s.rfiClaims r.segment then (s.putCustody r).forward r
    else (s.dropCustody r.tag).enterHoldback r margin
  | none =>
    match s.heldOf r.tag with
    | some old =>
      if !newerSeq r.seq old.report.seq then s
      else if !s.rfiClaims r.segment then s.replaceHeld old r margin
      else if s.rfi.custody.length < Config.custodyCapacity then
        State.forward ((s.dropHeld r.tag).putCustody r)
          (if old.report.cls = .alert then { r with cls := .alert } else r)
      else (s.setFlag .custodyFull).replaceHeld old r margin
    | none =>
      if !s.rfiClaims r.segment then s.enterHoldback r margin
      else if s.rfi.custody.length < Config.custodyCapacity then (s.putCustody r).forward r
      else (s.setFlag .custodyFull).enterHoldback r margin

/-- REEFER REPORT at RFI: tag 0 and an alarm code above 15 are discarded, temperatures clamped, the class decided, the
report routed (R120, R122, R123). -/
def State.reeferIntake (s : State) (tag : Tag) (segment seq : Byte) (setPoint supply : Word16) (alarm margin : Byte) :
    State :=
  if tag = 0 ∨ 15 < alarm.toNat then s
  else
    let code : BitVec 4 := alarm.extractLsb' 0 4
    s.routeReport
      { tag := tag, segment := segment, seq := seq, setPoint := clampTemp setPoint, supply := clampTemp supply,
        alarm := code, cls := s.classOf tag code } margin

/-- A holdback entry's expiry time passes: removed and forwarded with its class (R136). -/
def State.holdbackDue (s : State) (t : Tag) : State :=
  match s.heldOf t with
  | some e => if e.expiry ≤ s.now then (s.dropHeld t).forward e.report else s
  | none => s

/-- One bundled report at RFI: custody passes to another station (R130), or the held copy is cancelled (R137). -/
def State.overheard (s : State) (r : Report) : State :=
  match s.custodyOf r.tag with
  | some rec => if newerSeq r.seq rec.seq && !s.claimedHere r.segment then s.dropCustody r.tag else s
  | none =>
    match s.heldOf r.tag with
    | some e => if newerSeq e.report.seq r.seq then s else s.dropHeld r.tag
    | none => s

/-- A BUNDLE dispatched to RFI, report by report in frame order (R130, R137). -/
def State.overheardBundle (s : State) (reports : List Report) : State := reports.foldl State.overheard s

end Sys2Proof.Machine
end

