-- ==== Sys2Proof/Machine/RadioLink.lean ====
section
/-!
DEFINITION. RLC's outbound side (spec/09_the_radio_link.md R165 to R168, R172): which message is taken next and what
taking it does, and the bytes of an outbound message (spec/11_formats.md R189).
-/

namespace Sys2Proof.Machine

/-! ### The bytes of an outbound message (Tables 11-6, 11-7) -/

/-- Code of a CRANE REJECT reason (Table 11-6). -/
def rejectCode : RejectReason → Byte
  | .full => 1 | .yielded => 5 | .notRunning => 6

/-- Code of a DRAIN END status (Table 11-6). -/
def drainStatusCode : DrainStatus → Byte
  | .done => 1 | .busy => 2

/-- A flag as a number. -/
def bit (b : Bool) (place : Nat) : Nat := if b then 2 ^ place else 0

/-- Code of a run state (Table 11-7); no report is built in LOAD. -/
def runCode : RunState → Nat
  | .load => 0 | .halt => 1 | .listen => 2 | .run => 3

/-- Code of a halt reason (Table 11-7). -/
def haltCode : HaltReason → Nat
  | .none => 0 | .configAbsent => 1 | .badAddress => 2

/-- Code of a fault kind (Table 11-7). -/
def faultCode : FaultKind → Nat
  | .none => 0 | .jabber => 1 | .cut => 2

/-- Code of a reset cause (Table 11-7). -/
def causeCode : ResetCause → Nat
  | .cold => 0 | .request => 1 | .supervision => 2

/-- The occasions of a STATE REPORT as a number (Table 11-7). -/
def occasionBits (o : Occasions) : Nat :=
  bit o.listen 0 + bit o.run 1 + bit o.halt 2 + bit o.faultStart 3 + bit o.faultEnd 4 + bit o.radioLost 5 +
    bit o.radioBack 6 + bit o.flagSet 7 + bit o.query 8

/-- A two-byte field from a number, high byte first (R185). -/
def field16 (n : Nat) : List Byte := [hiByte (BitVec.ofNat 16 n), loByte (BitVec.ofNat 16 n)]

/-- The body of a STATE REPORT (Table 11-7). -/
def stateReportBytes (r : StateReport) : List Byte :=
  [BitVec.ofNat 8 (runCode r.runState), BitVec.ofNat 8 (haltCode r.haltReason),
    BitVec.ofNat 8 (bit r.radioLost 0 + bit r.lineFault 1 + 4 * faultCode r.faultKind),
    BitVec.ofNat 8 (bit r.flags.addressClash 0 + bit r.flags.neighbourFull 1 + bit r.flags.custodyFull 2 +
      bit r.flags.linkError 3),
    BitVec.ofNat 8 (causeCode r.cause), BitVec.ofNat 8 r.warmCount, BitVec.ofNat 8 r.active] ++
  field16 r.custody ++ [BitVec.ofNat 8 r.fresh, BitVec.ofNat 8 r.claimed] ++ field16 (occasionBits r.occasions)

/-- Kind code of an outbound message (Table 11-6). -/
def outboundKind : Outbound → Byte
  | .coverageNotice .. => 0x41 | .craneDeliver .. => 0x42 | .craneRedirect .. => 0x43 | .craneReject .. => 0x44
  | .terminalUplink .. => 0x45 | .drainRecord .. => 0x46 | .drainEnd .. => 0x47 | .stateReport .. => 0x48

/-- Body of an outbound message (Table 11-6). -/
def outboundBytes : Outbound → List Byte
  | .coverageNotice claimed held => [hiByte claimed, loByte claimed, hiByte held, loByte held]
  | .craneDeliver crane seq payload => [crane, seq, BitVec.ofNat 8 payload.length] ++ payload
  | .craneRedirect crane target => [crane, target]
  | .craneReject crane reason => [crane, rejectCode reason]
  | .terminalUplink crane seq anchor period late payload =>
    [crane, seq, anchor, hiByte period, loByte period, late, BitVec.ofNat 8 payload.length] ++ payload
  | .drainRecord r station => reportBytes r ++ [station]
  | .drainEnd count remaining status =>
    BitVec.ofNat 8 count :: field16 remaining ++ [drainStatusCode status]
  | .stateReport r => stateReportBytes r

/-- An outbound message on the link: kind, length, body, check (R168, R189). -/
def encodeOutbound (m : Outbound) : List Byte :=
  withCrc ([outboundKind m, BitVec.ofNat 8 (outboundBytes m).length] ++ outboundBytes m)

/-! ### Taking a message (R166, R167, R168) -/

/-- A control message is taken; a STATE REPORT is built now, and the occasion set and the flags it carries are cleared
(R168, R172, R173). -/
def State.takeControl (s : State) (m : ControlMsg) : State :=
  match m with
  | .coverageNotice claimed held => s.setRlc { s.rlc with inProgress := some (.coverageNotice claimed held) }
  | .craneRedirect crane target => s.setRlc { s.rlc with inProgress := some (.craneRedirect crane target) }
  | .craneReject crane reason => s.setRlc { s.rlc with inProgress := some (.craneReject crane reason) }
  | .stateReport =>
    s.setRlc { s.rlc with
      inProgress := some (.stateReport s.stateReport), occasions := .empty, flags := .clear }

/-- The downlink head due first among the active contexts; of equals the lower crane identifier (R166). DESIGN CHOICE: due
times are equal when they are so to the microsecond (log 23). The contexts come by rising crane identifier. -/
def State.downlinkHead (s : State) : Option (Context × Downlink) :=
  (s.cru.contexts.filter Context.active).foldl (init := none) fun best c =>
    match best, c.queue.head? with
    | _, none => best
    | none, some e => some (c, e)
    | some b, some e => if e.deadline < b.2.deadline then some (c, e) else some b

/-- The head of a context's downlink queue is taken: it leaves the queue as a CRANE DELIVER (R93, R166). -/
def State.takeDownlink (s : State) (c : Context) (e : Downlink) : State :=
  let t := s.putContext { c with queue := c.queue.drop 1 }
  t.setRlc { t.rlc with inProgress := some (.craneDeliver c.crane e.seq e.payload) }

/-- The oldest TERMINAL UPLINK is taken (R166). -/
def State.takeTerminal (s : State) (m : TermUplink) : State :=
  s.setRlc { s.rlc with
    terminal := s.rlc.terminal.drop 1,
    inProgress := some (.terminalUplink m.crane m.seq m.anchor m.period m.late m.payload) }

/-- The crane class gives the candidate due first; a terminal uplink, due when it joined, goes before a downlink head due
at the same time (R166). None when the class has no candidate. -/
def State.takeCrane (s : State) : Option State :=
  match s.rlc.terminal.head?, s.downlinkHead with
  | some m, some (c, e) => some (if m.joinedAt ≤ e.deadline then s.takeTerminal m else s.takeDownlink c e)
  | some m, none => some (s.takeTerminal m)
  | none, some (c, e) => some (s.takeDownlink c e)
  | none, none => none

/-- A drain message is taken; a DRAIN RECORD is the hand-over of the record in hand (R159, R168). -/
def State.takeDrain (s : State) (m : DrainMsg) : State :=
  let t := s.setRlc { s.rlc with drainQueue := s.rlc.drainQueue.drop 1 }
  match m with
  | .record r station =>
    (t.setRlc { t.rlc with inProgress := some (.drainRecord r station) }).handOver
  | .ended count remaining status =>
    t.setRlc { t.rlc with inProgress := some (.drainEnd count remaining status) }

/-- RLC takes the next message when the flow is FLOWING, no message is in progress, and some class has one: control, then
crane, then drain (R167). The model does this at the end of every command (log 4). -/
def State.linkTake (s : State) : State :=
  if s.rlc.stopped || s.rlc.inProgress.isSome then s
  else
    match s.rlc.control with
    | m :: rest => (s.setRlc { s.rlc with control := rest }).takeControl m
    | [] =>
      match s.takeCrane with
      | some t => t
      | none =>
        match s.rlc.drainQueue with
        | m :: _ => s.takeDrain m
        | [] => s

/-- The outbound message in progress has gone out (R167). -/
def State.messageSent (s : State) : State := s.setRlc { s.rlc with inProgress := none }

end Sys2Proof.Machine
end

