-- ==== Sys2Proof/Machine/Start.lean ====
section
/-!
DEFINITION. STC, the start controller (spec/10_configuration_start_and_restart.md R176 to R184, spec/11_formats.md R191):
resets, the configuration record and its clamping, and the entries into HALT and LISTEN.
-/

namespace Sys2Proof.Machine

/-! ### The configuration record (R177 to R179, R191) -/

/-- A one-byte field of the record (Table 11-8). -/
def recordByte (r : Vector Byte 24) (i : Fin 24) : Nat := r[i].toNat

/-- A two-byte field of the record, high byte first (Table 11-8, R185). -/
def recordWord (r : Vector Byte 24) (i j : Fin 24) : Nat := 256 * r[i].toNat + r[j].toNat

/-- ROLE: 1 is GATEWAY, any other value EDGE (Table 10-2). -/
def roleOf (b : Nat) : Role := if b = 1 then .gateway else .edge

/-- BUNDLE_MODE: 1 is SPLIT, any other value SINGLE (Table 10-2). -/
def modeOf (b : Nat) : BundleMode := if b = 1 then .split else .single

/-- HOME_COUNT settled from ROLE, the clamped HOME_FIRST and the field (R179). -/
def settledCount (role : Role) (first count : Nat) : Nat :=
  let clamped := min 16 count
  let atLeast := if role = .edge ∧ clamped = 0 then 1 else clamped
  if 128 < first + atLeast then 128 - first else atLeast

/-- The loaded configuration of a record whose address is valid: every field in range (R178, Table 10-2). -/
def settingsOf (r : Vector Byte 24) : Settings :=
  let role := roleOf (recordByte r 1)
  let first := min 127 (recordByte r 2)
  let mode := modeOf (recordByte r 12)
  { address := r[0]
    role := role
    homeFirst := first
    homeCount := settledCount role first (recordByte r 3)
    beaconBase := 10 * clampNat 5 200 (recordByte r 4)
    qualShift := clampNat 1 4 (recordByte r 5)
    hyst := min 63 (recordByte r 6)
    claimFloor := recordByte r 7
    shadowCap := min 511 (recordWord r 8 9)
    hbBase := clampNat 10 1000 (recordWord r 10 11)
    bundleMode := mode
    bundleLimit := min (bufferCapacity mode) (recordByte r 13)
    bundleWait := clampNat 50 5000 (recordWord r 14 15)
    handoverGuard := clampNat 20 500 (recordWord r 16 17)
    craneStale := clampNat 50 2000 (recordWord r 18 19)
    radioWatch := clampNat 100 5000 (recordWord r 20 21) }

/-- Every byte of the record is 0xFF: no memory answers (R176). -/
def recordAbsent (r : Vector Byte 24) : Bool := r.toList.all fun b => b = 0xFF

/-! ### Resets (R182, R183, and each block's own) -/

/-- Every block but STC takes its reset state; whatever is under way is cut (R183). Pin levels stay (log 7). -/
def State.resetBlocks (s : State) : State :=
  { s with cve := .reset, nbt := .reset, cru := .reset, rfi := .reset, bas := .reset, gds := .reset, lnc := .reset,
           rlc := .reset }

/-- STC enters LOAD: halt reason NONE, no loaded configuration, and the memory selected for the read (R176, R182, R183). -/
def State.enterLoad (s : State) (cause : ResetCause) (warmCount : Nat) : State :=
  s.setStc { runState := .load, haltReason := .none, cause := cause, warmCount := warmCount, loaded := none,
             readSince := some s.now }

/-- A cold reset (R182). While the reset input is held active no read begins (log 14). -/
def State.coldReset (s : State) : State :=
  let t := s.resetBlocks.enterLoad .cold 0
  if s.pins.resetHeld then t.setStc { t.stc with readSince := none } else t

/-- A warm restart (R183): the cause, the warm count saturating at 15, every block reset, LOAD. -/
def State.warmRestart (s : State) (cause : ResetCause) : State :=
  s.resetBlocks.enterLoad cause (min 15 (s.stc.warmCount + 1))

/-- The reset input becomes active or inactive (R182). -/
def State.resetInput (s : State) (held : Bool) : State :=
  State.coldReset (s.setPins { s.pins with resetHeld := held })

/-! ### The end of LOAD (R176 to R181) -/

/-- STC enters HALT with a reason (R180). -/
def State.enterHalt (s : State) (reason : HaltReason) : State :=
  State.recordOccasion .halt (s.setStc { s.stc with runState := .halt, haltReason := reason, readSince := none })

/-- The blocks as LOAD ends with a configuration: records of the home range (R3), the buffers' arrangement (R143), the
generator's seed (R63), the first beacon gap (R18, R36), the supervision timer (R169). LNC becomes active: the carrier
timer runs if carrier is present (R71, log 7). -/
def State.startBlocks (s : State) (c : Settings) : State :=
  let t := s.setCve { s.cve with
    segments := List.replicate c.homeCount Segment.reset, listenCount := 0, beaconGap := c.beaconBase,
    beaconDue := some (s.now + millis c.beaconBase) }
  let u := t.setBas { t.bas with buffers := List.replicate (bufferCount c.bundleMode) Buffer.reset }
  let v := u.setLnc { u.lnc with
    generator := seedOf c.address, carrierSince := if s.pins.carrier then some s.now else none }
  v.setRlc { v.rlc with supervisionDue := some (s.now + millis c.radioWatch) }

/-- STC enters LISTEN with a loaded configuration (R181). LNC, now active, detects OPEN at once if the transceiver reports
the line open (R72; a report that stands from before, log 18). -/
def State.enterListen (s : State) (c : Settings) : State :=
  let t := State.recordOccasion .listen
    ((s.setStc { s.stc with runState := .listen, loaded := some c, readSince := none }).startBlocks c)
  if s.pins.lineOpen then t.enterFault .cut else t

/-- The 24 bytes have been read: absent memory, bad address, or the end of LOAD (R176, R177, R178, R181). -/
def State.readComplete (s : State) (r : Vector Byte 24) : State :=
  if s.stc.readSince = none then s
  else if recordAbsent r then s.enterHalt .configAbsent
  else if senderInRange r[0] then s.enterListen (settingsOf r)
  else s.enterHalt .badAddress

/-- The ready indication has not come within 20 ms of the selection (R176). -/
def State.readyTimeout (s : State) : State :=
  if dueBy s.now (s.stc.readSince.map (· + Config.readyLimit)) then s.enterHalt .configAbsent else s

end Sys2Proof.Machine
end

