-- ==== Sys2Proof/Machine/Inbound.lean ====
section
/-!
DEFINITION. RLC's inbound side (spec/09_the_radio_link.md R161 to R164, R169, R170, R174): the parser, the checks, the
supervision step, and what each message does.
-/

namespace Sys2Proof.Machine

/-! ### Supervision (R169, R170) -/

/-- The supervision timer starts, or starts again, with RADIO_WATCH. -/
def State.restartSupervision (s : State) : State :=
  s.setRlc { s.rlc with supervisionDue := some (s.now + millis s.cfg.radioWatch) }

/-- The supervision step of a valid message in LISTEN or RUN (R163, R169, R170). -/
def State.supervisionStep (s : State) : State :=
  let t := s.restartSupervision
  if s.rlc.radioLost then State.recordOccasion .radioBack (t.setRlc { t.rlc with radioLost := false }) else t

/-- CVE withdraws (R47) and CRU frees every context (R83). Free values pick the order of the departures and the place of
the withdrawal among them (log 5). -/
def State.withdrawAndFree (s : State) : State :=
  let n := s.cru.contexts.length
  let order := shuffled s.choices s.cru.contexts
  let place := Config.freeValue (s.choices + n) % (n + 1)
  let t := s.setChoices (s.choices + n + 1)
  ((t.freeContexts (order.take place)).withdraw).freeContexts (order.drop place)

/-- The radio-lost condition begins (R169): the timer starts again, RADIO LOST is recorded, and CVE and CRU are told. -/
def State.beginRadioLost (s : State) : State :=
  let t := s.restartSupervision
  State.withdrawAndFree (State.recordOccasion .radioLost (t.setRlc { t.rlc with radioLost := true }))

/-- The supervision timer expires (R169). -/
def State.supervisionExpiry (s : State) : State :=
  if s.running && dueBy s.now s.rlc.supervisionDue then
    if s.rlc.radioLost then s.warmRestart .supervision else s.beginRadioLost
  else s

/-! ### Handling by kind (R163, R164) -/

/-- The block or blocks that own a message act on it, in LISTEN or RUN, after the supervision step (Table 9-2). -/
def State.dispatchMessage (s : State) (m : Inbound) : State :=
  match m with
  | .radioStatus shadowMap => s.setShadows shadowMap
  | .qualitySample g margin => s.applySample g margin
  | .reeferReport tag g seq setPoint supply alarm margin =>
    (s.applySample g margin).reeferIntake tag g seq setPoint supply alarm margin
  | .craneAttach crane g => s.attach crane g
  | .cranePosition crane g => s.position crane g
  | .craneDetach crane => s.detach crane
  | .craneUplink crane seq margin payload =>
    let t :=
      match s.contextOf crane with
      | some c => s.applySample c.position margin
      | none => s
    t.uplink crane seq payload
  | .craneDownlink crane seq deadline payload =>
    if s.cfg.role = .gateway then s.downlink crane seq (clampDeadline deadline) payload else s.setFlag .linkError
  | .drain limit =>
    if s.cfg.role = .gateway then s.drainRequest (clampLimit limit) else s.setFlag .linkError
  | .hold => s.setRlc { s.rlc with stopped := true }
  | .resume => s.setRlc { s.rlc with stopped := false }
  | .stateQuery => s.recordOccasion .query
  | .restart => s.warmRestart .request

/-- A valid inbound message is handled by run state (Table 9-1). -/
def State.validMessage (s : State) (m : Inbound) : State :=
  match m with
  | .restart => s.warmRestart .request
  | _ =>
    match s.stc.runState with
    | .load => s
    | .halt => if m = .stateQuery then s.recordOccasion .query else s
    | .listen | .run => s.supervisionStep.dispatchMessage m

/-- A complete message that has passed its CRC check: malformed, it is discarded and sets LINK ERROR; otherwise it is
valid (R162, R190). -/
def State.checkedMessage (s : State) (m : Inbound) : State :=
  if inboundWellFormed m then s.validMessage m else s.setFlag .linkError

/-- A message of the radio unit arrives: its last byte leaves the parser WAITING (R161). While the reset input is held no
message is taken (R182, R184). -/
def State.messageArrives (s : State) (m : Inbound) : State :=
  if s.pins.resetHeld then s else (s.setRlc { s.rlc with parser := .waiting }).checkedMessage m

/-! ### The parser (R161, R162) -/

/-- The parser takes one byte: the parser after it, and the message it completes. -/
def parseByte (now : Micros) (p : Parser) (b : Byte) : Parser × Option (List Byte) :=
  let got :=
    match p with
    | .waiting => [b]
    | .assembling got _ => got ++ [b]
  match got with
  | _ :: len :: rest =>
    if rest.length = len.toNat + 2 then (.waiting, some got) else (.assembling got now, none)
  | _ => (.assembling got now, none)

/-- A complete message passes its two checks in turn (R162). -/
def State.completeMessage (s : State) (bytes : List Byte) : State :=
  match readMessage bytes with
  | .badCheck => s
  | .malformed => s.setFlag .linkError
  | .good m => s.validMessage m

/-- One byte from the radio unit. -/
def State.receiveByte (s : State) (b : Byte) : State :=
  let step := parseByte s.now s.rlc.parser b
  let t := s.setRlc { s.rlc with parser := step.1 }
  match step.2 with
  | some bytes => t.completeMessage bytes
  | none => t

/-- A run of bytes from the radio unit; none is taken while the reset input is held (R161, R182). -/
def State.receiveBytes (s : State) (bytes : List Byte) : State :=
  if s.pins.resetHeld then s else bytes.foldl State.receiveByte s

/-- The link has carried no byte for 2 ms while ASSEMBLING: the partial message is abandoned (R161). -/
def State.parserPause (s : State) : State :=
  match s.rlc.parser with
  | .assembling _ last =>
    if last + Config.parserPause ≤ s.now then s.setRlc { s.rlc with parser := .waiting } else s
  | .waiting => s

end Sys2Proof.Machine
end

