-- ==== Sys2Proof/Machine/Outcomes.lean ====
section
/-!
DEFINITION. Transmission and reception at LNC (spec/04_the_quay_line.md R61, R64 to R70): the start of an attempt, its
completion or collision with what the outcome does at the owner (R66), and the checks and dispatch of a received frame.
-/

namespace Sys2Proof.Machine

/-! ### Attempts and outcomes (R64, R65, R66) -/

/-- The frame as an attempt starts: a CRANE DOWN carries its remaining time (R64, R94). -/
def TxFrame.onLine (f : TxFrame) (now : Micros) : Frame :=
  match f.frame.body with
  | .craneDown crane seq _ payload =>
    { f.frame with body := .craneDown crane seq (BitVec.ofNat 16 (f.remaining now)) payload }
  | _ => f.frame

/-- The frame is a CRANE DOWN. -/
def isCraneDown (b : FrameBody) : Bool :=
  match b with
  | .craneDown .. => true
  | _ => false

/-- The gap has run out on an idle line: LNC enters SENDING with the candidate (R61, R64); a bundle's buffer becomes
SENDING (R150). A CRANE DOWN with no time remaining is withdrawn instead (R94, log 12). -/
def State.gapEnds (s : State) : State :=
  match s.lnc.line with
  | .defer c gapEnd =>
    if gapEnd ≤ s.now then
      match (s.lnc.frames c).head? with
      | some f =>
        if isCraneDown f.frame.body && f.remaining s.now = 0 then s.withdrawCrane 0
        else
          let t := s.setLnc { s.lnc with line := .sending c (f.onLine s.now) }
          if c = .bundle then t.bufferSending f.buffer else t
      | none => s
    else s
  | _ => s

/-- SENT of a frame that has left its class, reported to its owner (R49, R50, R66, R88, R94, R101, R104, R111, R150). -/
def State.frameSent (s : State) (c : TxClass) (f : TxFrame) : State :=
  match c with
  | .crane => s
  | .handover => s.handoverSent f.frame
  | .beacon => s.enterSuccessor
  | .bundle => s.bundleOutcome true f.buffer

/-- DISCARDED at the attempt limit of a frame that has left its class, reported to its owner. -/
def State.frameDiscarded (s : State) (c : TxClass) (f : TxFrame) : State :=
  match c with
  | .crane => s.craneFrameLost f
  | .handover => s.handoverDiscarded f.frame
  | .beacon => s
  | .bundle => s.bundleOutcome false f.buffer

/-- The last byte has gone out without a difference: the frame leaves its class as SENT, its owner is told, and R59
applies (R64). -/
def State.transmissionDone (s : State) : State :=
  match s.lnc.line with
  | .sending c _ =>
    match s.lnc.frames c with
    | f :: rest => ((s.setLnc (s.lnc.setFrames c rest)).frameSent c f).endAttempt
    | [] => s.endAttempt
  | _ => s

/-- A collision: the attempt count rises by one; at the limit the frame is DISCARDED, below it the frame stays at the
head, unless its successor BEACON or a refused withdrawal removes it (R50, R65, R87, R94). -/
def State.collide (s : State) : State :=
  match s.lnc.line with
  | .sending c _ =>
    match s.lnc.frames c with
    | f :: rest =>
      let n := f.attempts + 1
      if c = .beacon ∧ s.cve.successor.isSome then s.enterSuccessor.endAttempt
      else if c.limit ≤ n then ((s.setLnc (s.lnc.setFrames c rest)).frameDiscarded c f).endAttempt
      else
        ((s.setLnc (s.lnc.setFrames c ({ f with attempts := n } :: rest))).attemptCut c).endAttempt
    | [] => s.endAttempt
  | _ => s

/-! ### Age limits of class 0 frames (R87, R94) -/

/-- The age limit of the CRANE UP at a place of class 0 has passed: CRU withdraws it (R87). -/
def State.uplinkAged (s : State) (place : Nat) : State :=
  match s.lnc.class0[place]? with
  | some f => if !isCraneDown f.frame.body && f.expired s.now then s.withdrawCrane place else s
  | none => s

/-- The remaining time of the CRANE DOWN at a place of class 0 has reached 0: CRU withdraws it (R94). -/
def State.downlinkAged (s : State) (place : Nat) : State :=
  match s.lnc.class0[place]? with
  | some f => if isCraneDown f.frame.body && f.expired s.now then s.withdrawCrane place else s
  | none => s

/-! ### Reception (R67 to R70) -/

/-- The block that owns a frame's kind takes it (R70, Table 4-5). -/
def State.dispatchFrame (s : State) (sender : Byte) (b : FrameBody) : State :=
  match b with
  | .beacon flags interval c items => s.beaconIntake sender flags interval c items
  | .craneUp crane seq period late payload => s.passUplink sender crane seq period late payload
  | .craneDown crane seq deadline payload => s.joinDownlink crane seq (clampDeadline deadline) payload
  | .offer crane token segment period late => s.offerReceived sender crane token segment period late
  | .take crane token => s.takeReply sender crane token
  | .refuse crane token reason => s.refuseReply sender crane token reason
  | .commit crane token => s.commitReceived sender crane token
  | .cancel crane token => s.cancelReceived sender crane token
  | .bundle reports => (s.overheardBundle reports).gdsIntake sender reports

/-- The checks of a received frame after its CRC check (R68, R69). -/
def State.checkedFrame (s : State) (f : Frame) : State :=
  if !frameWellFormed f then s
  else if f.sender = s.cfg.address then s.setFlag .addressClash
  else if f.dest = s.cfg.address ∨ f.dest = 63 then s.dispatchFrame f.sender f.body
  else s

/-- The checks of received bytes, the CRC check first (R68). -/
def State.checkedBytes (s : State) (bytes : List Byte) : State :=
  match readFrame bytes with
  | .good f => s.checkedFrame f
  | _ => s

/-- A frame is under reception: LNC is active, neither in FAULT nor in SENDING, and the carrier appeared while it was so
(R67). -/
def State.hears (s : State) : Bool := s.running && s.lnc.receiving && s.lnc.line = .idle

/-- A frame is received: LNC, active and neither in FAULT nor SENDING, takes what a carrier brought that it was receiving
(R67); the carrier's end then lets a DEFER open (R59, log 11). A carrier it was not told of appears with the frame; one
that began during its own transmission or before LNC was active brings no frame. -/
def State.receive (s : State) (take : State → State) : State :=
  let t := s.carrierAppears
  if t.hears then (take t).carrierEnds else t.carrierEnds

end Sys2Proof.Machine
end

