-- ==== Sys2Proof/Machine/StartCommands.lean ====
section
/-!
DEFINITION. The meanings of the commands of start and reset (spec/10_configuration_start_and_restart.md).
-/

namespace Sys2Proof.Machine

/-- A command has had its effect: RLC takes the next outbound message if it can (R167, log 4), and the part goes on. -/
def done (s : State) : Host.Outcome State Fault Refusal := .next s.linkTake

/-- POWER_UP: a cold reset (R182); with the reset input held active the part stays in reset (log 14). -/
def execPowerUp (dt : Micros) (s : State) : Host.Outcome State Fault Refusal :=
  done (s.advance dt).coldReset

/-- RESET_INPUT_ASSERTED: the part is held in reset (R182, log 14). -/
def execResetInputAsserted (dt : Micros) (s : State) : Host.Outcome State Fault Refusal :=
  done ((s.advance dt).resetInput true)

/-- RESET_INPUT_RELEASED: a cold reset and entry to LOAD (R182). -/
def execResetInputReleased (dt : Micros) (s : State) : Host.Outcome State Fault Refusal :=
  done ((s.advance dt).resetInput false)

/-- CONFIG_READ_COMPLETE: HALT or LISTEN by the 24 bytes read (R176 to R181). -/
def execConfigReadComplete (dt : Micros) (record : Vector Byte 24) (s : State) : Host.Outcome State Fault Refusal :=
  done ((s.advance dt).readComplete record)

/-- CONFIG_READY_TIMEOUT: HALT with CONFIG ABSENT 20 ms after the selection (R176). -/
def execConfigReadyTimeout (dt : Micros) (s : State) : Host.Outcome State Fault Refusal :=
  done (s.advance dt).readyTimeout


end Sys2Proof.Machine
end

