-- ==== Sys2Proof/Machine/RadioCommands.lean ====
section
/-!
DEFINITION. The meanings of the commands of the radio link (spec/09_the_radio_link.md). A message row whose fields make the message
malformed runs as the malformed message does (R162, log 15).
-/

namespace Sys2Proof.Machine

/-- PARSER_TIMEOUT: a partial message is abandoned (R161). -/
def execParserTimeout (dt : Micros) (s : State) : Host.Outcome State Fault Refusal :=
  done (s.advance dt).parserPause

/-- INBOUND_MESSAGE_REJECTED: the bytes pass the parser and the two checks; a failed CRC is silent, a malformed message sets
LINK ERROR (R161, R162). Bytes that make a valid message are taken as one (log 16). -/
def execInboundMessageRejected (dt : Micros) (bytes : List Byte) (s : State) : Host.Outcome State Fault Refusal :=
  done ((s.advance dt).receiveBytes bytes)

/-- RADIO_STATUS (R10, R163). -/
def execRadioStatus (dt : Micros) (shadowMap : Word16) (s : State) : Host.Outcome State Fault Refusal :=
  done ((s.advance dt).messageArrives (.radioStatus shadowMap))

/-- QUALITY_SAMPLE (R4, R163). -/
def execQualitySample (dt : Micros) (segment margin : Byte) (s : State) : Host.Outcome State Fault Refusal :=
  done ((s.advance dt).messageArrives (.qualitySample segment margin))

/-- REEFER_REPORT (R4, R120 to R128, R163). -/
def execReeferReport (dt : Micros) (tag : Tag) (segment seq : Byte) (setPoint supply : Word16)
    (alarm margin : Byte) (s : State) : Host.Outcome State Fault Refusal :=
  done ((s.advance dt).messageArrives (.reeferReport tag segment seq setPoint supply alarm margin))

/-- CRANE_ATTACH (R79, R80, R163). -/
def execCraneAttach (dt : Micros) (crane segment : Byte) (s : State) : Host.Outcome State Fault Refusal :=
  done ((s.advance dt).messageArrives (.craneAttach crane segment))

/-- CRANE_POSITION (R81, R163). -/
def execCranePosition (dt : Micros) (crane segment : Byte) (s : State) : Host.Outcome State Fault Refusal :=
  done ((s.advance dt).messageArrives (.cranePosition crane segment))

/-- CRANE_DETACH (R82, R163). -/
def execCraneDetach (dt : Micros) (crane : Byte) (s : State) : Host.Outcome State Fault Refusal :=
  done ((s.advance dt).messageArrives (.craneDetach crane))

/-- CRANE_UPLINK (R5, R84, R85, R95, R97 to R100, R163). -/
def execCraneUplink (dt : Micros) (crane seq margin : Byte) (payload : List Byte) (s : State) : Host.Outcome State Fault Refusal :=
  done ((s.advance dt).messageArrives (.craneUplink crane seq margin payload))

/-- CRANE_DOWNLINK (R94, R95, R96, R163, R164). -/
def execCraneDownlink (dt : Micros) (crane seq : Byte) (deadline : Word16) (payload : List Byte) (s : State) : Host.Outcome State Fault Refusal :=
  done ((s.advance dt).messageArrives (.craneDownlink crane seq deadline payload))

/-- DRAIN (R155, R158, R163). -/
def execDrain (dt : Micros) (limit : Byte) (s : State) : Host.Outcome State Fault Refusal :=
  done ((s.advance dt).messageArrives (.drain limit))

/-- HOLD (R163, R167). -/
def execHold (dt : Micros) (s : State) : Host.Outcome State Fault Refusal :=
  done ((s.advance dt).messageArrives .hold)

/-- RESUME (R163, R167); the next message is taken at once. -/
def execResume (dt : Micros) (s : State) : Host.Outcome State Fault Refusal :=
  done ((s.advance dt).messageArrives .resume)

/-- STATE_QUERY (R163, R174). -/
def execStateQuery (dt : Micros) (s : State) : Host.Outcome State Fault Refusal :=
  done ((s.advance dt).messageArrives .stateQuery)

/-- RESTART (R163, R183). -/
def execRestart (dt : Micros) (s : State) : Host.Outcome State Fault Refusal :=
  done ((s.advance dt).messageArrives .restart)

/-- OUTBOUND_MESSAGE_SENT: the message in progress has gone out, and the next may be taken (R167). -/
def execOutboundMessageSent (dt : Micros) (s : State) : Host.Outcome State Fault Refusal :=
  done (s.advance dt).messageSent


end Sys2Proof.Machine
end

