-- ==== Sys2Proof/Machine/TimerCommands.lean ====
section
/-!
DEFINITION. The meanings of the expiries of the part's timers. An expiry acts only when its timer runs and is due (log 2).
-/

namespace Sys2Proof.Machine

/-- SUPERVISION_TIMER_EXPIRY (R169, R47, R83). -/
def execSupervisionTimerExpiry (dt : Micros) (s : State) : Host.Outcome State Fault Refusal :=
  done (s.advance dt).supervisionExpiry

/-- BEACON_TIMER_EXPIRY (R36 to R54). -/
def execBeaconTimerExpiry (dt : Micros) (s : State) : Host.Outcome State Fault Refusal :=
  done (s.advance dt).beaconExpiry

/-- NEIGHBOUR_STALE_POINT (R28, R29). -/
def execNeighbourStalePoint (dt : Micros) (address : Byte) (s : State) : Host.Outcome State Fault Refusal :=
  done ((s.advance dt).stalePoint address)

/-- NEIGHBOUR_REMOVAL_POINT (R28, R30). -/
def execNeighbourRemovalPoint (dt : Micros) (address : Byte) (s : State) : Host.Outcome State Fault Refusal :=
  done ((s.advance dt).removalPoint address)

/-- CRANE_STALE_EXPIRY (R86). -/
def execCraneStaleExpiry (dt : Micros) (crane : Byte) (s : State) : Host.Outcome State Fault Refusal :=
  done ((s.advance dt).staleWatch crane)

/-- CRANE_UP_AGE_LIMIT: the CRANE UP at a place of class 0 (R87). -/
def execCraneUpAgeLimit (dt : Micros) (place : Nat) (s : State) : Host.Outcome State Fault Refusal :=
  done ((s.advance dt).uplinkAged place)

/-- CRANE_DOWN_REMAINING_ZERO: the CRANE DOWN at a place of class 0 (R94). -/
def execCraneDownRemainingZero (dt : Micros) (place : Nat) (s : State) : Host.Outcome State Fault Refusal :=
  done ((s.advance dt).downlinkAged place)

/-- DOWNLINK_DEADLINE: the entry at a place of a downlink queue (R92). -/
def execDownlinkDeadline (dt : Micros) (crane : Byte) (place : Nat) (s : State) : Host.Outcome State Fault Refusal :=
  done ((s.advance dt).downlinkDue crane place)

/-- OFFER_GUARD_EXPIRY (R106). -/
def execOfferGuardExpiry (dt : Micros) (crane : Byte) (s : State) : Host.Outcome State Fault Refusal :=
  done ((s.advance dt).offerGuard crane)

/-- PENDING_GUARD_EXPIRY (R114). -/
def execPendingGuardExpiry (dt : Micros) (crane : Byte) (s : State) : Host.Outcome State Fault Refusal :=
  done ((s.advance dt).pendingGuard crane)

/-- HOLDBACK_EXPIRY (R136, R139). -/
def execHoldbackExpiry (dt : Micros) (tag : Tag) (s : State) : Host.Outcome State Fault Refusal :=
  done ((s.advance dt).holdbackDue tag)

/-- BUNDLE_WAIT_EXPIRY (R147, R148). -/
def execBundleWaitExpiry (dt : Micros) (s : State) : Host.Outcome State Fault Refusal :=
  done (s.advance dt).bundleWait


end Sys2Proof.Machine
end

