-- ==== Sys2Proof/Machine/LineCommands.lean ====
section
/-!
DEFINITION. The meanings of the commands of the line (spec/04_the_quay_line.md R55 to R66, R71 to R74).
-/

namespace Sys2Proof.Machine

/-- DEFER_GAP_END (R61, R64). -/
def execDeferGapEnd (dt : Micros) (s : State) : Host.Outcome State Fault Refusal :=
  done (s.advance dt).gapEnds

/-- TRANSMISSION_COMPLETE (R64, R66). -/
def execTransmissionComplete (dt : Micros) (s : State) : Host.Outcome State Fault Refusal :=
  done (s.advance dt).transmissionDone

/-- COLLISION (R65, R66). -/
def execCollision (dt : Micros) (s : State) : Host.Outcome State Fault Refusal :=
  done (s.advance dt).collide

/-- CARRIER_APPEARS (R61, R67, R71, R74). -/
def execCarrierAppears (dt : Micros) (s : State) : Host.Outcome State Fault Refusal :=
  done (s.advance dt).carrierAppears

/-- JABBER_DETECTED (R71, R73). -/
def execJabberDetected (dt : Micros) (s : State) : Host.Outcome State Fault Refusal :=
  done (s.advance dt).jabber

/-- LINE_OPEN_REPORTED (R72, R73, R74). -/
def execLineOpenReported (dt : Micros) (s : State) : Host.Outcome State Fault Refusal :=
  done (s.advance dt).lineOpens

/-- FAULT_RECOVERY_EXPIRY (R74). -/
def execFaultRecoveryExpiry (dt : Micros) (s : State) : Host.Outcome State Fault Refusal :=
  done (s.advance dt).faultEnds

/-- CARRIER_ENDS: carrier ends with no frame to be taken (R59, R71, R74). -/
def execCarrierEnds (dt : Micros) (s : State) : Host.Outcome State Fault Refusal :=
  done (s.advance dt).carrierEnds

/-- LINE_CONDITION_OK (R74). -/
def execLineConditionOk (dt : Micros) (s : State) : Host.Outcome State Fault Refusal :=
  done (s.advance dt).lineOk


end Sys2Proof.Machine
end

