-- ==== Sys2Proof/Machine/FrameCommands.lean ====
section
/-!
DEFINITION. The meanings of the received frames (spec/04_the_quay_line.md R67 to R70). A frame row whose fields make the frame
malformed runs as the malformed frame does (R68, log 15).
-/

namespace Sys2Proof.Machine

/-- RECEIVED_FRAME_DISCARDED: the bytes received pass the checks of R68; a failed CRC, a malformed frame and a frame for
another station have no further effect. Bytes that make a frame for this station are taken as one (log 16). -/
def execReceivedFrameDiscarded (dt : Micros) (bytes : List Byte) (s : State) : Host.Outcome State Fault Refusal :=
  done ((s.advance dt).receive fun t => t.checkedBytes bytes)

/-- ADDRESS_CLASH: a well-formed frame with the own address as sender is received (R69). -/
def execAddressClash (dt : Micros) (s : State) : Host.Outcome State Fault Refusal :=
  done ((s.advance dt).receive fun t => t.setFlag .addressClash)

/-- BEACON received (R20 to R27, R68 to R70). -/
def execBeacon (dt : Micros) (sender dest flags : Byte) (interval : Word16) (c : Byte)
    (items : List BeaconItem) (s : State) : Host.Outcome State Fault Refusal :=
  done ((s.advance dt).receive fun t => t.checkedFrame ⟨sender, dest, .beacon flags interval c items⟩)

/-- CRANE_UP received (R96, R68 to R70). -/
def execCraneUp (dt : Micros) (sender dest crane seq : Byte) (period : Word16) (late : Byte)
    (payload : List Byte) (s : State) : Host.Outcome State Fault Refusal :=
  done ((s.advance dt).receive fun t => t.checkedFrame ⟨sender, dest, .craneUp crane seq period late payload⟩)

/-- CRANE_DOWN received (R90, R91, R68 to R70). -/
def execCraneDown (dt : Micros) (sender dest crane seq : Byte) (deadline : Word16)
    (payload : List Byte) (s : State) : Host.Outcome State Fault Refusal :=
  done ((s.advance dt).receive fun t => t.checkedFrame ⟨sender, dest, .craneDown crane seq deadline payload⟩)

/-- OFFER received (R109 to R111, R68 to R70). -/
def execOffer (dt : Micros) (sender dest crane token segment : Byte) (period : Word16)
    (late : Byte) (s : State) : Host.Outcome State Fault Refusal :=
  done ((s.advance dt).receive fun t => t.checkedFrame ⟨sender, dest, .offer crane token segment period late⟩)

/-- TAKE received (R102, R103, R68 to R70). -/
def execTake (dt : Micros) (sender dest crane token : Byte) (s : State) : Host.Outcome State Fault Refusal :=
  done ((s.advance dt).receive fun t => t.checkedFrame ⟨sender, dest, .take crane token⟩)

/-- REFUSE received (R102, R105, R68 to R70). -/
def execRefuse (dt : Micros) (sender dest crane token : Byte) (reason : RefuseReason) (s : State) : Host.Outcome State Fault Refusal :=
  done ((s.advance dt).receive fun t => t.checkedFrame ⟨sender, dest, .refuse crane token reason⟩)

/-- COMMIT received (R112, R68 to R70). -/
def execCommit (dt : Micros) (sender dest crane token : Byte) (s : State) : Host.Outcome State Fault Refusal :=
  done ((s.advance dt).receive fun t => t.checkedFrame ⟨sender, dest, .commit crane token⟩)

/-- CANCEL received (R113, R68 to R70). -/
def execCancel (dt : Micros) (sender dest crane token : Byte) (s : State) : Host.Outcome State Fault Refusal :=
  done ((s.advance dt).receive fun t => t.checkedFrame ⟨sender, dest, .cancel crane token⟩)

/-- BUNDLE received (R130, R137, R156, R68 to R70). -/
def execBundle (dt : Micros) (sender dest : Byte) (reports : List Report) (s : State) : Host.Outcome State Fault Refusal :=
  done ((s.advance dt).receive fun t => t.checkedFrame ⟨sender, dest, .bundle reports⟩)


end Sys2Proof.Machine
end

