-- ==== Sys2Proof/Machine/Dispatch.lean ====
section
/-!
DEFINITION. The effect of each command on everything but the queue, one arm for each row of spec/opcode_table.json.
-/

namespace Sys2Proof.Machine

def exec (i : Instr) (s : State) : Host.Outcome State Fault Refusal :=
  match i with
  | .powerUp dt => Sys2Proof.Machine.execPowerUp dt s
  | .resetInputAsserted dt => Sys2Proof.Machine.execResetInputAsserted dt s
  | .resetInputReleased dt => Sys2Proof.Machine.execResetInputReleased dt s
  | .configReadComplete dt record => Sys2Proof.Machine.execConfigReadComplete dt record s
  | .configReadyTimeout dt => Sys2Proof.Machine.execConfigReadyTimeout dt s
  | .parserTimeout dt => Sys2Proof.Machine.execParserTimeout dt s
  | .inboundMessageRejected dt bytes => Sys2Proof.Machine.execInboundMessageRejected dt bytes s
  | .radioStatus dt shadowMap => Sys2Proof.Machine.execRadioStatus dt shadowMap s
  | .qualitySample dt segment margin => Sys2Proof.Machine.execQualitySample dt segment margin s
  | .reeferReport dt tag segment seq setPoint supply alarm margin => Sys2Proof.Machine.execReeferReport dt tag segment seq setPoint supply alarm margin s
  | .craneAttach dt crane segment => Sys2Proof.Machine.execCraneAttach dt crane segment s
  | .cranePosition dt crane segment => Sys2Proof.Machine.execCranePosition dt crane segment s
  | .craneDetach dt crane => Sys2Proof.Machine.execCraneDetach dt crane s
  | .craneUplink dt crane seq margin payload => Sys2Proof.Machine.execCraneUplink dt crane seq margin payload s
  | .craneDownlink dt crane seq deadline payload => Sys2Proof.Machine.execCraneDownlink dt crane seq deadline payload s
  | .drain dt limit => Sys2Proof.Machine.execDrain dt limit s
  | .hold dt => Sys2Proof.Machine.execHold dt s
  | .resume dt => Sys2Proof.Machine.execResume dt s
  | .stateQuery dt => Sys2Proof.Machine.execStateQuery dt s
  | .restart dt => Sys2Proof.Machine.execRestart dt s
  | .outboundMessageSent dt => Sys2Proof.Machine.execOutboundMessageSent dt s
  | .supervisionTimerExpiry dt => Sys2Proof.Machine.execSupervisionTimerExpiry dt s
  | .beaconTimerExpiry dt => Sys2Proof.Machine.execBeaconTimerExpiry dt s
  | .neighbourStalePoint dt address => Sys2Proof.Machine.execNeighbourStalePoint dt address s
  | .neighbourRemovalPoint dt address => Sys2Proof.Machine.execNeighbourRemovalPoint dt address s
  | .craneStaleExpiry dt crane => Sys2Proof.Machine.execCraneStaleExpiry dt crane s
  | .craneUpAgeLimit dt place => Sys2Proof.Machine.execCraneUpAgeLimit dt place s
  | .craneDownRemainingZero dt place => Sys2Proof.Machine.execCraneDownRemainingZero dt place s
  | .downlinkDeadline dt crane place => Sys2Proof.Machine.execDownlinkDeadline dt crane place s
  | .offerGuardExpiry dt crane => Sys2Proof.Machine.execOfferGuardExpiry dt crane s
  | .pendingGuardExpiry dt crane => Sys2Proof.Machine.execPendingGuardExpiry dt crane s
  | .holdbackExpiry dt tag => Sys2Proof.Machine.execHoldbackExpiry dt tag s
  | .bundleWaitExpiry dt => Sys2Proof.Machine.execBundleWaitExpiry dt s
  | .deferGapEnd dt => Sys2Proof.Machine.execDeferGapEnd dt s
  | .transmissionComplete dt => Sys2Proof.Machine.execTransmissionComplete dt s
  | .collision dt => Sys2Proof.Machine.execCollision dt s
  | .carrierAppears dt => Sys2Proof.Machine.execCarrierAppears dt s
  | .jabberDetected dt => Sys2Proof.Machine.execJabberDetected dt s
  | .lineOpenReported dt => Sys2Proof.Machine.execLineOpenReported dt s
  | .faultRecoveryExpiry dt => Sys2Proof.Machine.execFaultRecoveryExpiry dt s
  | .receivedFrameDiscarded dt bytes => Sys2Proof.Machine.execReceivedFrameDiscarded dt bytes s
  | .addressClash dt => Sys2Proof.Machine.execAddressClash dt s
  | .beacon dt sender dest flags interval c items => Sys2Proof.Machine.execBeacon dt sender dest flags interval c items s
  | .craneUp dt sender dest crane seq period late payload => Sys2Proof.Machine.execCraneUp dt sender dest crane seq period late payload s
  | .craneDown dt sender dest crane seq deadline payload => Sys2Proof.Machine.execCraneDown dt sender dest crane seq deadline payload s
  | .offer dt sender dest crane token segment period late => Sys2Proof.Machine.execOffer dt sender dest crane token segment period late s
  | .take dt sender dest crane token => Sys2Proof.Machine.execTake dt sender dest crane token s
  | .refuse dt sender dest crane token reason => Sys2Proof.Machine.execRefuse dt sender dest crane token reason s
  | .commit dt sender dest crane token => Sys2Proof.Machine.execCommit dt sender dest crane token s
  | .cancel dt sender dest crane token => Sys2Proof.Machine.execCancel dt sender dest crane token s
  | .bundle dt sender dest reports => Sys2Proof.Machine.execBundle dt sender dest reports s
  | .carrierEnds dt => Sys2Proof.Machine.execCarrierEnds dt s
  | .lineConditionOk dt => Sys2Proof.Machine.execLineConditionOk dt s

end Sys2Proof.Machine
end

