-- ==== Sys2Proof/Safety.lean ====
section
/-!
DEFINITION. What holds of the part in every state a run can reach: the invariants the chapters state of each block. The
statements of Certificates say that every step keeps them.
-/

namespace Sys2Proof

/-! ### What a command carries -/

/-- The microseconds a command says have passed since the one before it (log 1). -/
def Instr.elapsed : Instr → Micros
  | .powerUp dt | .resetInputAsserted dt | .resetInputReleased dt | .configReadComplete dt _ | .configReadyTimeout dt
  | .parserTimeout dt | .inboundMessageRejected dt _ | .radioStatus dt _ | .qualitySample dt _ _
  | .reeferReport dt _ _ _ _ _ _ _ | .craneAttach dt _ _ | .cranePosition dt _ _ | .craneDetach dt _
  | .craneUplink dt _ _ _ _ | .craneDownlink dt _ _ _ _ | .drain dt _ | .hold dt | .resume dt | .stateQuery dt
  | .restart dt | .outboundMessageSent dt | .supervisionTimerExpiry dt | .beaconTimerExpiry dt
  | .neighbourStalePoint dt _ | .neighbourRemovalPoint dt _ | .craneStaleExpiry dt _ | .craneUpAgeLimit dt _
  | .craneDownRemainingZero dt _ | .downlinkDeadline dt _ _ | .offerGuardExpiry dt _ | .pendingGuardExpiry dt _
  | .holdbackExpiry dt _ | .bundleWaitExpiry dt | .deferGapEnd dt | .transmissionComplete dt | .collision dt
  | .carrierAppears dt | .jabberDetected dt | .lineOpenReported dt | .faultRecoveryExpiry dt
  | .receivedFrameDiscarded dt _ | .addressClash dt | .beacon dt _ _ _ _ _ _ | .craneUp dt _ _ _ _ _ _ _
  | .craneDown dt _ _ _ _ _ _ | .offer dt _ _ _ _ _ _ _ | .take dt _ _ _ _ | .refuse dt _ _ _ _ _
  | .commit dt _ _ _ _ | .cancel dt _ _ _ _ | .bundle dt _ _ _ | .carrierEnds dt | .lineConditionOk dt => dt

/-- The message a row of the radio link stands for. -/
def Instr.message : Instr → Option Inbound
  | .radioStatus _ m => some (.radioStatus m)
  | .qualitySample _ g m => some (.qualitySample g m)
  | .reeferReport _ tag g q sp su alarm margin => some (.reeferReport tag g q sp su alarm margin)
  | .craneAttach _ crane g => some (.craneAttach crane g)
  | .cranePosition _ crane g => some (.cranePosition crane g)
  | .craneDetach _ crane => some (.craneDetach crane)
  | .craneUplink _ crane seq margin payload => some (.craneUplink crane seq margin payload)
  | .craneDownlink _ crane seq deadline payload => some (.craneDownlink crane seq deadline payload)
  | .drain _ limit => some (.drain limit)
  | .hold _ => some .hold
  | .resume _ => some .resume
  | .stateQuery _ => some .stateQuery
  | .restart _ => some .restart
  | .powerUp _ | .resetInputAsserted _ | .resetInputReleased _ | .configReadComplete _ _ | .configReadyTimeout _
  | .parserTimeout _ | .inboundMessageRejected _ _ | .outboundMessageSent _ | .supervisionTimerExpiry _
  | .beaconTimerExpiry _ | .neighbourStalePoint _ _ | .neighbourRemovalPoint _ _ | .craneStaleExpiry _ _
  | .craneUpAgeLimit _ _ | .craneDownRemainingZero _ _ | .downlinkDeadline _ _ _ | .offerGuardExpiry _ _
  | .pendingGuardExpiry _ _ | .holdbackExpiry _ _ | .bundleWaitExpiry _ | .deferGapEnd _ | .transmissionComplete _
  | .collision _ | .carrierAppears _ | .jabberDetected _ | .lineOpenReported _ | .faultRecoveryExpiry _
  | .receivedFrameDiscarded _ _ | .addressClash _ | .beacon _ _ _ _ _ _ _ | .craneUp _ _ _ _ _ _ _ _
  | .craneDown _ _ _ _ _ _ _ | .offer _ _ _ _ _ _ _ _ | .take _ _ _ _ _ | .refuse _ _ _ _ _ _ | .commit _ _ _ _ _
  | .cancel _ _ _ _ _ | .bundle _ _ _ _ | .carrierEnds _ | .lineConditionOk _ => none

/-- The frame a row of received frames stands for. -/
def Instr.frame : Instr → Option Frame
  | .beacon _ sender dest flags interval c items => some ⟨sender, dest, .beacon flags interval c items⟩
  | .craneUp _ sender dest crane seq period late payload => some ⟨sender, dest, .craneUp crane seq period late payload⟩
  | .craneDown _ sender dest crane seq deadline payload => some ⟨sender, dest, .craneDown crane seq deadline payload⟩
  | .offer _ sender dest crane token segment period late =>
    some ⟨sender, dest, .offer crane token segment period late⟩
  | .take _ sender dest crane token => some ⟨sender, dest, .take crane token⟩
  | .refuse _ sender dest crane token reason => some ⟨sender, dest, .refuse crane token reason⟩
  | .commit _ sender dest crane token => some ⟨sender, dest, .commit crane token⟩
  | .cancel _ sender dest crane token => some ⟨sender, dest, .cancel crane token⟩
  | .bundle _ sender dest reports => some ⟨sender, dest, .bundle reports⟩
  | .powerUp _ | .resetInputAsserted _ | .resetInputReleased _ | .configReadComplete _ _ | .configReadyTimeout _
  | .parserTimeout _ | .inboundMessageRejected _ _ | .radioStatus _ _ | .qualitySample _ _ _
  | .reeferReport _ _ _ _ _ _ _ _ | .craneAttach _ _ _ | .cranePosition _ _ _ | .craneDetach _ _
  | .craneUplink _ _ _ _ _ | .craneDownlink _ _ _ _ _ | .drain _ _ | .hold _ | .resume _ | .stateQuery _
  | .restart _ | .outboundMessageSent _ | .supervisionTimerExpiry _ | .beaconTimerExpiry _
  | .neighbourStalePoint _ _ | .neighbourRemovalPoint _ _ | .craneStaleExpiry _ _ | .craneUpAgeLimit _ _
  | .craneDownRemainingZero _ _ | .downlinkDeadline _ _ _ | .offerGuardExpiry _ _ | .pendingGuardExpiry _ _
  | .holdbackExpiry _ _ | .bundleWaitExpiry _ | .deferGapEnd _ | .transmissionComplete _ | .collision _
  | .carrierAppears _ | .jabberDetected _ | .lineOpenReported _ | .faultRecoveryExpiry _ | .receivedFrameDiscarded _ _
  | .addressClash _ | .carrierEnds _ | .lineConditionOk _ => none

end Sys2Proof

namespace Sys2Proof.Machine

/-! ### STC -/

/-- Every figure of a loaded configuration is in the range of Table 10-2, the home range lies on the quay, and an EDGE
station serves at least one segment (R1, R178, R179). -/
structure SettingsOk (c : Settings) : Prop where
  address : 1 ≤ c.address.toNat ∧ c.address.toNat ≤ 62
  homeCount : c.homeCount ≤ 16
  onQuay : c.homeFirst ≤ 127 ∧ c.homeFirst + c.homeCount ≤ 128
  edge : c.role = .edge → 1 ≤ c.homeCount
  beaconBase : 50 ≤ c.beaconBase ∧ c.beaconBase ≤ 2000 ∧ c.beaconBase % 10 = 0
  qualShift : 1 ≤ c.qualShift ∧ c.qualShift ≤ 4
  hyst : c.hyst ≤ 63
  claimFloor : c.claimFloor ≤ 255
  shadowCap : c.shadowCap ≤ 511
  hbBase : 10 ≤ c.hbBase ∧ c.hbBase ≤ 1000
  bundleLimit : c.bundleLimit ≤ bufferCapacity c.bundleMode
  bundleWait : 50 ≤ c.bundleWait ∧ c.bundleWait ≤ 5000
  handoverGuard : 20 ≤ c.handoverGuard ∧ c.handoverGuard ≤ 500
  craneStale : 50 ≤ c.craneStale ∧ c.craneStale ≤ 2000
  radioWatch : 100 ≤ c.radioWatch ∧ c.radioWatch ≤ 5000

/-- Every block but STC and RLC holds its reset state (R172, R176). -/
def State.blocksAtReset (s : State) : Prop :=
  s.cve = .reset ∧ s.nbt = .reset ∧ s.cru = .reset ∧ s.rfi = .reset ∧ s.bas = .reset ∧ s.gds = .reset ∧ s.lnc = .reset

/-- The run state and what goes with it: a configuration in range is loaded exactly in LISTEN and RUN; in LOAD and HALT
the blocks hold their reset values (R172, R176, R178); the memory is read in LOAD alone, throughout it but while the
reset input is held, when RLC too holds its reset state (R176, R182); there is a halt reason exactly in HALT (R180,
R182); the warm count lies in 0..15 (R183). -/
structure StartOk (s : State) : Prop where
  loaded : s.running = true → ∃ c, s.stc.loaded = some c ∧ SettingsOk c
  unloaded : s.running = false → s.stc.loaded = none ∧ s.blocksAtReset
  reading : s.stc.readSince ≠ none → s.stc.runState = .load
  loading : s.stc.runState = .load → s.pins.resetHeld = false → s.stc.readSince ≠ none
  held : s.pins.resetHeld = true → s.stc.runState = .load ∧ s.stc.readSince = none ∧ s.rlc = .reset
  halted : s.stc.haltReason ≠ .none ↔ s.stc.runState = .halt
  warmCount : s.stc.warmCount ≤ 15

/-! ### CVE and CRU -/

/-- A segment record is in the ranges of Table 1-2, its quality derived from its accumulator (R7, R8, R13). -/
def Segment.ok (r : Segment) : Prop := r.acc ≤ 4080 ∧ r.quality = qualityOf r.acc ∧ r.score ≤ 511

/-- There is one record in range for each home segment (R3, R7, R8, R13), and the LISTEN count has not passed 12 (R37). -/
structure SegmentsOk (s : State) : Prop where
  count : s.running = true → s.cve.segments.length = s.cfg.homeCount
  ranges : ∀ r ∈ s.cve.segments, r.ok
  listenCount : s.cve.listenCount ≤ 12
  listening : s.stc.runState = .listen → s.cve.listenCount < 12

/-- R35: outside RUN, or while the radio-lost condition stands, nothing is CLAIMED or HELD, and a HELD segment is the
position of an active context. -/
structure ClaimsOk (s : State) : Prop where
  none : s.stc.runState ≠ .run ∨ s.rlc.radioLost = true → ∀ r ∈ s.cve.segments, r.claim = .unclaimed
  held : ∀ i r, s.cve.segments[i]? = some r → r.claim = .held → s.activeAt (segmentAt s.cfg i) = true

/-- A context is in the ranges of Table 5-1; a PENDING one has an empty queue (R76, R78, R89, R90). -/
structure ContextOk (c : Context) : Prop where
  crane : 1 ≤ c.crane.toNat ∧ c.crane.toNat ≤ 31
  position : c.position.toNat ≤ 127
  period : ∀ p, c.period = some p → 1 ≤ p ∧ p ≤ 4095
  late : c.late ≤ 255
  queue : c.queue.length ≤ 4
  payload : ∀ e ∈ c.queue, 1 ≤ e.payload.length ∧ e.payload.length ≤ 48
  pending : c.active = false → c.queue = []

/-- R77: at most four contexts, no crane twice, and none outside RUN or while the radio-lost condition stands. -/
structure CranesOk (s : State) : Prop where
  sorted : TableSorted Context.key s.cru.contexts
  count : s.cru.contexts.length ≤ 4
  free : s.stc.runState ≠ .run ∨ s.rlc.radioLost = true → s.cru.contexts = []
  contexts : ∀ c ∈ s.cru.contexts, ContextOk c

/-! ### NBT -/

/-- An entry is in the ranges of Table 2-1 and its list is of watched segments, none twice (R19, R21, R22). -/
structure NeighbourOk (c : Settings) (e : Neighbour) : Prop where
  address : 1 ≤ e.address.toNat ∧ e.address.toNat ≤ 62 ∧ e.address ≠ c.address
  interval : 50 ≤ e.interval ∧ e.interval ≤ 8000
  advertisedC : e.advertisedC ≤ 4
  count : 1 ≤ e.items.length ∧ e.items.length ≤ 16
  sorted : TableSorted AdvItem.key e.items
  items : ∀ i ∈ e.items, inWatchRange c i.segment = true ∧ i.score ≤ 511

/-- R19: at most 12 entries, none of one address twice, none of the own address. -/
structure NeighboursOk (s : State) : Prop where
  sorted : TableSorted Neighbour.key s.nbt.entries
  count : s.nbt.entries.length ≤ 12
  entries : ∀ e ∈ s.nbt.entries, NeighbourOk s.cfg e

/-! ### RFI -/

/-- What a report carries beyond RFI: a tag that is not 0, a segment of the quay, and clamped temperatures (R120, R156). -/
def reportOk (r : Report) : Prop :=
  r.tag ≠ 0 ∧ r.segment.toNat ≤ 127 ∧ (-400 ≤ r.setPoint.toInt ∧ r.setPoint.toInt ≤ 500) ∧
    (-400 ≤ r.supply.toInt ∧ r.supply.toInt ≤ 500)

/-- R124, R129, R131: custody and holdback hold no tag twice and share none, custody stands only in CLAIMED home
segments, and no tag is 0. -/
structure ReefersOk (s : State) : Prop where
  custodySorted : TableSorted Custody.key s.rfi.custody
  custodyCount : s.rfi.custody.length ≤ 384
  custodyClaimed : ∀ r ∈ s.rfi.custody, s.claimedHere r.segment = true ∧ r.tag ≠ 0
  heldSorted : TableSorted Held.key s.rfi.holdback
  heldCount : s.rfi.holdback.length ≤ 32
  held : ∀ e ∈ s.rfi.holdback, reportOk e.report
  disjoint : ∀ r ∈ s.rfi.custody, ∀ e ∈ s.rfi.holdback, r.tag ≠ e.report.tag

/-! ### BAS -/

/-- The buffer's bundle is with LNC. -/
def Buffer.given (b : Buffer) : Bool := b.state = .closed || b.state = .sending

/-- A buffer is as Table 8-1 says of its state, for an effective limit (R144). -/
def Buffer.ok (limit : Nat) (b : Buffer) : Prop :=
  (∀ r ∈ b.reports, reportOk r) ∧
  match b.state with
  | .empty => b.reports = []
  | .filling => 1 ≤ b.reports.length ∧ 1 ≤ b.room ∧ b.reports.length + b.room = limit
  | .closed | .sending => 1 ≤ b.reports.length ∧ b.reports.length + b.room = limit

/-- R141, R143, R144, R145: the buffers of the arrangement, at most one of them FILLING, the wait timer running exactly
then, intakes within their capacity and of their class, and no report waiting while a buffer can receive it. -/
structure BundlesOk (s : State) : Prop where
  arranged : s.running = true → s.bas.buffers.length = bufferCount s.cfg.bundleMode
  buffers : ∀ b ∈ s.bas.buffers, b.ok (effectiveLimit s.cfg)
  oneFilling : (s.bas.buffers.countP fun b => b.state = .filling) ≤ 1
  waiting : s.bas.waitDue ≠ none ↔ ∃ b ∈ s.bas.buffers, b.state = .filling
  alerts : s.bas.alertIntake.length ≤ 8 ∧ ∀ r ∈ s.bas.alertIntake, r.cls = .alert ∧ reportOk r
  routines : s.bas.routineIntake.length ≤ 32 ∧ ∀ r ∈ s.bas.routineIntake, r.cls = .routine ∧ reportOk r
  moved : receivingBuffer s.bas.buffers ≠ none → s.bas.alertIntake = [] ∧ s.bas.routineIntake = []

/-! ### GDS -/

/-- R155 to R159: the filter holds no pair twice, filter and store keep their capacity, and while a drain is under way
exactly the oldest record is in hand, none otherwise, with 1..64 still allowed. -/
structure DeliveryOk (s : State) : Prop where
  seen : s.gds.seen.Nodup ∧ s.gds.seen.length ≤ 256
  store : s.gds.store.length ≤ 256 ∧ ∀ x ∈ s.gds.store, reportOk x.report
  idle : s.gds.drain = .idle → ∀ x ∈ s.gds.store, x.inHand = false
  draining : ∀ a n, s.gds.drain = .draining a n → 1 ≤ a ∧ a + n ≤ 64 ∧
    ∃ x rest, s.gds.store = x :: rest ∧ x.inHand = true ∧ ∀ y ∈ rest, y.inHand = false

/-! ### LNC -/

/-- Which frames a class holds (Table 4-2). -/
def TxClass.holds (c : TxClass) (b : FrameBody) : Prop :=
  match b with
  | .craneUp .. | .craneDown .. => c = .crane
  | .offer .. | .take .. | .refuse .. | .commit .. | .cancel .. => c = .handover
  | .beacon .. => c = .beacon
  | .bundle .. => c = .bundle

/-- The capacity of a class (Table 4-2). -/
def TxClass.capacity : TxClass → Nat
  | .crane => 8 | .handover => 8 | .beacon => 1 | .bundle => 2

/-- R56, R59, R63, R65, R72: each class holds frames of its own kinds, within its capacity, each with fewer attempts than the
limit; the slot of a station with no home range is empty (R39); the candidate of a DEFER and the frame being sent stand in
their class; a DEFER stands on an idle line, and no
frame waits in IDLE on one; a frame is received in IDLE alone; the generator has not reached 0; while LNC is active, a line
reported open stands in FAULT (R72, R74). -/
structure LineOk (s : State) : Prop where
  capacity : ∀ c, (s.lnc.frames c).length ≤ c.capacity
  kinds : ∀ c, ∀ f ∈ s.lnc.frames c, c.holds f.frame.body ∧ f.attempts < c.limit
  slot : s.cfg.homeCount = 0 → s.lnc.class2 = []
  candidate : ∀ c t, s.lnc.line = .defer c t → s.lnc.frames c ≠ [] ∧ s.pins.carrier = false
  sent : ∀ c f, s.lnc.line = .sending c f → s.lnc.frames c ≠ []
  used : s.running = true → s.lnc.line = .idle → s.pins.carrier = false → s.lnc.candidate = none
  receiving : s.lnc.receiving = true → s.pins.carrier = true ∧ s.lnc.line = .idle
  generator : s.running = true → s.lnc.generator ≠ 0
  opened : s.running = true → s.pins.lineOpen = true → s.lnc.line = .fault

/-- R50, R144, R150: a successor BEACON waits only behind a BEACON being transmitted, and the bundles in class 3 are those
of the CLOSED and SENDING buffers, one each. -/
structure OwnersOk (s : State) : Prop where
  successor : ∀ f, s.cve.successor = some f → TxClass.beacon.holds f.body ∧ s.lnc.transmitting .beacon = true
  bundles : ∀ f ∈ s.lnc.class3, ∃ b, s.bas.buffers[f.buffer]? = some b ∧ b.given = true ∧
    f.frame.body = .bundle b.reports
  distinct : (s.lnc.class3.map (·.buffer)).Nodup
  count : s.lnc.class3.length = s.bas.buffers.countP Buffer.given

/-- A frame this station may put on the line: not malformed (R188), with the own address as sender. -/
def State.mayTransmit (s : State) (f : Frame) : Prop := frameWellFormed f = true ∧ f.sender = s.cfg.address

/-- R186, R188: "it puts every field within the range its owning chapter gives": every frame given to LNC, held as
successor or on the line is well formed and carries the own address. -/
structure FramesOk (s : State) : Prop where
  given : ∀ c, ∀ f ∈ s.lnc.frames c, s.mayTransmit f.frame
  successor : ∀ f, s.cve.successor = some f → s.mayTransmit f
  onLine : ∀ c f, s.lnc.line = .sending c f → s.mayTransmit f

/-! ### RLC -/

/-- R165, R166, R167, R169, R171: the queues keep their capacity, at most one STATE REPORT waits, a DRAIN RECORD waits
exactly while a drain is under way, a recorded occasion outside LOAD has its STATE REPORT waiting, and STOPPED and the
radio-lost condition stand only in LISTEN and RUN. -/
structure LinkOk (s : State) : Prop where
  control : s.rlc.control.length ≤ 8
  oneReport : s.rlc.control.countP ControlMsg.isReport ≤ 1
  terminal : s.rlc.terminal.length ≤ 4
  drainQueue : s.rlc.drainQueue.length ≤ 8
  oneRecord : (s.rlc.drainQueue.countP fun m => !m.isEnd) = if s.gds.drain = .idle then 0 else 1
  owed : s.stc.runState ≠ .load → s.rlc.occasions ≠ .empty → ControlMsg.stateReport ∈ s.rlc.control
  running : s.rlc.stopped = true ∨ s.rlc.radioLost = true → s.running = true

/-- R167: while the link is free and FLOWING nothing waits to be taken. -/
def State.linkUsed (s : State) : Prop :=
  s.rlc.inProgress = none → s.rlc.stopped = false →
    s.rlc.control = [] ∧ s.takeCrane = none ∧ s.rlc.drainQueue = []

/-! ### Timers and notices -/

/-- Which timers run: the beacon and supervision timers exactly in LISTEN and RUN (R36, R169), the carrier timer exactly
while carrier is present outside SENDING (R71), the recovery timer exactly in FAULT on an idle line reported OK (R74);
a beacon gap is BEACON_BASE times 1, 2, 3 or 4 (R17). -/
structure TimersOk (s : State) : Prop where
  beacon : s.cve.beaconDue ≠ none ↔ s.running = true
  supervision : s.rlc.supervisionDue ≠ none ↔ s.running = true
  carrier : s.lnc.carrierSince ≠ none ↔ s.running = true ∧ s.pins.carrier = true ∧ s.transmitEnable = false
  recovery : s.lnc.recoverySince ≠ none ↔ s.lnc.line = .fault ∧ s.pins.carrier = false ∧ s.pins.lineOpen = false
  gap : s.running = true → ∃ k, 1 ≤ k ∧ k ≤ 4 ∧ s.cve.beaconGap = s.cfg.beaconBase * k

/-- R53, R54: the notified maps are the maps of the claim fields. -/
def NoticesOk (s : State) : Prop :=
  s.cve.notifiedClaimed = claimMap .claimed s.cve.segments ∧ s.cve.notifiedHeld = claimMap .held s.cve.segments

/-! ### The whole -/

/-- What holds of the part after any run from reset. -/
structure Sound (s : State) : Prop where
  start : StartOk s
  segments : SegmentsOk s
  claims : ClaimsOk s
  cranes : CranesOk s
  neighbours : NeighboursOk s
  reefers : ReefersOk s
  bundles : BundlesOk s
  delivery : DeliveryOk s
  line : LineOk s
  owners : OwnersOk s
  frames : FramesOk s
  link : LinkOk s
  timers : TimersOk s
  notices : NoticesOk s

/-! ### The moments the statements speak of -/

/-- The run state in which the evaluation of an expiry is made: the twelfth expiry of LISTEN makes it in RUN (R37). -/
def State.evaluatedIn (s : State) : RunState :=
  if s.stc.runState = .listen ∧ s.cve.listenCount = 11 then .run else s.stc.runState

/-- The part as the owners of a valid message find it in LISTEN and RUN: the parser WAITING and the supervision step
taken (R161, R163). -/
def State.accepting (s : State) (dt : Micros) : State :=
  State.supervisionStep ((s.advance dt).setRlc { s.rlc with parser := .waiting })

/-- The part takes messages and is in LISTEN or RUN. -/
def State.attends (s : State) : Prop := s.running = true ∧ s.pins.resetHeld = false

/-- The part as a frame's last byte finds it: a carrier not reported before has appeared with it (log 11). -/
def State.arriving (s : State) (dt : Micros) : State := (s.advance dt).carrierAppears

/-- A frame that passes the checks of R68 and is dispatched. -/
def State.dispatches (s : State) (f : Frame) : Prop :=
  frameWellFormed f = true ∧ f.sender ≠ s.cfg.address ∧ (f.dest = s.cfg.address ∨ f.dest = 63)

/-! ### What a command changes -/

/-- `t` is `s` with the context of one crane brought to `c`, none meaning FREE; every other context and every other block
is as it was (R77). -/
def State.changesContext (s t : State) (crane : Byte) (c : Option Context) : Prop :=
  t.contextOf crane = c ∧ (∀ k, k ≠ crane → t.contextOf k = s.contextOf k) ∧
    t.cru.tokenCounter = s.cru.tokenCounter ∧ t.setCru s.cru = s

/-- `t` is `s` with one more late frame of a crane: the late count of the context holding it, if any, is one higher, at
most 255 (R87, R88, R89). -/
def State.countsLate (s t : State) (crane : Byte) : Prop :=
  (s.contextOf crane = none → t = s) ∧
    ∀ c, s.contextOf crane = some c →
      s.changesContext t crane (some { c with late := if c.late < 255 then c.late + 1 else 255 })

/-- `t` is `s` with the custody record and the holdback entry of one tag brought to `r` and `e`; every other tag and every
other block is as it was (R124, R131). -/
def State.changesTag (s t : State) (tag : Tag) (r : Option Custody) (e : Option Held) : Prop :=
  t.custodyOf tag = r ∧ t.heldOf tag = e ∧
    (∀ k, k ≠ tag → t.custodyOf k = s.custodyOf k ∧ t.heldOf k = s.heldOf k) ∧ t.setRfi s.rfi = s

end Sys2Proof.Machine
end

