-- ==== Sys2Proof/Certificates/Slice0/Obligations.lean ====
section
/-!
DEFINITION. The statements for the provers. `Sound` (Safety.lean) is what every step keeps; a statement that needs more
of its state than the rule names takes it as a premise.

Four choices of the model give the statements their form. A command carries the time since the one before it (log 1). An
expiry acts only when it is due (log 2), and times are compared to the microsecond (log 23). RLC takes the next outbound
message at the end of each command (log 4): most statements give the state before that, `t` in
`exec c s = .next t.linkTake`, and `Obligations.OutboundOrder` says what the take does. A received frame is dispatched
before the DEFER that its carrier's end opens, and its row brings a carrier that was not recorded (log 11): a statement
about one starts from `s.arriving dt` and gives the state before the carrier's end, `t` in `t.carrierEnds`, which
`Obligations.CarrierChanges` describes.
-/

open Sys2Proof Sys2Proof.Machine

/-! ### The machine as a whole -/

/-- The step takes the command at the front of the queue and runs it with the queue's rest; on an empty queue the part
idles (log 3). -/
def Obligations.StepRunsFrontCommand : Prop :=
  ∀ (c : Instr) (rest : List Instr) (s : State),
    (s.pending = c :: rest → step s = exec c (s.setPending rest)) ∧ (s.pending = [] → step s = .next s)

/-- Every command completes in every state: it answers a next state, leaves the queue alone, and the clock has moved by
what the command says (log 1). After it, a free link that is FLOWING has nothing left to take (R167, log 4). -/
def Obligations.CommandsComplete : Prop :=
  ∀ (c : Instr) (s : State), ∃ t : State,
    exec c s = .next t ∧ t.pending = s.pending ∧ t.now = s.now + c.elapsed ∧ t.linkUsed

/-- The state right after power-up has every invariant. -/
def Obligations.SoundAtReset : Prop := Sound State.reset

/-- Every step keeps every invariant. The statements that follow give its parts. -/
def Obligations.SoundKept : Prop := ∀ s t : State, Sound s → step s = .next t → Sound t

/-- Every step keeps the invariants of the run state, as Table 10-1 gives them, and of the timers that run in it (R36, R71,
R74, R169, R176, R178, R180). While the reset input is held they say LOAD, no read under way and RLC at reset (R182,
log 14). -/
def Obligations.StartKept : Prop := ∀ s t : State, Sound s → step s = .next t → StartOk t ∧ TimersOk t

/-- Every step keeps the ranges of the segment records and of the LISTEN count (R3, R7, R8, R13, R37), and the notified
maps equal to the maps of the claims (R54). -/
def Obligations.SegmentsKept : Prop := ∀ s t : State, Sound s → step s = .next t → SegmentsOk t ∧ NoticesOk t

/-- R35: outside RUN and under radio loss no home segment is CLAIMED or HELD, and every HELD segment is the position of a
context in ANCHORED or OFFERING; it holds at reset and every step keeps it. -/
def Obligations.ClaimsKept : Prop :=
  ClaimsOk State.reset ∧ ∀ s t : State, Sound s → step s = .next t → ClaimsOk t

/-- Every step keeps the crane contexts within four, none twice for a crane, none outside RUN or under radio loss, each in
the ranges of Table 5-1 (R76 to R78, R89 to R91), and the neighbour table within 12 entries, none twice for an address, none
for the own, each in the ranges of Table 2-1 (R19, R21, R22). -/
def Obligations.TablesKept : Prop := ∀ s t : State, Sound s → step s = .next t → CranesOk t ∧ NeighboursOk t

/-- Every step keeps custody in CLAIMED home segments, and no tag twice in custody and holdback together (R124, R129,
R131). -/
def Obligations.ReefersKept : Prop := ∀ s t : State, Sound s → step s = .next t → ReefersOk t

/-- Every step keeps the bundle buffers as Table 8-1 describes them, the wait timer with the FILLING buffer, and no report
waiting while a buffer can receive it (R141 to R147). -/
def Obligations.BundlesKept : Prop := ∀ s t : State, Sound s → step s = .next t → BundlesOk t

/-- Every step keeps the delivery store, the seen filter and the drain, and RLC's queues (R155 to R159, R165, R166, R169,
R171). -/
def Obligations.DeliveryKept : Prop := ∀ s t : State, Sound s → step s = .next t → DeliveryOk t ∧ LinkOk t

/-- Every step keeps the transmit classes, the line state and the generator in order, an active LNC in FAULT while the line
is reported open (log 18), the successor BEACON behind a BEACON in transmission, and the bundles of class 3 those of the
CLOSED and SENDING buffers (R50, R56, R59, R63, R65, R72, R144). -/
def Obligations.LineKept : Prop := ∀ s t : State, Sound s → step s = .next t → LineOk t ∧ OwnersOk t

/-- Every frame the part has given to its line controller, holds as successor or puts on the line is well formed by R188 and
carries the own address. -/
def Obligations.FramesKept : Prop := ∀ s t : State, Sound s → step s = .next t → FramesOk t

/-! ### Formats -/

/-- A well-formed frame comes back whole from its bytes through the checks of R68 (R186 to R188). -/
def Obligations.FrameRoundTrip : Prop :=
  ∀ f : Frame, frameWellFormed f = true → readFrame (encodeFrame f) = .good f

/-- A well-formed message of the radio unit comes back whole from its bytes through the checks of R162 (R186, R189,
R190). -/
def Obligations.MessageRoundTrip : Prop :=
  ∀ m : Inbound, inboundWellFormed m = true → readMessage (encodeInbound m) = .good m

/-- The parser assembles the bytes of a well-formed message, one after another from WAITING, into that message and no
other (R161, R162). The command that carries bytes takes a valid message among them as one (log 16). -/
def Obligations.BytesAreTheMessage : Prop :=
  ∀ (dt : Micros) (m : Inbound) (s : State), inboundWellFormed m = true → s.pins.resetHeld = false →
    s.rlc.parser = .waiting →
    exec (.inboundMessageRejected dt (encodeInbound m)) s = .next ((s.advance dt).messageArrives m).linkTake

/-! ### Start and reset -/

/-- R182: power-up and the reset input put the part into the state of `State.reset`, but for the moment, the pins and the
model's own fields. While the input is held no read begins, and then only power-up and the reset input do anything (log 7,
log 14). -/
def Obligations.ColdReset : Prop :=
  (∀ (dt : Micros) (s : State),
    let again (held : Bool) : State :=
      { State.reset with
        now := s.now + dt, choices := s.choices, pins := { s.pins with resetHeld := held }, pending := s.pending,
        stc := { Stc.reset with readSince := if held then none else some (s.now + dt) } }
    exec (.powerUp dt) s = .next (again s.pins.resetHeld) ∧
    exec (.resetInputAsserted dt) s = .next (again true) ∧
    exec (.resetInputReleased dt) s = .next (again false)) ∧
  (∀ (c : Instr) (s t : State), Sound s → s.pins.resetHeld = true → exec c s = .next t →
    (∀ dt, c ≠ .powerUp dt ∧ c ≠ .resetInputAsserted dt ∧ c ≠ .resetInputReleased dt) →
    (t.setNow s.now).setPins s.pins = s)

/-- R183: RESTART in any run state, and the supervision expiry under radio loss, put the part into LOAD with every block
reset, the cause recorded and the warm count one higher, saturating at 15. The pins keep their levels (log 7), and the reset
values include those the model chose (log 8, log 17). -/
def Obligations.WarmRestart : Prop :=
  ∀ (dt : Micros) (s : State), s.pins.resetHeld = false →
    let again (cause : ResetCause) : State :=
      { State.reset with
        now := s.now + dt, choices := s.choices, pins := s.pins, pending := s.pending,
        stc := { Stc.reset with
          cause := cause, warmCount := if s.stc.warmCount < 15 then s.stc.warmCount + 1 else 15,
          readSince := some (s.now + dt) } }
    exec (.restart dt) s = .next (again .request) ∧
    (s.running = true → s.rlc.radioLost = true → (∃ d, s.rlc.supervisionDue = some d ∧ d ≤ s.now + dt) →
      exec (.supervisionTimerExpiry dt) s = .next (again .supervision))

/-- R176, R177, R180: a silent or absent memory halts the part with CONFIG ABSENT, an address outside 1..62 with BAD
ADDRESS; the occasion HALT is recorded and its STATE REPORT waits. -/
def Obligations.UnusableRecordHalts : Prop :=
  ∀ (dt : Micros) (r : Vector Byte 24) (s : State) (since : Micros), s.stc.readSince = some since →
    let halted (reason : HaltReason) : State :=
      State.recordOccasion .halt
        ((s.advance dt).setStc { s.stc with runState := .halt, haltReason := reason, readSince := none })
    ((∀ i : Fin 24, r[i] = 0xFF) → exec (.configReadComplete dt r) s = .next (halted .configAbsent).linkTake) ∧
    ((∃ i : Fin 24, r[i] ≠ 0xFF) → r[0] = 0 ∨ 63 ≤ r[0].toNat →
      exec (.configReadComplete dt r) s = .next (halted .badAddress).linkTake) ∧
    (since + 20000 ≤ s.now + dt → exec (.configReadyTimeout dt) s = .next (halted .configAbsent).linkTake) ∧
    (∀ reason, (halted reason).rlc.occasions.halt = true ∧ ControlMsg.stateReport ∈ (halted reason).rlc.control)

/-- R181: a record with an address in 1..62 ends LOAD: LISTEN is entered with the loaded configuration, one reset record
for each home segment, the first beacon gap, the seeded generator, the buffers of the arrangement, supervision, and the
STATE REPORT of the occasion LISTEN (R3, R18, R36, R63, R143, R169). Carrier that stands from before starts the carrier
timer (R71, log 7), and a line reported open from before is FAULT with kind OPEN at once, the report telling FAULT START too
(R72, R73, log 18). -/
def Obligations.EntersListen : Prop :=
  ∀ (dt : Micros) (r : Vector Byte 24) (s : State), s.stc.readSince ≠ none → 1 ≤ r[0].toNat → r[0].toNat ≤ 62 →
    let c := settingsOf r
    ∃ t : State, exec (.configReadComplete dt r) s = .next t.linkTake ∧
      t.stc = { s.stc with runState := .listen, loaded := some c, readSince := none } ∧
      t.cve = { s.cve with
        segments := List.replicate c.homeCount Segment.reset, listenCount := 0, beaconGap := c.beaconBase,
        beaconDue := some (s.now + dt + 1000 * c.beaconBase) } ∧
      t.bas = { s.bas with
        buffers := if c.bundleMode = .split then [Buffer.reset, Buffer.reset] else [Buffer.reset] } ∧
      t.lnc.generator.toNat = r[0].toNat ∧
      (let active : Lnc := { s.lnc with
        generator := t.lnc.generator, carrierSince := if s.pins.carrier then some (s.now + dt) else none }
      (s.pins.lineOpen = false → t.lnc = active ∧ t.rlc.occasions.faultStart = s.rlc.occasions.faultStart) ∧
      (s.pins.lineOpen = true → t.rlc.occasions.faultStart = true ∧
        t.lnc = { active with line := .fault, faultKind := .cut, receiving := false, recoverySince := none })) ∧
      t.rlc.supervisionDue = some (s.now + dt + 1000 * c.radioWatch) ∧
      t.rlc.occasions.listen = true ∧ ControlMsg.stateReport ∈ t.rlc.control ∧
      t.nbt = s.nbt ∧ t.cru = s.cru ∧ t.rfi = s.rfi ∧ t.gds = s.gds ∧ t.pins = s.pins

/-- R178, R179: every field of a record with a valid address is brought into the range of Table 10-2, a field in its range
is taken as it is, and the home range is settled in the three steps of R179. -/
def Obligations.SettingsFromRecord : Prop :=
  ∀ r : Vector Byte 24, 1 ≤ r[0].toNat → r[0].toNat ≤ 62 →
    let c := settingsOf r
    let word (i j : Fin 24) : Nat := 256 * r[i].toNat + r[j].toNat
    SettingsOk c ∧ c.address = r[0] ∧ (c.role = .gateway ↔ r[1] = 1) ∧ (c.bundleMode = .split ↔ r[12] = 1) ∧
    c.homeFirst = min r[2].toNat 127 ∧
    (c.role = .edge → r[3] = 0 → c.homeCount = 1) ∧
    (¬(c.role = .edge ∧ r[3] = 0) → c.homeCount = min (min r[3].toNat 16) (128 - c.homeFirst)) ∧
    (5 ≤ r[4].toNat → r[4].toNat ≤ 200 → c.beaconBase = 10 * r[4].toNat) ∧
    (r[4].toNat < 5 → c.beaconBase = 50) ∧ (200 < r[4].toNat → c.beaconBase = 2000) ∧
    (1 ≤ r[5].toNat → r[5].toNat ≤ 4 → c.qualShift = r[5].toNat) ∧
    (r[5] = 0 → c.qualShift = 1) ∧ (4 < r[5].toNat → c.qualShift = 4) ∧
    c.hyst = min r[6].toNat 63 ∧ c.claimFloor = r[7].toNat ∧ c.shadowCap = min (word 8 9) 511 ∧
    c.hbBase = max 10 (min (word 10 11) 1000) ∧
    c.bundleLimit = min r[13].toNat (if c.bundleMode = .split then 12 else 24) ∧
    c.bundleWait = max 50 (min (word 14 15) 5000) ∧ c.handoverGuard = max 20 (min (word 16 17) 500) ∧
    c.craneStale = max 50 (min (word 18 19) 2000) ∧ c.radioWatch = max 100 (min (word 20 21) 5000)

/-! ### The radio link -/

/-- R163, R169, R170: a valid message other than RESTART is discarded in LOAD and HALT (a STATE QUERY in HALT is answered);
in LISTEN and RUN it restarts supervision and ends the radio-lost condition whatever its owner does with it. -/
def Obligations.MessageHandling : Prop :=
  ∀ (c : Instr) (m : Inbound) (s : State), c.message = some m → inboundWellFormed m = true →
    s.pins.resetHeld = false → m ≠ .restart →
    let u := (s.advance c.elapsed).setRlc { s.rlc with parser := .waiting }
    (s.running = false → ¬(s.stc.runState = .halt ∧ m = .stateQuery) → exec c s = .next u.linkTake) ∧
    (s.stc.runState = .halt → m = .stateQuery →
      let asked := State.recordOccasion .query u
      exec c s = .next asked.linkTake ∧ asked.rlc.occasions.query = true ∧
        ControlMsg.stateReport ∈ asked.rlc.control) ∧
    (s.running = true → ∃ t : State, exec c s = .next t.linkTake ∧ t.rlc.parser = .waiting ∧
      t.rlc.radioLost = false ∧ t.rlc.supervisionDue = some (s.now + c.elapsed + 1000 * s.cfg.radioWatch) ∧
      (s.rlc.radioLost = true → t.rlc.occasions.radioBack = true ∧ ControlMsg.stateReport ∈ t.rlc.control) ∧
      t.stc = s.stc ∧ t.nbt = s.nbt ∧ t.pins = s.pins)

/-- R161, R162: a pause of 2 ms abandons a partial message; a complete message that fails its check is discarded without a
trace; a malformed one, as bytes or as a row of its own, sets LINK ERROR in every run state (log 15). -/
def Obligations.RejectedMessages : Prop :=
  ∀ (dt : Micros) (s : State), s.pins.resetHeld = false →
    let u := s.advance dt
    (∀ got last, s.rlc.parser = .assembling got last →
      exec (.parserTimeout dt) s =
        .next (if last + 2000 ≤ s.now + dt then u.setRlc { s.rlc with parser := .waiting } else u).linkTake) ∧
    (∀ (kind len : Byte) (rest : List Byte), s.rlc.parser = .waiting → rest.length = len.toNat + 2 →
      (readMessage (kind :: len :: rest) = .badCheck →
        exec (.inboundMessageRejected dt (kind :: len :: rest)) s = .next u.linkTake) ∧
      (readMessage (kind :: len :: rest) = .malformed →
        exec (.inboundMessageRejected dt (kind :: len :: rest)) s = .next (u.setFlag .linkError).linkTake)) ∧
    (∀ (c : Instr) (m : Inbound), c.message = some m → c.elapsed = dt → inboundWellFormed m = false →
      exec c s = .next ((u.setRlc { s.rlc with parser := .waiting }).setFlag .linkError).linkTake)

/-- R171, R173: a sticky flag going from clear to set records FLAG SET, and outside LOAD a STATE REPORT waits for it;
setting a set flag changes nothing; the other flags and blocks are untouched. -/
def Obligations.StickyFlags : Prop :=
  ∀ (k : Sticky) (s : State),
    let t := s.setFlag k
    t.rlc.flags.get k = true ∧ (∀ j, j ≠ k → t.rlc.flags.get j = s.rlc.flags.get j) ∧
    (s.rlc.flags.get k = true → t = s) ∧
    (s.rlc.flags.get k = false →
      t.rlc.occasions = s.rlc.occasions.add .flagSet ∧ t.rlc.occasions.flagSet = true ∧
      (s.stc.runState ≠ .load → ControlMsg.stateReport ∈ t.rlc.control) ∧
      (s.stc.runState = .load ∨ ControlMsg.stateReport ∈ s.rlc.control → t.rlc.control = s.rlc.control)) ∧
    t.setRlc s.rlc = s

/-- R165, R166: at 8 messages the control queue drops its oldest message other than the STATE REPORT, the drain queue its
oldest DRAIN END; at 4 the terminal uplink queue drops its oldest; the new message joins at the tail. -/
def Obligations.QueueDrops : Prop :=
  ∀ (s : State),
    (∀ m : ControlMsg, s.rlc.control.length ≤ 8 → s.rlc.control.countP ControlMsg.isReport ≤ 1 →
      let q := (s.queueControl m).rlc.control
      (s.rlc.control.length < 8 → q = s.rlc.control ++ [m]) ∧
      (s.rlc.control.length = 8 → ∃ kept x later, s.rlc.control = kept ++ x :: later ∧
        (∀ y ∈ kept, y = .stateReport) ∧ x ≠ .stateReport ∧ q = kept ++ later ++ [m])) ∧
    (∀ m : DrainMsg, s.rlc.drainQueue.length ≤ 8 → (s.rlc.drainQueue.countP fun x => !x.isEnd) ≤ 1 →
      let q := (s.queueDrain m).rlc.drainQueue
      (s.rlc.drainQueue.length < 8 → q = s.rlc.drainQueue ++ [m]) ∧
      (s.rlc.drainQueue.length = 8 → ∃ kept x later, s.rlc.drainQueue = kept ++ x :: later ∧
        (∀ y ∈ kept, y.isEnd = false) ∧ x.isEnd = true ∧ q = kept ++ later ++ [m])) ∧
    (∀ m : TermUplink, s.rlc.terminal.length ≤ 4 →
      let q := (s.queueTerminal m).rlc.terminal
      q.length ≤ 4 ∧ ∃ gone, s.rlc.terminal ++ [m] = gone ++ q ∧
        (gone = [] ↔ s.rlc.terminal.length < 4) ∧ gone.length ≤ 1)

/-- R167, R171, R174, R185, R189: HOLD stops the taking of messages, RESUME lets it go on, STATE QUERY records QUERY and its
STATE REPORT waits, and the end of a message frees the link. The bytes of each outbound message are its kind, the length of
its body, the body of Table 11-6 or 11-7, high bytes first, and the CRC-16 over all of these. -/
def Obligations.LinkCommands : Prop :=
  (∀ (dt : Micros) (s : State),
    let u := s.accepting dt
    let asked := State.recordOccasion .query u
    (s.attends →
      exec (.hold dt) s = .next (u.setRlc { u.rlc with stopped := true }) ∧
      exec (.resume dt) s = .next (u.setRlc { u.rlc with stopped := false }).linkTake ∧
      exec (.stateQuery dt) s = .next asked.linkTake ∧
      asked.rlc.occasions.query = true ∧ ControlMsg.stateReport ∈ asked.rlc.control) ∧
    exec (.outboundMessageSent dt) s = .next ((s.advance dt).setRlc { s.rlc with inProgress := none }).linkTake) ∧
  (let two (w : Word16) : List Byte := [w.extractLsb' 8 8, w.extractLsb' 0 8]
   let message (kind : Byte) (body : List Byte) : List Byte :=
     let covered := kind :: BitVec.ofNat 8 body.length :: body
     covered ++ two (crc16 covered)
   (∀ claimed held, encodeOutbound (.coverageNotice claimed held) = message 0x41 (two claimed ++ two held)) ∧
   (∀ crane seq payload, encodeOutbound (.craneDeliver crane seq payload) =
     message 0x42 (crane :: seq :: BitVec.ofNat 8 payload.length :: payload)) ∧
   (∀ crane target, encodeOutbound (.craneRedirect crane target) = message 0x43 [crane, target]) ∧
   (∀ crane, encodeOutbound (.craneReject crane .full) = message 0x44 [crane, 1] ∧
     encodeOutbound (.craneReject crane .yielded) = message 0x44 [crane, 5] ∧
     encodeOutbound (.craneReject crane .notRunning) = message 0x44 [crane, 6]) ∧
   (∀ crane seq anchor period late payload,
     encodeOutbound (.terminalUplink crane seq anchor period late payload) =
       message 0x45 ([crane, seq, anchor] ++ two period ++ late :: BitVec.ofNat 8 payload.length :: payload)) ∧
   (∀ (r : Report) (station : Byte), ∃ alarm : Byte,
     alarm.toNat = r.alarm.toNat + (if r.cls = .alert then 128 else 0) ∧
     encodeOutbound (.drainRecord r station) =
       message 0x46 ([r.tag.extractLsb' 16 8, r.tag.extractLsb' 8 8, r.tag.extractLsb' 0 8, r.segment, r.seq] ++
         two r.setPoint ++ two r.supply ++ [alarm, station])) ∧
   (∀ count remaining status, encodeOutbound (.drainEnd count remaining status) =
     message 0x47 (BitVec.ofNat 8 count :: two (BitVec.ofNat 16 remaining) ++
       [(match status with | .done => 1 | .busy => 2 : Byte)])) ∧
   (∀ r : StateReport, r.runState ≠ .load → ∃ (condition flags : Byte) (occasions : Word16),
     encodeOutbound (.stateReport r) =
       message 0x48 ([match r.runState with | .load => 0 | .halt => 1 | .listen => 2 | .run => 3,
           match r.haltReason with | .none => 0 | .configAbsent => 1 | .badAddress => 2, condition, flags,
           match r.cause with | .cold => 0 | .request => 1 | .supervision => 2,
           BitVec.ofNat 8 r.warmCount, BitVec.ofNat 8 r.active] ++ two (BitVec.ofNat 16 r.custody) ++
         [BitVec.ofNat 8 r.fresh, BitVec.ofNat 8 r.claimed] ++ two occasions) ∧
     condition.getLsbD 0 = r.radioLost ∧ condition.getLsbD 1 = r.lineFault ∧
     condition.toNat / 4 = (match r.faultKind with | .none => 0 | .jabber => 1 | .cut => 2) ∧
     flags.getLsbD 0 = r.flags.addressClash ∧ flags.getLsbD 1 = r.flags.neighbourFull ∧
     flags.getLsbD 2 = r.flags.custodyFull ∧ flags.getLsbD 3 = r.flags.linkError ∧ flags.toNat < 16 ∧
     occasions.getLsbD 0 = r.occasions.listen ∧ occasions.getLsbD 1 = r.occasions.run ∧
     occasions.getLsbD 2 = r.occasions.halt ∧ occasions.getLsbD 3 = r.occasions.faultStart ∧
     occasions.getLsbD 4 = r.occasions.faultEnd ∧ occasions.getLsbD 5 = r.occasions.radioLost ∧
     occasions.getLsbD 6 = r.occasions.radioBack ∧ occasions.getLsbD 7 = r.occasions.flagSet ∧
     occasions.getLsbD 8 = r.occasions.query ∧ occasions.toNat < 512))

/-- R166, R167, R168, R172, R173: what RLC takes next. A STATE REPORT is built as it is taken, and clears the occasion set
and the flags it carries; in the crane class the candidate due first goes, a terminal uplink before a downlink head due at
the same time, of two heads the lower crane; two due times are the same when they are so to the microsecond (log 23). -/
def Obligations.OutboundOrder : Prop :=
  ∀ s : State,
    (s.rlc.stopped = true ∨ s.rlc.inProgress ≠ none → s.linkTake = s) ∧
    (s.rlc.stopped = false → s.rlc.inProgress = none →
      (∀ rest, s.rlc.control = .stateReport :: rest →
        s.linkTake = s.setRlc { s.rlc with
          control := rest, occasions := .empty, flags := .clear,
          inProgress := some (.stateReport
            { runState := s.stc.runState, haltReason := s.stc.haltReason, radioLost := s.rlc.radioLost,
              lineFault := decide (s.lnc.line = .fault), faultKind := s.lnc.faultKind, flags := s.rlc.flags,
              cause := s.stc.cause, warmCount := s.stc.warmCount,
              active := s.cru.contexts.countP Context.active, custody := s.rfi.custody.length,
              fresh := s.nbt.entries.countP fun e => !e.stale,
              claimed := s.cve.segments.countP fun r => r.claim = .claimed, occasions := s.rlc.occasions }) }) ∧
      (∀ claimed held rest, s.rlc.control = .coverageNotice claimed held :: rest →
        s.linkTake = s.setRlc { s.rlc with control := rest, inProgress := some (.coverageNotice claimed held) }) ∧
      (∀ crane target rest, s.rlc.control = .craneRedirect crane target :: rest →
        s.linkTake = s.setRlc { s.rlc with control := rest, inProgress := some (.craneRedirect crane target) }) ∧
      (∀ crane reason rest, s.rlc.control = .craneReject crane reason :: rest →
        s.linkTake = s.setRlc { s.rlc with control := rest, inProgress := some (.craneReject crane reason) }) ∧
      (s.rlc.control = [] →
        (∀ m rest, s.rlc.terminal = m :: rest →
          (∀ c ∈ s.cru.contexts, c.active = true → ∀ e, c.queue.head? = some e → m.joinedAt ≤ e.deadline) →
          s.linkTake = s.setRlc { s.rlc with
            terminal := rest, inProgress := some (.terminalUplink m.crane m.seq m.anchor m.period m.late m.payload) }) ∧
        (∀ c e q, TableSorted Context.key s.cru.contexts → c ∈ s.cru.contexts → c.active = true → c.queue = e :: q →
          (∀ m, s.rlc.terminal.head? = some m → e.deadline < m.joinedAt) →
          (∀ d ∈ s.cru.contexts, d.active = true → d.crane ≠ c.crane → ∀ e', d.queue.head? = some e' →
            e.deadline < e'.deadline ∨ (e.deadline = e'.deadline ∧ c.crane.toNat < d.crane.toNat)) →
          s.linkTake = (s.putContext { c with queue := q }).setRlc { s.rlc with
            inProgress := some (.craneDeliver c.crane e.seq e.payload) }) ∧
        (∀ m rest, s.rlc.terminal = [] → (∀ c ∈ s.cru.contexts, c.active = true → c.queue = []) →
          s.rlc.drainQueue = m :: rest → s.linkTake = s.takeDrain m)))

/-- R158, R159: DRAIN at a gateway starts a drain of the oldest records, or is answered with DRAIN END, DONE for an empty
store and BUSY while a drain is under way; the limit is brought into 1..64. At an EDGE station it sets LINK ERROR (R155).
Taking the DRAIN RECORD in hand hands its record over and takes the next in hand, or ends the drain. -/
def Obligations.Draining : Prop :=
  (∀ (dt : Micros) (limit : Byte) (s : State), s.attends →
    let u := s.accepting dt
    let n := if limit = 0 then 1 else if 64 < limit.toNat then 64 else limit.toNat
    (s.cfg.role = .edge → exec (.drain dt limit) s = .next (u.setFlag .linkError).linkTake) ∧
    (s.cfg.role = .gateway →
      (∀ x rest, s.gds.drain = .idle → s.gds.store = x :: rest →
        exec (.drain dt limit) s = .next ((u.setGds { s.gds with
          drain := .draining n 0, store := { x with inHand := true } :: rest }).queueDrain
            (.record x.report x.station)).linkTake) ∧
      (s.gds.drain = .idle → s.gds.store = [] →
        exec (.drain dt limit) s = .next (u.queueDrain (.ended 0 0 .done)).linkTake) ∧
      (∀ a k, s.gds.drain = .draining a k →
        exec (.drain dt limit) s = .next (u.queueDrain (.ended 0 s.gds.store.length .busy)).linkTake))) ∧
  (∀ (s : State) (a k : Nat) (x : Stored) (store : List Stored) (r : Report) (station : Byte) (rest : List DrainMsg),
    s.gds.drain = .draining a k → s.gds.store = x :: store → x.inHand = true →
    s.rlc.drainQueue = .record r station :: rest →
    let u := s.setRlc { s.rlc with drainQueue := rest, inProgress := some (.drainRecord r station) }
    (a ≤ 1 ∨ store = [] → s.takeDrain (.record r station) =
      (u.setGds { s.gds with drain := .idle, store := store }).queueDrain (.ended (k + 1) store.length .done)) ∧
    (∀ y ys, 1 < a → store = y :: ys → s.takeDrain (.record r station) =
      (u.setGds { s.gds with drain := .draining (a - 1) (k + 1), store := { y with inHand := true } :: ys }).queueDrain
        (.record y.report y.station))) ∧
  (∀ (s : State) (count remaining : Nat) (status : DrainStatus) (rest : List DrainMsg),
    s.rlc.drainQueue = .ended count remaining status :: rest →
    s.takeDrain (.ended count remaining status) =
      s.setRlc { s.rlc with drainQueue := rest, inProgress := some (.drainEnd count remaining status) })

/-! ### Coverage -/

/-- R4, R6, R7, R8, R10: RADIO STATUS sets every shadow field from its map; QUALITY SAMPLE moves the accumulator of its home
segment toward 16 times the margin and derives the quality, and touches nothing else. -/
def Obligations.SegmentMessages : Prop :=
  ∀ (dt : Micros) (s : State), Sound s → s.attends →
    let u := s.accepting dt
    (∀ shadowMap : Word16, ∃ t : State, exec (.radioStatus dt shadowMap) s = .next t.linkTake ∧ t.setCve u.cve = u ∧
      { t.cve with segments := u.cve.segments } = u.cve ∧ t.cve.segments.length = u.cve.segments.length ∧
      ∀ (i : Nat) (r : Segment), u.cve.segments[i]? = some r →
        t.cve.segments[i]? = some { r with shadow := shadowMap.getLsbD i }) ∧
    (∀ g m : Byte, g.toNat ≤ 127 →
      let t : State := u.applySample g m
      exec (.qualitySample dt g m) s = .next t.linkTake ∧ t.setCve u.cve = u ∧
        { t.cve with segments := u.cve.segments } = u.cve ∧ t.cve.segments.length = u.cve.segments.length ∧
        ∀ (i : Nat) (r : Segment), u.cve.segments[i]? = some r → ∃ r' : Segment, t.cve.segments[i]? = some r' ∧
          (s.cfg.homeFirst + i ≠ g.toNat → r' = r) ∧
          (s.cfg.homeFirst + i = g.toNat →
            let d : Int := 16 * m.toNat - r.acc
            let k := s.cfg.qualShift
            r'.heard = true ∧ r'.primed = true ∧ r'.quality = (r'.acc + 8) / 16 ∧
            (r.primed = false → r'.acc = 16 * m.toNat) ∧
            (r.primed = true → (r'.acc : Int) = r.acc + d.sign * ((d.natAbs + 2 ^ (k - 1)) / 2 ^ k : Nat)) ∧
            r'.shadow = r.shadow ∧ r'.claim = r.claim ∧ r'.score = r.score))

/-- R9, R11 to R15, R38: at an expiry every silent segment decays, heard is cleared, and the score of every home segment
is 2 × Q − P + H, clamped, capped under shadow and zeroed under radio loss. -/
def Obligations.EvaluationScores : Prop :=
  ∀ (dt : Micros) (s : State), Sound s → s.running = true → s.cfg.homeCount ≠ 0 →
    (∃ d, s.cve.beaconDue = some d ∧ d ≤ s.now + dt) →
    ∃ t : State, exec (.beaconTimerExpiry dt) s = .next t.linkTake ∧
      t.cve.segments.length = s.cve.segments.length ∧
      ∀ (i : Nat) (r : Segment), s.cve.segments[i]? = some r → ∃ r' : Segment, t.cve.segments[i]? = some r' ∧
        r'.heard = false ∧ r'.primed = r.primed ∧ r'.shadow = r.shadow ∧ r'.quality = (r'.acc + 8) / 16 ∧
        (r.heard = true ∨ r.acc = 0 → r'.acc = r.acc) ∧
        (r.heard = false → 0 < r.acc → r.acc < 8 → r'.acc = r.acc - 1) ∧
        (r.heard = false → 8 ≤ r.acc → r'.acc = r.acc - r.acc / 8) ∧
        (let p : Int := 32 * s.cru.contexts.countP Context.active + (s.rfi.custody.length / 4 : Nat)
         let h : Int := if r.claim = .claimed then s.cfg.hyst else 0
         let clamped : Int := max 0 (min 511 (2 * r'.quality - p + h))
         (r'.score : Int) =
           if s.rlc.radioLost then 0 else if r.shadow then min clamped s.cfg.shadowCap else clamped)

/-- R38, R40, R41, R42, R44, R53, R54, R129: at an expiry a home segment becomes CLAIMED exactly when the part is in RUN
without radio loss, the score reaches CLAIM_FLOOR and no claimant outranks it; otherwise HELD exactly when, in RUN without
radio loss, an active context stands there. Custody stays exactly in the segments that are CLAIMED afterwards. Where a map of
the claims then differs from the notified one, one COVERAGE NOTICE with both maps is queued, behind the report of entering
RUN if there is one, and they become the notified maps; otherwise none is queued. -/
def Obligations.EvaluationClaims : Prop :=
  ∀ (dt : Micros) (s : State), Sound s → s.running = true → s.cfg.homeCount ≠ 0 →
    (∃ d, s.cve.beaconDue = some d ∧ d ≤ s.now + dt) →
    ∃ t : State, exec (.beaconTimerExpiry dt) s = .next t.linkTake ∧
      (∀ (i : Nat) (r : Segment), t.cve.segments[i]? = some r →
        let g := segmentAt s.cfg i
        let serves : Prop := s.evaluatedIn = .run ∧ s.rlc.radioLost = false
        let would : Prop := serves ∧ s.cfg.claimFloor ≤ r.score ∧
          ∀ n ∈ s.claimants g, ¬(r.score < n.score ∨ (n.score = r.score ∧ n.address.toNat < s.cfg.address.toNat))
        (r.claim = .claimed ↔ would) ∧
        (r.claim = .held ↔ ¬would ∧ serves ∧ s.activeAt g = true)) ∧
      (∃ claimed held : Word16,
        (∀ i, claimed.getLsbD i = decide (∃ r, t.cve.segments[i]? = some r ∧ r.claim = .claimed)) ∧
        (∀ i, held.getLsbD i = decide (∃ r, t.cve.segments[i]? = some r ∧ r.claim = .held)) ∧
        t.cve.notifiedClaimed = claimed ∧ t.cve.notifiedHeld = held ∧
        let before := if s.evaluatedIn = s.stc.runState then s else State.recordOccasion .run s
        (claimed = s.cve.notifiedClaimed → held = s.cve.notifiedHeld → t.rlc = before.rlc) ∧
        (claimed ≠ s.cve.notifiedClaimed ∨ held ≠ s.cve.notifiedHeld →
          t.rlc = (before.queueControl (.coverageNotice claimed held)).rlc)) ∧
      (∀ rec, rec ∈ t.rfi.custody ↔ rec ∈ s.rfi.custody ∧ t.claimedHere rec.segment = true) ∧
      t.rfi.holdback = s.rfi.holdback ∧ t.cru = s.cru ∧ t.nbt = s.nbt ∧ t.bas = s.bas ∧ t.gds = s.gds

/-- R16, R17, R37, R50 to R52: the expiry fixes the next gap from its load, counts in LISTEN and enters RUN at twelve, and
puts its BEACON into the slot, or behind the BEACON in transmission, with the C, the gap, the flags and one item for each
home segment. -/
def Obligations.ExpiryBeacon : Prop :=
  ∀ (dt : Micros) (s : State), Sound s → s.running = true → s.cfg.homeCount ≠ 0 →
    (∃ d, s.cve.beaconDue = some d ∧ d ≤ s.now + dt) →
    let c := s.cru.contexts.countP Context.active
    let p := 32 * c + s.rfi.custody.length / 4
    let cls := if 192 ≤ p then 3 else if 128 ≤ p then 2 else if 64 ≤ p then 1 else 0
    let gap := s.cfg.beaconBase * (1 + cls)
    ∃ (t : State) (flags : Byte) (items : List BeaconItem),
      exec (.beaconTimerExpiry dt) s = .next t.linkTake ∧
      t.cve.beaconGap = gap ∧ t.cve.beaconDue = some (s.now + dt + 1000 * gap) ∧
      t.stc = { s.stc with runState := s.evaluatedIn } ∧
      t.cve.listenCount = (if s.stc.runState = .listen then s.cve.listenCount + 1 else s.cve.listenCount) ∧
      (s.evaluatedIn ≠ s.stc.runState → t.rlc.occasions.run = true ∧ ControlMsg.stateReport ∈ t.rlc.control) ∧
      flags.getLsbD 0 = decide (s.evaluatedIn = .listen) ∧ flags.getLsbD 1 = s.rlc.radioLost ∧
      flags.getLsbD 2 = decide (s.cfg.role = .gateway) ∧
      items.length = s.cfg.homeCount ∧
      (∀ i (r : Segment), t.cve.segments[i]? = some r → ∃ x, items[i]? = some x ∧
        x.segment.toNat = s.cfg.homeFirst + i ∧ x.score.toNat = r.score ∧
        x.kind = (match r.claim with | .unclaimed => 0 | .claimed => 1 | .held => 2)) ∧
      (let f : Frame :=
        ⟨s.cfg.address, 63, .beacon flags (BitVec.ofNat 16 (gap / 10)) (BitVec.ofNat 8 c) items⟩
       (s.lnc.transmitting .beacon = true → t.cve.successor = some f ∧ t.lnc = s.lnc) ∧
       (s.lnc.transmitting .beacon = false → t.cve.successor = s.cve.successor ∧
         t.lnc.class2 = [newTx (s.now + dt) f 0 0] ∧ t.lnc.class0 = s.lnc.class0 ∧ t.lnc.class1 = s.lnc.class1 ∧
         t.lnc.class3 = s.lnc.class3))

/-- R37, R39: at each expiry a station with no home range fixes the next gap from C and R, and the expiry counts toward the
end of LISTEN, the twelfth recording RUN with its STATE REPORT; it decides no segment, builds no BEACON and queues no
COVERAGE NOTICE, and its beacon slot stays empty. -/
def Obligations.NoHomeRangeExpiry : Prop :=
  ∀ (dt : Micros) (s : State), Sound s → s.running = true → s.cfg.homeCount = 0 →
    (∃ d, s.cve.beaconDue = some d ∧ d ≤ s.now + dt) →
    let p := 32 * s.cru.contexts.countP Context.active + s.rfi.custody.length / 4
    let cls := if 192 ≤ p then 3 else if 128 ≤ p then 2 else if 64 ≤ p then 1 else 0
    let gap := s.cfg.beaconBase * (1 + cls)
    ∃ t : State, exec (.beaconTimerExpiry dt) s = .next t.linkTake ∧
      t.cve = { s.cve with
        beaconGap := gap, beaconDue := some (s.now + dt + 1000 * gap),
        listenCount := if s.stc.runState = .listen then s.cve.listenCount + 1 else s.cve.listenCount } ∧
      t.stc = { s.stc with runState := s.evaluatedIn } ∧ t.lnc = s.lnc ∧ t.lnc.class2 = [] ∧ t.nbt = s.nbt ∧ t.cru = s.cru ∧
      t.rfi = s.rfi ∧ t.bas = s.bas ∧ t.gds = s.gds ∧
      (s.evaluatedIn = s.stc.runState → t.rlc = s.rlc) ∧
      (s.evaluatedIn ≠ s.stc.runState → t.rlc.occasions.run = true ∧ ControlMsg.stateReport ∈ t.rlc.control) ∧
      (∀ claimed held, ControlMsg.coverageNotice claimed held ∈ t.rlc.control →
        ControlMsg.coverageNotice claimed held ∈ s.rlc.control)

/-- R32: the claimants of a segment are the FRESH entries without LISTEN and RADIO_LOST whose list holds it with kind
CLAIM, each with its address, the score of that item and its advertised C; no address twice, at most 12, and none for a
segment outside the watch range. -/
def Obligations.ClaimantQuery : Prop :=
  ∀ (s : State) (g : Byte), NeighboursOk s →
    (∀ n : Claimant, n ∈ s.claimants g ↔
      ∃ e ∈ s.nbt.entries, e.stale = false ∧ e.listen = false ∧ e.radioLost = false ∧ e.address = n.address ∧
        e.advertisedC = n.advertisedC ∧ ∃ i ∈ e.items, i.segment = g ∧ i.kind = .claim ∧ i.score = n.score) ∧
    (s.claimants g).length ≤ 12 ∧ ((s.claimants g).map (·.address)).Nodup ∧
    (inWatchRange s.cfg g = false → s.claimants g = [])

/-- R45, R53, R54: a departure from a HELD segment with no active context left there makes it UNCLAIMED at once and queues a
COVERAGE NOTICE with the maps as they then are, bit `i` for map position `i`; the rest of CVE and of the records is as it
was, and any other departure changes nothing. -/
def Obligations.Departures : Prop :=
  ∀ (s : State) (g : Byte), SettingsOk s.cfg → s.cve.segments.length = s.cfg.homeCount → NoticesOk s →
    (¬(s.claimOf g = some .held ∧ s.activeAt g = false) → s.departure g = s) ∧
    (s.claimOf g = some .held → s.activeAt g = false →
      let t := s.departure g
      ∃ claimed held : Word16,
        t.claimOf g = some .unclaimed ∧ (∀ g', g' ≠ g → t.claimOf g' = s.claimOf g') ∧
        (∀ i, claimed.getLsbD i = decide (∃ r, t.cve.segments[i]? = some r ∧ r.claim = .claimed)) ∧
        (∀ i, held.getLsbD i = decide (∃ r, t.cve.segments[i]? = some r ∧ r.claim = .held)) ∧
        t.cve.notifiedClaimed = claimed ∧ t.cve.notifiedHeld = held ∧
        { t.cve with
          segments := s.cve.segments, notifiedClaimed := s.cve.notifiedClaimed, notifiedHeld := s.cve.notifiedHeld } =
            s.cve ∧
        t.cve.segments.length = s.cve.segments.length ∧
        (∀ (i : Nat) (r : Segment), s.cve.segments[i]? = some r →
          ∃ r' : Segment, t.cve.segments[i]? = some r' ∧ { r' with claim := r.claim } = r) ∧
        t.rlc = (s.queueControl (.coverageNotice claimed held)).rlc ∧
        (t.setCve s.cve).setRlc s.rlc = s)

/-- R9, R47, R50 to R54, R83, R169: the first supervision expiry begins the radio-lost condition: supervision starts again,
RADIO LOST is recorded, silent segments decay, every home segment is UNCLAIMED with score 0, custody and the crane contexts
are gone. A station with a home range puts a BEACON with RADIO LOST, kind NONE and score 0 for every item, and the interval
of the running gap into the slot, or behind the BEACON in transmission. The last notice queued shows both maps clear, and
none is queued where they were clear before. Holdback, the bundles, the store, the neighbours, the beacon timer and the
LISTEN count go on. All of this holds whatever order the withdrawal and the departures are taken in (log 5); that order
decides which contexts the C of the BEACON still counts. -/
def Obligations.RadioLossBegins : Prop :=
  ∀ (dt : Micros) (s : State), Sound s → s.running = true → s.rlc.radioLost = false →
    (∃ d, s.rlc.supervisionDue = some d ∧ d ≤ s.now + dt) →
    ∃ t : State, exec (.supervisionTimerExpiry dt) s = .next t.linkTake ∧
      t.rlc.radioLost = true ∧ t.rlc.supervisionDue = some (s.now + dt + 1000 * s.cfg.radioWatch) ∧
      t.rlc.occasions = s.rlc.occasions.add .radioLost ∧ ControlMsg.stateReport ∈ t.rlc.control ∧
      t.rlc.occasions.radioLost = true ∧
      t.cve.segments.length = s.cve.segments.length ∧
      (∀ (i : Nat) (r : Segment), s.cve.segments[i]? = some r → ∃ r' : Segment, t.cve.segments[i]? = some r' ∧
        r'.claim = .unclaimed ∧ r'.score = 0 ∧ r'.heard = false ∧ r'.primed = r.primed ∧ r'.shadow = r.shadow ∧
        r'.quality = (r'.acc + 8) / 16 ∧
        (r.heard = true ∨ r.acc = 0 → r'.acc = r.acc) ∧
        (r.heard = false → 0 < r.acc → r.acc < 8 → r'.acc = r.acc - 1) ∧
        (r.heard = false → 8 ≤ r.acc → r'.acc = r.acc - r.acc / 8)) ∧
      (s.cfg.homeCount = 0 → t.lnc = s.lnc ∧ t.cve.successor = s.cve.successor) ∧
      (s.cfg.homeCount ≠ 0 → ∃ (flags c : Byte) (items : List BeaconItem),
        flags.getLsbD 0 = decide (s.stc.runState = .listen) ∧ flags.getLsbD 1 = true ∧
        flags.getLsbD 2 = decide (s.cfg.role = .gateway) ∧
        c.toNat ≤ s.cru.contexts.countP Context.active ∧ items.length = s.cfg.homeCount ∧
        (∀ (i : Nat) (x : BeaconItem), items[i]? = some x →
          x.segment.toNat = s.cfg.homeFirst + i ∧ x.kind = 0 ∧ x.score = 0) ∧
        let f : Frame := ⟨s.cfg.address, 63, .beacon flags (BitVec.ofNat 16 (s.cve.beaconGap / 10)) c items⟩
        (s.lnc.transmitting .beacon = true → t.cve.successor = some f ∧ t.lnc = s.lnc) ∧
        (s.lnc.transmitting .beacon = false →
          t.cve.successor = s.cve.successor ∧ t.lnc.class2 = [newTx (s.now + dt) f 0 0])) ∧
      t.cve.notifiedClaimed = 0 ∧ t.cve.notifiedHeld = 0 ∧
      (s.cve.notifiedClaimed = 0 → s.cve.notifiedHeld = 0 →
        t.rlc.control = (State.recordOccasion .radioLost s).rlc.control) ∧
      (s.cve.notifiedClaimed ≠ 0 ∨ s.cve.notifiedHeld ≠ 0 →
        t.rlc.control.getLast? = some (.coverageNotice 0 0)) ∧
      t.cve.beaconDue = s.cve.beaconDue ∧ t.cve.beaconGap = s.cve.beaconGap ∧ t.cve.listenCount = s.cve.listenCount ∧
      t.cru.contexts = [] ∧ t.cru.tokenCounter = s.cru.tokenCounter ∧ t.rfi.custody = [] ∧
      t.rfi.holdback = s.rfi.holdback ∧ t.lnc.class0 = s.lnc.class0 ∧ t.lnc.class1 = s.lnc.class1 ∧
      t.lnc.class3 = s.lnc.class3 ∧ t.stc = s.stc ∧ t.nbt = s.nbt ∧ t.bas = s.bas ∧ t.gds = s.gds ∧ t.pins = s.pins

/-! ### Neighbours -/

/-- R21, R22: the list an entry keeps is ascending, holds a segment exactly when the BEACON names it and it lies in the
watch range, and holds of each the first item in the frame, brought into range. -/
def Obligations.KeptItems : Prop :=
  ∀ (c : Settings) (items : List BeaconItem),
    let kept := keptItems c items
    TableSorted AdvItem.key kept ∧
    ∀ k : AdvItem, k ∈ kept ↔ inWatchRange c k.segment = true ∧
      ∃ (earlier : List BeaconItem) (x : BeaconItem) (later : List BeaconItem), items = earlier ++ x :: later ∧
        (∀ y ∈ earlier, y.segment ≠ k.segment) ∧ x.segment = k.segment ∧
        k.score = (if 511 < x.score.toNat then 511 else x.score.toNat) ∧
        k.kind = (if x.kind = 1 then .claim else if x.kind = 2 then .held else .none)

/-- R19, R20, R23 to R27: what a dispatched BEACON does to the table. Its sender's entry is freed, replaced or made, the
longest-silent STALE entry gives way, or NEIGHBOUR FULL is set; two silences are equal when they are so to the microsecond
(log 23). A station with no home range keeps its table empty, takes no BEACON and sets no flag. -/
def Obligations.BeaconIntake : Prop :=
  ∀ (dt : Micros) (sender dest flags c : Byte) (interval : Word16) (items : List BeaconItem) (s : State), Sound s →
    s.dispatches ⟨sender, dest, .beacon flags interval c items⟩ → (s.arriving dt).hears = true →
    let u := s.arriving dt
    let kept := keptItems s.cfg items
    let find (t : State) (a : Byte) : Option Neighbour := tableFind Neighbour.key a.toNat t.nbt.entries
    (s.cfg.homeCount = 0 → s.nbt.entries = [] ∧
      exec (.beacon dt sender dest flags interval c items) s = .next u.carrierEnds.linkTake) ∧
    (s.cfg.homeCount ≠ 0 →
      ∃ t : State, exec (.beacon dt sender dest flags interval c items) s = .next t.carrierEnds.linkTake ∧
      (kept = [] → find t sender = none ∧ (∀ a, a ≠ sender → find t a = find s a) ∧ t.setNbt u.nbt = u) ∧
      (kept ≠ [] →
        let stored : Prop := ∃ e, find t sender = some e ∧ e.address = sender ∧ e.listen = flags.getLsbD 0 ∧
          e.radioLost = flags.getLsbD 1 ∧ e.interval = max 50 (min 8000 (10 * interval.toNat)) ∧
          e.advertisedC = min 4 c.toNat ∧ e.items = kept ∧ e.stale = false ∧ e.heardAt = s.now + dt
        ((find s sender).isSome = true ∨ s.nbt.entries.length < 12 →
          stored ∧ (∀ a, a ≠ sender → find t a = find s a) ∧ t.setNbt u.nbt = u) ∧
        (∀ gone ∈ s.nbt.entries, find s sender = none → s.nbt.entries.length = 12 → gone.stale = true →
          (∀ e ∈ s.nbt.entries, e.stale = true →
            gone.heardAt < e.heardAt ∨ (gone.heardAt = e.heardAt ∧ gone.address.toNat ≤ e.address.toNat)) →
          stored ∧ find t gone.address = none ∧
            (∀ a, a ≠ sender → a ≠ gone.address → find t a = find s a) ∧ t.setNbt u.nbt = u) ∧
        (find s sender = none → s.nbt.entries.length = 12 → (∀ e ∈ s.nbt.entries, e.stale = false) →
          t = u.setFlag .neighbourFull)))

/-- R28, R29, R30: an entry whose silence exceeds 3 intervals becomes STALE and keeps its other fields, one whose silence
exceeds 6 intervals is freed; before that the command finds its point not reached. The silence is compared to the
microsecond (log 23). -/
def Obligations.NeighbourAging : Prop :=
  ∀ (dt : Micros) (a : Byte) (e : Neighbour) (s : State), Sound s →
    tableFind Neighbour.key a.toNat s.nbt.entries = some e →
    let u := s.advance dt
    let silence := s.now + dt - e.heardAt
    (∃ t : State, exec (.neighbourStalePoint dt a) s = .next t.linkTake ∧
      (silence ≤ 3000 * e.interval → t = u) ∧
      (3000 * e.interval < silence →
        tableFind Neighbour.key a.toNat t.nbt.entries = some { e with stale := true } ∧
        (∀ b, b ≠ a → tableFind Neighbour.key b.toNat t.nbt.entries = tableFind Neighbour.key b.toNat s.nbt.entries) ∧
        t.setNbt s.nbt = u)) ∧
    (∃ t : State, exec (.neighbourRemovalPoint dt a) s = .next t.linkTake ∧
      (silence ≤ 6000 * e.interval → t = u) ∧
      (6000 * e.interval < silence →
        tableFind Neighbour.key a.toNat t.nbt.entries = none ∧
        (∀ b, b ≠ a → tableFind Neighbour.key b.toNat t.nbt.entries = tableFind Neighbour.key b.toNat s.nbt.entries) ∧
        t.setNbt s.nbt = u))

/-! ### The line -/

/-- R59, R60, R63: on an idle line in IDLE the head of the lowest-numbered class that holds a frame becomes the candidate,
its gap the class gap, the base backoff of classes 2 and 3 and the collision backoff, drawn in that order from the
generator. Otherwise no DEFER opens. The gaps lie in 40..180, 80..220 and 120..720 µs where every frame of the class is
below its attempt limit (Table 4-2). -/
def Obligations.DeferOpens : Prop :=
  (∀ s : State, s.running = false ∨ s.pins.carrier = true ∨ s.lnc.line ≠ .idle → s.openDefer = s) ∧
  (∀ s : State, s.running = true → s.pins.carrier = false → s.lnc.line = .idle →
    let g1 := advanceGen s.lnc.generator
    let g2 := advanceGen g1
    let draw (j : Nat) (g : Word16) : Nat := g.toNat % 2 ^ j
    let opened (c : TxClass) (gap : Micros) (g : Word16) : State :=
      s.setLnc { s.lnc with line := .defer c (s.now + gap), generator := g }
    (s.lnc.class0 = [] → s.lnc.class1 = [] → s.lnc.class2 = [] → s.lnc.class3 = [] → s.openDefer = s) ∧
    (∀ f rest, s.lnc.class0 = f :: rest →
      (f.attempts = 0 → s.openDefer = opened .crane 40 s.lnc.generator) ∧
      (0 < f.attempts → s.openDefer = opened .crane (40 + 20 * draw (min f.attempts 4) g1) g1)) ∧
    (s.lnc.class0 = [] →
      (∀ f rest, s.lnc.class1 = f :: rest →
        (f.attempts = 0 → s.openDefer = opened .handover 80 s.lnc.generator) ∧
        (0 < f.attempts → s.openDefer = opened .handover (80 + 20 * draw (min f.attempts 4) g1) g1)) ∧
      (s.lnc.class1 = [] →
        (∀ f rest, s.lnc.class2 = f :: rest →
          (f.attempts = 0 → s.openDefer = opened .beacon (120 + 20 * draw 4 g1) g1) ∧
          (0 < f.attempts →
            s.openDefer = opened .beacon (120 + 20 * draw 4 g1 + 20 * draw (min f.attempts 4) g2) g2)) ∧
        (∀ f rest, s.lnc.class2 = [] → s.lnc.class3 = f :: rest →
          (f.attempts = 0 → s.openDefer = opened .bundle (120 + 20 * draw 4 g1) g1) ∧
          (0 < f.attempts →
            s.openDefer = opened .bundle (120 + 20 * draw 4 g1 + 20 * draw (min f.attempts 4) g2) g2))))) ∧
  (∀ (s : State) (c : TxClass) (e : Micros), (∀ f ∈ s.lnc.frames c, f.attempts < c.limit) →
    s.lnc.line = .idle → s.openDefer.lnc.line = .defer c e →
    match c with
    | .crane => s.now + 40 ≤ e ∧ e ≤ s.now + 180
    | .handover => s.now + 80 ≤ e ∧ e ≤ s.now + 220
    | .beacon | .bundle => s.now + 120 ≤ e ∧ e ≤ s.now + 720) ∧
  (∀ g : Word16,
    (advanceGen g).getLsbD 0 = (g.getLsbD 15 ^^ g.getLsbD 13 ^^ g.getLsbD 12 ^^ g.getLsbD 10) ∧
    (∀ i < 15, (advanceGen g).getLsbD (i + 1) = g.getLsbD i) ∧ (g ≠ 0 → advanceGen g ≠ 0) ∧
    ∀ h : Word16, advanceGen g = advanceGen h → g = h)

/-- R61, R64, R94, R150: when the gap has run out, LNC enters SENDING with the candidate, a CRANE DOWN with its remaining
time as deadline, and a bundle's buffer becomes SENDING. A CRANE DOWN with no time left is withdrawn instead (log 12). -/
def Obligations.GapEnds : Prop :=
  ∀ (dt gapEnd : Micros) (c : TxClass) (f : TxFrame) (rest : List TxFrame) (s : State), Sound s →
    s.lnc.line = .defer c gapEnd → s.lnc.frames c = f :: rest →
    let u := s.advance dt
    let e := exec (.deferGapEnd dt) s
    let sends (x : Frame) : State := u.setLnc { s.lnc with line := .sending c x }
    (s.now + dt < gapEnd → e = .next u.linkTake) ∧
    (gapEnd ≤ s.now + dt →
      (c = .handover ∨ c = .beacon → e = .next (sends f.frame).linkTake) ∧
      (∀ crane seq period late payload, f.frame.body = .craneUp crane seq period late payload →
        e = .next (sends f.frame).linkTake) ∧
      (∀ crane seq deadline payload, f.frame.body = .craneDown crane seq deadline payload →
        let left := f.life - (s.now + dt - f.givenAt) / 1000
        (0 < left → e = .next (sends
          ⟨f.frame.sender, f.frame.dest, .craneDown crane seq (BitVec.ofNat 16 left) payload⟩).linkTake) ∧
        (left = 0 → e = .next (u.setLnc { s.lnc with class0 := rest, line := .idle }).openDefer.linkTake)) ∧
      (c = .bundle → ∃ t : State, e = .next t.linkTake ∧
        (t.setBas s.bas) = sends f.frame ∧ t.bas.alertIntake = s.bas.alertIntake ∧
        t.bas.routineIntake = s.bas.routineIntake ∧ t.bas.waitDue = s.bas.waitDue ∧
        ∀ i : Nat, t.bas.buffers[i]? = (s.bas.buffers[i]?).map fun b : Buffer =>
          if i = f.buffer then { b with state := .sending } else b))

/-- R50, R64, R66, R88, R94, R150, R154: a frame sent whole leaves its class as SENT and its owner is told; LNC is in IDLE,
its carrier timer running if another station's carrier is there, and the next DEFER may open. -/
def Obligations.TransmissionCompletes : Prop :=
  ∀ (dt : Micros) (c : TxClass) (x : Frame) (f : TxFrame) (rest : List TxFrame) (s : State), Sound s →
    s.lnc.line = .sending c x → s.lnc.frames c = f :: rest →
    let left : State := (s.advance dt).setLnc (s.lnc.setFrames c rest)
    let ended (t : State) : State :=
      (t.setLnc { t.lnc with
        line := .idle, carrierSince := if s.pins.carrier then some (s.now + dt) else none }).openDefer
    let e := exec (.transmissionComplete dt) s
    (c = .crane → e = .next (ended left).linkTake) ∧
    (c = .handover → e = .next (ended (left.handoverSent f.frame)).linkTake) ∧
    (c = .beacon → s.cve.successor = none → e = .next (ended left).linkTake) ∧
    (∀ b, c = .beacon → s.cve.successor = some b →
      e = .next (ended ((left.setCve { s.cve with successor := none }).setLnc
        { s.lnc with class2 := [newTx (s.now + dt) b 0 0] })).linkTake) ∧
    (∀ b, c = .bundle → s.bas.buffers[f.buffer]? = some b →
      let told : State :=
        if s.cfg.role = .gateway then
          left.setGds (b.reports.foldl (fun g r => g.intake s.cfg.address r) s.gds)
        else left
      e = .next (ended (State.makeMoves
        (told.setBas { s.bas with buffers := s.bas.buffers.set f.buffer Buffer.reset }))).linkTake)

/-- R50, R65, R66, R87, R88, R94, R150: a collision adds an attempt. Below the limit the frame stays at the head, unless a
refused withdrawal is made again or a successor BEACON enters the slot; at the limit (4, 4, 2, 8) it is DISCARDED and its
owner is told. A frame whose withdrawal was refused leaves class 0 before the next DEFER opens and draws (log 10). -/
def Obligations.CollisionEnds : Prop :=
  ∀ (dt : Micros) (c : TxClass) (x : Frame) (f : TxFrame) (rest : List TxFrame) (s : State), Sound s →
    s.lnc.line = .sending c x → s.lnc.frames c = f :: rest →
    let u := s.advance dt
    let n := f.attempts + 1
    let left : State := u.setLnc (s.lnc.setFrames c rest)
    let again : State := u.setLnc (s.lnc.setFrames c ({ f with attempts := n } :: rest))
    let ended (t : State) : State :=
      (t.setLnc { t.lnc with
        line := .idle, carrierSince := if s.pins.carrier then some (s.now + dt) else none }).openDefer
    let e := exec (.collision dt) s
    (c = .crane →
      (n < 4 → f.withdrawRefused = false → e = .next (ended again).linkTake) ∧
      (4 ≤ n ∨ f.withdrawRefused = true →
        (∀ crane seq period late payload, f.frame.body = .craneUp crane seq period late payload →
          ∃ t : State, left.countsLate t crane ∧ e = .next (ended t).linkTake) ∧
        (∀ crane seq deadline payload, f.frame.body = .craneDown crane seq deadline payload →
          e = .next (ended left).linkTake))) ∧
    (c = .handover →
      (n < 4 → e = .next (ended again).linkTake) ∧
      (4 ≤ n → e = .next (ended (left.handoverDiscarded f.frame)).linkTake)) ∧
    (c = .beacon →
      (∀ b, s.cve.successor = some b →
        e = .next (ended ((u.setCve { s.cve with successor := none }).setLnc
          { s.lnc with class2 := [newTx (s.now + dt) b 0 0] })).linkTake) ∧
      (s.cve.successor = none → n < 2 → e = .next (ended again).linkTake) ∧
      (s.cve.successor = none → 2 ≤ n → e = .next (ended left).linkTake)) ∧
    (c = .bundle →
      (n < 8 → e = .next (ended again).linkTake) ∧
      (8 ≤ n → e = .next (ended (State.makeMoves
        (left.setBas { s.bas with buffers := s.bas.buffers.set f.buffer Buffer.reset }))).linkTake))

/-- R57, R62, R88: how a frame joins its class. At 8 frames class 0 gives up its oldest that is not being transmitted, with
a fresh DEFER where that was the candidate; class 1 turns the new frame away as DISCARDED; a BEACON replaces the one in the
slot, or waits behind it while it is transmitted. -/
def Obligations.FramesJoin : Prop :=
  ∀ (s : State) (x : Frame), TableSorted Context.key s.cru.contexts →
    let fresh (t : State) : State := (t.setLnc { t.lnc with line := .idle }).openDefer
    (∀ life : Nat,
      let new := newTx s.now x life 0
      (s.lnc.class0.length < 8 →
        s.giveCrane x life = (s.setLnc { s.lnc with class0 := s.lnc.class0 ++ [new] }).openDefer) ∧
      (∀ old rest, s.lnc.class0 = old :: rest → rest.length = 7 → s.lnc.transmitting .crane = false →
        let left := s.setLnc { s.lnc with class0 := rest ++ [new] }
        ∃ t : State, (∀ crane, craneUpCrane old.frame.body = some crane → left.countsLate t crane) ∧
          (craneUpCrane old.frame.body = none → t = left) ∧
          s.giveCrane x life = if s.lnc.deferring .crane then fresh t else t) ∧
      (∀ sent old rest, s.lnc.class0 = sent :: old :: rest → rest.length = 6 → s.lnc.transmitting .crane = true →
        let left := s.setLnc { s.lnc with class0 := sent :: rest ++ [new] }
        (∀ crane, craneUpCrane old.frame.body = some crane → left.countsLate (s.giveCrane x life) crane) ∧
        (craneUpCrane old.frame.body = none → s.giveCrane x life = left))) ∧
    (s.lnc.class1.length < 8 →
      let joined := (s.setLnc { s.lnc with class1 := s.lnc.class1 ++ [newTx s.now x 0 0] }).openDefer
      s.giveHandover x = joined ∧ s.giveAnswer x = joined) ∧
    (s.lnc.class1.length = 8 → s.giveHandover x = s.handoverDiscarded x ∧ s.giveAnswer x = s) ∧
    (s.lnc.transmitting .beacon = true → s.putBeacon x = s.setCve { s.cve with successor := some x }) ∧
    (s.lnc.transmitting .beacon = false →
      let t := s.setLnc { s.lnc with class2 := [newTx s.now x 0 0] }
      s.putBeacon x = if s.lnc.deferring .beacon then fresh t else t.openDefer)

/-- R58, R62, R87, R94: a crane frame whose time has run out is withdrawn from its place, a CRANE UP counting as late, with a
fresh DEFER where it was the candidate; while it is transmitted LNC refuses and the refusal is kept in mind. Each command acts
on frames of its own kind alone. -/
def Obligations.Withdrawals : Prop :=
  ∀ (dt : Micros) (place : Nat) (f : TxFrame) (s : State), Sound s → s.lnc.class0[place]? = some f →
    let u := s.advance dt
    let due : Prop := f.givenAt + 1000 * f.life ≤ s.now + dt
    let onLine : Prop := place = 0 ∧ s.lnc.transmitting .crane = true
    let left : State := u.setLnc { s.lnc with class0 := s.lnc.class0.eraseIdx place }
    let refused : State := u.setLnc { s.lnc with class0 := s.lnc.class0.set 0 { f with withdrawRefused := true } }
    let gone (t : State) : State :=
      if s.lnc.deferring .crane = true ∧ place = 0 then (t.setLnc { t.lnc with line := .idle }).openDefer else t
    let up := exec (.craneUpAgeLimit dt place) s
    let down := exec (.craneDownRemainingZero dt place) s
    (∀ crane seq period late payload, f.frame.body = .craneUp crane seq period late payload →
      down = .next u.linkTake ∧ (¬due → up = .next u.linkTake) ∧ (due → onLine → up = .next refused.linkTake) ∧
      (due → ¬onLine → ∃ t : State, left.countsLate t crane ∧ up = .next (gone t).linkTake)) ∧
    (∀ crane seq deadline payload, f.frame.body = .craneDown crane seq deadline payload →
      up = .next u.linkTake ∧ (¬due → down = .next u.linkTake) ∧ (due → onLine → down = .next refused.linkTake) ∧
      (due → ¬onLine → down = .next (gone left).linkTake))

/-- R59, R61, R67, R71, R74: carrier ends a DEFER and begins a reception with the carrier timer, restarts the recovery of a
FAULT, and leaves SENDING alone; its end stops the timer, ends the reception, lets a DEFER open, and in FAULT starts the
recovery timer unless the line is open. An inactive LNC follows the level alone (log 7). -/
def Obligations.CarrierChanges : Prop :=
  ∀ (dt : Micros) (s : State), Sound s →
    let u := s.advance dt
    let level (b : Bool) : State := u.setPins { s.pins with carrier := b }
    let appears := exec (.carrierAppears dt) s
    let ends := exec (.carrierEnds dt) s
    (s.pins.carrier = true → appears = .next u.linkTake) ∧
    (s.pins.carrier = false → ends = .next u.linkTake) ∧
    (s.running = false ∨ s.transmitEnable = true →
      (s.pins.carrier = false → appears = .next (level true).linkTake) ∧
      (s.pins.carrier = true → ends = .next (level false).linkTake)) ∧
    (s.running = true →
      (s.pins.carrier = false → s.lnc.line = .idle ∨ (∃ c e, s.lnc.line = .defer c e) →
        appears = .next ((level true).setLnc { s.lnc with
          line := .idle, receiving := true, carrierSince := some (s.now + dt) }).linkTake) ∧
      (s.pins.carrier = true → s.lnc.line = .idle →
        ends = .next ((level false).setLnc { s.lnc with receiving := false, carrierSince := none }).openDefer.linkTake) ∧
      (s.lnc.line = .fault →
        (s.pins.carrier = false → appears = .next ((level true).setLnc { s.lnc with
          carrierSince := some (s.now + dt), recoverySince := none }).linkTake) ∧
        (s.pins.carrier = true → ends = .next ((level false).setLnc { s.lnc with
          carrierSince := none,
          recoverySince := if s.pins.lineOpen then none else some (s.now + dt) }).linkTake)))

/-- R71 to R74, R171: carrier for more than 20 ms is JABBER, an open line OPEN at once in any line state; either records
FAULT START, its end FAULT END, each with a STATE REPORT waiting; a fault cuts a DEFER, a reception or a transmission without
an outcome. 50 ms of idle line reported OK, and no less, end the fault, whose kind stays. -/
def Obligations.LineFaults : Prop :=
  ∀ (dt : Micros) (s : State), Sound s → s.running = true →
    let u := s.advance dt
    let now := s.now + dt
    let fault (t : State) (kind : FaultKind) (recovery : Option Micros) : State :=
      State.recordOccasion .faultStart (t.setLnc { t.lnc with
        line := .fault, faultKind := kind, receiving := false, recoverySince := recovery })
    let opened : State := u.setPins { s.pins with lineOpen := true }
    let healed : State := State.recordOccasion .faultEnd (u.setLnc { s.lnc with line := .idle, recoverySince := none })
    let jabber := exec (.jabberDetected dt) s
    let cut := exec (.lineOpenReported dt) s
    let recovered := exec (.faultRecoveryExpiry dt) s
    let good := exec (.lineConditionOk dt) s
    (∀ (t : State) (kind : FaultKind) (recovery : Option Micros), t.running = true →
      (fault t kind recovery).rlc.occasions.faultStart = true ∧
      ControlMsg.stateReport ∈ (fault t kind recovery).rlc.control) ∧
    (∀ since, s.lnc.line = .idle → s.lnc.carrierSince = some since →
      (now ≤ since + 20000 → jabber = .next u.linkTake) ∧
      (since + 20000 < now → jabber = .next (fault u .jabber none).linkTake)) ∧
    (s.lnc.line = .idle ∨ (∃ c e, s.lnc.line = .defer c e) → cut = .next (fault opened .cut none).linkTake) ∧
    (∀ c x, s.lnc.line = .sending c x →
      let ended : State := opened.setLnc { s.lnc with
        line := .idle, carrierSince := if s.pins.carrier then some now else none }
      (c = .handover ∨ c = .bundle ∨ (c = .beacon ∧ s.cve.successor = none) →
        cut = .next (fault ended .cut none).linkTake) ∧
      (∀ b, c = .beacon → s.cve.successor = some b →
        cut = .next (fault ((ended.setCve { s.cve with successor := none }).setLnc
          { ended.lnc with class2 := [newTx now b 0 0] }) .cut none).linkTake) ∧
      (∀ f rest, c = .crane → s.lnc.class0 = f :: rest →
        (f.withdrawRefused = false → cut = .next (fault ended .cut none).linkTake) ∧
        (f.withdrawRefused = true →
          let left : State := ended.setLnc { ended.lnc with class0 := rest }
          ∃ t : State, (∀ crane, craneUpCrane f.frame.body = some crane → left.countsLate t crane) ∧
            (craneUpCrane f.frame.body = none → t = left) ∧ cut = .next (fault t .cut none).linkTake))) ∧
    (s.lnc.line = .fault →
      jabber = .next u.linkTake ∧ cut = .next (opened.setLnc { s.lnc with recoverySince := none }).linkTake ∧
      (∀ since, s.lnc.recoverySince = some since →
        (now < since + 50000 → recovered = .next u.linkTake) ∧
        (since + 50000 ≤ now → recovered = .next healed.openDefer.linkTake)) ∧
      healed.rlc.occasions.faultEnd = true ∧ ControlMsg.stateReport ∈ healed.rlc.control ∧
      (s.lnc.recoverySince = none → recovered = .next u.linkTake) ∧
      (s.pins.lineOpen = true → good = .next ((u.setPins { s.pins with lineOpen := false }).setLnc
        { s.lnc with recoverySince := if s.pins.carrier then none else some now }).linkTake)) ∧
    (s.lnc.line ≠ .fault →
      recovered = .next u.linkTake ∧ good = .next (u.setPins { s.pins with lineOpen := false }).linkTake)

/-- R67 to R70: a frame received whose check or form fails, or that is for another station, has no effect; one with the own
address as sender sets ADDRESS CLASH; one LNC does not receive, in FAULT, in SENDING or inactive, is not looked at. A row
with no carrier recorded brings its own; a carrier that began in the own transmission or before LNC was active brings no
frame (log 11). Bytes that are a frame are taken as that frame (log 15, log 16). -/
def Obligations.ReceivedFrames : Prop :=
  ∀ (dt : Micros) (s : State), Sound s →
    let u := s.arriving dt
    let nothing : Host.Outcome State Fault Refusal := .next u.carrierEnds.linkTake
    let clash : Host.Outcome State Fault Refusal := .next (u.setFlag .addressClash).carrierEnds.linkTake
    (u.hears = true →
      exec (.addressClash dt) s = clash ∧
      (∀ (c : Instr) (f : Frame), c.frame = some f → c.elapsed = dt →
        (frameWellFormed f = false → exec c s = nothing) ∧
        (frameWellFormed f = true → f.sender = s.cfg.address → exec c s = clash) ∧
        (frameWellFormed f = true → f.sender ≠ s.cfg.address → f.dest ≠ s.cfg.address → f.dest ≠ 63 →
          exec c s = nothing)) ∧
      (∀ bytes : List Byte, readFrame bytes = .badCheck ∨ readFrame bytes = .malformed →
        exec (.receivedFrameDiscarded dt bytes) s = nothing)) ∧
    (u.hears = false →
      exec (.addressClash dt) s = nothing ∧
      (∀ (c : Instr) (f : Frame), c.frame = some f → c.elapsed = dt → exec c s = nothing) ∧
      (∀ bytes : List Byte, exec (.receivedFrameDiscarded dt bytes) s = nothing)) ∧
    (∀ (bytes : List Byte) (c : Instr) (f : Frame), readFrame bytes = .good f → c.frame = some f → c.elapsed = dt →
      exec (.receivedFrameDiscarded dt bytes) s = exec c s)

/-! ### Cranes -/

/-- R77, R79 to R82: CRANE ATTACH is refused in LISTEN and when four contexts are held, makes a context with the values of
Table 5-1, or makes a PENDING one ANCHORED; on an active context it is a CRANE POSITION. A position that changes, and a
detach, of an active context are departures; a PENDING context ignores CRANE DETACH. -/
def Obligations.CraneMessages : Prop :=
  ∀ (dt : Micros) (crane g : Byte) (s : State), Sound s → s.attends →
    1 ≤ crane.toNat → crane.toNat ≤ 31 → g.toNat ≤ 127 →
    let u := s.accepting dt
    let now := s.now + dt
    let attach := exec (.craneAttach dt crane g) s
    let position := exec (.cranePosition dt crane g) s
    let detach := exec (.craneDetach dt crane) s
    (s.stc.runState = .listen →
      attach = .next (u.queueControl (.craneReject crane .notRunning)).linkTake) ∧
    (s.stc.runState = .run → s.contextOf crane = none →
      (s.cru.contexts.length = 4 → attach = .next (u.queueControl (.craneReject crane .full)).linkTake) ∧
      (s.cru.contexts.length < 4 → ∃ t : State, attach = .next t.linkTake ∧ u.changesContext t crane (some
        { crane := crane, position := g, state := .anchored, lastUplink := now, measuring := false, period := none,
          stale := false, late := 0, queue := [], retryAt := now }))) ∧
    (s.contextOf crane = none → position = .next u.linkTake ∧ detach = .next u.linkTake) ∧
    (∀ c, s.contextOf crane = some c →
      (c.active = false →
        (∃ t : State, attach = .next t.linkTake ∧
          u.changesContext t crane (some { c with state := .anchored, position := g })) ∧
        detach = .next u.linkTake) ∧
      (c.active = true →
        attach = position ∧
        ∃ t : State, u.changesContext t crane none ∧ detach = .next (t.departure c.position).linkTake) ∧
      (c.position = g → position = .next u.linkTake) ∧
      (c.position ≠ g → ∃ t : State, u.changesContext t crane (some { c with position := g }) ∧
        position = .next (if c.active then t.departure c.position else t).linkTake))

/-- R5, R84, R85, R95: a CRANE UPLINK is a sample for the position of the context holding the crane. An active context
relays it: the period is measured from the last uplink, 1..4095 ms, the context is no longer stale, a CRANE UP to all
stations is given with the period as age limit, or CRANE_STALE without one, a gateway queues the TERMINAL UPLINK, and the
handover window follows. -/
def Obligations.UplinkRelay : Prop :=
  ∀ (dt : Micros) (crane seq margin : Byte) (payload : List Byte) (s : State), Sound s → s.attends →
    1 ≤ crane.toNat → crane.toNat ≤ 31 → 1 ≤ payload.length → payload.length ≤ 48 →
    let u := s.accepting dt
    let now := s.now + dt
    let e := exec (.craneUplink dt crane seq margin payload) s
    (s.contextOf crane = none → e = .next u.linkTake) ∧
    (∀ old, s.contextOf crane = some old →
      let sampled := u.applySample old.position margin
      (old.active = false → e = .next sampled.linkTake) ∧
      (old.active = true →
        let period : Option Nat :=
          if old.measuring then some (max 1 (min 4095 ((now - old.lastUplink) / 1000))) else old.period
        let field : Word16 := BitVec.ofNat 16 (period.getD 0)
        let late : Byte := BitVec.ofNat 8 old.late
        ∃ t : State, sampled.changesContext t crane (some
            { old with period := period, measuring := true, stale := false, lastUplink := now }) ∧
          (let given : State := t.giveCrane
            ⟨s.cfg.address, 63, .craneUp crane seq field late payload⟩ (period.getD s.cfg.craneStale)
           let queued : State :=
            if s.cfg.role = .gateway then
              given.queueTerminal
                { crane := crane, seq := seq, anchor := s.cfg.address, period := field, late := late,
                  payload := payload, joinedAt := now }
            else given
           e = .next (queued.handoverWindow crane).linkTake)))

/-- R97 to R100: an OFFER goes out when the context is ANCHORED with a position that is not a CLAIMED home segment, a period
and no staleness, its retry time reached, and an eligible claimant exists: the one of highest score, then lowest C, then
lowest address. The context is OFFERING with the next token. Otherwise nothing happens. -/
def Obligations.HandoverWindow : Prop :=
  ∀ (crane : Byte) (c : Context) (s : State), NeighboursOk s → TableSorted Context.key s.cru.contexts →
    s.contextOf crane = some c →
    let ready : Prop := c.state = .anchored ∧ s.claimedHere c.position = false ∧ c.period ≠ none ∧ c.stale = false ∧
      c.retryAt ≤ s.now
    (¬ready → s.handoverWindow crane = s) ∧
    ((∀ n ∈ s.claimants c.position, 4 ≤ n.advertisedC) → s.handoverWindow crane = s) ∧
    (∀ n : Claimant, ready → n ∈ s.claimants c.position → n.advertisedC < 4 →
      (∀ m ∈ s.claimants c.position, m.advertisedC < 4 → m.address ≠ n.address →
        m.score < n.score ∨ (m.score = n.score ∧ (n.advertisedC < m.advertisedC ∨
          (n.advertisedC = m.advertisedC ∧ n.address.toNat < m.address.toNat)))) →
      let token := s.cru.tokenCounter + 1
      ∃ t : State, t.contextOf crane = some { c with state := .offering n.address token .sendingOffer } ∧
        (∀ k, k ≠ crane → t.contextOf k = s.contextOf k) ∧ t.cru.tokenCounter = token ∧ t.setCru s.cru = s ∧
        s.handoverWindow crane = t.giveHandover
          ⟨s.cfg.address, n.address, .offer crane token c.position (BitVec.ofNat 16 (c.period.getD 0))
            (BitVec.ofNat 8 c.late)⟩)

/-- R90 to R92, R94 to R96, R164: a CRANE DOWN, and at a gateway a CRANE DOWNLINK as well, joins the queue of an active
context of the crane with its deadline brought into 1..1000 ms; at 4 entries the oldest goes as late, and an entry whose
deadline has passed goes as late. A CRANE DOWNLINK is also given to the line at a gateway and sets LINK ERROR at an EDGE
station. A CRANE UP becomes a TERMINAL UPLINK at a gateway alone. -/
def Obligations.CraneTraffic : Prop :=
  ∀ (dt : Micros) (crane seq : Byte) (deadline : Word16) (payload : List Byte) (s : State), Sound s →
    1 ≤ crane.toNat → crane.toNat ≤ 31 → 1 ≤ payload.length → payload.length ≤ 48 →
    let now := s.now + dt
    let ms : Nat := if deadline = 0 then 1 else if 1000 < deadline.toNat then 1000 else deadline.toNat
    let entry : Downlink := { seq := seq, payload := payload, deadline := now + 1000 * ms }
    let late (n : Nat) : Nat := if n < 255 then n + 1 else 255
    let joins (u t : State) : Prop :=
      ((∀ c, u.contextOf crane = some c → c.active = false) → t = u) ∧
      ∀ c, u.contextOf crane = some c → c.active = true →
        u.changesContext t crane (some
          (if c.queue.length < 4 then { c with queue := c.queue ++ [entry] }
           else { c with queue := c.queue.drop 1 ++ [entry], late := late c.late }))
    (∀ sender dest, s.dispatches ⟨sender, dest, .craneDown crane seq deadline payload⟩ →
      (s.arriving dt).hears = true → ∃ t : State, joins (s.arriving dt) t ∧
        exec (.craneDown dt sender dest crane seq deadline payload) s = .next t.carrierEnds.linkTake) ∧
    (s.attends →
      (s.cfg.role = .edge → exec (.craneDownlink dt crane seq deadline payload) s =
        .next ((s.accepting dt).setFlag .linkError).linkTake) ∧
      (s.cfg.role = .gateway → ∃ t : State,
        joins ((s.accepting dt).giveCrane
          ⟨s.cfg.address, 63, .craneDown crane seq (BitVec.ofNat 16 ms) payload⟩ ms) t ∧
        exec (.craneDownlink dt crane seq deadline payload) s = .next t.linkTake)) ∧
    (∀ (place : Nat) (c : Context) (x : Downlink), s.contextOf crane = some c → c.queue[place]? = some x →
      ∃ t : State, exec (.downlinkDeadline dt crane place) s = .next t.linkTake ∧
        (now < x.deadline → t = s.advance dt) ∧
        (x.deadline ≤ now → (s.advance dt).changesContext t crane (some
          { c with queue := c.queue.eraseIdx place, late := late c.late }))) ∧
    (∀ sender dest (period : Word16) (n : Byte), s.dispatches ⟨sender, dest, .craneUp crane seq period n payload⟩ →
      (s.arriving dt).hears = true →
      exec (.craneUp dt sender dest crane seq period n payload) s =
        .next ((if s.cfg.role = .gateway then
          (s.arriving dt).queueTerminal
            { crane := crane, seq := seq, anchor := sender, period := period, late := n, payload := payload,
              joinedAt := now }
          else s.arriving dt) : State).carrierEnds.linkTake)

/-- R86, R106, R114: silence longer than CRANE_STALE makes a context stale, without period and not measuring; the guard of
an OFFERING context in AWAITING REPLY returns it to ANCHORED with twice the guard as backoff; the guard of a PENDING context
frees it. None acts before its time. The stale watch runs from last uplink time, also after a promotion (log 13). -/
def Obligations.CraneTimers : Prop :=
  ∀ (dt : Micros) (crane : Byte) (c : Context) (s : State), Sound s → s.contextOf crane = some c →
    let u := s.advance dt
    let now := s.now + dt
    (let passed : Prop := c.stale = false ∧ c.lastUplink + 1000 * s.cfg.craneStale < now
     (¬passed → exec (.craneStaleExpiry dt crane) s = .next u.linkTake) ∧
     (passed → ∃ t : State, exec (.craneStaleExpiry dt crane) s = .next t.linkTake ∧
       u.changesContext t crane (some { c with stale := true, period := none, measuring := false }))) ∧
    (∀ peer token due, c.state = .offering peer token (.awaitingReply due) →
      (now < due → exec (.offerGuardExpiry dt crane) s = .next u.linkTake) ∧
      (due ≤ now → ∃ t : State, exec (.offerGuardExpiry dt crane) s = .next t.linkTake ∧
        u.changesContext t crane (some
          { c with state := .anchored, retryAt := now + 2000 * s.cfg.handoverGuard }))) ∧
    (∀ peer token due, c.state = .pending peer token due →
      (now < due → exec (.pendingGuardExpiry dt crane) s = .next u.linkTake) ∧
      (due ≤ now → ∃ t : State, exec (.pendingGuardExpiry dt crane) s = .next t.linkTake ∧
        u.changesContext t crane none))

/-! ### Handover -/

/-- R101, R103, R104, R109, R111: what SENT and DISCARDED of a handover frame do. An OFFER sent starts the guard, one
discarded returns the context to ANCHORED with a backoff; a COMMIT sent redirects the crane and frees the context, one
discarded sends CANCEL and returns the context; a TAKE discarded frees the PENDING context. A frame that no longer matches
its context does none of this. -/
def Obligations.HandoverOutcomes : Prop :=
  ∀ (a d crane token : Byte) (s : State), TableSorted Context.key s.cru.contexts →
    let guard := s.cfg.handoverGuard
    let commit : Frame := ⟨a, d, .commit crane token⟩
    let cancelled : State := s.giveAnswer ⟨s.cfg.address, d, .cancel crane token⟩
    (∀ (g : Byte) (period : Word16) (late : Byte),
      let offer : Frame := ⟨a, d, .offer crane token g period late⟩
      (∀ c peer, s.contextOf crane = some c → c.state = .offering peer token .sendingOffer →
        s.changesContext (s.handoverSent offer) crane
          (some { c with state := .offering peer token (.awaitingReply (s.now + 1000 * guard)) }) ∧
        s.changesContext (s.handoverDiscarded offer) crane
          (some { c with state := .anchored, retryAt := s.now + 2000 * guard })) ∧
      ((∀ c peer, s.contextOf crane = some c → c.state ≠ .offering peer token .sendingOffer) →
        s.handoverSent offer = s ∧ s.handoverDiscarded offer = s)) ∧
    (∀ c peer, s.contextOf crane = some c → c.state = .offering peer token .committing →
      (∃ t : State, (s.queueControl (.craneRedirect crane peer)).changesContext t crane none ∧
        s.handoverSent commit = t.departure c.position) ∧
      cancelled.changesContext (s.handoverDiscarded commit) crane
        (some { c with state := .anchored, retryAt := s.now + 2000 * guard })) ∧
    ((∀ c peer, s.contextOf crane = some c → c.state ≠ .offering peer token .committing) →
      s.handoverSent commit = s ∧ s.handoverDiscarded commit = cancelled) ∧
    (let take : Frame := ⟨a, d, .take crane token⟩
     s.handoverSent take = s ∧
     (∀ c peer due, s.contextOf crane = some c → c.state = .pending peer token due →
       s.changesContext (s.handoverDiscarded take) crane none) ∧
     ((∀ c peer due, s.contextOf crane = some c → c.state ≠ .pending peer token due) →
       s.handoverDiscarded take = s)) ∧
    (∀ body, (∃ reason, body = .refuse crane token reason) ∨ body = .cancel crane token →
      s.handoverSent ⟨a, d, body⟩ = s ∧ s.handoverDiscarded ⟨a, d, body⟩ = s)

/-- R109 to R111: an OFFER is answered by the first check of Table 6-3 that fits: NOT RUNNING, PENDING OTHER, ANCHORED HERE
where the own address is the lower, YIELDED with the context given up where it is the higher, NOT CLAIMED, FULL, and
otherwise TAKE with a PENDING context that holds what the OFFER carried. -/
def Obligations.OfferAnswers : Prop :=
  ∀ (dt : Micros) (sender dest crane token g : Byte) (period : Word16) (late : Byte) (s : State), Sound s →
    s.dispatches ⟨sender, dest, .offer crane token g period late⟩ → (s.arriving dt).hears = true →
    let u := s.arriving dt
    let refusing (t : State) (reason : RefuseReason) : State :=
      t.giveAnswer ⟨s.cfg.address, sender, .refuse crane token reason⟩
    let e := exec (.offer dt sender dest crane token g period late) s
    (s.stc.runState = .listen ∨ s.rlc.radioLost = true →
      e = .next (refusing u .notRunning).carrierEnds.linkTake) ∧
    (s.stc.runState = .run → s.rlc.radioLost = false →
      (∀ c, s.contextOf crane = some c →
        (c.active = false → e = .next (refusing u .pendingOther).carrierEnds.linkTake) ∧
        (c.active = true → s.cfg.address.toNat < sender.toNat →
          e = .next (refusing u .anchoredHere).carrierEnds.linkTake) ∧
        (c.active = true → sender.toNat < s.cfg.address.toNat → ∃ t : State, u.changesContext t crane none ∧
          e = .next (refusing ((t.departure c.position).queueControl (.craneReject crane .yielded))
            .yielded).carrierEnds.linkTake)) ∧
      (s.contextOf crane = none →
        (s.claimedHere g = false → e = .next (refusing u .notClaimed).carrierEnds.linkTake) ∧
        (s.claimedHere g = true → s.cru.contexts.length = 4 →
          e = .next (refusing u .full).carrierEnds.linkTake) ∧
        (s.claimedHere g = true → s.cru.contexts.length < 4 → ∃ t : State,
          u.changesContext t crane (some
            { crane := crane, position := g,
              state := .pending sender token (s.now + dt + 1000 * s.cfg.handoverGuard),
              lastUplink := s.now + dt, measuring := false, period := if period = 0 then none else some period.toNat,
              stale := false, late := late.toNat, queue := [], retryAt := s.now + dt }) ∧
          e = .next (t.giveHandover ⟨s.cfg.address, sender, .take crane token⟩).carrierEnds.linkTake)))

/-- R102, R103, R105, R112, R113: a reply acts only where crane, peer and token match. TAKE makes the context COMMITTING and
gives COMMIT, is passed over when it repeats the accepted one, and is answered with CANCEL otherwise; REFUSE returns the
context, with a backoff but for YIELDED, or on ANCHORED HERE gives it up with a CRANE REJECT (in an order that is free, log
6); COMMIT makes a PENDING context ANCHORED, CANCEL frees it. -/
def Obligations.HandoverReplies : Prop :=
  ∀ (dt : Micros) (sender dest crane token : Byte) (s : State), Sound s → (s.arriving dt).hears = true →
    s.dispatches ⟨sender, dest, .take crane token⟩ →
    let u := s.arriving dt
    let nothing : Host.Outcome State Fault Refusal := .next u.carrierEnds.linkTake
    let take := exec (.take dt sender dest crane token) s
    let refuse (reason : RefuseReason) := exec (.refuse dt sender dest crane token reason) s
    let offering (c : Context) (phase : OfferPhase) : Prop :=
      s.contextOf crane = some c ∧ c.state = .offering sender token phase
    let pending (c : Context) : Prop := s.contextOf crane = some c ∧ ∃ due, c.state = .pending sender token due
    (∀ c phase, offering c phase → phase ≠ .committing →
      (∃ t : State, u.changesContext t crane (some { c with state := .offering sender token .committing }) ∧
        take = .next (t.giveHandover ⟨s.cfg.address, sender, .commit crane token⟩).carrierEnds.linkTake) ∧
      (∃ t : State, u.changesContext t crane (some { c with state := .anchored }) ∧
        refuse .yielded = .next t.carrierEnds.linkTake) ∧
      (∀ reason, reason ≠ .yielded → reason ≠ .anchoredHere → ∃ t : State,
        u.changesContext t crane (some
          { c with state := .anchored, retryAt := s.now + dt + 2000 * s.cfg.handoverGuard }) ∧
        refuse reason = .next t.carrierEnds.linkTake) ∧
      (let v := u.setChoices (s.choices + 1)
       let w := v.queueControl (.craneReject crane .yielded)
       (∃ t : State, v.changesContext t crane none ∧ refuse .anchoredHere =
         .next ((t.departure c.position).queueControl (.craneReject crane .yielded)).carrierEnds.linkTake) ∨
       (∃ t : State, w.changesContext t crane none ∧ refuse .anchoredHere =
         .next (t.departure c.position).carrierEnds.linkTake))) ∧
    ((∀ c phase, offering c phase → phase = .committing) → ∀ reason, refuse reason = nothing) ∧
    (∀ c, offering c .committing → take = nothing) ∧
    ((∀ c phase, ¬offering c phase) →
      take = .next (u.giveAnswer ⟨s.cfg.address, sender, .cancel crane token⟩).carrierEnds.linkTake) ∧
    (∀ c, pending c →
      (∃ t : State, u.changesContext t crane (some { c with state := .anchored }) ∧
        exec (.commit dt sender dest crane token) s = .next t.carrierEnds.linkTake) ∧
      (∃ t : State, u.changesContext t crane none ∧
        exec (.cancel dt sender dest crane token) s = .next t.carrierEnds.linkTake)) ∧
    ((∀ c, ¬pending c) →
      exec (.commit dt sender dest crane token) s = nothing ∧
      exec (.cancel dt sender dest crane token) s = nothing)

/-! ### Reefers -/

/-- R4, R120 to R128, R134, R135: a REEFER REPORT is a sample for its segment; with tag 0 or a code above 15 it is nothing
more. Otherwise its temperatures are clamped, its class is ALERT when its alarm code differs from the last known, 0 for a new
tag, and Table 7-1 routes it: an old sequence number is dropped; in RUN a report of a CLAIMED home segment goes into custody
and to BAS if there is room; any other goes to holdback. -/
def Obligations.ReportsRouted : Prop :=
  ∀ (dt : Micros) (tag : Tag) (g seq : Byte) (sp su : Word16) (alarm margin : Byte) (s : State), Sound s → s.attends →
    g.toNat ≤ 127 →
    let u := (s.accepting dt).applySample g margin
    let e := exec (.reeferReport dt tag g seq sp su alarm margin) s
    (tag = 0 ∨ 15 < alarm.toNat → e = .next u.linkTake) ∧
    (tag ≠ 0 → alarm.toNat ≤ 15 →
      let temp (w : Word16) : Word16 := BitVec.ofInt 16 (max (-400) (min 500 w.toInt))
      let code : BitVec 4 := BitVec.ofNat 4 alarm.toNat
      let custody := s.custodyOf tag
      let held := s.heldOf tag
      let last : BitVec 4 :=
        match custody, held with
        | some x, _ => x.alarm
        | none, some x => x.report.alarm
        | none, none => 0
      let r : Report :=
        { tag := tag, segment := g, seq := seq, setPoint := temp sp, supply := temp su, alarm := code,
          cls := if code = last then .routine else .alert }
      let mine : Prop := s.stc.runState = .run ∧ s.claimedHere g = true
      let room : Prop := s.rfi.custody.length < 384
      let newer (old : Byte) : Prop := 1 ≤ (256 + seq.toNat - old.toNat) % 256 ∧ (256 + seq.toNat - old.toNat) % 256 ≤ 127
      let record : Custody := { tag := tag, segment := g, seq := seq, alarm := code }
      (∀ x, custody = some x →
        (¬newer x.seq → e = .next u.linkTake) ∧
        (newer x.seq → mine → ∃ t : State, u.changesTag t tag (some record) held ∧
          e = .next (t.forward r).linkTake) ∧
        (newer x.seq → ¬mine → ∃ t : State, u.changesTag t tag none held ∧
          e = .next (t.enterHoldback r margin).linkTake)) ∧
      (custody = none →
        (∀ x, held = some x →
          let kept : Report := if x.report.cls = .alert then { r with cls := .alert } else r
          (¬newer x.report.seq → e = .next u.linkTake) ∧
          (newer x.report.seq → mine → room → ∃ t : State, u.changesTag t tag (some record) none ∧
            e = .next (t.forward kept).linkTake) ∧
          (newer x.report.seq → ¬(mine ∧ room) →
            let v : State := if s.stc.runState = .run ∧ s.claimedHere g = true then u.setFlag .custodyFull else u
            ∃ t : State, v.changesTag t tag none
                (some ⟨kept, s.now + dt + 1000 * v.holdbackTime margin g kept.cls⟩) ∧
              e = .next t.linkTake)) ∧
        (held = none →
          (mine → room → ∃ t : State, u.changesTag t tag (some record) none ∧ e = .next (t.forward r).linkTake) ∧
          (mine → ¬room → e = .next ((u.setFlag .custodyFull).enterHoldback r margin).linkTake) ∧
          (¬mine → e = .next (u.enterHoldback r margin).linkTake))))

/-- R131 to R133, R135, R136: a report waits HB_BASE + 2 × (255 − margin) ms in holdback, twice that when a claimant of its
segment is known, a quarter of it for an ALERT. At 32 entries an ALERT takes the place of the ROUTINE entry due last, of
equals to the microsecond (log 23) the lowest tag, and any other report is lost. At its expiry the entry leaves and its
report goes to BAS. -/
def Obligations.Holdback : Prop :=
  (∀ (margin g : Byte) (s : State),
    let hb := s.cfg.hbBase + 2 * (255 - margin.toNat)
    s.holdbackTime margin g .alert = hb / 4 ∧
    (s.claimants g = [] → s.holdbackTime margin g .routine = hb) ∧
    (s.claimants g ≠ [] → s.holdbackTime margin g .routine = 2 * hb)) ∧
  (∀ (r : Report) (margin : Byte) (s : State), ReefersOk s → s.heldOf r.tag = none →
    let t := s.enterHoldback r margin
    let entry : Held := ⟨r, s.now + 1000 * s.holdbackTime margin r.segment r.cls⟩
    (s.rfi.holdback.length < 32 → s.changesTag t r.tag (s.custodyOf r.tag) (some entry)) ∧
    (s.rfi.holdback.length = 32 →
      (r.cls = .routine ∨ (∀ x ∈ s.rfi.holdback, x.report.cls = .alert) → t = s) ∧
      (∀ v ∈ s.rfi.holdback, r.cls = .alert → v.report.cls = .routine →
        (∀ x ∈ s.rfi.holdback, x.report.cls = .routine →
          x.expiry < v.expiry ∨ (x.expiry = v.expiry ∧ v.report.tag.toNat ≤ x.report.tag.toNat)) →
        t.heldOf r.tag = some entry ∧ t.heldOf v.report.tag = none ∧
        (∀ k, k ≠ r.tag → k ≠ v.report.tag → t.heldOf k = s.heldOf k) ∧ t.rfi.custody = s.rfi.custody ∧
        t.rfi.holdback.length = 32 ∧ t.setRfi s.rfi = s))) ∧
  (∀ (dt : Micros) (tag : Tag) (x : Held) (s : State), Sound s → s.heldOf tag = some x →
    (s.now + dt < x.expiry → exec (.holdbackExpiry dt tag) s = .next (s.advance dt).linkTake) ∧
    (x.expiry ≤ s.now + dt → ∃ t : State, (s.advance dt).changesTag t tag (s.custodyOf tag) none ∧
      exec (.holdbackExpiry dt tag) s = .next (t.forward x.report).linkTake))

/-! ### Bundles -/

/-- R139, R142 to R149, R151, R152: a forwarded report goes into the FILLING buffer, or opens an EMPTY one and starts the
wait timer; the buffer closes when it is full or the report is an ALERT, or when the wait timer expires, and its bundle joins
class 3 with the reports in the order they came. That of two EMPTY buffers the lower-numbered one receives is the model's
choice (log 24). While no buffer can receive, the report waits in the intake of its class, which drops its oldest when full.
When an outcome leaves one buffer EMPTY and none FILLING, the alert at the head of its intake moves first and closes the
buffer alone; routine reports move, in order, only while no alert waits, until the room or the intake is used up. -/
def Obligations.BuffersFill : Prop :=
  (∀ (r : Report) (s : State), BundlesOk s → s.running = true →
    let t := s.forward r
    let limit := if 1 ≤ s.cfg.bundleLimit then s.cfg.bundleLimit else if s.cfg.bundleMode = .split then 12 else 24
    let bs := s.bas.buffers
    (s.cfg.bundleLimit ≤ (if s.cfg.bundleMode = .split then 12 else 24) → ∀ (i : Nat) (b : Buffer), bs[i]? = some b →
      (b.state = .filling ∨ (b.state = .empty ∧ (∀ x ∈ bs, x.state ≠ .filling) ∧
        ∀ (j : Nat) (x : Buffer), j < i → bs[j]? = some x → x.state ≠ .empty)) →
      let room := if b.state = .empty then limit - 1 else b.room - 1
      let reports := if b.state = .empty then [r] else b.reports ++ [r]
      (room ≠ 0 → r.cls = .routine → t = s.setBas { s.bas with
        buffers := bs.set i ⟨.filling, room, reports⟩,
        waitDue := if b.state = .empty then some (s.now + 1000 * s.cfg.bundleWait) else s.bas.waitDue }) ∧
      (room = 0 ∨ r.cls = .alert →
        t = ((s.setBas { s.bas with buffers := bs.set i ⟨.closed, room, reports⟩, waitDue := none }).setLnc
          { s.lnc with
            class3 := s.lnc.class3 ++ [newTx s.now ⟨s.cfg.address, 63, .bundle reports⟩ 0 i] }).openDefer)) ∧
    ((∀ b ∈ bs, b.state = .closed ∨ b.state = .sending) →
      (r.cls = .alert → t = s.setBas { s.bas with
        alertIntake := (if s.bas.alertIntake.length < 8 then s.bas.alertIntake else s.bas.alertIntake.drop 1) ++ [r] }) ∧
      (r.cls = .routine → t = s.setBas { s.bas with
        routineIntake :=
          (if s.bas.routineIntake.length < 32 then s.bas.routineIntake else s.bas.routineIntake.drop 1) ++ [r] }))) ∧
  (∀ (dt due : Micros) (i : Nat) (b : Buffer) (s : State), Sound s → s.bas.waitDue = some due →
    s.bas.buffers[i]? = some b → b.state = .filling →
    let u := s.advance dt
    (s.now + dt < due → exec (.bundleWaitExpiry dt) s = .next u.linkTake) ∧
    (due ≤ s.now + dt → exec (.bundleWaitExpiry dt) s =
      .next ((u.setBas { s.bas with
          buffers := s.bas.buffers.set i { b with state := .closed }, waitDue := none }).setLnc
        { s.lnc with
          class3 := s.lnc.class3 ++
            [newTx (s.now + dt) ⟨s.cfg.address, 63, .bundle b.reports⟩ 0 i] }).openDefer.linkTake)) ∧
  (∀ s : State, s.bas.alertIntake = [] → s.bas.routineIntake = [] → s.makeMoves = s) ∧
  (∀ (i : Nat) (b : Buffer) (s : State),
    let capacity := if s.cfg.bundleMode = .split then 12 else 24
    let limit := if 1 ≤ s.cfg.bundleLimit then s.cfg.bundleLimit else capacity
    let bs := s.bas.buffers
    let closing (alerts routines : List Report) (room : Nat) (reports : List Report) : State :=
      ((s.setBas { alertIntake := alerts, routineIntake := routines,
                   buffers := bs.set i ⟨.closed, room, reports⟩, waitDue := none }).setLnc
        { s.lnc with
          class3 := s.lnc.class3 ++ [newTx s.now ⟨s.cfg.address, 63, .bundle reports⟩ 0 i] }).openDefer
    s.cfg.bundleLimit ≤ capacity → bs[i]? = some b → b.state = .empty →
    (∀ (j : Nat) (x : Buffer), j ≠ i → bs[j]? = some x → x.state = .closed ∨ x.state = .sending) →
    (∀ r ∈ s.bas.alertIntake, r.cls = .alert) → (∀ r ∈ s.bas.routineIntake, r.cls = .routine) →
    (∀ r rest, s.bas.alertIntake = r :: rest →
      s.makeMoves = closing rest s.bas.routineIntake (limit - 1) [r]) ∧
    (s.bas.alertIntake = [] →
      (limit ≤ s.bas.routineIntake.length →
        s.makeMoves = closing [] (s.bas.routineIntake.drop limit) 0 (s.bas.routineIntake.take limit)) ∧
      (s.bas.routineIntake ≠ [] → s.bas.routineIntake.length < limit →
        s.makeMoves = s.setBas
          { alertIntake := [], routineIntake := [],
            buffers := bs.set i ⟨.filling, limit - s.bas.routineIntake.length, s.bas.routineIntake⟩,
            waitDue := some (s.now + 1000 * s.cfg.bundleWait) })))

/-- R130, R137, R154, R156, R157: a received BUNDLE reaches RFI report by report, and GDS of a gateway. A newer report of a
segment that is not CLAIMED here ends custody of its tag; a held copy that is not newer is dropped. GDS passes over tag 0 and
a pair it has seen; a full store gives up its oldest ROUTINE record, for an ALERT otherwise its oldest ALERT, never the record
in hand, or turns the report away unseen. -/
def Obligations.BundleReceived : Prop :=
  (∀ (dt : Micros) (sender dest : Byte) (reports : List Report) (s : State), Sound s →
    s.dispatches ⟨sender, dest, .bundle reports⟩ → (s.arriving dt).hears = true →
    let t : State := reports.foldl State.overheard (s.arriving dt)
    let g : Gds := if s.cfg.role = .gateway then reports.foldl (fun g r => g.intake sender r) s.gds else s.gds
    exec (.bundle dt sender dest reports) s = .next (t.setGds g).carrierEnds.linkTake) ∧
  (∀ (r : Report) (s : State), ReefersOk s →
    let t := s.overheard r
    let newer (x y : Byte) : Prop := 1 ≤ (256 + x.toNat - y.toNat) % 256 ∧ (256 + x.toNat - y.toNat) % 256 ≤ 127
    (∀ x, s.custodyOf r.tag = some x →
      (newer r.seq x.seq → s.claimedHere r.segment = false → s.changesTag t r.tag none (s.heldOf r.tag)) ∧
      (¬newer r.seq x.seq ∨ s.claimedHere r.segment = true → t = s)) ∧
    (∀ x, s.custodyOf r.tag = none → s.heldOf r.tag = some x →
      (newer x.report.seq r.seq → t = s) ∧ (¬newer x.report.seq r.seq → s.changesTag t r.tag none none)) ∧
    (s.custodyOf r.tag = none → s.heldOf r.tag = none → t = s)) ∧
  (∀ (station : Byte) (r : Report) (g : Gds),
    let t := g.intake station r
    let temp (w : Word16) : Word16 := BitVec.ofInt 16 (max (-400) (min 500 w.toInt))
    let new : Stored := ⟨{ r with setPoint := temp r.setPoint, supply := temp r.supply }, station, false⟩
    let seen := (if g.seen.length < 256 then g.seen else g.seen.drop 1) ++ [(r.tag, r.seq)]
    let free (k : ReportClass) (x : Stored) : Prop := x.report.cls = k ∧ x.inHand = false
    (r.tag = 0 ∨ (r.tag, r.seq) ∈ g.seen → t = g) ∧
    (r.tag ≠ 0 → (r.tag, r.seq) ∉ g.seen →
      (g.store.length < 256 → t = { g with store := g.store ++ [new], seen := seen }) ∧
      (256 ≤ g.store.length →
        (∀ kept x later, g.store = kept ++ x :: later → free .routine x → (∀ y ∈ kept, ¬free .routine y) →
          t = { g with store := kept ++ later ++ [new], seen := seen }) ∧
        (∀ kept x later, g.store = kept ++ x :: later → (∀ y ∈ g.store, ¬free .routine y) → r.cls = .alert →
          free .alert x → (∀ y ∈ kept, ¬free .alert y) →
          t = { g with store := kept ++ later ++ [new], seen := seen }) ∧
        ((∀ y ∈ g.store, ¬free .routine y) → r.cls = .routine ∨ (∀ y ∈ g.store, ¬free .alert y) → t = g))))
end

