-- ==== Sys2Proof/Laws/State.lean ====
section
/-!
SUPPORT. What each replacement of a block leaves of the rest, field by field, and what the readings that look at one or two
blocks make of it. All hold by definition; no proof need unfold a record update.
-/

namespace Sys2Proof.Machine

/-- Two states that agree in every block are equal. -/
theorem State.ext_blocks {s t : State} (hnow : s.now = t.now) (hchoices : s.choices = t.choices) (hpins : s.pins = t.pins)
    (hstc : s.stc = t.stc) (hcve : s.cve = t.cve) (hnbt : s.nbt = t.nbt) (hcru : s.cru = t.cru) (hrfi : s.rfi = t.rfi)
    (hbas : s.bas = t.bas) (hgds : s.gds = t.gds) (hlnc : s.lnc = t.lnc) (hrlc : s.rlc = t.rlc)
    (hpending : s.pending = t.pending) : s = t := by
  cases s; cases t; simp_all

/-! ### `setNow` -/

@[simp] theorem State.setNow_now (s : State) (x : Micros) : (s.setNow x).now = x := rfl
@[simp] theorem State.setNow_choices (s : State) (x : Micros) : (s.setNow x).choices = s.choices := rfl
@[simp] theorem State.setNow_pins (s : State) (x : Micros) : (s.setNow x).pins = s.pins := rfl
@[simp] theorem State.setNow_stc (s : State) (x : Micros) : (s.setNow x).stc = s.stc := rfl
@[simp] theorem State.setNow_cve (s : State) (x : Micros) : (s.setNow x).cve = s.cve := rfl
@[simp] theorem State.setNow_nbt (s : State) (x : Micros) : (s.setNow x).nbt = s.nbt := rfl
@[simp] theorem State.setNow_cru (s : State) (x : Micros) : (s.setNow x).cru = s.cru := rfl
@[simp] theorem State.setNow_rfi (s : State) (x : Micros) : (s.setNow x).rfi = s.rfi := rfl
@[simp] theorem State.setNow_bas (s : State) (x : Micros) : (s.setNow x).bas = s.bas := rfl
@[simp] theorem State.setNow_gds (s : State) (x : Micros) : (s.setNow x).gds = s.gds := rfl
@[simp] theorem State.setNow_lnc (s : State) (x : Micros) : (s.setNow x).lnc = s.lnc := rfl
@[simp] theorem State.setNow_rlc (s : State) (x : Micros) : (s.setNow x).rlc = s.rlc := rfl
@[simp] theorem State.setNow_pending (s : State) (x : Micros) : (s.setNow x).pending = s.pending := rfl
@[simp] theorem State.setNow_setNow (s : State) (x y : Micros) : (s.setNow x).setNow y = s.setNow y := rfl
@[simp] theorem State.setNow_self (s : State) : s.setNow s.now = s := rfl

/-! ### `setChoices` -/

@[simp] theorem State.setChoices_now (s : State) (x : Nat) : (s.setChoices x).now = s.now := rfl
@[simp] theorem State.setChoices_choices (s : State) (x : Nat) : (s.setChoices x).choices = x := rfl
@[simp] theorem State.setChoices_pins (s : State) (x : Nat) : (s.setChoices x).pins = s.pins := rfl
@[simp] theorem State.setChoices_stc (s : State) (x : Nat) : (s.setChoices x).stc = s.stc := rfl
@[simp] theorem State.setChoices_cve (s : State) (x : Nat) : (s.setChoices x).cve = s.cve := rfl
@[simp] theorem State.setChoices_nbt (s : State) (x : Nat) : (s.setChoices x).nbt = s.nbt := rfl
@[simp] theorem State.setChoices_cru (s : State) (x : Nat) : (s.setChoices x).cru = s.cru := rfl
@[simp] theorem State.setChoices_rfi (s : State) (x : Nat) : (s.setChoices x).rfi = s.rfi := rfl
@[simp] theorem State.setChoices_bas (s : State) (x : Nat) : (s.setChoices x).bas = s.bas := rfl
@[simp] theorem State.setChoices_gds (s : State) (x : Nat) : (s.setChoices x).gds = s.gds := rfl
@[simp] theorem State.setChoices_lnc (s : State) (x : Nat) : (s.setChoices x).lnc = s.lnc := rfl
@[simp] theorem State.setChoices_rlc (s : State) (x : Nat) : (s.setChoices x).rlc = s.rlc := rfl
@[simp] theorem State.setChoices_pending (s : State) (x : Nat) : (s.setChoices x).pending = s.pending := rfl
@[simp] theorem State.setChoices_setChoices (s : State) (x y : Nat) : (s.setChoices x).setChoices y = s.setChoices y := rfl
@[simp] theorem State.setChoices_self (s : State) : s.setChoices s.choices = s := rfl

/-! ### `setPins` -/

@[simp] theorem State.setPins_now (s : State) (x : Pins) : (s.setPins x).now = s.now := rfl
@[simp] theorem State.setPins_choices (s : State) (x : Pins) : (s.setPins x).choices = s.choices := rfl
@[simp] theorem State.setPins_pins (s : State) (x : Pins) : (s.setPins x).pins = x := rfl
@[simp] theorem State.setPins_stc (s : State) (x : Pins) : (s.setPins x).stc = s.stc := rfl
@[simp] theorem State.setPins_cve (s : State) (x : Pins) : (s.setPins x).cve = s.cve := rfl
@[simp] theorem State.setPins_nbt (s : State) (x : Pins) : (s.setPins x).nbt = s.nbt := rfl
@[simp] theorem State.setPins_cru (s : State) (x : Pins) : (s.setPins x).cru = s.cru := rfl
@[simp] theorem State.setPins_rfi (s : State) (x : Pins) : (s.setPins x).rfi = s.rfi := rfl
@[simp] theorem State.setPins_bas (s : State) (x : Pins) : (s.setPins x).bas = s.bas := rfl
@[simp] theorem State.setPins_gds (s : State) (x : Pins) : (s.setPins x).gds = s.gds := rfl
@[simp] theorem State.setPins_lnc (s : State) (x : Pins) : (s.setPins x).lnc = s.lnc := rfl
@[simp] theorem State.setPins_rlc (s : State) (x : Pins) : (s.setPins x).rlc = s.rlc := rfl
@[simp] theorem State.setPins_pending (s : State) (x : Pins) : (s.setPins x).pending = s.pending := rfl
@[simp] theorem State.setPins_setPins (s : State) (x y : Pins) : (s.setPins x).setPins y = s.setPins y := rfl
@[simp] theorem State.setPins_self (s : State) : s.setPins s.pins = s := rfl

/-! ### `setStc` -/

@[simp] theorem State.setStc_now (s : State) (x : Stc) : (s.setStc x).now = s.now := rfl
@[simp] theorem State.setStc_choices (s : State) (x : Stc) : (s.setStc x).choices = s.choices := rfl
@[simp] theorem State.setStc_pins (s : State) (x : Stc) : (s.setStc x).pins = s.pins := rfl
@[simp] theorem State.setStc_stc (s : State) (x : Stc) : (s.setStc x).stc = x := rfl
@[simp] theorem State.setStc_cve (s : State) (x : Stc) : (s.setStc x).cve = s.cve := rfl
@[simp] theorem State.setStc_nbt (s : State) (x : Stc) : (s.setStc x).nbt = s.nbt := rfl
@[simp] theorem State.setStc_cru (s : State) (x : Stc) : (s.setStc x).cru = s.cru := rfl
@[simp] theorem State.setStc_rfi (s : State) (x : Stc) : (s.setStc x).rfi = s.rfi := rfl
@[simp] theorem State.setStc_bas (s : State) (x : Stc) : (s.setStc x).bas = s.bas := rfl
@[simp] theorem State.setStc_gds (s : State) (x : Stc) : (s.setStc x).gds = s.gds := rfl
@[simp] theorem State.setStc_lnc (s : State) (x : Stc) : (s.setStc x).lnc = s.lnc := rfl
@[simp] theorem State.setStc_rlc (s : State) (x : Stc) : (s.setStc x).rlc = s.rlc := rfl
@[simp] theorem State.setStc_pending (s : State) (x : Stc) : (s.setStc x).pending = s.pending := rfl
@[simp] theorem State.setStc_setStc (s : State) (x y : Stc) : (s.setStc x).setStc y = s.setStc y := rfl
@[simp] theorem State.setStc_self (s : State) : s.setStc s.stc = s := rfl

/-! ### `setCve` -/

@[simp] theorem State.setCve_now (s : State) (x : Cve) : (s.setCve x).now = s.now := rfl
@[simp] theorem State.setCve_choices (s : State) (x : Cve) : (s.setCve x).choices = s.choices := rfl
@[simp] theorem State.setCve_pins (s : State) (x : Cve) : (s.setCve x).pins = s.pins := rfl
@[simp] theorem State.setCve_stc (s : State) (x : Cve) : (s.setCve x).stc = s.stc := rfl
@[simp] theorem State.setCve_cve (s : State) (x : Cve) : (s.setCve x).cve = x := rfl
@[simp] theorem State.setCve_nbt (s : State) (x : Cve) : (s.setCve x).nbt = s.nbt := rfl
@[simp] theorem State.setCve_cru (s : State) (x : Cve) : (s.setCve x).cru = s.cru := rfl
@[simp] theorem State.setCve_rfi (s : State) (x : Cve) : (s.setCve x).rfi = s.rfi := rfl
@[simp] theorem State.setCve_bas (s : State) (x : Cve) : (s.setCve x).bas = s.bas := rfl
@[simp] theorem State.setCve_gds (s : State) (x : Cve) : (s.setCve x).gds = s.gds := rfl
@[simp] theorem State.setCve_lnc (s : State) (x : Cve) : (s.setCve x).lnc = s.lnc := rfl
@[simp] theorem State.setCve_rlc (s : State) (x : Cve) : (s.setCve x).rlc = s.rlc := rfl
@[simp] theorem State.setCve_pending (s : State) (x : Cve) : (s.setCve x).pending = s.pending := rfl
@[simp] theorem State.setCve_setCve (s : State) (x y : Cve) : (s.setCve x).setCve y = s.setCve y := rfl
@[simp] theorem State.setCve_self (s : State) : s.setCve s.cve = s := rfl

/-! ### `setNbt` -/

@[simp] theorem State.setNbt_now (s : State) (x : Nbt) : (s.setNbt x).now = s.now := rfl
@[simp] theorem State.setNbt_choices (s : State) (x : Nbt) : (s.setNbt x).choices = s.choices := rfl
@[simp] theorem State.setNbt_pins (s : State) (x : Nbt) : (s.setNbt x).pins = s.pins := rfl
@[simp] theorem State.setNbt_stc (s : State) (x : Nbt) : (s.setNbt x).stc = s.stc := rfl
@[simp] theorem State.setNbt_cve (s : State) (x : Nbt) : (s.setNbt x).cve = s.cve := rfl
@[simp] theorem State.setNbt_nbt (s : State) (x : Nbt) : (s.setNbt x).nbt = x := rfl
@[simp] theorem State.setNbt_cru (s : State) (x : Nbt) : (s.setNbt x).cru = s.cru := rfl
@[simp] theorem State.setNbt_rfi (s : State) (x : Nbt) : (s.setNbt x).rfi = s.rfi := rfl
@[simp] theorem State.setNbt_bas (s : State) (x : Nbt) : (s.setNbt x).bas = s.bas := rfl
@[simp] theorem State.setNbt_gds (s : State) (x : Nbt) : (s.setNbt x).gds = s.gds := rfl
@[simp] theorem State.setNbt_lnc (s : State) (x : Nbt) : (s.setNbt x).lnc = s.lnc := rfl
@[simp] theorem State.setNbt_rlc (s : State) (x : Nbt) : (s.setNbt x).rlc = s.rlc := rfl
@[simp] theorem State.setNbt_pending (s : State) (x : Nbt) : (s.setNbt x).pending = s.pending := rfl
@[simp] theorem State.setNbt_setNbt (s : State) (x y : Nbt) : (s.setNbt x).setNbt y = s.setNbt y := rfl
@[simp] theorem State.setNbt_self (s : State) : s.setNbt s.nbt = s := rfl

/-! ### `setCru` -/

@[simp] theorem State.setCru_now (s : State) (x : Cru) : (s.setCru x).now = s.now := rfl
@[simp] theorem State.setCru_choices (s : State) (x : Cru) : (s.setCru x).choices = s.choices := rfl
@[simp] theorem State.setCru_pins (s : State) (x : Cru) : (s.setCru x).pins = s.pins := rfl
@[simp] theorem State.setCru_stc (s : State) (x : Cru) : (s.setCru x).stc = s.stc := rfl
@[simp] theorem State.setCru_cve (s : State) (x : Cru) : (s.setCru x).cve = s.cve := rfl
@[simp] theorem State.setCru_nbt (s : State) (x : Cru) : (s.setCru x).nbt = s.nbt := rfl
@[simp] theorem State.setCru_cru (s : State) (x : Cru) : (s.setCru x).cru = x := rfl
@[simp] theorem State.setCru_rfi (s : State) (x : Cru) : (s.setCru x).rfi = s.rfi := rfl
@[simp] theorem State.setCru_bas (s : State) (x : Cru) : (s.setCru x).bas = s.bas := rfl
@[simp] theorem State.setCru_gds (s : State) (x : Cru) : (s.setCru x).gds = s.gds := rfl
@[simp] theorem State.setCru_lnc (s : State) (x : Cru) : (s.setCru x).lnc = s.lnc := rfl
@[simp] theorem State.setCru_rlc (s : State) (x : Cru) : (s.setCru x).rlc = s.rlc := rfl
@[simp] theorem State.setCru_pending (s : State) (x : Cru) : (s.setCru x).pending = s.pending := rfl
@[simp] theorem State.setCru_setCru (s : State) (x y : Cru) : (s.setCru x).setCru y = s.setCru y := rfl
@[simp] theorem State.setCru_self (s : State) : s.setCru s.cru = s := rfl

/-! ### `setRfi` -/

@[simp] theorem State.setRfi_now (s : State) (x : Rfi) : (s.setRfi x).now = s.now := rfl
@[simp] theorem State.setRfi_choices (s : State) (x : Rfi) : (s.setRfi x).choices = s.choices := rfl
@[simp] theorem State.setRfi_pins (s : State) (x : Rfi) : (s.setRfi x).pins = s.pins := rfl
@[simp] theorem State.setRfi_stc (s : State) (x : Rfi) : (s.setRfi x).stc = s.stc := rfl
@[simp] theorem State.setRfi_cve (s : State) (x : Rfi) : (s.setRfi x).cve = s.cve := rfl
@[simp] theorem State.setRfi_nbt (s : State) (x : Rfi) : (s.setRfi x).nbt = s.nbt := rfl
@[simp] theorem State.setRfi_cru (s : State) (x : Rfi) : (s.setRfi x).cru = s.cru := rfl
@[simp] theorem State.setRfi_rfi (s : State) (x : Rfi) : (s.setRfi x).rfi = x := rfl
@[simp] theorem State.setRfi_bas (s : State) (x : Rfi) : (s.setRfi x).bas = s.bas := rfl
@[simp] theorem State.setRfi_gds (s : State) (x : Rfi) : (s.setRfi x).gds = s.gds := rfl
@[simp] theorem State.setRfi_lnc (s : State) (x : Rfi) : (s.setRfi x).lnc = s.lnc := rfl
@[simp] theorem State.setRfi_rlc (s : State) (x : Rfi) : (s.setRfi x).rlc = s.rlc := rfl
@[simp] theorem State.setRfi_pending (s : State) (x : Rfi) : (s.setRfi x).pending = s.pending := rfl
@[simp] theorem State.setRfi_setRfi (s : State) (x y : Rfi) : (s.setRfi x).setRfi y = s.setRfi y := rfl
@[simp] theorem State.setRfi_self (s : State) : s.setRfi s.rfi = s := rfl

/-! ### `setBas` -/

@[simp] theorem State.setBas_now (s : State) (x : Bas) : (s.setBas x).now = s.now := rfl
@[simp] theorem State.setBas_choices (s : State) (x : Bas) : (s.setBas x).choices = s.choices := rfl
@[simp] theorem State.setBas_pins (s : State) (x : Bas) : (s.setBas x).pins = s.pins := rfl
@[simp] theorem State.setBas_stc (s : State) (x : Bas) : (s.setBas x).stc = s.stc := rfl
@[simp] theorem State.setBas_cve (s : State) (x : Bas) : (s.setBas x).cve = s.cve := rfl
@[simp] theorem State.setBas_nbt (s : State) (x : Bas) : (s.setBas x).nbt = s.nbt := rfl
@[simp] theorem State.setBas_cru (s : State) (x : Bas) : (s.setBas x).cru = s.cru := rfl
@[simp] theorem State.setBas_rfi (s : State) (x : Bas) : (s.setBas x).rfi = s.rfi := rfl
@[simp] theorem State.setBas_bas (s : State) (x : Bas) : (s.setBas x).bas = x := rfl
@[simp] theorem State.setBas_gds (s : State) (x : Bas) : (s.setBas x).gds = s.gds := rfl
@[simp] theorem State.setBas_lnc (s : State) (x : Bas) : (s.setBas x).lnc = s.lnc := rfl
@[simp] theorem State.setBas_rlc (s : State) (x : Bas) : (s.setBas x).rlc = s.rlc := rfl
@[simp] theorem State.setBas_pending (s : State) (x : Bas) : (s.setBas x).pending = s.pending := rfl
@[simp] theorem State.setBas_setBas (s : State) (x y : Bas) : (s.setBas x).setBas y = s.setBas y := rfl
@[simp] theorem State.setBas_self (s : State) : s.setBas s.bas = s := rfl

/-! ### `setGds` -/

@[simp] theorem State.setGds_now (s : State) (x : Gds) : (s.setGds x).now = s.now := rfl
@[simp] theorem State.setGds_choices (s : State) (x : Gds) : (s.setGds x).choices = s.choices := rfl
@[simp] theorem State.setGds_pins (s : State) (x : Gds) : (s.setGds x).pins = s.pins := rfl
@[simp] theorem State.setGds_stc (s : State) (x : Gds) : (s.setGds x).stc = s.stc := rfl
@[simp] theorem State.setGds_cve (s : State) (x : Gds) : (s.setGds x).cve = s.cve := rfl
@[simp] theorem State.setGds_nbt (s : State) (x : Gds) : (s.setGds x).nbt = s.nbt := rfl
@[simp] theorem State.setGds_cru (s : State) (x : Gds) : (s.setGds x).cru = s.cru := rfl
@[simp] theorem State.setGds_rfi (s : State) (x : Gds) : (s.setGds x).rfi = s.rfi := rfl
@[simp] theorem State.setGds_bas (s : State) (x : Gds) : (s.setGds x).bas = s.bas := rfl
@[simp] theorem State.setGds_gds (s : State) (x : Gds) : (s.setGds x).gds = x := rfl
@[simp] theorem State.setGds_lnc (s : State) (x : Gds) : (s.setGds x).lnc = s.lnc := rfl
@[simp] theorem State.setGds_rlc (s : State) (x : Gds) : (s.setGds x).rlc = s.rlc := rfl
@[simp] theorem State.setGds_pending (s : State) (x : Gds) : (s.setGds x).pending = s.pending := rfl
@[simp] theorem State.setGds_setGds (s : State) (x y : Gds) : (s.setGds x).setGds y = s.setGds y := rfl
@[simp] theorem State.setGds_self (s : State) : s.setGds s.gds = s := rfl

/-! ### `setLnc` -/

@[simp] theorem State.setLnc_now (s : State) (x : Lnc) : (s.setLnc x).now = s.now := rfl
@[simp] theorem State.setLnc_choices (s : State) (x : Lnc) : (s.setLnc x).choices = s.choices := rfl
@[simp] theorem State.setLnc_pins (s : State) (x : Lnc) : (s.setLnc x).pins = s.pins := rfl
@[simp] theorem State.setLnc_stc (s : State) (x : Lnc) : (s.setLnc x).stc = s.stc := rfl
@[simp] theorem State.setLnc_cve (s : State) (x : Lnc) : (s.setLnc x).cve = s.cve := rfl
@[simp] theorem State.setLnc_nbt (s : State) (x : Lnc) : (s.setLnc x).nbt = s.nbt := rfl
@[simp] theorem State.setLnc_cru (s : State) (x : Lnc) : (s.setLnc x).cru = s.cru := rfl
@[simp] theorem State.setLnc_rfi (s : State) (x : Lnc) : (s.setLnc x).rfi = s.rfi := rfl
@[simp] theorem State.setLnc_bas (s : State) (x : Lnc) : (s.setLnc x).bas = s.bas := rfl
@[simp] theorem State.setLnc_gds (s : State) (x : Lnc) : (s.setLnc x).gds = s.gds := rfl
@[simp] theorem State.setLnc_lnc (s : State) (x : Lnc) : (s.setLnc x).lnc = x := rfl
@[simp] theorem State.setLnc_rlc (s : State) (x : Lnc) : (s.setLnc x).rlc = s.rlc := rfl
@[simp] theorem State.setLnc_pending (s : State) (x : Lnc) : (s.setLnc x).pending = s.pending := rfl
@[simp] theorem State.setLnc_setLnc (s : State) (x y : Lnc) : (s.setLnc x).setLnc y = s.setLnc y := rfl
@[simp] theorem State.setLnc_self (s : State) : s.setLnc s.lnc = s := rfl

/-! ### `setRlc` -/

@[simp] theorem State.setRlc_now (s : State) (x : Rlc) : (s.setRlc x).now = s.now := rfl
@[simp] theorem State.setRlc_choices (s : State) (x : Rlc) : (s.setRlc x).choices = s.choices := rfl
@[simp] theorem State.setRlc_pins (s : State) (x : Rlc) : (s.setRlc x).pins = s.pins := rfl
@[simp] theorem State.setRlc_stc (s : State) (x : Rlc) : (s.setRlc x).stc = s.stc := rfl
@[simp] theorem State.setRlc_cve (s : State) (x : Rlc) : (s.setRlc x).cve = s.cve := rfl
@[simp] theorem State.setRlc_nbt (s : State) (x : Rlc) : (s.setRlc x).nbt = s.nbt := rfl
@[simp] theorem State.setRlc_cru (s : State) (x : Rlc) : (s.setRlc x).cru = s.cru := rfl
@[simp] theorem State.setRlc_rfi (s : State) (x : Rlc) : (s.setRlc x).rfi = s.rfi := rfl
@[simp] theorem State.setRlc_bas (s : State) (x : Rlc) : (s.setRlc x).bas = s.bas := rfl
@[simp] theorem State.setRlc_gds (s : State) (x : Rlc) : (s.setRlc x).gds = s.gds := rfl
@[simp] theorem State.setRlc_lnc (s : State) (x : Rlc) : (s.setRlc x).lnc = s.lnc := rfl
@[simp] theorem State.setRlc_rlc (s : State) (x : Rlc) : (s.setRlc x).rlc = x := rfl
@[simp] theorem State.setRlc_pending (s : State) (x : Rlc) : (s.setRlc x).pending = s.pending := rfl
@[simp] theorem State.setRlc_setRlc (s : State) (x y : Rlc) : (s.setRlc x).setRlc y = s.setRlc y := rfl
@[simp] theorem State.setRlc_self (s : State) : s.setRlc s.rlc = s := rfl

/-! ### `setPending` -/

@[simp] theorem State.setPending_now (s : State) (x : List Instr) : (s.setPending x).now = s.now := rfl
@[simp] theorem State.setPending_choices (s : State) (x : List Instr) : (s.setPending x).choices = s.choices := rfl
@[simp] theorem State.setPending_pins (s : State) (x : List Instr) : (s.setPending x).pins = s.pins := rfl
@[simp] theorem State.setPending_stc (s : State) (x : List Instr) : (s.setPending x).stc = s.stc := rfl
@[simp] theorem State.setPending_cve (s : State) (x : List Instr) : (s.setPending x).cve = s.cve := rfl
@[simp] theorem State.setPending_nbt (s : State) (x : List Instr) : (s.setPending x).nbt = s.nbt := rfl
@[simp] theorem State.setPending_cru (s : State) (x : List Instr) : (s.setPending x).cru = s.cru := rfl
@[simp] theorem State.setPending_rfi (s : State) (x : List Instr) : (s.setPending x).rfi = s.rfi := rfl
@[simp] theorem State.setPending_bas (s : State) (x : List Instr) : (s.setPending x).bas = s.bas := rfl
@[simp] theorem State.setPending_gds (s : State) (x : List Instr) : (s.setPending x).gds = s.gds := rfl
@[simp] theorem State.setPending_lnc (s : State) (x : List Instr) : (s.setPending x).lnc = s.lnc := rfl
@[simp] theorem State.setPending_rlc (s : State) (x : List Instr) : (s.setPending x).rlc = s.rlc := rfl
@[simp] theorem State.setPending_pending (s : State) (x : List Instr) : (s.setPending x).pending = x := rfl
@[simp] theorem State.setPending_setPending (s : State) (x y : List Instr) : (s.setPending x).setPending y = s.setPending y := rfl
@[simp] theorem State.setPending_self (s : State) : s.setPending s.pending = s := rfl

/-! ### `cfg` -/

@[simp] theorem State.setNow_cfg (s : State) (x : Micros) : (s.setNow x).cfg = s.cfg := rfl
@[simp] theorem State.setChoices_cfg (s : State) (x : Nat) : (s.setChoices x).cfg = s.cfg := rfl
@[simp] theorem State.setPins_cfg (s : State) (x : Pins) : (s.setPins x).cfg = s.cfg := rfl
@[simp] theorem State.setCve_cfg (s : State) (x : Cve) : (s.setCve x).cfg = s.cfg := rfl
@[simp] theorem State.setNbt_cfg (s : State) (x : Nbt) : (s.setNbt x).cfg = s.cfg := rfl
@[simp] theorem State.setCru_cfg (s : State) (x : Cru) : (s.setCru x).cfg = s.cfg := rfl
@[simp] theorem State.setRfi_cfg (s : State) (x : Rfi) : (s.setRfi x).cfg = s.cfg := rfl
@[simp] theorem State.setBas_cfg (s : State) (x : Bas) : (s.setBas x).cfg = s.cfg := rfl
@[simp] theorem State.setGds_cfg (s : State) (x : Gds) : (s.setGds x).cfg = s.cfg := rfl
@[simp] theorem State.setLnc_cfg (s : State) (x : Lnc) : (s.setLnc x).cfg = s.cfg := rfl
@[simp] theorem State.setRlc_cfg (s : State) (x : Rlc) : (s.setRlc x).cfg = s.cfg := rfl
@[simp] theorem State.setPending_cfg (s : State) (x : List Instr) : (s.setPending x).cfg = s.cfg := rfl

/-! ### `running` -/

@[simp] theorem State.setNow_running (s : State) (x : Micros) : (s.setNow x).running = s.running := rfl
@[simp] theorem State.setChoices_running (s : State) (x : Nat) : (s.setChoices x).running = s.running := rfl
@[simp] theorem State.setPins_running (s : State) (x : Pins) : (s.setPins x).running = s.running := rfl
@[simp] theorem State.setCve_running (s : State) (x : Cve) : (s.setCve x).running = s.running := rfl
@[simp] theorem State.setNbt_running (s : State) (x : Nbt) : (s.setNbt x).running = s.running := rfl
@[simp] theorem State.setCru_running (s : State) (x : Cru) : (s.setCru x).running = s.running := rfl
@[simp] theorem State.setRfi_running (s : State) (x : Rfi) : (s.setRfi x).running = s.running := rfl
@[simp] theorem State.setBas_running (s : State) (x : Bas) : (s.setBas x).running = s.running := rfl
@[simp] theorem State.setGds_running (s : State) (x : Gds) : (s.setGds x).running = s.running := rfl
@[simp] theorem State.setLnc_running (s : State) (x : Lnc) : (s.setLnc x).running = s.running := rfl
@[simp] theorem State.setRlc_running (s : State) (x : Rlc) : (s.setRlc x).running = s.running := rfl
@[simp] theorem State.setPending_running (s : State) (x : List Instr) : (s.setPending x).running = s.running := rfl

/-! ### `contextOf` -/

@[simp] theorem State.setNow_contextOf (s : State) (x : Micros) (crane : Byte) : (s.setNow x).contextOf crane = s.contextOf crane := rfl
@[simp] theorem State.setChoices_contextOf (s : State) (x : Nat) (crane : Byte) : (s.setChoices x).contextOf crane = s.contextOf crane := rfl
@[simp] theorem State.setPins_contextOf (s : State) (x : Pins) (crane : Byte) : (s.setPins x).contextOf crane = s.contextOf crane := rfl
@[simp] theorem State.setStc_contextOf (s : State) (x : Stc) (crane : Byte) : (s.setStc x).contextOf crane = s.contextOf crane := rfl
@[simp] theorem State.setCve_contextOf (s : State) (x : Cve) (crane : Byte) : (s.setCve x).contextOf crane = s.contextOf crane := rfl
@[simp] theorem State.setNbt_contextOf (s : State) (x : Nbt) (crane : Byte) : (s.setNbt x).contextOf crane = s.contextOf crane := rfl
@[simp] theorem State.setRfi_contextOf (s : State) (x : Rfi) (crane : Byte) : (s.setRfi x).contextOf crane = s.contextOf crane := rfl
@[simp] theorem State.setBas_contextOf (s : State) (x : Bas) (crane : Byte) : (s.setBas x).contextOf crane = s.contextOf crane := rfl
@[simp] theorem State.setGds_contextOf (s : State) (x : Gds) (crane : Byte) : (s.setGds x).contextOf crane = s.contextOf crane := rfl
@[simp] theorem State.setLnc_contextOf (s : State) (x : Lnc) (crane : Byte) : (s.setLnc x).contextOf crane = s.contextOf crane := rfl
@[simp] theorem State.setRlc_contextOf (s : State) (x : Rlc) (crane : Byte) : (s.setRlc x).contextOf crane = s.contextOf crane := rfl
@[simp] theorem State.setPending_contextOf (s : State) (x : List Instr) (crane : Byte) : (s.setPending x).contextOf crane = s.contextOf crane := rfl

/-! ### `activeCount` -/

@[simp] theorem State.setNow_activeCount (s : State) (x : Micros) : (s.setNow x).activeCount = s.activeCount := rfl
@[simp] theorem State.setChoices_activeCount (s : State) (x : Nat) : (s.setChoices x).activeCount = s.activeCount := rfl
@[simp] theorem State.setPins_activeCount (s : State) (x : Pins) : (s.setPins x).activeCount = s.activeCount := rfl
@[simp] theorem State.setStc_activeCount (s : State) (x : Stc) : (s.setStc x).activeCount = s.activeCount := rfl
@[simp] theorem State.setCve_activeCount (s : State) (x : Cve) : (s.setCve x).activeCount = s.activeCount := rfl
@[simp] theorem State.setNbt_activeCount (s : State) (x : Nbt) : (s.setNbt x).activeCount = s.activeCount := rfl
@[simp] theorem State.setRfi_activeCount (s : State) (x : Rfi) : (s.setRfi x).activeCount = s.activeCount := rfl
@[simp] theorem State.setBas_activeCount (s : State) (x : Bas) : (s.setBas x).activeCount = s.activeCount := rfl
@[simp] theorem State.setGds_activeCount (s : State) (x : Gds) : (s.setGds x).activeCount = s.activeCount := rfl
@[simp] theorem State.setLnc_activeCount (s : State) (x : Lnc) : (s.setLnc x).activeCount = s.activeCount := rfl
@[simp] theorem State.setRlc_activeCount (s : State) (x : Rlc) : (s.setRlc x).activeCount = s.activeCount := rfl
@[simp] theorem State.setPending_activeCount (s : State) (x : List Instr) : (s.setPending x).activeCount = s.activeCount := rfl

/-! ### `activeAt` -/

@[simp] theorem State.setNow_activeAt (s : State) (x : Micros) (g : Byte) : (s.setNow x).activeAt g = s.activeAt g := rfl
@[simp] theorem State.setChoices_activeAt (s : State) (x : Nat) (g : Byte) : (s.setChoices x).activeAt g = s.activeAt g := rfl
@[simp] theorem State.setPins_activeAt (s : State) (x : Pins) (g : Byte) : (s.setPins x).activeAt g = s.activeAt g := rfl
@[simp] theorem State.setStc_activeAt (s : State) (x : Stc) (g : Byte) : (s.setStc x).activeAt g = s.activeAt g := rfl
@[simp] theorem State.setCve_activeAt (s : State) (x : Cve) (g : Byte) : (s.setCve x).activeAt g = s.activeAt g := rfl
@[simp] theorem State.setNbt_activeAt (s : State) (x : Nbt) (g : Byte) : (s.setNbt x).activeAt g = s.activeAt g := rfl
@[simp] theorem State.setRfi_activeAt (s : State) (x : Rfi) (g : Byte) : (s.setRfi x).activeAt g = s.activeAt g := rfl
@[simp] theorem State.setBas_activeAt (s : State) (x : Bas) (g : Byte) : (s.setBas x).activeAt g = s.activeAt g := rfl
@[simp] theorem State.setGds_activeAt (s : State) (x : Gds) (g : Byte) : (s.setGds x).activeAt g = s.activeAt g := rfl
@[simp] theorem State.setLnc_activeAt (s : State) (x : Lnc) (g : Byte) : (s.setLnc x).activeAt g = s.activeAt g := rfl
@[simp] theorem State.setRlc_activeAt (s : State) (x : Rlc) (g : Byte) : (s.setRlc x).activeAt g = s.activeAt g := rfl
@[simp] theorem State.setPending_activeAt (s : State) (x : List Instr) (g : Byte) : (s.setPending x).activeAt g = s.activeAt g := rfl

/-! ### `claimOf` -/

@[simp] theorem State.setNow_claimOf (s : State) (x : Micros) (g : Byte) : (s.setNow x).claimOf g = s.claimOf g := rfl
@[simp] theorem State.setChoices_claimOf (s : State) (x : Nat) (g : Byte) : (s.setChoices x).claimOf g = s.claimOf g := rfl
@[simp] theorem State.setPins_claimOf (s : State) (x : Pins) (g : Byte) : (s.setPins x).claimOf g = s.claimOf g := rfl
@[simp] theorem State.setNbt_claimOf (s : State) (x : Nbt) (g : Byte) : (s.setNbt x).claimOf g = s.claimOf g := rfl
@[simp] theorem State.setCru_claimOf (s : State) (x : Cru) (g : Byte) : (s.setCru x).claimOf g = s.claimOf g := rfl
@[simp] theorem State.setRfi_claimOf (s : State) (x : Rfi) (g : Byte) : (s.setRfi x).claimOf g = s.claimOf g := rfl
@[simp] theorem State.setBas_claimOf (s : State) (x : Bas) (g : Byte) : (s.setBas x).claimOf g = s.claimOf g := rfl
@[simp] theorem State.setGds_claimOf (s : State) (x : Gds) (g : Byte) : (s.setGds x).claimOf g = s.claimOf g := rfl
@[simp] theorem State.setLnc_claimOf (s : State) (x : Lnc) (g : Byte) : (s.setLnc x).claimOf g = s.claimOf g := rfl
@[simp] theorem State.setRlc_claimOf (s : State) (x : Rlc) (g : Byte) : (s.setRlc x).claimOf g = s.claimOf g := rfl
@[simp] theorem State.setPending_claimOf (s : State) (x : List Instr) (g : Byte) : (s.setPending x).claimOf g = s.claimOf g := rfl

/-! ### `claimedHere` -/

@[simp] theorem State.setNow_claimedHere (s : State) (x : Micros) (g : Byte) : (s.setNow x).claimedHere g = s.claimedHere g := rfl
@[simp] theorem State.setChoices_claimedHere (s : State) (x : Nat) (g : Byte) : (s.setChoices x).claimedHere g = s.claimedHere g := rfl
@[simp] theorem State.setPins_claimedHere (s : State) (x : Pins) (g : Byte) : (s.setPins x).claimedHere g = s.claimedHere g := rfl
@[simp] theorem State.setNbt_claimedHere (s : State) (x : Nbt) (g : Byte) : (s.setNbt x).claimedHere g = s.claimedHere g := rfl
@[simp] theorem State.setCru_claimedHere (s : State) (x : Cru) (g : Byte) : (s.setCru x).claimedHere g = s.claimedHere g := rfl
@[simp] theorem State.setRfi_claimedHere (s : State) (x : Rfi) (g : Byte) : (s.setRfi x).claimedHere g = s.claimedHere g := rfl
@[simp] theorem State.setBas_claimedHere (s : State) (x : Bas) (g : Byte) : (s.setBas x).claimedHere g = s.claimedHere g := rfl
@[simp] theorem State.setGds_claimedHere (s : State) (x : Gds) (g : Byte) : (s.setGds x).claimedHere g = s.claimedHere g := rfl
@[simp] theorem State.setLnc_claimedHere (s : State) (x : Lnc) (g : Byte) : (s.setLnc x).claimedHere g = s.claimedHere g := rfl
@[simp] theorem State.setRlc_claimedHere (s : State) (x : Rlc) (g : Byte) : (s.setRlc x).claimedHere g = s.claimedHere g := rfl
@[simp] theorem State.setPending_claimedHere (s : State) (x : List Instr) (g : Byte) : (s.setPending x).claimedHere g = s.claimedHere g := rfl

/-! ### `claimants` -/

@[simp] theorem State.setNow_claimants (s : State) (x : Micros) (g : Byte) : (s.setNow x).claimants g = s.claimants g := rfl
@[simp] theorem State.setChoices_claimants (s : State) (x : Nat) (g : Byte) : (s.setChoices x).claimants g = s.claimants g := rfl
@[simp] theorem State.setPins_claimants (s : State) (x : Pins) (g : Byte) : (s.setPins x).claimants g = s.claimants g := rfl
@[simp] theorem State.setStc_claimants (s : State) (x : Stc) (g : Byte) : (s.setStc x).claimants g = s.claimants g := rfl
@[simp] theorem State.setCve_claimants (s : State) (x : Cve) (g : Byte) : (s.setCve x).claimants g = s.claimants g := rfl
@[simp] theorem State.setCru_claimants (s : State) (x : Cru) (g : Byte) : (s.setCru x).claimants g = s.claimants g := rfl
@[simp] theorem State.setRfi_claimants (s : State) (x : Rfi) (g : Byte) : (s.setRfi x).claimants g = s.claimants g := rfl
@[simp] theorem State.setBas_claimants (s : State) (x : Bas) (g : Byte) : (s.setBas x).claimants g = s.claimants g := rfl
@[simp] theorem State.setGds_claimants (s : State) (x : Gds) (g : Byte) : (s.setGds x).claimants g = s.claimants g := rfl
@[simp] theorem State.setLnc_claimants (s : State) (x : Lnc) (g : Byte) : (s.setLnc x).claimants g = s.claimants g := rfl
@[simp] theorem State.setRlc_claimants (s : State) (x : Rlc) (g : Byte) : (s.setRlc x).claimants g = s.claimants g := rfl
@[simp] theorem State.setPending_claimants (s : State) (x : List Instr) (g : Byte) : (s.setPending x).claimants g = s.claimants g := rfl

/-! ### `custodyOf` -/

@[simp] theorem State.setNow_custodyOf (s : State) (x : Micros) (t : Tag) : (s.setNow x).custodyOf t = s.custodyOf t := rfl
@[simp] theorem State.setChoices_custodyOf (s : State) (x : Nat) (t : Tag) : (s.setChoices x).custodyOf t = s.custodyOf t := rfl
@[simp] theorem State.setPins_custodyOf (s : State) (x : Pins) (t : Tag) : (s.setPins x).custodyOf t = s.custodyOf t := rfl
@[simp] theorem State.setStc_custodyOf (s : State) (x : Stc) (t : Tag) : (s.setStc x).custodyOf t = s.custodyOf t := rfl
@[simp] theorem State.setCve_custodyOf (s : State) (x : Cve) (t : Tag) : (s.setCve x).custodyOf t = s.custodyOf t := rfl
@[simp] theorem State.setNbt_custodyOf (s : State) (x : Nbt) (t : Tag) : (s.setNbt x).custodyOf t = s.custodyOf t := rfl
@[simp] theorem State.setCru_custodyOf (s : State) (x : Cru) (t : Tag) : (s.setCru x).custodyOf t = s.custodyOf t := rfl
@[simp] theorem State.setBas_custodyOf (s : State) (x : Bas) (t : Tag) : (s.setBas x).custodyOf t = s.custodyOf t := rfl
@[simp] theorem State.setGds_custodyOf (s : State) (x : Gds) (t : Tag) : (s.setGds x).custodyOf t = s.custodyOf t := rfl
@[simp] theorem State.setLnc_custodyOf (s : State) (x : Lnc) (t : Tag) : (s.setLnc x).custodyOf t = s.custodyOf t := rfl
@[simp] theorem State.setRlc_custodyOf (s : State) (x : Rlc) (t : Tag) : (s.setRlc x).custodyOf t = s.custodyOf t := rfl
@[simp] theorem State.setPending_custodyOf (s : State) (x : List Instr) (t : Tag) : (s.setPending x).custodyOf t = s.custodyOf t := rfl

/-! ### `heldOf` -/

@[simp] theorem State.setNow_heldOf (s : State) (x : Micros) (t : Tag) : (s.setNow x).heldOf t = s.heldOf t := rfl
@[simp] theorem State.setChoices_heldOf (s : State) (x : Nat) (t : Tag) : (s.setChoices x).heldOf t = s.heldOf t := rfl
@[simp] theorem State.setPins_heldOf (s : State) (x : Pins) (t : Tag) : (s.setPins x).heldOf t = s.heldOf t := rfl
@[simp] theorem State.setStc_heldOf (s : State) (x : Stc) (t : Tag) : (s.setStc x).heldOf t = s.heldOf t := rfl
@[simp] theorem State.setCve_heldOf (s : State) (x : Cve) (t : Tag) : (s.setCve x).heldOf t = s.heldOf t := rfl
@[simp] theorem State.setNbt_heldOf (s : State) (x : Nbt) (t : Tag) : (s.setNbt x).heldOf t = s.heldOf t := rfl
@[simp] theorem State.setCru_heldOf (s : State) (x : Cru) (t : Tag) : (s.setCru x).heldOf t = s.heldOf t := rfl
@[simp] theorem State.setBas_heldOf (s : State) (x : Bas) (t : Tag) : (s.setBas x).heldOf t = s.heldOf t := rfl
@[simp] theorem State.setGds_heldOf (s : State) (x : Gds) (t : Tag) : (s.setGds x).heldOf t = s.heldOf t := rfl
@[simp] theorem State.setLnc_heldOf (s : State) (x : Lnc) (t : Tag) : (s.setLnc x).heldOf t = s.heldOf t := rfl
@[simp] theorem State.setRlc_heldOf (s : State) (x : Rlc) (t : Tag) : (s.setRlc x).heldOf t = s.heldOf t := rfl
@[simp] theorem State.setPending_heldOf (s : State) (x : List Instr) (t : Tag) : (s.setPending x).heldOf t = s.heldOf t := rfl

/-! ### `transmitEnable` -/

@[simp] theorem State.setNow_transmitEnable (s : State) (x : Micros) : (s.setNow x).transmitEnable = s.transmitEnable := rfl
@[simp] theorem State.setChoices_transmitEnable (s : State) (x : Nat) : (s.setChoices x).transmitEnable = s.transmitEnable := rfl
@[simp] theorem State.setPins_transmitEnable (s : State) (x : Pins) : (s.setPins x).transmitEnable = s.transmitEnable := rfl
@[simp] theorem State.setStc_transmitEnable (s : State) (x : Stc) : (s.setStc x).transmitEnable = s.transmitEnable := rfl
@[simp] theorem State.setCve_transmitEnable (s : State) (x : Cve) : (s.setCve x).transmitEnable = s.transmitEnable := rfl
@[simp] theorem State.setNbt_transmitEnable (s : State) (x : Nbt) : (s.setNbt x).transmitEnable = s.transmitEnable := rfl
@[simp] theorem State.setCru_transmitEnable (s : State) (x : Cru) : (s.setCru x).transmitEnable = s.transmitEnable := rfl
@[simp] theorem State.setRfi_transmitEnable (s : State) (x : Rfi) : (s.setRfi x).transmitEnable = s.transmitEnable := rfl
@[simp] theorem State.setBas_transmitEnable (s : State) (x : Bas) : (s.setBas x).transmitEnable = s.transmitEnable := rfl
@[simp] theorem State.setGds_transmitEnable (s : State) (x : Gds) : (s.setGds x).transmitEnable = s.transmitEnable := rfl
@[simp] theorem State.setRlc_transmitEnable (s : State) (x : Rlc) : (s.setRlc x).transmitEnable = s.transmitEnable := rfl
@[simp] theorem State.setPending_transmitEnable (s : State) (x : List Instr) : (s.setPending x).transmitEnable = s.transmitEnable := rfl

end Sys2Proof.Machine
end

