-- ==== Sys2Proof/Laws/Tables.lean ====
section
/-!
SUPPORT. The tables in canonical form: what `tablePut` and `tableErase` leave at each key, that both keep the form, and what
they do to the number of entries; and what a queue that drops its oldest item holds.
-/

namespace Sys2Proof.Machine

variable {α : Type} {key : α → Nat}

/-- An entry is in the table after a put exactly when it is the new one, or was there under another key. -/
theorem mem_tablePut {x y : α} {l : List α} (h : TableSorted key l) :
    y ∈ tablePut key x l ↔ y = x ∨ (y ∈ l ∧ key y ≠ key x) := by
  induction l with
  | nil => simp [tablePut]
  | cons z zs ih =>
    have hz := List.pairwise_cons.1 h
    have far : ∀ w ∈ zs, key z < key w := hz.1
    simp only [tablePut]
    split
    · rename_i hlt
      constructor
      · rintro (_ | ⟨_, hy⟩)
        · exact .inl rfl
        · refine .inr ⟨hy, ?_⟩
          rcases List.mem_cons.1 hy with rfl | hy
          · omega
          · have := far _ hy; omega
      · rintro (rfl | ⟨hy, -⟩) <;> simp_all
    · split
      · rename_i heq
        constructor
        · rintro (_ | ⟨_, hy⟩)
          · exact .inl rfl
          · have := far _ hy
            exact .inr ⟨List.mem_cons_of_mem _ hy, by omega⟩
        · rintro (rfl | ⟨hy, hne⟩)
          · simp
          · rcases List.mem_cons.1 hy with rfl | hy
            · omega
            · simp [hy]
      · rename_i hne
        simp only [List.mem_cons, ih hz.2]
        constructor
        · rintro (rfl | rfl | ⟨hy, h'⟩)
          · exact .inr ⟨.inl rfl, by omega⟩
          · exact .inl rfl
          · exact .inr ⟨.inr hy, h'⟩
        · rintro (rfl | ⟨rfl | hy, h'⟩)
          · exact .inr (.inl rfl)
          · exact .inl rfl
          · exact .inr (.inr ⟨hy, h'⟩)

/-- A put keeps the canonical form. -/
theorem tablePut_sorted {x : α} {l : List α} (h : TableSorted key l) : TableSorted key (tablePut key x l) := by
  induction l with
  | nil => simp [tablePut]
  | cons z zs ih =>
    have hz := List.pairwise_cons.1 h
    simp only [tablePut]
    split
    · rename_i hlt
      refine List.pairwise_cons.2 ⟨fun w hw => ?_, h⟩
      rcases List.mem_cons.1 hw with rfl | hw
      · exact hlt
      · exact lt_trans hlt (hz.1 _ hw)
    · split
      · rename_i heq
        exact List.pairwise_cons.2 ⟨fun w hw => heq ▸ hz.1 _ hw, hz.2⟩
      · refine List.pairwise_cons.2 ⟨fun w hw => ?_, ih hz.2⟩
        rcases (mem_tablePut hz.2).1 hw with rfl | ⟨hw, -⟩
        · omega
        · exact hz.1 _ hw

/-- An erase keeps the canonical form. -/
theorem tableErase_sorted {k : Nat} {l : List α} (h : TableSorted key l) : TableSorted key (tableErase key k l) :=
  h.filter _

@[simp] theorem mem_tableErase {k : Nat} {y : α} {l : List α} :
    y ∈ tableErase key k l ↔ y ∈ l ∧ key y ≠ k := by simp [tableErase]

/-- A key finds an entry exactly when the entry is in the table under that key. -/
theorem tableFind_eq_some {k : Nat} {y : α} {l : List α} (h : TableSorted key l) :
    tableFind key k l = some y ↔ y ∈ l ∧ key y = k := by
  constructor
  · intro hf
    exact ⟨List.mem_of_find?_eq_some hf, by simpa using List.find?_some hf⟩
  · rintro ⟨hy, rfl⟩
    induction l with
    | nil => simp at hy
    | cons z zs ih =>
      have hz := List.pairwise_cons.1 h
      rcases List.mem_cons.1 hy with rfl | hy
      · simp [tableFind]
      · have := hz.1 _ hy
        have hne : ¬key z = key y := by omega
        simpa [tableFind, List.find?_cons, hne] using ih hz.2 hy

/-- A key finds nothing exactly when no entry has it. -/
theorem tableFind_eq_none {k : Nat} {l : List α} : tableFind key k l = none ↔ ∀ y ∈ l, key y ≠ k := by
  simp [tableFind]

/-- What a put leaves at each key. -/
theorem tableFind_put {x : α} {k : Nat} {l : List α} (h : TableSorted key l) :
    tableFind key k (tablePut key x l) = if key x = k then some x else tableFind key k l := by
  split
  · rename_i hk
    exact (tableFind_eq_some (tablePut_sorted h)).2 ⟨(mem_tablePut h).2 (.inl rfl), hk⟩
  · rename_i hk
    cases hf : tableFind key k l with
    | none =>
      rw [tableFind_eq_none] at hf ⊢
      intro y hy
      rcases (mem_tablePut h).1 hy with rfl | ⟨hy, -⟩
      · exact hk
      · exact hf _ hy
    | some y =>
      obtain ⟨hy, hyk⟩ := (tableFind_eq_some h).1 hf
      exact (tableFind_eq_some (tablePut_sorted h)).2 ⟨(mem_tablePut h).2 (.inr ⟨hy, by omega⟩), hyk⟩

/-- What an erase leaves at each key. -/
theorem tableFind_erase {k j : Nat} {l : List α} (h : TableSorted key l) :
    tableFind key k (tableErase key j l) = if k = j then none else tableFind key k l := by
  split
  · rename_i hk
    rw [tableFind_eq_none]
    intro y hy
    simp only [mem_tableErase] at hy
    omega
  · rename_i hk
    cases hf : tableFind key k l with
    | none =>
      rw [tableFind_eq_none] at hf ⊢
      exact fun y hy => hf _ (mem_tableErase.1 hy).1
    | some y =>
      obtain ⟨hy, hyk⟩ := (tableFind_eq_some h).1 hf
      exact (tableFind_eq_some (tableErase_sorted h)).2 ⟨mem_tableErase.2 ⟨hy, by omega⟩, hyk⟩

/-- Two tables in canonical form that answer alike at every key are equal. -/
theorem table_ext {l m : List α} (hl : TableSorted key l) (hm : TableSorted key m)
    (h : ∀ k, tableFind key k l = tableFind key k m) : l = m := by
  have hperm : l.Perm m := by
    refine (List.perm_ext_iff_of_nodup ?_ ?_).2 fun y => ?_
    · exact hl.imp fun h' => by rintro rfl; omega
    · exact hm.imp fun h' => by rintro rfl; omega
    · have := h (key y)
      constructor
      · intro hy
        rw [(tableFind_eq_some hl).2 ⟨hy, rfl⟩] at this
        exact ((tableFind_eq_some hm).1 this.symm).1
      · intro hy
        rw [(tableFind_eq_some hm).2 ⟨hy, rfl⟩] at this
        exact ((tableFind_eq_some hl).1 this).1
  exact hperm.eq_of_pairwise (fun a b _ _ h1 h2 => by omega) hl hm

/-- A put under a key in use keeps the number of entries; under a new key it adds one. -/
theorem length_tablePut {x : α} {l : List α} (h : TableSorted key l) :
    (tablePut key x l).length = if (tableFind key (key x) l).isSome then l.length else l.length + 1 := by
  induction l with
  | nil => simp [tablePut, tableFind]
  | cons z zs ih =>
    have hz := List.pairwise_cons.1 h
    simp only [tablePut]
    split
    · rename_i hlt
      have : tableFind key (key x) (z :: zs) = none := by
        rw [tableFind_eq_none]
        intro y hy
        rcases List.mem_cons.1 hy with rfl | hy
        · omega
        · have := hz.1 _ hy; omega
      simp [this]
    · split
      · rename_i heq
        have : tableFind key (key x) (z :: zs) = some z := (tableFind_eq_some h).2 ⟨by simp, heq.symm⟩
        simp [this]
      · rename_i hne
        have hz' : ¬key z = key x := fun e => hne e.symm
        have : tableFind key (key x) (z :: zs) = tableFind key (key x) zs := by
          simp [tableFind, hz']
        simp only [this, List.length_cons, ih hz.2]
        split <;> rfl

/-- An erase never adds an entry, and takes one away where the key was in use. -/
theorem length_tableErase_le {k : Nat} {l : List α} : (tableErase key k l).length ≤ l.length :=
  List.length_filter_le _ _

theorem length_tableErase_lt {k : Nat} {l : List α} (h : (tableFind key k l).isSome) :
    (tableErase key k l).length < l.length := by
  obtain ⟨y, hy⟩ := Option.isSome_iff_exists.1 h
  have hm : y ∈ l := List.mem_of_find?_eq_some hy
  have hk : key y = k := by simpa using List.find?_some hy
  exact List.length_filter_lt_length_iff_exists.2 ⟨y, hm, by simp [hk]⟩

/-- A queue of a capacity stays within it. -/
theorem length_pushDropOldest {n : Nat} {x : α} {q : List α} (hn : 0 < n) (h : q.length ≤ n) :
    (pushDropOldest n x q).length ≤ n := by
  simp only [pushDropOldest]
  split <;> simp <;> omega

/-- What a queue holds after a push: the new item, and what it held. -/
theorem mem_of_mem_pushDropOldest {n : Nat} {x y : α} {q : List α} (h : y ∈ pushDropOldest n x q) : y = x ∨ y ∈ q := by
  simp only [pushDropOldest] at h
  split at h
  · simp only [List.mem_append, List.mem_singleton] at h; exact h.symm
  · simp only [List.mem_append, List.mem_singleton] at h
    exact h.symm.imp_right List.mem_of_mem_drop

end Sys2Proof.Machine
end

