-- ==== Sys2Proof/Laws/Ops.lean ====
section
/-!
SUPPORT. What the shared operations on contexts, queues, occasions, flags and the line can do, each said once, so that a
proof cites it and need not unfold the operation.
-/

namespace Sys2Proof.Machine

/-! ### Time and commands -/

/-- Time passing moves the clock and nothing else. -/
@[simp] theorem State.advance_eq (s : State) (dt : Micros) : s.advance dt = s.setNow (s.now + dt) := rfl

/-- A timer is due exactly when it runs and its end has come. -/
theorem dueBy_eq_true {now : Micros} {due : Option Micros} : dueBy now due = true ↔ ∃ d, due = some d ∧ d ≤ now := by
  cases due <;> simp [dueBy]

/-- The part runs exactly in LISTEN and RUN. -/
theorem State.running_eq_true {s : State} : s.running = true ↔ s.stc.runState = .listen ∨ s.stc.runState = .run := by
  simp [State.running]

/-! ### Contexts -/

/-- The contexts after one has been put into the table. -/
theorem State.putContext_contextOf {s : State} {c : Context} {k : Byte} (h : TableSorted Context.key s.cru.contexts) :
    (s.putContext c).contextOf k = if c.crane = k then some c else s.contextOf k := by
  have : (c.crane.toNat = k.toNat) = (c.crane = k) := propext BitVec.toNat_inj
  simp only [State.putContext, State.contextOf, State.setCru_cru, tableFind_put h, Context.key, this]

/-- The contexts after one has been freed. -/
theorem State.dropContext_contextOf {s : State} {crane k : Byte} (h : TableSorted Context.key s.cru.contexts) :
    (s.dropContext crane).contextOf k = if k = crane then none else s.contextOf k := by
  have : (k.toNat = crane.toNat) = (k = crane) := propext BitVec.toNat_inj
  simp only [State.dropContext, State.contextOf, State.setCru_cru, tableFind_erase h, this]

/-- A context put into the table is the only change. -/
theorem State.changesContext_put {s : State} {c : Context} (h : TableSorted Context.key s.cru.contexts) :
    s.changesContext (s.putContext c) c.crane (some c) := by
  refine ⟨?_, fun k hk => ?_, rfl, rfl⟩
  · simp [State.putContext_contextOf h]
  · simp [State.putContext_contextOf h, Ne.symm hk]

/-- A context freed is the only change. -/
theorem State.changesContext_drop {s : State} {crane : Byte} (h : TableSorted Context.key s.cru.contexts) :
    s.changesContext (s.dropContext crane) crane none := by
  refine ⟨?_, fun k hk => ?_, rfl, rfl⟩
  · simp [State.dropContext_contextOf h]
  · simp [State.dropContext_contextOf h, hk]

/-- A context found under a crane is one that holds it. -/
theorem State.crane_of_contextOf {s : State} {crane : Byte} {c : Context} (h : s.contextOf crane = some c) :
    c.crane = crane ∧ c ∈ s.cru.contexts := by
  have hk : c.crane.toNat = crane.toNat := by
    have := List.find?_some h
    exact of_decide_eq_true this
  exact ⟨BitVec.toNat_inj.1 hk, List.mem_of_find?_eq_some h⟩

/-- The late count of a crane's context rises by one, at most to 255. -/
theorem State.countsLate_countLate {s : State} {crane : Byte} (h : TableSorted Context.key s.cru.contexts) :
    s.countsLate (s.countLate crane) crane := by
  constructor
  · intro hc
    simp [State.countLate, hc]
  · intro c hc
    obtain ⟨rfl, -⟩ := s.crane_of_contextOf hc
    have hl : c.addLate = { c with late := if c.late < 255 then c.late + 1 else 255 } := by
      simp only [Context.addLate]
      split <;> congr 1 <;> omega
    rw [← hl]
    have hp : s.changesContext (s.putContext c.addLate) c.crane (some c.addLate) := s.changesContext_put h
    simpa [State.countLate, hc] using hp

/-! ### RLC -/

/-- A message joining the control queue changes that queue alone. -/
theorem State.queueControl_frame (s : State) (m : ControlMsg) :
    s.queueControl m = s.setRlc { s.rlc with control := (s.queueControl m).rlc.control } := rfl

/-- A message joining the terminal uplink queue changes that queue alone. -/
theorem State.queueTerminal_frame (s : State) (m : TermUplink) :
    s.queueTerminal m = s.setRlc { s.rlc with terminal := pushDropOldest 4 m s.rlc.terminal } := rfl

/-- A message joining the drain queue changes that queue alone. -/
theorem State.queueDrain_frame (s : State) (m : DrainMsg) :
    s.queueDrain m = s.setRlc { s.rlc with drainQueue := (s.queueDrain m).rlc.drainQueue } := rfl

/-- A message that joins the control queue waits in it. -/
theorem State.mem_queueControl (s : State) (m : ControlMsg) : m ∈ (s.queueControl m).rlc.control := by
  simp [State.queueControl]

/-- Recording an occasion changes the occasion set and the control queue alone. -/
theorem State.recordOccasion_frame (s : State) (o : Occasion) :
    s.recordOccasion o = s.setRlc { s.rlc with
      occasions := s.rlc.occasions.add o, control := (s.recordOccasion o).rlc.control } := by
  simp only [State.recordOccasion]
  split <;> rfl

/-- Outside LOAD a STATE REPORT waits once an occasion is recorded. -/
theorem State.report_of_recordOccasion {s : State} {o : Occasion} (h : s.stc.runState ≠ .load) :
    ControlMsg.stateReport ∈ (s.recordOccasion o).rlc.control := by
  simp only [State.recordOccasion]
  split
  · exact State.mem_queueControl _ _
  · rename_i hn
    simp only [h, ne_eq, not_false_eq_true, true_and, not_not] at hn
    exact hn

/-- Setting a flag changes the flags, the occasion set and the control queue alone. -/
theorem State.setFlag_frame (s : State) (k : Sticky) : (s.setFlag k).setRlc s.rlc = s := by
  simp only [State.setFlag]
  split
  · rfl
  · rw [State.recordOccasion_frame]
    rfl

/-! ### The line -/

/-- Opening a DEFER changes the line state and the generator alone. -/
theorem State.openDefer_frame (s : State) :
    s.openDefer = s.setLnc { s.lnc with line := s.openDefer.lnc.line, generator := s.openDefer.lnc.generator } := by
  simp only [State.openDefer]
  split
  · split <;> rfl
  · rfl

/-- Nothing opens outside LISTEN and RUN, under carrier, or away from IDLE. -/
theorem State.openDefer_eq_self {s : State} (h : s.running = false ∨ s.pins.carrier = true ∨ s.lnc.line ≠ .idle) :
    s.openDefer = s := by
  simp only [State.openDefer]
  rcases h with h | h | h <;> simp [h]

/-- Opening a DEFER leaves the classes as they are. -/
@[simp] theorem State.openDefer_frames (s : State) (c : TxClass) : s.openDefer.lnc.frames c = s.lnc.frames c := by
  rw [State.openDefer_frame]
  cases c <;> rfl

/-- Handing a record over changes the delivery store and the drain queue alone. -/
theorem State.handOver_frame (s : State) :
    s.handOver = (s.setGds s.handOver.gds).setRlc { s.rlc with drainQueue := s.handOver.rlc.drainQueue } := by
  unfold State.handOver State.takeInHand
  split
  · dsimp only
    split
    · rfl
    · split <;> rfl
  · rfl

/-- The link takes from the context queues, the delivery store and RLC's queues, and changes nothing else. -/
theorem State.linkTake_frame (s : State) :
    ∃ cru gds rlc, s.linkTake = ((s.setCru cru).setGds gds).setRlc rlc := by
  have hd : ∀ c e, ∃ cru gds rlc, s.takeDownlink c e = ((s.setCru cru).setGds gds).setRlc rlc :=
    fun c e => ⟨(s.takeDownlink c e).cru, s.gds, (s.takeDownlink c e).rlc, rfl⟩
  unfold State.linkTake
  split
  · exact ⟨s.cru, s.gds, s.rlc, rfl⟩
  · split
    · unfold State.takeControl
      split <;> exact ⟨s.cru, s.gds, _, rfl⟩
    · split
      · rename_i t ht
        unfold State.takeCrane at ht
        split at ht <;> simp only [Option.some.injEq, reduceCtorEq] at ht <;> subst ht
        · split
          · exact ⟨s.cru, s.gds, _, rfl⟩
          · exact hd _ _
        · exact ⟨s.cru, s.gds, _, rfl⟩
        · exact hd _ _
      · split
        · unfold State.takeDrain
          split
          · rw [State.handOver_frame]
            exact ⟨s.cru, _, _, rfl⟩
          · exact ⟨s.cru, s.gds, _, rfl⟩
        · exact ⟨s.cru, s.gds, s.rlc, rfl⟩

end Sys2Proof.Machine
end

