-- ==== Sys2Proof/Laws/Frames.lean ====
section
/-!
SUPPORT. Which blocks each shared operation can change. Every lemma gives the result as the state before with some blocks
replaced; what is not named there is as it was.
-/

namespace Sys2Proof.Machine

/-! ### Coverage -/

/-- A sample changes the segment records alone. -/
theorem State.applySample_frame (s : State) (g m : Byte) : ∃ cve, s.applySample g m = s.setCve cve := by
  unfold State.applySample
  split
  · split
    · exact ⟨_, rfl⟩
    · exact ⟨s.cve, rfl⟩
  · exact ⟨s.cve, rfl⟩

/-- A notice changes the notified maps and the control queue alone. -/
theorem State.noticeIfChanged_frame (s : State) :
    ∃ cve rlc, s.noticeIfChanged = (s.setCve cve).setRlc rlc ∧ cve.segments = s.cve.segments := by
  unfold State.noticeIfChanged
  dsimp only
  split
  · exact ⟨s.cve, s.rlc, rfl, rfl⟩
  · exact ⟨_, _, rfl, rfl⟩

/-- A departure changes CVE and the control queue alone. -/
theorem State.departure_frame (s : State) (g : Byte) : ∃ cve rlc, s.departure g = (s.setCve cve).setRlc rlc := by
  unfold State.departure
  split
  · split
    · obtain ⟨cve, rlc, h, -⟩ := State.noticeIfChanged_frame
        (s.setCve { s.cve with segments := s.cve.segments.modify _ fun r => { r with claim := .unclaimed } })
      exact ⟨cve, rlc, h⟩
    · exact ⟨s.cve, s.rlc, rfl⟩
  · exact ⟨s.cve, s.rlc, rfl⟩

/-- Releases of custody change the custody table alone. -/
theorem State.releases_frame (gs : List Byte) (s : State) :
    ∃ rfi, gs.foldl State.releaseCustody s = s.setRfi rfi ∧ rfi.holdback = s.rfi.holdback ∧
      ∀ r, r ∈ rfi.custody ↔ r ∈ s.rfi.custody ∧ r.segment ∉ gs := by
  induction gs generalizing s with
  | nil => exact ⟨s.rfi, rfl, rfl, by simp⟩
  | cons g gs ih =>
    obtain ⟨rfi, h, hh, hm⟩ := ih (s.releaseCustody g)
    refine ⟨rfi, ?_, hh, fun r => ?_⟩
    · simpa [State.releaseCustody] using h
    · rw [hm r]
      simp only [State.releaseCustody, State.setRfi_rfi, List.mem_filter, decide_eq_true_eq, List.mem_cons, not_or]
      tauto

/-- The decisions of an evaluation change the segment records and the custody table alone. -/
theorem State.decideAll_frame (s : State) :
    ∃ rfi, s.decideAll =
      (s.setCve { s.cve with segments := s.cve.segments.mapIdx (s.decided s.penalty) }).setRfi rfi ∧
        rfi.holdback = s.rfi.holdback := by
  obtain ⟨rfi, h, hh, -⟩ := State.releases_frame
    (lostSegments s.cfg s.cve.segments (s.cve.segments.mapIdx (s.decided s.penalty)))
    (s.setCve { s.cve with segments := s.cve.segments.mapIdx (s.decided s.penalty) })
  exact ⟨rfi, h, hh⟩

/-! ### The line -/

/-- A frame joining a class changes that class and the line state alone. -/
theorem State.joinClass_frame (s : State) (c : TxClass) (f : TxFrame) :
    ∃ lnc, s.joinClass c f = s.setLnc lnc ∧ lnc.frames c = s.lnc.frames c ++ [f] := by
  refine ⟨(s.joinClass c f).lnc, ?_, ?_⟩
  · unfold State.joinClass
    rw [State.openDefer_frame]
    rfl
  · unfold State.joinClass
    rw [State.openDefer_frames]
    cases c <;> rfl

/-- A lost crane frame changes the contexts alone. -/
theorem State.craneFrameLost_frame (s : State) (f : TxFrame) : ∃ cru, s.craneFrameLost f = s.setCru cru := by
  unfold State.craneFrameLost State.countLate
  split
  · split
    · exact ⟨_, rfl⟩
    · exact ⟨s.cru, rfl⟩
  · exact ⟨s.cru, rfl⟩

/-- A fresh DEFER changes LNC alone. -/
theorem State.reopenDefer_frame (s : State) : ∃ lnc, s.reopenDefer = s.setLnc lnc := by
  unfold State.reopenDefer
  rw [State.openDefer_frame]
  exact ⟨_, rfl⟩

/-- A crane frame given to class 0 changes LNC and late counts alone. -/
theorem State.giveCrane_frame (s : State) (x : Frame) (life : Nat) :
    ∃ lnc cru, s.giveCrane x life = (s.setLnc lnc).setCru cru := by
  have hre : ∀ t : State, (∃ lnc cru, t = (s.setLnc lnc).setCru cru) →
      ∃ lnc cru, (if s.lnc.deferring .crane then t.reopenDefer else t) = (s.setLnc lnc).setCru cru := by
    rintro t ⟨lnc, cru, rfl⟩
    split
    · obtain ⟨l, hl⟩ := ((s.setLnc lnc).setCru cru).reopenDefer_frame
      exact ⟨l, cru, by rw [hl]; rfl⟩
    · exact ⟨lnc, cru, rfl⟩
  unfold State.giveCrane
  dsimp only
  split
  · obtain ⟨lnc, h, -⟩ := s.joinClass_frame .crane (newTx s.now x life 0)
    exact ⟨lnc, s.cru, by rw [h]; rfl⟩
  · apply hre
    split
    · rename_i old _
      obtain ⟨cru, h⟩ := (s.setLnc { s.lnc with
        class0 := (s.lnc.class0 ++ [newTx s.now x life 0]).eraseIdx
          (if s.lnc.transmitting .crane = true then 1 else 0) }).craneFrameLost_frame old
      exact ⟨_, cru, h⟩
    · exact ⟨{ s.lnc with
        class0 := (s.lnc.class0 ++ [newTx s.now x life 0]).eraseIdx
          (if s.lnc.transmitting .crane = true then 1 else 0) }, s.cru, rfl⟩

/-- An answer given to class 1 changes LNC alone. -/
theorem State.giveAnswer_frame (s : State) (x : Frame) : ∃ lnc, s.giveAnswer x = s.setLnc lnc := by
  unfold State.giveAnswer
  split
  · obtain ⟨lnc, h, -⟩ := s.joinClass_frame .handover (newTx s.now x 0 0)
    exact ⟨lnc, h⟩
  · exact ⟨s.lnc, rfl⟩

/-- A BEACON put into the slot changes LNC, or is held as the successor. -/
theorem State.putBeacon_frame (s : State) (x : Frame) :
    (∃ lnc, s.putBeacon x = s.setLnc lnc) ∨ s.putBeacon x = s.setCve { s.cve with successor := some x } := by
  unfold State.putBeacon
  split
  · exact .inr rfl
  · refine .inl ?_
    dsimp only
    split
    · obtain ⟨lnc, h⟩ := (s.setLnc { s.lnc with class2 := [newTx s.now x 0 0] }).reopenDefer_frame
      exact ⟨lnc, h⟩
    · rw [State.openDefer_frame]
      exact ⟨_, rfl⟩

/-! ### Cranes -/

/-- Freeing a context changes the contexts, CVE and the control queue alone. -/
theorem State.freeContext_frame (s : State) (c : Context) :
    ∃ cve cru rlc, s.freeContext c = ((s.setCru cru).setCve cve).setRlc rlc := by
  unfold State.freeContext
  dsimp only
  split
  · obtain ⟨cve, rlc, h⟩ := (s.dropContext c.crane).departure_frame c.position
    exact ⟨cve, _, rlc, h⟩
  · exact ⟨s.cve, (s.dropContext c.crane).cru, s.rlc, rfl⟩

/-- Freeing contexts, one after another, changes the contexts, CVE and the control queue alone. -/
theorem State.freeContexts_frame (cs : List Context) (s : State) :
    ∃ cve cru rlc, s.freeContexts cs = ((s.setCru cru).setCve cve).setRlc rlc := by
  induction cs generalizing s with
  | nil => exact ⟨s.cve, s.cru, s.rlc, rfl⟩
  | cons c cs ih =>
    obtain ⟨cve, cru, rlc, h⟩ := s.freeContext_frame c
    obtain ⟨cve', cru', rlc', h'⟩ := ih (s.freeContext c)
    refine ⟨cve', cru', rlc', ?_⟩
    show (s.freeContext c).freeContexts cs = _
    rw [h', h]
    rfl

/-- The orders that free values pick are orders of the same items. -/
theorem shuffled_perm {α : Type} (l : List α) (n : Nat) : (shuffled n l).Perm l := by
  induction l generalizing n with
  | nil => exact List.Perm.refl _
  | cons x xs ih =>
    have hle : Config.freeValue n % (xs.length + 1) ≤ (shuffled (n + 1) xs).length := by
      rw [(ih (n + 1)).length_eq]
      exact Nat.le_of_lt_succ (Nat.mod_lt _ (Nat.succ_pos _))
    exact (List.perm_insertIdx x _ hle).trans ((ih (n + 1)).cons x)

/-! ### Bundles and reefers -/

/-- Closing a buffer changes BAS and LNC alone. -/
theorem State.closeBuffer_frame (s : State) (i : Nat) : ∃ bas lnc, s.closeBuffer i = (s.setBas bas).setLnc lnc := by
  unfold State.closeBuffer
  split
  · rename_i b _
    obtain ⟨lnc, h, -⟩ := (s.setBas { s.bas with
      buffers := s.bas.buffers.set i { b with state := .closed }, waitDue := none }).joinClass_frame .bundle
        (newTx s.now ⟨s.cfg.address, 63, .bundle b.reports⟩ 0 i)
    exact ⟨_, lnc, h⟩
  · exact ⟨s.bas, s.lnc, rfl⟩

/-- A report put into a buffer changes BAS and LNC alone. -/
theorem State.fillBuffer_frame (s : State) (i : Nat) (r : Report) :
    ∃ bas lnc, s.fillBuffer i r = (s.setBas bas).setLnc lnc := by
  have hclose : ∀ (p : Prop) [Decidable p] (t : State), (∃ bas, t = s.setBas bas) →
      ∃ bas lnc, (if p then t.closeBuffer i else t) = (s.setBas bas).setLnc lnc := by
    rintro p _ t ⟨bas, rfl⟩
    split
    · obtain ⟨bas', lnc, h⟩ := (s.setBas bas).closeBuffer_frame i
      exact ⟨bas', lnc, h⟩
    · exact ⟨bas, s.lnc, rfl⟩
  unfold State.fillBuffer
  split
  · exact hclose _ _ ⟨_, rfl⟩
  · exact ⟨s.bas, s.lnc, rfl⟩

/-- The moves change BAS and LNC alone. -/
theorem State.movesUpTo_frame (n : Nat) (s : State) : ∃ bas lnc, s.movesUpTo n = (s.setBas bas).setLnc lnc := by
  induction n generalizing s with
  | zero => exact ⟨s.bas, s.lnc, rfl⟩
  | succ n ih =>
    unfold State.movesUpTo
    split
    · rename_i t ht
      have hm : ∃ bas lnc, t = (s.setBas bas).setLnc lnc := by
        unfold State.oneMove at ht
        obtain ⟨i, -, ht⟩ := Option.bind_eq_some_iff.1 ht
        split at ht <;> simp only [Option.some.injEq, reduceCtorEq] at ht <;> subst ht
        all_goals
          obtain ⟨bas, lnc, h⟩ := State.fillBuffer_frame (s.setBas _) i _
          exact ⟨bas, lnc, h⟩
      obtain ⟨bas, lnc, rfl⟩ := hm
      obtain ⟨bas', lnc', h⟩ := ih ((s.setBas bas).setLnc lnc)
      exact ⟨bas', lnc', by rw [h]; rfl⟩
    · exact ⟨s.bas, s.lnc, rfl⟩

/-- Forwarding a report changes BAS and LNC alone. -/
theorem State.forward_frame (s : State) (r : Report) : ∃ bas lnc, s.forward r = (s.setBas bas).setLnc lnc := by
  unfold State.forward State.makeMoves
  split
  all_goals
    obtain ⟨bas, lnc, h⟩ := State.movesUpTo_frame _ (s.setBas _)
    exact ⟨bas, lnc, h⟩

/-- A report taking the holdback path changes RFI alone. -/
theorem State.enterHoldback_frame (s : State) (r : Report) (m : Byte) :
    ∃ rfi, s.enterHoldback r m = s.setRfi rfi ∧ rfi.custody = s.rfi.custody := by
  unfold State.enterHoldback
  dsimp only
  split
  · exact ⟨_, rfl, rfl⟩
  · split
    · exact ⟨_, rfl, rfl⟩
    · exact ⟨s.rfi, rfl, rfl⟩

/-- An overheard report changes RFI alone. -/
theorem State.overheard_frame (s : State) (r : Report) : ∃ rfi, s.overheard r = s.setRfi rfi := by
  unfold State.overheard
  split
  · split
    · exact ⟨_, rfl⟩
    · exact ⟨s.rfi, rfl⟩
  · split
    · split
      · exact ⟨s.rfi, rfl⟩
      · exact ⟨_, rfl⟩
    · exact ⟨s.rfi, rfl⟩

/-- An overheard bundle changes RFI alone. -/
theorem State.overheardBundle_frame (rs : List Report) (s : State) : ∃ rfi, s.overheardBundle rs = s.setRfi rfi := by
  induction rs generalizing s with
  | nil => exact ⟨s.rfi, rfl⟩
  | cons r rs ih =>
    obtain ⟨rfi, h⟩ := s.overheard_frame r
    obtain ⟨rfi', h'⟩ := ih (s.overheard r)
    refine ⟨rfi', ?_⟩
    show (s.overheard r).overheardBundle rs = _
    rw [h', h]
    rfl

/-- GDS taking the reports of a bundle changes GDS alone. -/
theorem State.gdsIntake_frame (s : State) (station : Byte) (rs : List Report) :
    ∃ gds, s.gdsIntake station rs = s.setGds gds := by
  unfold State.gdsIntake
  split
  · exact ⟨_, rfl⟩
  · exact ⟨s.gds, rfl⟩

/-! ### Messages and frames -/

/-- The supervision step changes RLC alone. -/
theorem State.supervisionStep_frame (s : State) : ∃ rlc, s.supervisionStep = s.setRlc rlc ∧ rlc.radioLost = false := by
  unfold State.supervisionStep State.restartSupervision
  dsimp only
  split
  · rw [State.recordOccasion_frame]
    exact ⟨_, rfl, rfl⟩
  · rename_i h
    exact ⟨_, rfl, by simpa using h⟩

/-- A message finds its owners with the clock advanced, the parser WAITING and the supervision step taken. -/
theorem State.accepting_frame (s : State) (dt : Micros) :
    ∃ rlc, s.accepting dt = (s.setNow (s.now + dt)).setRlc rlc ∧ rlc.radioLost = false := by
  obtain ⟨rlc, h, hr⟩ := State.supervisionStep_frame ((s.advance dt).setRlc { s.rlc with parser := .waiting })
  exact ⟨rlc, h, hr⟩

/-- In LISTEN and RUN a well-formed message other than RESTART goes to its owners. -/
theorem State.messageArrives_eq {s : State} {dt : Micros} {m : Inbound} (ha : s.attends)
    (hw : inboundWellFormed m = true) (hm : m ≠ .restart) :
    (s.advance dt).messageArrives m = (s.accepting dt).dispatchMessage m := by
  obtain ⟨hr, hh⟩ := ha
  simp only [State.messageArrives, State.advance_eq, State.setNow_pins, hh, Bool.false_eq_true, if_false,
    State.checkedMessage, hw, if_true, State.validMessage, State.accepting, State.setNow_rlc]
  rcases State.running_eq_true.1 hr with h | h <;> cases m <;> simp_all

/-- Carrier's appearing changes the pins and LNC alone. -/
theorem State.arriving_frame (s : State) (dt : Micros) :
    ∃ pins lnc, s.arriving dt = ((s.setNow (s.now + dt)).setPins pins).setLnc lnc := by
  unfold State.arriving State.carrierAppears
  split
  · exact ⟨s.pins, s.lnc, rfl⟩
  · dsimp only
    split
    · exact ⟨{ s.pins with carrier := true }, s.lnc, rfl⟩
    · split
      · exact ⟨{ s.pins with carrier := true }, _, rfl⟩
      · exact ⟨{ s.pins with carrier := true }, _, rfl⟩
      · exact ⟨{ s.pins with carrier := true }, s.lnc, rfl⟩
      · exact ⟨{ s.pins with carrier := true }, _, rfl⟩

/-- Carrier's end changes the pins and LNC alone. -/
theorem State.carrierEnds_frame (s : State) : ∃ pins lnc, s.carrierEnds = (s.setPins pins).setLnc lnc := by
  unfold State.carrierEnds
  split
  · exact ⟨s.pins, s.lnc, rfl⟩
  · dsimp only
    split
    · exact ⟨{ s.pins with carrier := false }, s.lnc, rfl⟩
    · split
      · exact ⟨{ s.pins with carrier := false }, s.lnc, rfl⟩
      · exact ⟨{ s.pins with carrier := false }, _, rfl⟩
      · rw [State.openDefer_frame]
        exact ⟨{ s.pins with carrier := false }, _, rfl⟩
      · rw [State.openDefer_frame]
        exact ⟨{ s.pins with carrier := false }, _, rfl⟩

/-- A well-formed frame of another station for this one, heard, goes to its owner before the carrier's end. -/
theorem State.receive_eq {s : State} {dt : Micros} {f : Frame} (hh : (s.arriving dt).hears = true)
    (hd : s.dispatches f) :
    ((s.advance dt).receive fun t => t.checkedFrame f) =
      ((s.arriving dt).dispatchFrame f.sender f.body).carrierEnds := by
  obtain ⟨pins, lnc, ha⟩ := s.arriving_frame dt
  obtain ⟨hw, hs, hdest⟩ := hd
  have hcfg : (s.arriving dt).cfg = s.cfg := by rw [ha]; rfl
  simp only [State.arriving] at hh hcfg ⊢
  simp only [State.receive, hh, if_true, State.checkedFrame, hw, hcfg, hs, hdest, Bool.not_true, Bool.false_eq_true,
    if_false]

end Sys2Proof.Machine
end

