-- ==== Sys2Proof/Laws/Bundles.lean ====
section
/-!
SUPPORT. Which buffer receives, what one report put into it leaves, and when the moves end.
-/

namespace Sys2Proof.Machine

/-! ### The receiving buffer -/

/-- No buffer receives while every buffer is CLOSED or SENDING. -/
theorem receivingBuffer_eq_none {bs : List Buffer} (h : ∀ x ∈ bs, x.state = .closed ∨ x.state = .sending) :
    receivingBuffer bs = none := by
  have no (k : BufferState) (hk : k ≠ .closed) (hk' : k ≠ .sending) :
      bs.findIdx? (fun b => decide (b.state = k)) = none := by
    rw [List.findIdx?_eq_none_iff]
    intro x hx
    rcases h x hx with h | h <;> simp [h, hk.symm, hk'.symm]
  simp [receivingBuffer, no .filling (by decide) (by decide), no .empty (by decide) (by decide)]

/-- A buffer in FILLING or EMPTY receives when every other is CLOSED or SENDING. -/
theorem receivingBuffer_eq_some {bs : List Buffer} {i : Nat} {b : Buffer} (hb : bs[i]? = some b)
    (hs : b.state = .empty ∨ b.state = .filling)
    (h : ∀ (j : Nat) (x : Buffer), j ≠ i → bs[j]? = some x → x.state = .closed ∨ x.state = .sending) :
    receivingBuffer bs = some i := by
  obtain ⟨hi, hbi⟩ := List.getElem?_eq_some_iff.1 hb
  have first (k : BufferState) (hk : k ≠ .closed) (hk' : k ≠ .sending) (hbk : b.state = k) :
      bs.findIdx? (fun b => decide (b.state = k)) = some i := by
    rw [List.findIdx?_eq_some_iff_getElem]
    refine ⟨hi, by simp [hbi, hbk], fun j hj => ?_⟩
    rcases h j bs[j] (by omega) (List.getElem?_eq_getElem (by omega)) with h | h <;> simp [h, hk.symm, hk'.symm]
  rcases hs with hs | hs
  · have : bs.findIdx? (fun b => decide (b.state = .filling)) = none := by
      rw [List.findIdx?_eq_none_iff]
      intro x hx
      obtain ⟨j, hj⟩ := List.mem_iff_getElem?.1 hx
      by_cases hji : j = i
      · subst hji
        rw [hb] at hj
        cases hj
        simp [hs]
      · rcases h j x hji hj with h | h <;> simp [h]
    simp [receivingBuffer, this, first .empty (by decide) (by decide) hs]
  · simp [receivingBuffer, first .filling (by decide) (by decide) hs]

/-! ### One report -/

/-- What one report put into a buffer leaves: its room and reports, the wait timer where it opens the buffer, and the bundle
where it closes it (R146, R147). -/
theorem State.fillBuffer_eq {s : State} {i : Nat} {b : Buffer} (r : Report) (hb : s.bas.buffers[i]? = some b) :
    s.fillBuffer i r =
      let room := (if b.state = .empty then effectiveLimit s.cfg else b.room) - 1
      let reports := (if b.state = .empty then [] else b.reports) ++ [r]
      if room = 0 ∨ r.cls = .alert then
        ((s.setBas { s.bas with buffers := s.bas.buffers.set i ⟨.closed, room, reports⟩, waitDue := none }).setLnc
          { s.lnc with
            class3 := s.lnc.class3 ++ [newTx s.now ⟨s.cfg.address, 63, .bundle reports⟩ 0 i] }).openDefer
      else
        s.setBas { s.bas with
          buffers := s.bas.buffers.set i ⟨.filling, room, reports⟩,
          waitDue := if b.state = .empty then some (s.now + 1000 * s.cfg.bundleWait) else s.bas.waitDue } := by
  obtain ⟨hi, -⟩ := List.getElem?_eq_some_iff.1 hb
  have hclose (room : Nat) (reports : List Report) (wait : Option Micros) :
      (s.setBas { s.bas with buffers := s.bas.buffers.set i ⟨.filling, room, reports⟩, waitDue := wait }).closeBuffer i =
        ((s.setBas { s.bas with buffers := s.bas.buffers.set i ⟨.closed, room, reports⟩, waitDue := none }).setLnc
          { s.lnc with
            class3 := s.lnc.class3 ++ [newTx s.now ⟨s.cfg.address, 63, .bundle reports⟩ 0 i] }).openDefer := by
    simp only [State.closeBuffer, State.setBas_bas, List.getElem?_set_self hi, List.set_set]
    rfl
  simp only [State.fillBuffer, hb, decide_eq_true_eq, hclose]
  rfl

/-! ### The end of the moves -/

/-- No move is made while no buffer receives. -/
theorem State.movesUpTo_of_none {s : State} (h : receivingBuffer s.bas.buffers = none) (n : Nat) :
    s.movesUpTo n = s := by
  cases n with
  | zero => rfl
  | succ n => simp [State.movesUpTo, State.oneMove, h]

/-- No move is made while both intakes are empty. -/
theorem State.movesUpTo_of_empty {s : State} (ha : s.bas.alertIntake = []) (hr : s.bas.routineIntake = []) (n : Nat) :
    s.movesUpTo n = s := by
  cases n with
  | zero => rfl
  | succ n =>
    have : s.oneMove = none := by
      simp only [State.oneMove, ha, hr]
      cases receivingBuffer s.bas.buffers <;> rfl
    simp [State.movesUpTo, this]

end Sys2Proof.Machine
end

