-- ==== Sys2Proof/Laws/Coverage.lean ====
section
/-!
SUPPORT. What CVE's maps, the count of LISTEN and the entry into RUN, and a recorded occasion leave.
-/

namespace Sys2Proof.Machine

/-! ### Home positions and maps -/

/-- A map position of the home range is that of its segment. -/
theorem homePosition_segmentAt {c : Settings} {i : Nat} (hc : SettingsOk c) (hi : i < c.homeCount) :
    homePosition c (segmentAt c i) = some i := by
  have := hc.onQuay.2
  simp only [homePosition, segmentAt, BitVec.toNat_ofNat]
  rw [Nat.mod_eq_of_lt (by omega)]
  simp
  omega

/-- A home segment is the one at its map position, which lies in the home range. -/
theorem segmentAt_homePosition {c : Settings} {g : Byte} {i : Nat} (h : homePosition c g = some i) :
    segmentAt c i = g ∧ i < c.homeCount := by
  simp only [homePosition] at h
  split at h
  · cases h
    refine ⟨BitVec.eq_of_toNat_eq ?_, by omega⟩
    have := g.isLt
    simp only [segmentAt, BitVec.toNat_ofNat]
    omega
  · cases h

/-- The number whose bits, from place `n` on, are a claim map. -/
def claimSum (k : Claim) (l : List Segment) (n : Nat) : Nat :=
  ((l.zipIdx n).map fun x => if x.1.claim = k then 2 ^ x.2 else 0).sum

theorem claimSum_succ (k : Claim) (l : List Segment) (n : Nat) : claimSum k l (n + 1) = 2 * claimSum k l n := by
  induction l generalizing n with
  | nil => rfl
  | cons r l ih =>
    simp only [claimSum, List.zipIdx_cons, List.map_cons, List.sum_cons] at ih ⊢
    rw [ih]
    split
    · rw [Nat.pow_succ]
      omega
    · omega

/-- Bit `i` of that number says whether the record at place `i` is in the claim state. -/
theorem claimSum_testBit (k : Claim) (l : List Segment) (i : Nat) :
    (claimSum k l 0).testBit i = decide (∃ r, l[i]? = some r ∧ r.claim = k) := by
  induction l generalizing i with
  | nil => simp [claimSum]
  | cons r l ih =>
    have e : claimSum k (r :: l) 0 = (if r.claim = k then 1 else 0) + 2 * claimSum k l 0 := by
      rw [← claimSum_succ]
      simp [claimSum]
    rw [e]
    cases i with
    | zero =>
      rw [Nat.testBit_zero]
      split <;> simp_all
    | succ i =>
      have (m : Nat) : ((if r.claim = k then 1 else 0) + 2 * m) / 2 = m := by split <;> omega
      rw [Nat.testBit_succ, this, ih]
      simp

/-- Bit `i` of a claim map says whether the home segment at map position `i` is in the claim state (R53). -/
theorem claimMap_getLsbD (k : Claim) {l : List Segment} (h : l.length ≤ 16) (i : Nat) :
    (claimMap k l).getLsbD i = decide (∃ r, l[i]? = some r ∧ r.claim = k) := by
  show (BitVec.ofNat 16 (claimSum k l 0)).getLsbD i = _
  rw [BitVec.getLsbD_ofNat, claimSum_testBit]
  by_cases hi : i < 16
  · simp [hi]
  · have : l[i]? = none := List.getElem?_eq_none (by omega)
    simp [this]

/-- A claim map is clear exactly when no record is in the claim state. -/
theorem claimMap_eq_zero (k : Claim) {l : List Segment} (h : l.length ≤ 16) :
    claimMap k l = 0 ↔ ∀ r ∈ l, r.claim ≠ k := by
  constructor
  · intro h0 r hr hk
    obtain ⟨i, hi⟩ := List.mem_iff_getElem?.1 hr
    have := claimMap_getLsbD k h i
    rw [h0] at this
    simp only [BitVec.ofNat_eq_ofNat, BitVec.getLsbD_zero, Bool.false_eq, decide_eq_false_iff_not, not_exists,
      not_and] at this
    exact this r hi hk
  · intro hn
    refine BitVec.eq_of_getLsbD_eq fun i _ => ?_
    rw [claimMap_getLsbD k h]
    simpa using fun x hx => hn x (List.mem_of_getElem? hx)

/-! ### Occasions -/

/-- Recording an occasion is a change of RLC alone. -/
theorem State.recordOccasion_eq (s : State) (o : Occasion) :
    s.recordOccasion o = s.setRlc (s.recordOccasion o).rlc := by
  unfold State.recordOccasion
  dsimp only
  split <;> rfl

/-- What recording an occasion makes of RLC depends on the run state and on RLC. -/
theorem State.recordOccasion_rlc {s t : State} (o : Occasion) (h1 : s.stc.runState = t.stc.runState)
    (h2 : s.rlc = t.rlc) : (s.recordOccasion o).rlc = (t.recordOccasion o).rlc := by
  simp only [State.recordOccasion, State.queueControl, h1, h2]
  by_cases h : t.stc.runState ≠ .load ∧ ControlMsg.stateReport ∉ t.rlc.control
  · rw [if_pos h, if_pos h]
    rfl
  · rw [if_neg h, if_neg h]
    rfl

/-! ### The count of LISTEN -/

/-- What an expiry of the beacon timer does before its evaluation: it counts in LISTEN, and the twelfth expiry enters RUN
with its report (R37). -/
theorem State.countListen_eq (s : State) (h : s.stc.runState = .listen → s.cve.listenCount < 12) :
    s.countListen =
      ((s.setCve { s.cve with
          listenCount := if s.stc.runState = .listen then s.cve.listenCount + 1 else s.cve.listenCount }).setStc
        { s.stc with runState := s.evaluatedIn }).setRlc
          (if s.evaluatedIn = s.stc.runState then s else State.recordOccasion .run s).rlc := by
  unfold State.countListen
  by_cases hl : s.stc.runState = .listen
  · rw [if_pos hl]
    dsimp only
    by_cases hc : s.cve.listenCount = 11
    · have he : s.evaluatedIn = .run := by simp [State.evaluatedIn, hl, hc]
      rw [if_pos (by rw [hc]; rfl)]
      simp only [he, hl, reduceCtorEq, if_false, if_true]
      simp only [State.recordOccasion, State.setStc_rlc, State.setStc_stc, State.setCve_rlc, hl]
      by_cases hm : ControlMsg.stateReport ∈ s.rlc.control
      · simp only [ne_eq, reduceCtorEq, not_false_eq_true, hm, not_true_eq_false, and_false, if_false]
        rfl
      · simp only [ne_eq, reduceCtorEq, not_false_eq_true, hm, and_self, if_true]
        rfl
    · have he : s.evaluatedIn = .listen := by simp [State.evaluatedIn, hl, hc]
      have := h hl
      rw [if_neg (by show ¬s.cve.listenCount + 1 = 12; omega)]
      simp only [he, hl, if_true]
      rw [← hl]
      rfl
  · have he : s.evaluatedIn = s.stc.runState := by simp [State.evaluatedIn, hl]
    rw [if_neg hl]
    simp only [he, hl, if_true, if_false]
    rfl

end Sys2Proof.Machine
end

