-- ==== Sys2Proof/Laws/Sound.lean ====
section
/-!
SUPPORT. A check that computes, for a concrete state, that it has the invariants of Safety.lean; the tests use it to show
states that meet the premises of the statements.
-/

namespace Sys2Proof.Machine

/-- The part of the check about STC. -/
def startCheck (s : State) : Bool :=
  (match s.stc.loaded with
    | some c =>
      s.running && decide (1 ≤ c.address.toNat ∧ c.address.toNat ≤ 62) && decide (c.homeCount ≤ 16) &&
        decide (c.homeFirst ≤ 127 ∧ c.homeFirst + c.homeCount ≤ 128) &&
        decide (c.role = .edge → 1 ≤ c.homeCount) &&
        decide (50 ≤ c.beaconBase ∧ c.beaconBase ≤ 2000 ∧ c.beaconBase % 10 = 0) &&
        decide (1 ≤ c.qualShift ∧ c.qualShift ≤ 4) && decide (c.hyst ≤ 63) && decide (c.claimFloor ≤ 255) &&
        decide (c.shadowCap ≤ 511) && decide (10 ≤ c.hbBase ∧ c.hbBase ≤ 1000) &&
        decide (c.bundleLimit ≤ bufferCapacity c.bundleMode) && decide (50 ≤ c.bundleWait ∧ c.bundleWait ≤ 5000) &&
        decide (20 ≤ c.handoverGuard ∧ c.handoverGuard ≤ 500) && decide (50 ≤ c.craneStale ∧ c.craneStale ≤ 2000) &&
        decide (100 ≤ c.radioWatch ∧ c.radioWatch ≤ 5000)
    | none =>
      !s.running && decide (s.cve = .reset ∧ s.nbt = .reset ∧ s.cru = .reset ∧ s.rfi = .reset ∧ s.bas = .reset ∧
        s.gds = .reset ∧ s.lnc = .reset)) &&
  decide (s.stc.readSince ≠ none → s.stc.runState = .load) &&
  decide (s.stc.runState = .load → s.pins.resetHeld = false → s.stc.readSince ≠ none) &&
  decide (s.pins.resetHeld = true → s.stc.runState = .load ∧ s.stc.readSince = none ∧ s.rlc = .reset) &&
  decide (s.stc.haltReason ≠ .none ↔ s.stc.runState = .halt) && decide (s.stc.warmCount ≤ 15)

theorem startOk_of_check {s : State} (h : startCheck s = true) : StartOk s := by
  simp only [startCheck, Bool.and_eq_true, decide_eq_true_eq] at h
  obtain ⟨⟨⟨⟨⟨h, hread⟩, hload⟩, hheld⟩, hhalt⟩, hwarm⟩ := h
  cases hl : s.stc.loaded with
  | none =>
    simp only [hl, Bool.and_eq_true, Bool.not_eq_true', decide_eq_true_eq] at h
    exact ⟨fun hr => by simp [h.1] at hr, fun _ => ⟨hl, h.2⟩, hread, hload, hheld, hhalt, hwarm⟩
  | some c =>
    simp only [hl, Bool.and_eq_true, decide_eq_true_eq] at h
    obtain ⟨⟨⟨⟨⟨⟨⟨⟨⟨⟨⟨⟨⟨⟨⟨hr, a⟩, b⟩, c1⟩, d⟩, e⟩, f⟩, g⟩, i⟩, j⟩, k⟩, l⟩, m⟩, n⟩, o⟩, p⟩ := h
    exact ⟨fun _ => ⟨c, hl, a, b, c1, d, e, f, g, i, j, k, l, m, n, o, p⟩, fun hf => by simp [hr] at hf, hread, hload,
      hheld, hhalt, hwarm⟩

/-- The part about CVE. -/
def coverageCheck (s : State) : Bool :=
  decide (s.running = true → s.cve.segments.length = s.cfg.homeCount) &&
  (s.cve.segments.all fun r => decide (r.acc ≤ 4080 ∧ r.quality = qualityOf r.acc ∧ r.score ≤ 511)) &&
  decide (s.cve.listenCount ≤ 12) && decide (s.stc.runState = .listen → s.cve.listenCount < 12) &&
  (decide (s.stc.runState = .run ∧ s.rlc.radioLost = false) || s.cve.segments.all fun r => r.claim = .unclaimed) &&
  (s.cve.segments.zipIdx.all fun x => decide (x.1.claim = .held → s.activeAt (segmentAt s.cfg x.2) = true)) &&
  decide (s.cve.notifiedClaimed = claimMap .claimed s.cve.segments ∧ s.cve.notifiedHeld = claimMap .held s.cve.segments)

theorem coverage_of_check {s : State} (h : coverageCheck s = true) : SegmentsOk s ∧ ClaimsOk s ∧ NoticesOk s := by
  simp only [coverageCheck, Bool.and_eq_true, Bool.or_eq_true, decide_eq_true_eq, List.all_eq_true] at h
  obtain ⟨⟨⟨⟨⟨⟨a, b⟩, c⟩, d⟩, e⟩, f⟩, g⟩ := h
  refine ⟨⟨a, b, c, d⟩, ⟨fun hn r hr => ?_, fun i r hi hc => ?_⟩, g⟩
  · rcases e with e | e
    · rcases hn with hn | hn
      · exact absurd e.1 hn
      · simp [e.2] at hn
    · exact e r hr
  · exact f (r, i) (List.mem_zipIdx_iff_getElem?.2 hi) hc

/-- The part about CRU and NBT. -/
def tablesCheck (s : State) : Bool :=
  decide (TableSorted Context.key s.cru.contexts) && decide (s.cru.contexts.length ≤ 4) &&
  (decide (s.stc.runState = .run ∧ s.rlc.radioLost = false) || decide (s.cru.contexts = [])) &&
  (s.cru.contexts.all fun c =>
    decide (1 ≤ c.crane.toNat ∧ c.crane.toNat ≤ 31) && decide (c.position.toNat ≤ 127) &&
      (match c.period with
        | some p => decide (1 ≤ p ∧ p ≤ 4095)
        | none => true) &&
      decide (c.late ≤ 255) && decide (c.queue.length ≤ 4) &&
      (c.queue.all fun e => decide (1 ≤ e.payload.length ∧ e.payload.length ≤ 48)) &&
      decide (c.active = false → c.queue = [])) &&
  decide (TableSorted Neighbour.key s.nbt.entries) && decide (s.nbt.entries.length ≤ 12) &&
  (s.nbt.entries.all fun e =>
    decide (1 ≤ e.address.toNat ∧ e.address.toNat ≤ 62 ∧ e.address ≠ s.cfg.address) &&
      decide (50 ≤ e.interval ∧ e.interval ≤ 8000) && decide (e.advertisedC ≤ 4) &&
      decide (1 ≤ e.items.length ∧ e.items.length ≤ 16) && decide (TableSorted AdvItem.key e.items) &&
      e.items.all fun i => decide (inWatchRange s.cfg i.segment = true ∧ i.score ≤ 511))

theorem tables_of_check {s : State} (h : tablesCheck s = true) : CranesOk s ∧ NeighboursOk s := by
  simp only [tablesCheck, Bool.and_eq_true, Bool.or_eq_true, decide_eq_true_eq, List.all_eq_true] at h
  obtain ⟨⟨⟨⟨⟨⟨a, b⟩, c⟩, d⟩, e⟩, f⟩, g⟩ := h
  refine ⟨⟨a, b, fun hn => ?_, fun x hx => ?_⟩, ⟨e, f, fun x hx => ?_⟩⟩
  · rcases c with c | c
    · rcases hn with hn | hn
      · exact absurd c.1 hn
      · simp [c.2] at hn
    · exact c
  · obtain ⟨⟨⟨⟨⟨⟨d1, d2⟩, d3⟩, d4⟩, d5⟩, d6⟩, d7⟩ := d x hx
    refine ⟨d1, d2, fun p hp => ?_, d4, d5, d6, d7⟩
    simpa [hp] using d3
  · obtain ⟨⟨⟨⟨⟨g1, g2⟩, g3⟩, g4⟩, g5⟩, g6⟩ := g x hx
    exact ⟨g1, g2, g3, g4, g5, g6⟩

/-- The check of one report. -/
def reportCheck (r : Report) : Bool :=
  decide (r.tag ≠ 0 ∧ r.segment.toNat ≤ 127 ∧ (-400 ≤ r.setPoint.toInt ∧ r.setPoint.toInt ≤ 500) ∧
    (-400 ≤ r.supply.toInt ∧ r.supply.toInt ≤ 500))

theorem reportOk_of_check {r : Report} (h : reportCheck r = true) : reportOk r := by
  simpa [reportCheck, reportOk] using h

/-- The part about RFI. -/
def reefersCheck (s : State) : Bool :=
  decide (TableSorted Custody.key s.rfi.custody) && decide (s.rfi.custody.length ≤ 384) &&
  (s.rfi.custody.all fun r => decide (s.claimedHere r.segment = true ∧ r.tag ≠ 0)) &&
  decide (TableSorted Held.key s.rfi.holdback) && decide (s.rfi.holdback.length ≤ 32) &&
  (s.rfi.holdback.all fun e => reportCheck e.report) &&
  (s.rfi.custody.all fun r => s.rfi.holdback.all fun e => decide (r.tag ≠ e.report.tag))

theorem reefersOk_of_check {s : State} (h : reefersCheck s = true) : ReefersOk s := by
  simp only [reefersCheck, Bool.and_eq_true, decide_eq_true_eq, List.all_eq_true] at h
  obtain ⟨⟨⟨⟨⟨⟨a, b⟩, c⟩, d⟩, e⟩, f⟩, g⟩ := h
  exact ⟨a, b, c, d, e, fun x hx => reportOk_of_check (f x hx), g⟩

/-- The check of one buffer. -/
def bufferCheck (limit : Nat) (b : Buffer) : Bool :=
  b.reports.all reportCheck &&
  match b.state with
  | .empty => decide (b.reports = [])
  | .filling => decide (1 ≤ b.reports.length ∧ 1 ≤ b.room ∧ b.reports.length + b.room = limit)
  | .closed | .sending => decide (1 ≤ b.reports.length ∧ b.reports.length + b.room = limit)

theorem bufferOk_of_check {limit : Nat} {b : Buffer} (h : bufferCheck limit b = true) : b.ok limit := by
  simp only [bufferCheck, Bool.and_eq_true, List.all_eq_true] at h
  refine ⟨fun r hr => reportOk_of_check (h.1 r hr), ?_⟩
  have h2 := h.2
  cases hb : b.state <;> simp only [hb, decide_eq_true_eq] at h2 ⊢ <;> exact h2

/-- The part about BAS and GDS. -/
def deliveryCheck (s : State) : Bool :=
  decide (s.running = true → s.bas.buffers.length = bufferCount s.cfg.bundleMode) &&
  s.bas.buffers.all (bufferCheck (effectiveLimit s.cfg)) &&
  decide ((s.bas.buffers.countP fun b => b.state = .filling) ≤ 1) &&
  decide (s.bas.waitDue ≠ none ↔ ∃ b ∈ s.bas.buffers, b.state = .filling) &&
  (decide (s.bas.alertIntake.length ≤ 8) && s.bas.alertIntake.all fun r => decide (r.cls = .alert) && reportCheck r) &&
  (decide (s.bas.routineIntake.length ≤ 32) &&
    s.bas.routineIntake.all fun r => decide (r.cls = .routine) && reportCheck r) &&
  decide (receivingBuffer s.bas.buffers ≠ none → s.bas.alertIntake = [] ∧ s.bas.routineIntake = []) &&
  decide (s.gds.seen.Nodup ∧ s.gds.seen.length ≤ 256) &&
  (decide (s.gds.store.length ≤ 256) && s.gds.store.all fun x => reportCheck x.report) &&
  match s.gds.drain with
  | .idle => s.gds.store.all fun x => decide (x.inHand = false)
  | .draining a n =>
    decide (1 ≤ a ∧ a + n ≤ 64) &&
    match s.gds.store with
    | x :: rest => decide (x.inHand = true) && rest.all fun y => decide (y.inHand = false)
    | [] => false

theorem delivery_of_check {s : State} (h : deliveryCheck s = true) : BundlesOk s ∧ DeliveryOk s := by
  simp only [deliveryCheck, Bool.and_eq_true, decide_eq_true_eq, List.all_eq_true] at h
  obtain ⟨⟨⟨⟨⟨⟨⟨⟨⟨a, b⟩, c⟩, d⟩, e⟩, f⟩, g⟩, i⟩, j⟩, k⟩ := h
  refine ⟨⟨a, fun x hx => bufferOk_of_check (b x hx), c, d, ⟨e.1, fun r hr => ?_⟩, ⟨f.1, fun r hr => ?_⟩, g⟩,
    ⟨i, ⟨j.1, fun x hx => reportOk_of_check (j.2 x hx)⟩, fun hd => ?_, fun x n hd => ?_⟩⟩
  · exact ⟨(e.2 r hr).1, reportOk_of_check (e.2 r hr).2⟩
  · exact ⟨(f.2 r hr).1, reportOk_of_check (f.2 r hr).2⟩
  · simpa [hd] using k
  · simp only [hd, Bool.and_eq_true, decide_eq_true_eq] at k
    refine ⟨k.1.1, k.1.2, ?_⟩
    cases hs : s.gds.store with
    | nil => simp [hs] at k
    | cons y ys => simpa [hs] using k.2

/-- The kinds a class holds, as a test. -/
def holdsCheck (c : TxClass) (b : FrameBody) : Bool :=
  match b with
  | .craneUp .. | .craneDown .. => decide (c = .crane)
  | .offer .. | .take .. | .refuse .. | .commit .. | .cancel .. => decide (c = .handover)
  | .beacon .. => decide (c = .beacon)
  | .bundle .. => decide (c = .bundle)

theorem holds_of_check {c : TxClass} {b : FrameBody} (h : holdsCheck c b = true) : c.holds b := by
  cases b <;> simpa [holdsCheck, TxClass.holds] using h

/-- A frame this station may transmit, as a test. -/
def transmitCheck (s : State) (f : Frame) : Bool := frameWellFormed f && decide (f.sender = s.cfg.address)

theorem mayTransmit_of_check {s : State} {f : Frame} (h : transmitCheck s f = true) : s.mayTransmit f := by
  simpa [transmitCheck, State.mayTransmit] using h

/-- The part about one transmit class. -/
def classCheck (s : State) (c : TxClass) : Bool :=
  decide ((s.lnc.frames c).length ≤ c.capacity) &&
  (s.lnc.frames c).all fun f => holdsCheck c f.frame.body && decide (f.attempts < c.limit) && transmitCheck s f.frame

/-- The part about LNC and the owners of its frames. -/
def lineCheck (s : State) : Bool :=
  (classCheck s .crane && classCheck s .handover && classCheck s .beacon && classCheck s .bundle) &&
  decide (s.cfg.homeCount = 0 → s.lnc.class2 = []) &&
  (match s.lnc.line with
    | .defer c _ => decide (s.lnc.frames c ≠ [] ∧ s.pins.carrier = false)
    | .sending c f => decide (s.lnc.frames c ≠ []) && transmitCheck s f
    | .idle | .fault => true) &&
  decide (s.running = true → s.lnc.line = .idle → s.pins.carrier = false → s.lnc.candidate = none) &&
  decide (s.lnc.receiving = true → s.pins.carrier = true ∧ s.lnc.line = .idle) &&
  decide (s.running = true → s.lnc.generator ≠ 0) &&
  decide (s.running = true → s.pins.lineOpen = true → s.lnc.line = .fault) &&
  (match s.cve.successor with
    | some f => holdsCheck .beacon f.body && s.lnc.transmitting .beacon && transmitCheck s f
    | none => true) &&
  (s.lnc.class3.all fun f =>
    match s.bas.buffers[f.buffer]? with
    | some b => b.given && decide (f.frame.body = .bundle b.reports)
    | none => false) &&
  decide ((s.lnc.class3.map (·.buffer)).Nodup) && decide (s.lnc.class3.length = s.bas.buffers.countP Buffer.given)

theorem line_of_check {s : State} (h : lineCheck s = true) : LineOk s ∧ OwnersOk s ∧ FramesOk s := by
  simp only [lineCheck, Bool.and_eq_true, decide_eq_true_eq] at h
  obtain ⟨⟨⟨⟨⟨⟨⟨⟨⟨⟨a, z⟩, b⟩, c⟩, d⟩, e⟩, o⟩, f⟩, g⟩, i⟩, j⟩ := h
  have hc : ∀ k, classCheck s k = true := by
    intro k
    cases k
    · exact a.1.1.1
    · exact a.1.1.2
    · exact a.1.2
    · exact a.2
  have hk : ∀ k, ∀ x ∈ s.lnc.frames k, k.holds x.frame.body ∧ x.attempts < k.limit ∧ s.mayTransmit x.frame := by
    intro k x hx
    have h1 := hc k
    simp only [classCheck, Bool.and_eq_true, decide_eq_true_eq, List.all_eq_true] at h1
    obtain ⟨⟨h2, h3⟩, h4⟩ := h1.2 x hx
    exact ⟨holds_of_check h2, h3, mayTransmit_of_check h4⟩
  refine ⟨⟨fun k => ?_, fun k x hx => ⟨(hk k x hx).1, (hk k x hx).2.1⟩, z, fun k t hd => ?_, fun k x hd => ?_, c, d, e, o⟩,
    ⟨fun x hx => ?_, fun x hx => ?_, i, j⟩, ⟨fun k x hx => (hk k x hx).2.2, fun x hx => ?_, fun k x hd => ?_⟩⟩
  · have h1 := hc k
    simp only [classCheck, Bool.and_eq_true, decide_eq_true_eq] at h1
    exact h1.1
  · simpa [hd] using b
  · simp only [hd, Bool.and_eq_true, decide_eq_true_eq] at b
    exact b.1
  · simp only [hx, Bool.and_eq_true] at f
    exact ⟨holds_of_check f.1.1, f.1.2⟩
  · have h1 := List.all_eq_true.1 g x hx
    split at h1
    · rename_i y hy
      simp only [Bool.and_eq_true, decide_eq_true_eq] at h1
      exact ⟨y, hy, h1.1, h1.2⟩
    · simp at h1
  · simp only [hx, Bool.and_eq_true] at f
    exact mayTransmit_of_check f.2
  · simp only [hd, Bool.and_eq_true] at b
    exact mayTransmit_of_check b.2

/-- The part about RLC and the timers. -/
def linkCheck (s : State) : Bool :=
  decide (s.rlc.control.length ≤ 8) && decide (s.rlc.control.countP ControlMsg.isReport ≤ 1) &&
  decide (s.rlc.terminal.length ≤ 4) && decide (s.rlc.drainQueue.length ≤ 8) &&
  decide ((s.rlc.drainQueue.countP fun m => !m.isEnd) = if s.gds.drain = .idle then 0 else 1) &&
  decide (s.stc.runState ≠ .load → s.rlc.occasions ≠ .empty → ControlMsg.stateReport ∈ s.rlc.control) &&
  decide (s.rlc.stopped = true ∨ s.rlc.radioLost = true → s.running = true) &&
  decide (s.cve.beaconDue ≠ none ↔ s.running = true) && decide (s.rlc.supervisionDue ≠ none ↔ s.running = true) &&
  decide (s.lnc.carrierSince ≠ none ↔ s.running = true ∧ s.pins.carrier = true ∧ s.transmitEnable = false) &&
  decide (s.lnc.recoverySince ≠ none ↔ s.lnc.line = .fault ∧ s.pins.carrier = false ∧ s.pins.lineOpen = false) &&
  (!s.running || decide (s.cve.beaconGap = s.cfg.beaconBase * 1 ∨ s.cve.beaconGap = s.cfg.beaconBase * 2 ∨
    s.cve.beaconGap = s.cfg.beaconBase * 3 ∨ s.cve.beaconGap = s.cfg.beaconBase * 4))

theorem link_of_check {s : State} (h : linkCheck s = true) : LinkOk s ∧ TimersOk s := by
  simp only [linkCheck, Bool.and_eq_true, Bool.or_eq_true, Bool.not_eq_true', decide_eq_true_eq] at h
  obtain ⟨⟨⟨⟨⟨⟨⟨⟨⟨⟨⟨a, b⟩, c⟩, d⟩, e⟩, f⟩, g⟩, i⟩, j⟩, k⟩, l⟩, m⟩ := h
  refine ⟨⟨a, b, c, d, e, f, g⟩, ⟨i, j, k, l, fun hr => ?_⟩⟩
  rcases m with m | m | m | m | m
  · simp [hr] at m
  · exact ⟨1, by omega, by omega, m⟩
  · exact ⟨2, by omega, by omega, m⟩
  · exact ⟨3, by omega, by omega, m⟩
  · exact ⟨4, by omega, by omega, m⟩

/-- The whole check. -/
def soundCheck (s : State) : Bool :=
  startCheck s && coverageCheck s && tablesCheck s && reefersCheck s && deliveryCheck s && lineCheck s && linkCheck s

/-- A state that passes the check has every invariant. -/
theorem sound_of_check {s : State} (h : soundCheck s = true) : Sound s := by
  simp only [soundCheck, Bool.and_eq_true] at h
  obtain ⟨⟨⟨⟨⟨⟨a, b⟩, c⟩, d⟩, e⟩, f⟩, g⟩ := h
  obtain ⟨b1, b2, b3⟩ := coverage_of_check b
  obtain ⟨c1, c2⟩ := tables_of_check c
  obtain ⟨e1, e2⟩ := delivery_of_check e
  obtain ⟨f1, f2, f3⟩ := line_of_check f
  obtain ⟨g1, g2⟩ := link_of_check g
  exact ⟨startOk_of_check a, b1, b2, c1, c2, reefersOk_of_check d, e1, e2, f1, f2, f3, g1, g2, b3⟩

end Sys2Proof.Machine
end

