-- ==== Sys2Proof/Tests/Samples.lean ====
section
/-!
SUPPORT. Small states the tests start from, each made from the state after reset by naming the blocks that differ.
-/

namespace Sys2Proof.Tests

open Sys2Proof Sys2Proof.Machine

/-- Station 12 of the worked examples: EDGE, home range 40..43, one buffer of two reports. -/
def edge : Settings :=
  { address := 12, role := .edge, homeFirst := 40, homeCount := 4, beaconBase := 200, qualShift := 2, hyst := 24,
    claimFloor := 16, shadowCap := 120, hbBase := 50, bundleMode := .single, bundleLimit := 2, bundleWait := 200,
    handoverGuard := 100, craneStale := 300, radioWatch := 500 }

/-- The same station as a gateway with two buffers. -/
def gateway : Settings := { edge with role := .gateway, bundleMode := .split }

/-- A gateway with no home range. -/
def bare : Settings := { gateway with homeCount := 0 }

/-- A station in a run state with nothing under way, at one second. -/
def quiet (c : Settings) (r : RunState) : State :=
  { State.reset with
    now := 1000000,
    stc := { Stc.reset with runState := r, loaded := some c, readSince := none },
    cve := { Cve.reset with
      segments := List.replicate c.homeCount Segment.reset, beaconDue := some 1200000, beaconGap := c.beaconBase,
      listenCount := 11 },
    bas := { Bas.reset with buffers := List.replicate (bufferCount c.bundleMode) Buffer.reset },
    lnc := { Lnc.reset with generator := 12 },
    rlc := { Rlc.reset with supervisionDue := some 1500000 } }

/-- A context of a crane at a segment, heard at 0.9 s, with a measured period. -/
def context (crane segment : Byte) (state : ContextState) : Context :=
  { crane := crane, position := segment, state := state, lastUplink := 900000, measuring := true, period := some 80,
    stale := false, late := 0, queue := [], retryAt := 0 }

/-- `s` with some contexts, segment 40 CLAIMED and segment 41 HELD, both notified. -/
def serving (s : State) (contexts : List Context) : State :=
  let t := s.setCru { s.cru with contexts := contexts }
  let claim (i : Nat) : Claim :=
    match i with
    | 0 => .claimed
    | 1 => .held
    | _ => .unclaimed
  let segments := t.cve.segments.mapIdx fun i r => { r with claim := claim i }
  t.setCve { t.cve with
    segments := segments, notifiedClaimed := claimMap .claimed segments, notifiedHeld := claimMap .held segments }

/-- A report of a reefer in segment 40. -/
def report (tag : Tag) (seq : Byte) (cls : ReportClass) : Report :=
  { tag := tag, segment := 40, seq := seq, setPoint := 0, supply := 5, alarm := 2, cls := cls }

/-- A neighbour at 17 that claims segment 41 with a score. -/
def neighbour (score : Nat) : Neighbour :=
  { address := 17, listen := false, radioLost := false, interval := 200, advertisedC := 1,
    items := [⟨41, .claim, score⟩], stale := false, heardAt := 900000 }

/-- A CRANE UP of crane 1, given at one second with an age limit of 80 ms. -/
def uplinkFrame : TxFrame := newTx 1000000 ⟨12, 63, .craneUp 1 5 80 0 [7]⟩ 80 0

/-- A CRANE DOWN of crane 1, given at one second with a deadline of 80 ms. -/
def downlinkFrame : TxFrame := newTx 1000000 ⟨12, 63, .craneDown 1 5 80 [7]⟩ 80 0

/-- A frame of the handover protocol in class 1. -/
def handoverFrame (body : FrameBody) : TxFrame := newTx 1000000 ⟨12, 17, body⟩ 0 0

/-- `s` with a DEFER for a candidate of a class, its gap ending 40 µs on. -/
def deferring (s : State) (c : TxClass) (q : List TxFrame) : State :=
  s.setLnc { (s.lnc.setFrames c q) with line := .defer c 1000040 }

/-- `s` with the head of a class on the line. -/
def sending (s : State) (c : TxClass) (f : TxFrame) (rest : List TxFrame) : State :=
  s.setLnc { (s.lnc.setFrames c (f :: rest)) with line := .sending c f.frame }

/-- What a command leaves. -/
def after (c : Instr) (s : State) : State :=
  match exec c s with
  | .next t => t
  | _ => s

end Sys2Proof.Tests
end

