-- ==== Sys2Proof/Tests/Slice0.lean ====
section
/-!
SUPPORT. Tests: a smoke test of every check of a command, and results that the manual states, taken from its tables and
worked examples or worked out by hand from a rule. Each theorem names its source.
-/

namespace Sys2Proof.Tests

open Sys2Proof Sys2Proof.Machine

/-! ### A command that each check of `Instr.wf` refuses -/

theorem test_wf_rejected_valid_message : (Instr.inboundMessageRejected 0 (encodeInbound .hold)).wf = false := by decide +kernel
theorem test_wf_rejected_incomplete : (Instr.inboundMessageRejected 0 [0x2A, 0, 1]).wf = false := by decide
theorem test_wf_sample_segment : (Instr.qualitySample 0 128 0).wf = false := by decide
theorem test_wf_reefer_segment : (Instr.reeferReport 0 1 128 0 0 0 0 0).wf = false := by decide
theorem test_wf_attach_crane : (Instr.craneAttach 0 32 0).wf = false := by decide
theorem test_wf_position_segment : (Instr.cranePosition 0 1 200).wf = false := by decide
theorem test_wf_detach_crane : (Instr.craneDetach 0 0).wf = false := by decide
theorem test_wf_uplink_payload : (Instr.craneUplink 0 1 0 0 []).wf = false := by decide
theorem test_wf_downlink_payload : (Instr.craneDownlink 0 1 0 0 (List.replicate 49 7)).wf = false := by decide
theorem test_wf_stale_address : (Instr.neighbourStalePoint 0 63).wf = false := by decide
theorem test_wf_removal_address : (Instr.neighbourRemovalPoint 0 0).wf = false := by decide
theorem test_wf_crane_stale : (Instr.craneStaleExpiry 0 0).wf = false := by decide
theorem test_wf_age_place : (Instr.craneUpAgeLimit 0 8).wf = false := by decide
theorem test_wf_remaining_place : (Instr.craneDownRemainingZero 0 8).wf = false := by decide
theorem test_wf_deadline_place : (Instr.downlinkDeadline 0 1 4).wf = false := by decide
theorem test_wf_offer_guard : (Instr.offerGuardExpiry 0 32).wf = false := by decide
theorem test_wf_pending_guard : (Instr.pendingGuardExpiry 0 32).wf = false := by decide
theorem test_wf_holdback_tag : (Instr.holdbackExpiry 0 0).wf = false := by decide
theorem test_wf_discarded_good_frame :
    (Instr.receivedFrameDiscarded 0 (encodeFrame ⟨17, 63, .take 3 4⟩)).wf = false := by decide +kernel
theorem test_wf_beacon_segment : (Instr.beacon 0 17 63 0 0 0 [⟨128, 0, 0⟩]).wf = false := by decide
theorem test_wf_crane_up_period : (Instr.craneUp 0 17 63 1 0 4096 0 [7]).wf = false := by decide
theorem test_wf_crane_down_sender : (Instr.craneDown 0 63 63 1 0 10 [7]).wf = false := by decide
theorem test_wf_offer_segment : (Instr.offer 0 17 12 1 1 128 0 0).wf = false := by decide
theorem test_wf_take_crane : (Instr.take 0 17 12 0 1).wf = false := by decide
theorem test_wf_refuse_crane : (Instr.refuse 0 17 12 32 1 .full).wf = false := by decide
theorem test_wf_commit_sender : (Instr.commit 0 0 12 1 1).wf = false := by decide
theorem test_wf_cancel_crane : (Instr.cancel 0 17 12 0 1).wf = false := by decide
theorem test_wf_bundle_empty : (Instr.bundle 0 17 63 []).wf = false := by decide

/-- A command with fields at the ends of their ranges passes (R188, R190). -/
theorem test_wf_boundary :
    (Instr.craneAttach 0 31 127).wf = true ∧ (Instr.craneUp 0 62 63 1 255 4095 255 (List.replicate 48 0)).wf = true := by
  decide

/-! ### Formats -/

/-- "the nine bytes 0x31 through 0x39 give the check 0x29B1, and no bytes at all give 0xFFFF" (R186). -/
theorem test_crc : crc16 [0x31, 0x32, 0x33, 0x34, 0x35, 0x36, 0x37, 0x38, 0x39] = 0x29B1 ∧ crc16 [] = 0xFFFF := by decide +kernel

/-- The bytes of a CRANE ATTACH before its check, from Table 11-5. -/
theorem test_attach_bytes : (encodeInbound (.craneAttach 3 41)).take 4 = [0x24, 2, 3, 41] := by decide

/-- The bytes of an OFFER before its check, from Tables 11-1 and 11-2. -/
theorem test_offer_bytes :
    (encodeFrame ⟨12, 17, .offer 3 1 40 0x0102 5⟩).take 10 = [4, 12, 17, 6, 3, 1, 40, 1, 2, 5] := by decide

/-- The class stands in bit 7 of the alarm-and-class byte (Table 11-4). -/
theorem test_alarm_class_byte : alarmClassByte 2 .alert = 0x82 ∧ alarmClassByte 15 .routine = 0x0F := by decide

/-- A frame with one bit wrong fails its check (R68). -/
theorem test_wrong_check :
    readFrame ((encodeFrame ⟨12, 17, .take 3 1⟩).set 4 2) = .badCheck := by decide +kernel

/-! ### Start (10.6.2 and Table 10-3) -/

/-- A record with the named fields, the others 0. -/
def configRecord (a role first count base shift hyst floor : Byte) (cap hb : Word16) (mode limit : Byte)
    (wait guard stale watch : Word16) : Vector Byte 24 :=
  #v[a, role, first, count, base, shift, hyst, floor, hiByte cap, loByte cap, hiByte hb, loByte hb, mode, limit,
    hiByte wait, loByte wait, hiByte guard, loByte guard, hiByte stale, loByte stale, hiByte watch, loByte watch, 0, 0]

/-- The record of 10.6.2. -/
theorem test_clamping :
    settingsOf (configRecord 21 1 118 14 250 0 90 40 700 5 1 16 9000 300 10 60) =
      { address := 21, role := .gateway, homeFirst := 118, homeCount := 10, beaconBase := 2000, qualShift := 1,
        hyst := 63, claimFloor := 40, shadowCap := 511, hbBase := 10, bundleMode := .split, bundleLimit := 12,
        bundleWait := 5000, handoverGuard := 300, craneStale := 50, radioWatch := 100 } := by decide

/-- The lines of Table 10-3: (role, first, count) read, and the home range settled. -/
theorem test_home_range :
    let settled (role first count : Byte) : Nat × Nat :=
      let c := settingsOf (configRecord 1 role first count 0 0 0 0 0 0 0 0 0 0 0 0)
      (c.homeFirst, c.homeCount)
    settled 0 40 8 = (40, 8) ∧ (settled 1 0 0).2 = 0 ∧ settled 0 0 0 = (0, 1) ∧ settled 9 3 0 = (3, 1) ∧
      settled 0 120 16 = (120, 8) ∧ settled 1 200 30 = (127, 1) := by decide

/-- A blank address halts the part, and the STATE REPORT with the reason is taken (R177, R180, 10.6.1). -/
theorem test_blank_address :
    let t := after (.configReadComplete 1000 (configRecord 0 0 40 8 20 2 24 16 120 50 0 0 200 100 300 500)) State.reset
    t.stc.haltReason = .badAddress ∧ t.rlc.inProgress.isSome = true := by decide

/-- The ready indication has 20 ms (R176). -/
theorem test_ready_timeout :
    (after (.configReadyTimeout 19999) State.reset).stc.runState = .load ∧
      (after (.configReadyTimeout 20000) State.reset).stc.haltReason = .configAbsent := by decide

/-- RESTART counts a warm restart and records its cause (R183). -/
theorem test_restart :
    let t := after (.restart 5) (quiet edge .run)
    t.stc.runState = .load ∧ t.stc.warmCount = 1 ∧ t.stc.cause = .request := by decide

/-! ### Segments (1.10.1, 1.10.2) -/

/-- The two samples of 1.10.1. -/
theorem test_two_samples :
    let r : Segment := { Segment.reset with acc := 2400, quality := 150, primed := true, claim := .claimed }
    let a := r.sample 2 118
    let b := a.sample 2 121
    a.acc = 2272 ∧ a.quality = 142 ∧ b.acc = 2188 ∧ b.quality = 137 := by decide

/-- The score of 1.10.1, and the decay it would have had without samples. -/
theorem test_score_and_decay :
    let r : Segment := { Segment.reset with acc := 2188, quality := 137, heard := true, primed := true, claim := .claimed }
    let d := ({ r with heard := false } : Segment).decay
    scoreOf edge 46 false r.decay = 252 ∧ d.acc = 1915 ∧ d.quality = 120 ∧ scoreOf edge 46 false d = 218 := by decide

/-- A first sample sets the accumulator at once, and the next moves it by an eighth (1.10.2). -/
theorem test_newly_heard :
    (Segment.reset.sample 3 200).acc = 3200 ∧ ((Segment.reset.sample 3 200).sample 3 40).acc = 2880 := by decide

/-- QUALITY SAMPLE reaches the home segment it names and no other (R4). -/
theorem test_sample_command :
    ((after (.qualitySample 5 41 200) (quiet edge .run)).cve.segments.map (·.acc)) = [0, 3200, 0, 0] := by decide

/-- RADIO STATUS: bit 1 is map position 1 (R10, R185). -/
theorem test_shadow :
    ((after (.radioStatus 5 2) (quiet edge .run)).cve.segments.map (·.shadow)) = [false, true, false, false] := by decide

/-! ### Neighbours (2.6) -/

/-- Table of 2.6.1: the watch range of 40..47 is 36..51. -/
theorem test_watch_range :
    let c : Settings := { edge with homeCount := 8 }
    inWatchRange c 35 = false ∧ inWatchRange c 36 = true ∧ inWatchRange c 51 = true ∧ inWatchRange c 52 = false := by decide

/-- A BEACON with an item in the watch range is stored, its C brought to 4 and its interval to 50 ms (R22, R25). -/
theorem test_beacon_stored :
    let t := after (.beacon 900 17 63 0 1 9 [⟨41, 1, 600⟩]) (quiet edge .run)
    t.nbt.entries.map (fun e => (e.interval, e.advertisedC, e.items)) = [(50, 4, [⟨41, .claim, 511⟩])] := by decide

/-- The stale point is 3 intervals of silence, and it must be exceeded (R28). -/
theorem test_stale_point :
    let s := (quiet edge .run).setNbt ⟨[neighbour 260]⟩
    (after (.neighbourStalePoint 500000 17) s).freshCount = 1 ∧ (after (.neighbourStalePoint 500001 17) s).freshCount = 0 := by
  decide

/-! ### Coverage -/

/-- A neighbour of higher score takes a segment, one of lower score does not (1.10.1, R40). -/
theorem test_outranked :
    let s (score : Nat) := (quiet edge .run).setNbt ⟨[neighbour score]⟩
    (s 260).decideClaim 41 252 = .unclaimed ∧ (s 251).decideClaim 41 252 = .claimed := by decide

/-- The twelfth expiry of LISTEN enters RUN and makes its evaluation there (R37). -/
theorem test_listen_ends : (after (.beaconTimerExpiry 200000) (quiet edge .listen)).stc.runState = .run := by decide

/-- Load class 1 doubles the gap (Table 1-6): P is 64 with two active cranes. -/
theorem test_gap_with_load :
    let s := serving (quiet edge .run) [context 1 41 .anchored, context 2 41 .anchored]
    (after (.beaconTimerExpiry 200000) s).cve.beaconGap = 400 := by decide

/-! ### The line (4.9) -/

/-- The generator of 4.9.3, seeded with 12 and with 13. -/
theorem test_generator :
    advanceGen 0x000C = 0x0018 ∧ advanceGen 0x0600 = 0x0C01 ∧ advanceGen 0x0C01 = 0x1803 ∧ advanceGen 0x000D = 0x001A := by
  decide

/-- Station 12's first DEFER for a BUNDLE straight after LOAD has a gap of 280 µs, station 13's 320 µs (4.9.3). -/
theorem test_first_gap : (gapOf .bundle 0 12).1 = 280 ∧ (gapOf .bundle 0 13).1 = 320 := by decide

/-- A CRANE UP waits 40 µs, then goes out, and leaves its class when it has been sent (4.9.1). -/
theorem test_crane_up_sent :
    let s := deferring (quiet edge .run) .crane [uplinkFrame]
    let t := after (.deferGapEnd 40) s
    t.lnc.line = .sending .crane uplinkFrame.frame ∧ (after (.transmissionComplete 400) t).lnc.class0 = [] := by decide

/-- A collision below the limit leaves the frame at the head with count 1 and opens a DEFER of 40 or 60 µs (4.9.2). -/
theorem test_collision :
    let t := after (.collision 1) (sending (quiet edge .run) .crane uplinkFrame [])
    t.lnc.class0.map (·.attempts) = [1] ∧ t.lnc.line = .defer .crane 1000041 := by decide

/-- Carrier for more than 20 ms is a JABBER fault, which 50 ms of idle line end (4.9.4). -/
theorem test_jabber :
    let t := after (.carrierAppears 0) (quiet edge .run)
    let u := after (.jabberDetected 20001) t
    (after (.jabberDetected 20000) t).lnc.line = .idle ∧ u.lnc.line = .fault ∧ u.lnc.faultKind = .jabber ∧
      (after (.faultRecoveryExpiry 50000) (after (.carrierEnds 40000) u)).lnc.line = .idle := by decide

/-- An open line cuts a transmission; the frame keeps its attempt count (R72). -/
theorem test_line_open :
    let t := after (.lineOpenReported 1) (sending (quiet edge .run) .crane uplinkFrame [])
    t.lnc.line = .fault ∧ t.lnc.faultKind = .cut ∧ t.lnc.class0 = [uplinkFrame] := by decide

/-- A line reported open during LOAD is FAULT with kind OPEN as LNC becomes active (R72), until 50 ms of OK (R74). -/
theorem test_line_open_before_listen :
    let record := configRecord 12 0 40 8 20 2 24 16 120 50 0 0 200 100 300 500
    let t := after (.configReadComplete 1000 record) (after (.lineOpenReported 1) State.reset)
    t.stc.runState = .listen ∧ t.lnc.line = .fault ∧ t.lnc.faultKind = .cut ∧
      (after (.faultRecoveryExpiry 50000) (after (.lineConditionOk 10) t)).lnc.line = .idle := by decide

/-- The recovery time begins with OK on an idle line (R74). -/
theorem test_line_ok :
    let t := after (.lineOpenReported 1) (quiet edge .run)
    t.lnc.recoverySince = none ∧ (after (.lineConditionOk 10) t).lnc.recoverySince = some 1000011 := by decide

/-- A CRANE UP 80 ms old is withdrawn and counts as late (R87). -/
theorem test_age_limit :
    let s := deferring (serving (quiet edge .run) [context 1 41 .anchored]) .crane [uplinkFrame]
    let t := after (.craneUpAgeLimit 80000 0) s
    t.lnc.class0 = [] ∧ t.cru.contexts.map (·.late) = [1] := by decide

/-- A CRANE DOWN 80 ms old is withdrawn (R94). -/
theorem test_remaining_zero :
    (after (.craneDownRemainingZero 80000 0) (deferring (quiet gateway .run) .crane [downlinkFrame])).lnc.class0 = [] := by
  decide

/-- A frame with the own address sets ADDRESS CLASH (R69). -/
theorem test_address_clash :
    (after (.craneUp 900 12 63 1 0 0 0 [7]) (quiet edge .listen)).rlc.occasions = .empty ∧
      (after (.addressClash 900) (quiet edge .listen)).rlc.inProgress.isSome = true := by decide

/-! ### Cranes and handover -/

/-- CRANE ATTACH makes a context in RUN and is refused in LISTEN (R79). -/
theorem test_attach :
    (after (.craneAttach 5 3 41) (quiet edge .run)).cru.contexts.map (fun c => (c.crane, c.position)) = [(3, 41)] ∧
      (after (.craneAttach 5 3 41) (quiet edge .listen)).rlc.inProgress = some (.craneReject 3 .notRunning) := by decide

/-- Leaving a HELD segment ends the hold at once (R45, R81). -/
theorem test_position_ends_hold :
    let t := after (.cranePosition 5 1 42) (serving (quiet edge .run) [context 1 41 .anchored])
    t.cve.segments.map (·.claim) = [.claimed, .unclaimed, .unclaimed, .unclaimed] ∧
      t.rlc.inProgress = some (.coverageNotice 1 0) := by decide

/-- CRANE DETACH frees an active context, not a PENDING one (R82). -/
theorem test_detach :
    (after (.craneDetach 5 1) (serving (quiet edge .run) [context 1 41 .anchored])).cru.contexts = [] ∧
      (after (.craneDetach 5 1) (serving (quiet edge .run) [context 1 40 (.pending 17 5 1100000)])).cru.contexts.length = 1 := by
  decide

/-- An uplink 100.005 ms after the last gives a period of 100 ms (R85), and a crane on a CLAIMED segment is not offered. -/
theorem test_uplink :
    let t := after (.craneUplink 5 1 9 200 [7]) (serving (quiet edge .run) [context 1 40 .anchored])
    t.cru.contexts.map (·.period) = [some 100] ∧ t.lnc.class0.map (·.frame.body) = [.craneUp 1 9 100 0 [7]] ∧
      t.lnc.class1 = [] := by decide

/-- An uplink of a crane on a segment another station claims brings an OFFER to it (R98 to R100). -/
theorem test_offer_sent :
    let s := (serving (quiet edge .run) [context 1 41 .anchored]).setNbt ⟨[neighbour 260]⟩
    (after (.craneUplink 5 1 9 200 [7]) s).lnc.class1.map (·.frame) = [⟨12, 17, .offer 1 1 41 100 0⟩] := by decide

/-- CRANE DOWNLINK at a gateway goes to the line; at an EDGE station it sets LINK ERROR (R94, R96). -/
theorem test_downlink :
    (after (.craneDownlink 5 1 9 0 [7]) (quiet gateway .run)).lnc.class0.map (·.frame.body) = [.craneDown 1 9 1 [7]] ∧
      (after (.craneDownlink 5 1 9 0 [7]) (quiet edge .run)).rlc.inProgress.isSome = true := by decide

/-- A CRANE DOWN reaches the radio unit as CRANE DELIVER (R90, R93). -/
theorem test_crane_down_delivered :
    (after (.craneDown 900 20 63 1 9 10 [7]) (serving (quiet edge .run) [context 1 41 .anchored])).rlc.inProgress =
      some (.craneDeliver 1 9 [7]) := by decide

/-- A CRANE UP at a gateway becomes a TERMINAL UPLINK with the sender as anchor (R96). -/
theorem test_crane_up_passed :
    (after (.craneUp 900 20 63 1 9 80 2 [7]) (quiet gateway .run)).rlc.inProgress =
      some (.terminalUplink 1 9 20 80 2 [7]) := by decide

/-- Silence of more than CRANE_STALE makes a context stale (R86). -/
theorem test_crane_stale :
    let s := serving (quiet edge .run) [context 1 41 .anchored]
    (after (.craneStaleExpiry 200000 1) s).cru.contexts.map (·.stale) = [false] ∧
      (after (.craneStaleExpiry 200001 1) s).cru.contexts.map (·.period) = [none] := by decide

/-- A queued downlink whose deadline has passed is dropped and counts as late (R92). -/
theorem test_deadline :
    let c : Context := { context 1 41 .anchored with queue := [⟨9, [7], 1050000⟩] }
    let s := serving (quiet edge .run) [c]
    let t := after (.downlinkDeadline 50000 1 0) (s.setRlc { s.rlc with stopped := true })
    t.cru.contexts.map (fun x => (x.queue, x.late)) = [([], 1)] := by decide

/-- OFFER accepted for a CLAIMED segment with room: TAKE (R109, R111). -/
theorem test_offer_taken :
    let t := after (.offer 900 17 12 3 8 40 80 2) (serving (quiet edge .run) [context 1 41 .anchored])
    t.lnc.class1.map (·.frame) = [⟨12, 17, .take 3 8⟩] ∧ t.cru.contexts.length = 2 := by decide

/-- Mutual offers (6.5.3): the lower address keeps the crane. -/
theorem test_mutual_offers :
    let s := serving (quiet edge .run) [context 1 41 (.offering 17 5 (.awaitingReply 1100000))]
    (after (.offer 900 17 12 1 8 40 80 2) s).lnc.class1.map (·.frame) = [⟨12, 17, .refuse 1 8 .anchoredHere⟩] ∧
      (after (.offer 900 5 12 1 8 40 80 2) s).lnc.class1.map (·.frame) = [⟨12, 5, .refuse 1 8 .yielded⟩] := by decide

/-- TAKE answered by COMMIT; a late TAKE by CANCEL (6.5.1, 6.5.2). -/
theorem test_take :
    let s := serving (quiet edge .run) [context 1 41 (.offering 17 5 (.awaitingReply 1100000))]
    (after (.take 900 17 12 1 5) s).lnc.class1.map (·.frame) = [⟨12, 17, .commit 1 5⟩] ∧
      (after (.take 900 17 12 1 4) s).lnc.class1.map (·.frame) = [⟨12, 17, .cancel 1 4⟩] := by decide

/-- REFUSE returns the context with twice the guard as backoff, but for YIELDED (R105). -/
theorem test_refuse :
    let s := serving (quiet edge .run) [context 1 41 (.offering 17 5 (.awaitingReply 1100000))]
    (after (.refuse 900 17 12 1 5 .full) s).cru.contexts.map (·.retryAt) = [1200900] ∧
      (after (.refuse 900 17 12 1 5 .yielded) s).cru.contexts.map (·.retryAt) = [0] := by decide

/-- COMMIT makes a PENDING context ANCHORED, CANCEL frees it (R112, R113). -/
theorem test_commit_and_cancel :
    let s := serving (quiet edge .run) [context 1 41 .anchored, context 2 40 (.pending 17 5 1100000)]
    (after (.commit 900 17 12 2 5) s).activeCount = 2 ∧ (after (.cancel 900 17 12 2 5) s).cru.contexts.length = 1 := by
  decide

/-- The guards (R106, R114). -/
theorem test_guards :
    let s := serving (quiet edge .run)
      [context 1 41 (.offering 17 5 (.awaitingReply 1100000)), context 2 40 (.pending 17 5 1100000)]
    (after (.offerGuardExpiry 100000 1) s).cru.contexts.map (·.retryAt) = [1300000, 0] ∧
      (after (.pendingGuardExpiry 100000 2) s).cru.contexts.length = 1 := by decide

/-! ### Reefers and bundles -/

/-- "seq 3 is newer than s = 250", "seq 250 is not newer than s = 3" (R121). -/
theorem test_newer : newerSeq 3 250 = true ∧ newerSeq 250 3 = false ∧ newerSeq 7 7 = false := by decide

/-- "an ALERT heard at margin 255 is held back for floor(10 / 4) = 2 ms" (10.6.2). -/
theorem test_holdback_time :
    (quiet { edge with hbBase := 10 } .run).holdbackTime 255 43 .alert = 2 ∧
      (quiet edge .run).holdbackTime 205 43 .routine = 150 := by decide

/-- A report of a CLAIMED home segment goes into custody and opens a buffer; of another it is held back (Table 7-1). -/
theorem test_report :
    let s := serving (quiet edge .run) [context 1 41 .anchored]
    let t := after (.reeferReport 5 9 40 1 0 5 0 200) s
    let u := after (.reeferReport 5 9 43 1 0 5 0 200) s
    t.custodyCount = 1 ∧ t.bas.buffers.map (·.state) = [.filling] ∧ u.custodyCount = 0 ∧ u.rfi.holdback.length = 1 := by
  decide

/-- An ALERT closes the buffer at once (R147). -/
theorem test_alert_closes :
    let t := after (.reeferReport 5 9 40 1 0 5 3 200) (serving (quiet edge .run) [context 1 41 .anchored])
    t.bas.buffers.map (·.state) = [.closed] ∧ t.lnc.class3.length = 1 := by decide

/-- A held report goes to BAS at its expiry (R136). -/
theorem test_holdback_expiry :
    let s := (quiet edge .run).setRfi { Rfi.reset with holdback := [⟨report 9 1 .routine, 1050000⟩] }
    (after (.holdbackExpiry 49999 9) s).rfi.holdback.length = 1 ∧
      (after (.holdbackExpiry 50000 9) s).bas.buffers.map (·.reports) = [[report 9 1 .routine]] := by decide

/-- The wait timer closes the FILLING buffer (R147). -/
theorem test_bundle_wait :
    let t := after (.reeferReport 0 9 40 1 0 5 0 200) (serving (quiet edge .run) [context 1 41 .anchored])
    (after (.bundleWaitExpiry 199999) t).bas.buffers.map (·.state) = [.filling] ∧
      (after (.bundleWaitExpiry 200000) t).bas.buffers.map (·.state) = [.closed] := by decide

/-- A bundle overheard cancels the held copy, and reaches the store of a gateway once (R137, R156). -/
theorem test_bundle :
    let s := (quiet gateway .run).setRfi { Rfi.reset with holdback := [⟨report 9 1 .routine, 1050000⟩] }
    let t := after (.bundle 900 17 63 [report 9 1 .routine]) s
    t.rfi.holdback = [] ∧ t.gds.store.length = 1 ∧
      (after (.bundle 900 20 63 [report 9 1 .routine]) t).gds.store.length = 1 := by decide

/-- A drain of one record: the DRAIN RECORD, then DRAIN END with count 1 (R159). -/
theorem test_drain :
    let s := (quiet gateway .run).setGds { Gds.reset with store := [⟨report 9 1 .routine, 17, false⟩] }
    let t := after (.drain 5 0) s
    t.rlc.inProgress = some (.drainRecord (report 9 1 .routine) 17) ∧
      (after (.outboundMessageSent 5) t).rlc.inProgress = some (.drainEnd 1 0 .done) := by decide

/-! ### The radio link -/

/-- HOLD keeps messages back, RESUME lets them go (R167, 9.7.2). -/
theorem test_hold_and_resume :
    let t := after (.stateQuery 5) (after (.hold 5) (quiet edge .run))
    t.rlc.inProgress = none ∧ (after (.resume 5) t).rlc.inProgress.isSome = true := by decide

/-- Two bytes of a message, then a pause of 2 ms (R161). -/
theorem test_parser :
    let t := after (.inboundMessageRejected 5 [0x2A, 0]) (quiet edge .run)
    (after (.parserTimeout 1999) t).rlc.parser = t.rlc.parser ∧ (after (.parserTimeout 2000) t).rlc.parser = .waiting := by
  decide

/-- A silence of RADIO_WATCH under radio loss restarts the part (R169, R183, 9.7.1). -/
theorem test_supervision :
    let s := (quiet edge .run).setRlc { (quiet edge .run).rlc with radioLost := true }
    (after (.supervisionTimerExpiry 499999) s).stc.runState = .run ∧
      (after (.supervisionTimerExpiry 500000) s).stc.cause = .supervision := by decide

/-- A reset input held keeps the part in LOAD with no read; its release begins one (R182). -/
theorem test_reset_input :
    let t := after (.resetInputAsserted 5) (quiet edge .run)
    t.stc.readSince = none ∧ (after (.powerUp 5) t).stc.readSince = none ∧
      (after (.resetInputReleased 5) t).stc.readSince = some 1000010 := by decide

end Sys2Proof.Tests
end

