-- ==== Sys2Proof/Tests/Witnesses.lean ====
section
/-!
SUPPORT. For every statement of Certificates that has hypotheses, a state and operands that meet them, at the ends of the
ranges its clauses name. A theorem `test_meets_X` is about `Obligations.X`.
-/

namespace Sys2Proof.Tests

open Sys2Proof Sys2Proof.Machine

/-! ### Samples used more than once -/

/-- Station 12 in RUN with one crane on its HELD segment. -/
def held : State := serving (quiet edge .run) [context 1 41 .anchored]

/-- Station 12 in RUN with four cranes, one in each state of a context, at the end of their guards. -/
def full : State :=
  serving (quiet edge .run)
    [context 1 41 .anchored, context 2 40 (.pending 17 5 1100000), context 3 42 (.offering 17 6 (.awaitingReply 1100000)),
      context 4 43 (.offering 17 7 .committing)]

/-- The gateway with the same cranes. -/
def gate : State :=
  serving (quiet gateway .run) [context 1 41 .anchored, context 2 40 (.pending 17 5 1100000)]

/-- `s` under radio loss, nothing claimed. -/
def lost (c : Settings) : State := (quiet c .run).setRlc { (quiet c .run).rlc with radioLost := true }

/-- `s` with carrier under reception since one second. -/
def hearing (s : State) : State :=
  (s.setPins { s.pins with carrier := true }).setLnc { s.lnc with receiving := true, carrierSince := some 1000000 }

/-- `s` in FAULT since one second, the recovery timer running. -/
def faulty (s : State) : State :=
  s.setLnc { s.lnc with line := .fault, faultKind := .jabber, recoverySince := some 1000000 }

/-- A report held back until 1.05 s. -/
def heldBack (tag : Tag) (cls : ReportClass) : Held := ⟨report tag 10 cls, 1050000⟩

/-- Station 12 with tag 9 in custody and tag 8 in holdback. -/
def reefers : State :=
  held.setRfi { custody := [⟨9, 40, 10, 2⟩], holdback := [heldBack 8 .alert] }

/-! ### The machine as a whole -/

theorem test_meets_StepRunsFrontCommand :
    (held.setPending [.hold 5, .resume 5]).pending = .hold 5 :: [.resume 5] ∧ held.pending = [] := by decide

/-- For SoundKept and every statement that a step keeps a part of it. -/
theorem test_meets_SoundKept :
    let s := full.setPending [.craneUplink 5 1 9 200 [7]]
    Sound s ∧ ∃ t, step s = .next t :=
  ⟨sound_of_check (by decide), _, rfl⟩

/-! ### Formats, start and reset -/

theorem test_meets_FrameRoundTrip :
    frameWellFormed ⟨1, 63, .beacon 7 65535 4 (List.replicate 16 ⟨127, 2, 511⟩)⟩ = true ∧
      frameWellFormed ⟨62, 0, .craneUp 31 255 4095 255 (List.replicate 48 1)⟩ = true ∧
      frameWellFormed ⟨62, 1, .craneDown 1 0 0 [0]⟩ = true ∧ frameWellFormed ⟨1, 1, .offer 1 1 0 0 0⟩ = true ∧
      frameWellFormed ⟨1, 1, .take 1 1⟩ = true ∧ frameWellFormed ⟨1, 1, .refuse 1 1 .notRunning⟩ = true ∧
      frameWellFormed ⟨1, 1, .commit 31 1⟩ = true ∧ frameWellFormed ⟨1, 1, .cancel 1 1⟩ = true ∧
      frameWellFormed ⟨1, 63, .bundle (List.replicate 24 (report 1 1 .alert))⟩ = true := by decide

theorem test_meets_MessageRoundTrip :
    inboundWellFormed (.qualitySample 127 255) = true ∧ inboundWellFormed (.reeferReport 0 0 0 0 0 255 0) = true ∧
      inboundWellFormed (.craneAttach 1 0) = true ∧ inboundWellFormed (.craneUplink 31 0 0 (List.replicate 48 0)) = true ∧
      inboundWellFormed (.craneDownlink 1 0 0 [0]) = true ∧ inboundWellFormed .restart = true := by decide

theorem test_meets_BytesAreTheMessage :
    inboundWellFormed (.craneDetach 31) = true ∧ held.pins.resetHeld = false ∧ held.rlc.parser = .waiting := by decide

theorem test_meets_ColdReset :
    let s := after (.resetInputAsserted 5) held
    Sound s ∧ s.pins.resetHeld = true ∧ ∃ t, exec (.hold 5) s = .next t :=
  ⟨sound_of_check (by decide), by decide, _, rfl⟩

theorem test_meets_WarmRestart :
    let s := lost edge
    s.pins.resetHeld = false ∧ s.running = true ∧ s.rlc.radioLost = true ∧ s.rlc.supervisionDue = some 1500000 ∧
      1500000 ≤ s.now + 500000 := by decide

theorem test_meets_UnusableRecordHalts :
    State.reset.stc.readSince = some 0 ∧ (∀ i : Fin 24, (Vector.replicate 24 0xFF#8)[i] = 0xFF) ∧
      (∃ i : Fin 24, (Vector.replicate 24 0#8)[i] ≠ 0xFF) ∧ (Vector.replicate 24 0#8)[0] = 0 ∧
      (∃ i : Fin 24, (Vector.replicate 24 63#8)[i] ≠ 0xFF) ∧ 63 ≤ (Vector.replicate 24 63#8)[0].toNat ∧
      0 + 20000 ≤ State.reset.now + 20000 := by decide

theorem test_meets_EntersListen :
    State.reset.stc.readSince ≠ none ∧ 1 ≤ (Vector.replicate 24 1#8)[0].toNat ∧
      (Vector.replicate 24 62#8)[0].toNat ≤ 62 ∧ State.reset.pins.lineOpen = false ∧
      (after (.lineOpenReported 1) State.reset).stc.readSince ≠ none ∧
      (after (.lineOpenReported 1) State.reset).pins.lineOpen = true := by decide

/-- The bytes at the ends of the ranges of Table 10-2: BEACON_BASE 4, 5, 200, 201 and QUAL_SHIFT 0, 1, 4, 5. -/
theorem test_meets_SettingsFromRecord :
    let r (role count base shift : Byte) : Vector Byte 24 :=
      #v[62, role, 0, count, base, shift, 0, 0, 0, 0, 0, 0, 0, 0, 0, 0, 0, 0, 0, 0, 0, 0, 0, 0]
    1 ≤ (r 0 0 4 0)[0].toNat ∧ (r 0 0 4 0)[0].toNat ≤ 62 ∧ (settingsOf (r 0 0 4 0)).role = .edge ∧ (r 0 0 4 0)[3] = 0 ∧
      (settingsOf (r 1 0 5 1)).role ≠ .edge ∧ (r 0 0 4 0)[4].toNat < 5 ∧ 5 ≤ (r 1 0 5 1)[4].toNat ∧
      (r 1 0 200 4)[4].toNat ≤ 200 ∧ 200 < (r 1 0 201 5)[4].toNat ∧ (r 0 0 4 0)[5] = 0 ∧ 1 ≤ (r 1 0 5 1)[5].toNat ∧
      (r 1 0 200 4)[5].toNat ≤ 4 ∧ 4 < (r 1 0 201 5)[5].toNat := by decide

/-! ### The radio link -/

theorem test_meets_MessageHandling :
    (Instr.stateQuery 5).message = some .stateQuery ∧ inboundWellFormed .stateQuery = true ∧ Inbound.stateQuery ≠ .restart ∧
      State.reset.running = false ∧ State.reset.pins.resetHeld = false ∧ State.reset.stc.runState ≠ .halt ∧
      (after (.configReadyTimeout 20000) State.reset).stc.runState = .halt ∧
      (after (.configReadyTimeout 20000) State.reset).pins.resetHeld = false ∧ (lost edge).running = true ∧
      (lost edge).rlc.radioLost = true := by decide

theorem test_meets_RejectedMessages :
    let bytes := encodeInbound (.craneDetach 40)
    held.pins.resetHeld = false ∧ held.rlc.parser = .waiting ∧
      (after (.inboundMessageRejected 5 [0x2A]) held).rlc.parser = .assembling [0x2A] 1000005 ∧
      1000005 + 2000 ≤ (after (.inboundMessageRejected 5 [0x2A]) held).now + 2000 ∧
      readMessage bytes = .malformed ∧ bytes = 0x26 :: 1 :: bytes.drop 2 ∧ (bytes.drop 2).length = 1 + 2 ∧
      readMessage [0x2A, 0, 1, 2] = .badCheck ∧ [(1 : Byte), 2].length = 0 + 2 ∧
      (Instr.craneDetach 5 40).message = some (.craneDetach 40) ∧ (Instr.craneDetach 5 40).elapsed = 5 ∧
      inboundWellFormed (.craneDetach 40) = false := by decide +kernel

theorem test_meets_StickyFlags :
    held.rlc.flags.get .linkError = false ∧ (held.setFlag .linkError).rlc.flags.get .linkError = true ∧
      held.stc.runState ≠ .load ∧ State.reset.stc.runState = .load ∧
      ControlMsg.stateReport ∈ (held.setFlag .linkError).rlc.control := by decide

/-- Queues of seven and of eight messages, a STATE REPORT or a DRAIN RECORD at the head of the full ones. -/
theorem test_meets_QueueDrops :
    let notices (n : Nat) : List ControlMsg := List.replicate n (.coverageNotice 0 0)
    let ends (n : Nat) : List DrainMsg := List.replicate n (.ended 0 0 .done)
    (ControlMsg.stateReport :: notices 6).length < 8 ∧ (ControlMsg.stateReport :: notices 7).length = 8 ∧
      (ControlMsg.stateReport :: notices 7).countP ControlMsg.isReport ≤ 1 ∧
      (DrainMsg.record (report 1 1 .alert) 1 :: ends 7).length = 8 ∧
      ((DrainMsg.record (report 1 1 .alert) 1 :: ends 7).countP fun x => !x.isEnd) ≤ 1 ∧ (ends 7).length < 8 ∧
      (List.replicate 4 (⟨1, 1, 1, 0, 0, [7], 0⟩ : TermUplink)).length ≤ 4 := by decide

theorem test_meets_LinkCommands : held.attends := ⟨by decide, by decide⟩

/-- A control message; a terminal uplink that joined when a downlink head is due, and one that joined later; a drain
message with nothing before it; and a link that takes nothing. -/
theorem test_meets_OutboundOrder :
    let c : Context := { context 1 41 .anchored with queue := [⟨9, [7], 1000000⟩] }
    let s := serving (quiet gateway .run) [c]
    let withTerm (at_ : Micros) : State := s.setRlc { s.rlc with terminal := [⟨1, 1, 1, 0, 0, [7], at_⟩] }
    s.rlc.stopped = false ∧ s.rlc.inProgress = none ∧ s.rlc.control = [] ∧
      (s.setFlag .linkError).rlc.control = [.stateReport] ∧ (s.setRlc { s.rlc with stopped := true }).rlc.stopped = true ∧
      (∀ x ∈ (withTerm 1000000).cru.contexts, x.active = true → ∀ e ∈ x.queue.head?, 1000000 ≤ e.deadline) ∧
      TableSorted Context.key s.cru.contexts ∧ c ∈ s.cru.contexts ∧ c.active = true ∧
      (∀ m ∈ (withTerm 1000001).rlc.terminal.head?, 1000000 < m.joinedAt) ∧
      (∀ d ∈ s.cru.contexts, d.active = true → d.crane ≠ c.crane → d.queue = []) ∧ s.rlc.terminal = [] ∧
      (gate.queueDrain (.ended 0 0 .done)).rlc.drainQueue = [.ended 0 0 .done] ∧
      (∀ x ∈ gate.cru.contexts, x.active = true → x.queue = []) := by decide

/-- An EDGE station; an empty store, a store of one record, and a drain of one and of two allowed. -/
theorem test_meets_Draining :
    let x : Stored := ⟨report 9 1 .routine, 17, false⟩
    let one := gate.setGds { gate.gds with store := [x] }
    let started := after (.drain 5 2) (one.setRlc { one.rlc with stopped := true })
    held.attends ∧ held.cfg.role = .edge ∧ gate.attends ∧ gate.cfg.role = .gateway ∧ gate.gds.drain = .idle ∧
      gate.gds.store = [] ∧ one.gds.store = x :: [] ∧ started.gds.drain = .draining 2 0 ∧
      started.gds.store = { x with inHand := true } :: [] ∧
      started.rlc.drainQueue = .record x.report 17 :: [] ∧
      (gate.queueDrain (.ended 0 0 .busy)).rlc.drainQueue = .ended 0 0 .busy :: [] :=
  ⟨⟨by decide, by decide⟩, by decide, ⟨by decide, by decide⟩, by decide⟩

/-! ### Coverage -/

theorem test_meets_SegmentMessages :
    Sound held ∧ held.attends ∧ (127 : Byte).toNat ≤ 127 ∧ held.cfg.homeFirst + 3 = (43 : Byte).toNat :=
  ⟨sound_of_check (by decide), ⟨by decide, by decide⟩, by decide⟩

/-- For EvaluationScores, EvaluationClaims and ExpiryBeacon: an expiry just due, in RUN, under radio loss, and the twelfth
of LISTEN. -/
theorem test_meets_Evaluation :
    (∀ s ∈ [held, lost edge, quiet edge .listen],
      s.running = true ∧ s.cfg.homeCount ≠ 0 ∧ s.cve.beaconDue = some 1200000 ∧ 1200000 ≤ s.now + 200000) ∧
      Sound held ∧ Sound (lost edge) ∧ Sound (quiet edge .listen) :=
  ⟨by decide, sound_of_check (by decide), sound_of_check (by decide), sound_of_check (by decide)⟩

/-- For EvaluationClaims: an expiry that changes a map, and one that changes none. -/
theorem test_meets_EvaluationClaims_notice :
    (after (.beaconTimerExpiry 200000) held).cve.notifiedClaimed ≠ held.cve.notifiedClaimed ∧
      (after (.beaconTimerExpiry 200000) (lost edge)).cve.notifiedClaimed = (lost edge).cve.notifiedClaimed ∧
      (after (.beaconTimerExpiry 200000) (lost edge)).cve.notifiedHeld = (lost edge).cve.notifiedHeld := by decide

/-- An expiry in RUN, and the twelfth of LISTEN. -/
theorem test_meets_NoHomeRangeExpiry :
    (∀ s ∈ [quiet bare .run, quiet bare .listen], s.running = true ∧ s.cfg.homeCount = 0 ∧
      s.cve.beaconDue = some 1200000 ∧ 1200000 ≤ s.now + 200000) ∧
      (quiet bare .run).evaluatedIn = .run ∧ (quiet bare .listen).evaluatedIn ≠ (quiet bare .listen).stc.runState ∧
      Sound (quiet bare .run) ∧ Sound (quiet bare .listen) :=
  ⟨by decide, by decide, by decide, sound_of_check (by decide), sound_of_check (by decide)⟩

theorem test_meets_ClaimantQuery :
    let s := held.setNbt ⟨[neighbour 260]⟩
    NeighboursOk s ∧ (s.claimants 41).length = 1 ∧ inWatchRange s.cfg 48 = false :=
  ⟨(sound_of_check (s := held.setNbt ⟨[neighbour 260]⟩) (by decide)).neighbours, by decide⟩

theorem test_meets_Departures :
    let s := held.dropContext 1
    Sound held ∧ s.cve.segments.length = s.cfg.homeCount ∧ s.claimOf 41 = some .held ∧ s.activeAt 41 = false ∧
      held.activeAt 41 = true :=
  ⟨sound_of_check (by decide), by decide⟩

/-- A station with claims, holds and cranes, one with a BEACON on the line, one with nothing notified, and one with no home
range. -/
theorem test_meets_RadioLossBegins :
    let slow := sending held .beacon (newTx 1000000 ⟨12, 63, .beacon 0 20 1 [⟨40, 1, 50⟩]⟩ 0 0) []
    (∀ s ∈ [full, slow, quiet edge .run, quiet bare .run], s.running = true ∧ s.rlc.radioLost = false ∧
      s.rlc.supervisionDue = some 1500000 ∧ 1500000 ≤ s.now + 500000) ∧
      full.cfg.homeCount ≠ 0 ∧ full.lnc.transmitting .beacon = false ∧ slow.lnc.transmitting .beacon = true ∧
      full.cve.notifiedClaimed ≠ 0 ∧ (quiet edge .run).cve.notifiedClaimed = 0 ∧
      (quiet edge .run).cve.notifiedHeld = 0 ∧ (quiet bare .run).cfg.homeCount = 0 ∧
      Sound full ∧ Sound slow ∧ Sound (quiet edge .run) ∧ Sound (quiet bare .run) :=
  ⟨by decide, by decide, by decide, by decide, by decide, by decide, by decide, by decide,
    sound_of_check (by decide), sound_of_check (by decide), sound_of_check (by decide), sound_of_check (by decide)⟩

/-! ### Neighbours -/

/-- Twelve neighbours, the first STALE. -/
def crowd (stale : Bool) : State :=
  held.setNbt ⟨(List.range 12).map fun i =>
    { neighbour 260 with address := BitVec.ofNat 8 (20 + i), stale := stale && i = 0, heardAt := 800000 + i }⟩

/-- For BeaconIntake: a station with no home range. -/
theorem test_meets_BeaconIntake_bare :
    Sound (quiet bare .run) ∧ (quiet bare .run).dispatches ⟨17, 63, .beacon 0 20 0 [⟨41, 1, 100⟩]⟩ ∧
      ((quiet bare .run).arriving 900).hears = true ∧ (quiet bare .run).cfg.homeCount = 0 :=
  ⟨sound_of_check (by decide), ⟨by decide, by decide, by decide⟩, by decide⟩

/-- A table with room, a full one with a STALE entry, and a full one without. -/
theorem test_meets_BeaconIntake :
    let items : List BeaconItem := [⟨41, 1, 100⟩]
    Sound held ∧ Sound (crowd true) ∧ Sound (crowd false) ∧ held.dispatches ⟨17, 63, .beacon 0 20 0 items⟩ ∧
      (crowd true).dispatches ⟨17, 63, .beacon 0 20 0 items⟩ ∧ held.cfg.homeCount ≠ 0 ∧
      (held.arriving 900).hears = true ∧ ((crowd true).arriving 900).hears = true ∧ keptItems held.cfg items ≠ [] ∧
      keptItems held.cfg [⟨48, 1, 100⟩] = [] ∧ held.nbt.entries.length < 12 ∧ (crowd true).nbt.entries.length = 12 ∧
      tableFind Neighbour.key 17 (crowd true).nbt.entries = none ∧
      (∃ gone ∈ (crowd true).nbt.entries, gone.stale = true ∧ ∀ e ∈ (crowd true).nbt.entries, e.stale = true →
        gone.heardAt < e.heardAt ∨ (gone.heardAt = e.heardAt ∧ gone.address.toNat ≤ e.address.toNat)) ∧
      (∀ e ∈ (crowd false).nbt.entries, e.stale = false) :=
  ⟨sound_of_check (by decide), sound_of_check (by decide), sound_of_check (by decide),
    ⟨by decide, by decide, by decide⟩, ⟨by decide, by decide, by decide⟩, by decide⟩

/-- Silences of 3 and of 6 intervals, and one microsecond more. -/
theorem test_meets_NeighbourAging :
    let s := held.setNbt ⟨[neighbour 260]⟩
    Sound s ∧ tableFind Neighbour.key (17 : Byte).toNat s.nbt.entries = some (neighbour 260) ∧
      s.now + 500000 - 900000 ≤ 3000 * 200 ∧ 3000 * 200 < s.now + 500001 - 900000 ∧
      s.now + 1100000 - 900000 ≤ 6000 * 200 ∧ 6000 * 200 < s.now + 1100001 - 900000 :=
  ⟨sound_of_check (by decide), by decide⟩

/-! ### The line -/

/-- A waiting frame of each class with attempt count 0 and at the limit less one, and the three states that open nothing. -/
theorem test_meets_DeferOpens :
    let s := quiet edge .run
    let waits (c : TxClass) (f : TxFrame) (n : Nat) : State := s.setLnc (s.lnc.setFrames c [{ f with attempts := n }])
    s.running = true ∧ s.pins.carrier = false ∧ s.lnc.line = .idle ∧ s.lnc.class0 = [] ∧ s.lnc.class3 = [] ∧
      (waits .crane uplinkFrame 0).lnc.class0 ≠ [] ∧ ((waits .crane uplinkFrame 3).lnc.class0.map (·.attempts)) = [3] ∧
      (waits .handover (handoverFrame (.take 1 1)) 3).lnc.class0 = [] ∧
      (waits .beacon (newTx 0 ⟨12, 63, .beacon 0 20 0 []⟩ 0 0) 1).lnc.class1 = [] ∧
      (waits .bundle (newTx 0 ⟨12, 63, .bundle [report 1 1 .alert]⟩ 0 0) 7).lnc.class2 = [] ∧
      State.reset.running = false ∧ (hearing s).pins.carrier = true ∧ (faulty s).lnc.line ≠ .idle := by decide

/-- For each class, all premises of the range of its gap together: a DEFER opens for a head at the attempt limit less one. -/
theorem test_meets_DeferOpens_gap :
    let waits (c : TxClass) (f : TxFrame) : State :=
      (quiet edge .run).setLnc ((quiet edge .run).lnc.setFrames c [{ f with attempts := c.limit - 1 }])
    let meets (c : TxClass) (s : State) : Prop :=
      (∀ f ∈ s.lnc.frames c, f.attempts < c.limit) ∧ s.lnc.line = .idle ∧ ∃ e, s.openDefer.lnc.line = .defer c e
    meets .crane (waits .crane uplinkFrame) ∧ meets .handover (waits .handover (handoverFrame (.take 1 1))) ∧
      meets .beacon (waits .beacon (newTx 0 ⟨12, 63, .beacon 0 20 0 []⟩ 0 0)) ∧
      meets .bundle (waits .bundle (newTx 0 ⟨12, 63, .bundle [report 1 1 .alert]⟩ 0 0)) :=
  ⟨⟨by decide, by decide, _, rfl⟩, ⟨by decide, by decide, _, rfl⟩, ⟨by decide, by decide, _, rfl⟩,
    by decide, by decide, _, rfl⟩

/-- A bundle of the one buffer, CLOSED. -/
def bundled : State :=
  let s := held.setBas { held.bas with buffers := [⟨.closed, 1, [report 9 1 .routine]⟩] }
  deferring s .bundle [newTx 1000000 ⟨12, 63, .bundle [report 9 1 .routine]⟩ 0 0]

/-- A frame of each class at the end of its gap and just before it; a CRANE DOWN with 1 ms left and with none. -/
theorem test_meets_GapEnds :
    Sound (deferring held .crane [uplinkFrame]) ∧ Sound (deferring gate .crane [downlinkFrame]) ∧
      Sound (deferring held .handover [handoverFrame (.take 1 1)]) ∧ Sound bundled ∧
      (deferring held .crane [uplinkFrame]).now + 39 < 1000040 ∧ 1000040 ≤ (deferring held .crane [uplinkFrame]).now + 40 ∧
      0 < 80 - (1000000 + 79999 - 1000000) / 1000 ∧ 80 - (1000000 + 80000 - 1000000) / 1000 = 0 :=
  ⟨sound_of_check (by decide), sound_of_check (by decide), sound_of_check (by decide), sound_of_check (by decide),
    by decide⟩

/-- The slot's BEACON in transmission, with a successor and without. -/
def beaconing (successor : Option Frame) : State :=
  let s := sending held .beacon (newTx 1000000 ⟨12, 63, .beacon 0 20 0 []⟩ 0 0) []
  s.setCve { s.cve with successor := successor }

/-- A bundle in transmission. -/
def bundling (n : Nat) : State :=
  let s := gate.setBas { gate.bas with buffers := [⟨.sending, 1, [report 9 1 .routine]⟩, Buffer.reset] }
  sending s .bundle { newTx 1000000 ⟨12, 63, .bundle [report 9 1 .routine]⟩ 0 0 with attempts := n } []

/-- For TransmissionCompletes and CollisionEnds: a frame of each class on the line, with the attempt counts that a collision
leaves below the limit and brings to it, a refused withdrawal, and a successor. -/
theorem test_meets_Outcomes :
    (∀ n ∈ [0, 2, 3], ∀ w ∈ [false, true],
      soundCheck (sending held .crane { uplinkFrame with attempts := n, withdrawRefused := w } []) = true) ∧
      soundCheck (sending gate .crane { downlinkFrame with attempts := 3 } []) = true ∧
      (∀ n ∈ [2, 3], soundCheck (sending held .handover { handoverFrame (.commit 1 1) with attempts := n } []) = true) ∧
      soundCheck (beaconing none) = true ∧ soundCheck (beaconing (some ⟨12, 63, .beacon 0 20 0 []⟩)) = true ∧
      (∀ n ∈ [6, 7], soundCheck (bundling n) = true) ∧
      (bundling 7).bas.buffers[0]? = some ⟨.sending, 1, [report 9 1 .routine]⟩ := by decide

/-- Class 0 with seven and eight frames, the head in a DEFER or on the line; class 1 with seven and eight. -/
theorem test_meets_FramesJoin :
    TableSorted Context.key held.cru.contexts ∧ (List.replicate 7 uplinkFrame).length < 8 ∧
      (deferring held .crane (List.replicate 8 uplinkFrame)).lnc.class0 = uplinkFrame :: List.replicate 7 uplinkFrame ∧
      (deferring held .crane (List.replicate 8 uplinkFrame)).lnc.transmitting .crane = false ∧
      (sending held .crane uplinkFrame (List.replicate 7 uplinkFrame)).lnc.class0 =
        uplinkFrame :: uplinkFrame :: List.replicate 6 uplinkFrame ∧
      (sending held .crane uplinkFrame []).lnc.transmitting .crane = true ∧
      (List.replicate 7 (handoverFrame (.take 1 1))).length < 8 ∧
      (List.replicate 8 (handoverFrame (.take 1 1))).length = 8 ∧ (beaconing none).lnc.transmitting .beacon = true ∧
      held.lnc.transmitting .beacon = false := by decide

/-- A frame one microsecond before its time and at it, in a DEFER and on the line. -/
theorem test_meets_Withdrawals :
    let s := deferring held .crane [uplinkFrame]
    let d := deferring gate .crane [downlinkFrame]
    let l := sending held .crane uplinkFrame []
    Sound s ∧ Sound d ∧ Sound l ∧ s.lnc.class0[0]? = some uplinkFrame ∧ d.lnc.class0[0]? = some downlinkFrame ∧
      ¬(uplinkFrame.givenAt + 1000 * uplinkFrame.life ≤ s.now + 79999) ∧
      uplinkFrame.givenAt + 1000 * uplinkFrame.life ≤ s.now + 80000 ∧
      downlinkFrame.givenAt + 1000 * downlinkFrame.life ≤ d.now + 80000 ∧
      l.lnc.transmitting .crane = true ∧ s.lnc.transmitting .crane = false :=
  ⟨sound_of_check (by decide), sound_of_check (by decide), sound_of_check (by decide), by decide⟩

theorem test_meets_CarrierChanges :
    Sound held ∧ Sound (hearing held) ∧ Sound (deferring held .crane [uplinkFrame]) ∧
      Sound (sending held .crane uplinkFrame []) ∧ Sound (faulty held) ∧ Sound State.reset.coldReset ∧
      held.pins.carrier = false ∧ (hearing held).pins.carrier = true ∧ (hearing held).lnc.line = .idle ∧
      (sending held .crane uplinkFrame []).transmitEnable = true ∧ (faulty held).lnc.line = .fault ∧
      State.reset.running = false ∧ (deferring held .crane [uplinkFrame]).lnc.line = .defer .crane 1000040 :=
  ⟨sound_of_check (by decide), sound_of_check (by decide), sound_of_check (by decide), sound_of_check (by decide),
    sound_of_check (by decide), sound_of_check (by decide), by decide⟩

/-- Carrier for 20 ms and one microsecond more; the recovery time just short and complete; a line open in each state. -/
theorem test_meets_LineFaults :
    let cut := after (.lineOpenReported 1) held
    Sound (hearing held) ∧ Sound (sending held .crane { uplinkFrame with withdrawRefused := true } []) ∧
      Sound (beaconing (some ⟨12, 63, .beacon 0 20 0 []⟩)) ∧ Sound (faulty held) ∧ Sound cut ∧
      (hearing held).running = true ∧ (hearing held).lnc.line = .idle ∧
      (hearing held).lnc.carrierSince = some 1000000 ∧ (hearing held).now + 20000 ≤ 1000000 + 20000 ∧
      1000000 + 20000 < (hearing held).now + 20001 ∧ (faulty held).lnc.recoverySince = some 1000000 ∧
      (faulty held).now + 49999 < 1000000 + 50000 ∧ 1000000 + 50000 ≤ (faulty held).now + 50000 ∧
      cut.lnc.line = .fault ∧ cut.lnc.recoverySince = none ∧ cut.pins.lineOpen = true :=
  ⟨sound_of_check (by decide), sound_of_check (by decide), sound_of_check (by decide), sound_of_check (by decide),
    sound_of_check (by decide), by decide⟩

theorem test_meets_ReceivedFrames :
    let good := encodeFrame ⟨17, 12, .take 3 4⟩
    Sound held ∧ (held.arriving 900).hears = true ∧ ((faulty held).arriving 900).hears = false ∧
      (Instr.take 900 17 12 3 4).frame = some ⟨17, 12, .take 3 4⟩ ∧ (Instr.take 900 17 12 3 4).elapsed = 900 ∧
      frameWellFormed ⟨17, 12, .take 0 4⟩ = false ∧ frameWellFormed ⟨12, 12, .take 3 4⟩ = true ∧
      (17 : Byte) ≠ held.cfg.address ∧ (30 : Byte) ≠ held.cfg.address ∧ (30 : Byte) ≠ 63 ∧
      readFrame [] = .badCheck ∧ readFrame (encodeFrame ⟨17, 12, .take 0 4⟩) = .malformed ∧
      readFrame good = .good ⟨17, 12, .take 3 4⟩ :=
  ⟨sound_of_check (by decide), by decide +kernel⟩

/-! ### Cranes -/

/-- Four contexts and fewer, LISTEN, each state of a context, and the ends of the ranges of crane and segment. -/
theorem test_meets_CraneMessages :
    Sound full ∧ Sound held ∧ Sound (quiet edge .listen) ∧ full.attends ∧ held.attends ∧ (quiet edge .listen).attends ∧
      1 ≤ (1 : Byte).toNat ∧ (31 : Byte).toNat ≤ 31 ∧ (127 : Byte).toNat ≤ 127 ∧ held.stc.runState = .run ∧
      full.cru.contexts.length = 4 ∧ full.contextOf 31 = none ∧ held.cru.contexts.length < 4 ∧
      (full.contextOf 1).map (·.active) = some true ∧ (full.contextOf 2).map (·.active) = some false ∧
      (full.contextOf 1).map (·.position) = some 41 :=
  ⟨sound_of_check (by decide), sound_of_check (by decide), sound_of_check (by decide), ⟨by decide, by decide⟩,
    ⟨by decide, by decide⟩, ⟨by decide, by decide⟩, by decide⟩

theorem test_meets_UplinkRelay :
    Sound full ∧ Sound gate ∧ full.attends ∧ gate.attends ∧ 1 ≤ [(7 : Byte)].length ∧
      (List.replicate 48 (7 : Byte)).length ≤ 48 ∧ full.contextOf 31 = none ∧
      (full.contextOf 2).map (·.active) = some false ∧ (gate.contextOf 1).map (·.active) = some true ∧
      gate.cfg.role = .gateway :=
  ⟨sound_of_check (by decide), sound_of_check (by decide), ⟨by decide, by decide⟩, ⟨by decide, by decide⟩, by decide⟩

/-- A crane on segment 41, which station 17 claims with C 1, and with C 4. -/
theorem test_meets_HandoverWindow :
    let s := held.setNbt ⟨[neighbour 260]⟩
    let c := context 1 41 .anchored
    let crowded := held.setNbt ⟨[{ neighbour 260 with advertisedC := 4 }]⟩
    NeighboursOk s ∧ TableSorted Context.key s.cru.contexts ∧ s.contextOf 1 = some c ∧ c.state = .anchored ∧
      s.claimedHere c.position = false ∧ c.period ≠ none ∧ c.stale = false ∧ c.retryAt ≤ s.now ∧
      (∃ n ∈ s.claimants c.position, n.advertisedC < 4 ∧ ∀ m ∈ s.claimants c.position, m.address = n.address) ∧
      (∀ n ∈ crowded.claimants c.position, 4 ≤ n.advertisedC) :=
  ⟨(sound_of_check (s := held.setNbt ⟨[neighbour 260]⟩) (by decide)).neighbours, by decide⟩

/-- A queue of three and of four entries, a deadline just ahead and just passed. -/
theorem test_meets_CraneTraffic :
    let waiting (n : Nat) : Context := { context 1 41 .anchored with queue := List.replicate n ⟨9, [7], 1050000⟩ }
    let s (n : Nat) : State := serving (quiet gateway .run) [waiting n]
    Sound (s 3) ∧ Sound (s 4) ∧ Sound held ∧ (s 4).attends ∧ held.attends ∧
      (s 4).dispatches ⟨17, 63, .craneDown 1 9 0 [7]⟩ ∧ (s 4).dispatches ⟨17, 12, .craneUp 1 9 0 0 [7]⟩ ∧
      ((s 4).arriving 900).hears = true ∧ held.cfg.role = .edge ∧ (s 4).cfg.role = .gateway ∧
      (waiting 3).queue.length < 4 ∧ (s 4).contextOf 1 = some (waiting 4) ∧
      (waiting 4).queue[3]? = some ⟨9, [7], 1050000⟩ ∧ (s 4).now + 49999 < 1050000 ∧ 1050000 ≤ (s 4).now + 50000 ∧
      (held.contextOf 31).isNone = true :=
  ⟨sound_of_check (by decide), sound_of_check (by decide), sound_of_check (by decide), ⟨by decide, by decide⟩,
    ⟨by decide, by decide⟩, ⟨by decide, by decide, by decide⟩, ⟨by decide, by decide, by decide⟩, by decide⟩

/-- The guards at their end and one microsecond before; a silence of CRANE_STALE and one microsecond more. -/
theorem test_meets_CraneTimers :
    Sound full ∧ full.contextOf 1 = some (context 1 41 .anchored) ∧
      full.contextOf 2 = some (context 2 40 (.pending 17 5 1100000)) ∧
      full.contextOf 3 = some (context 3 42 (.offering 17 6 (.awaitingReply 1100000))) ∧
      ¬(900000 + 1000 * full.cfg.craneStale < full.now + 200000) ∧ 900000 + 1000 * full.cfg.craneStale < full.now + 200001 ∧
      full.now + 99999 < 1100000 ∧ 1100000 ≤ full.now + 100000 :=
  ⟨sound_of_check (by decide), by decide⟩

/-! ### Handover -/

theorem test_meets_HandoverOutcomes :
    let s := serving (quiet edge .run) [context 1 41 (.offering 17 5 .sendingOffer)]
    TableSorted Context.key s.cru.contexts ∧ s.contextOf 1 = some (context 1 41 (.offering 17 5 .sendingOffer)) ∧
      full.contextOf 4 = some (context 4 43 (.offering 17 7 .committing)) ∧
      full.contextOf 2 = some (context 2 40 (.pending 17 5 1100000)) ∧ full.contextOf 9 = none := by decide

/-- A sender above and below the own address, each state of a context, a claimed and another segment, room and none. -/
theorem test_meets_OfferAnswers :
    let offer : FrameBody := .offer 1 8 40 4095 255
    Sound full ∧ Sound held ∧ Sound (quiet edge .listen) ∧ Sound (lost edge) ∧ full.dispatches ⟨17, 12, offer⟩ ∧
      full.dispatches ⟨11, 12, offer⟩ ∧ held.dispatches ⟨17, 12, .offer 31 8 43 0 0⟩ ∧
      (quiet edge .listen).dispatches ⟨17, 12, offer⟩ ∧ (full.arriving 900).hears = true ∧
      ((quiet edge .listen).arriving 900).hears = true ∧ full.stc.runState = .run ∧ full.rlc.radioLost = false ∧
      (full.contextOf 1).map (·.active) = some true ∧ (full.contextOf 2).map (·.active) = some false ∧
      full.cfg.address.toNat < (17 : Byte).toNat ∧ (11 : Byte).toNat < full.cfg.address.toNat ∧
      full.contextOf 31 = none ∧ held.claimedHere 43 = false ∧ full.claimedHere 40 = true ∧
      full.cru.contexts.length = 4 ∧ held.cru.contexts.length < 4 :=
  ⟨sound_of_check (by decide), sound_of_check (by decide), sound_of_check (by decide), sound_of_check (by decide),
    ⟨by decide, by decide, by decide⟩, ⟨by decide, by decide, by decide⟩, ⟨by decide, by decide, by decide⟩,
    ⟨by decide, by decide, by decide⟩, by decide⟩

theorem test_meets_HandoverReplies :
    Sound full ∧ (full.arriving 900).hears = true ∧ full.dispatches ⟨17, 12, .take 3 6⟩ ∧
      full.dispatches ⟨17, 12, .take 4 7⟩ ∧ full.dispatches ⟨17, 12, .take 2 5⟩ ∧
      full.contextOf 3 = some (context 3 42 (.offering 17 6 (.awaitingReply 1100000))) ∧
      OfferPhase.awaitingReply 1100000 ≠ .committing ∧
      full.contextOf 4 = some (context 4 43 (.offering 17 7 .committing)) ∧
      full.contextOf 2 = some (context 2 40 (.pending 17 5 1100000)) ∧ full.contextOf 31 = none :=
  ⟨sound_of_check (by decide), by decide, ⟨by decide, by decide, by decide⟩, ⟨by decide, by decide, by decide⟩,
    ⟨by decide, by decide, by decide⟩, by decide⟩

/-! ### Reefers and bundles -/

/-- A tag in custody, one in holdback and a new one; a claimed segment and another; sequence numbers 127 and 128 ahead. -/
theorem test_meets_ReportsRouted :
    Sound reefers ∧ reefers.attends ∧ (127 : Byte).toNat ≤ 127 ∧ (15 : Byte).toNat ≤ 15 ∧ 15 < (16 : Byte).toNat ∧
      (reefers.custodyOf 9).isSome = true ∧ (reefers.heldOf 8).isSome = true ∧ reefers.custodyOf 8 = none ∧
      reefers.custodyOf 7 = none ∧ reefers.heldOf 7 = none ∧ reefers.stc.runState = .run ∧
      reefers.claimedHere 40 = true ∧ reefers.claimedHere 41 = false ∧ reefers.rfi.custody.length < 384 ∧
      (256 + (137 : Byte).toNat - (10 : Byte).toNat) % 256 = 127 ∧
      (256 + (138 : Byte).toNat - (10 : Byte).toNat) % 256 = 128 :=
  ⟨sound_of_check (by decide), ⟨by decide, by decide⟩, by decide⟩

/-- A holdback list of 32 entries, one of them ROUTINE. -/
def crammed : Rfi :=
  { custody := [], holdback := (List.range 32).map fun i =>
      heldBack (BitVec.ofNat 24 (i + 1)) (if i = 5 then .routine else .alert) }

/-- For the clauses of ReportsRouted that need a full custody table: one of 384 tags. -/
theorem test_meets_ReportsRouted_full :
    let s := held.setRfi { held.rfi with custody := (List.range 384).map fun i => ⟨BitVec.ofNat 24 (i + 1), 40, 10, 2⟩ }
    Sound s ∧ ¬(s.rfi.custody.length < 384) :=
  ⟨sound_of_check (by decide +kernel), by decide +kernel⟩

theorem test_meets_Holdback :
    let s := held.setRfi crammed
    Sound s ∧ Sound reefers ∧ s.heldOf 99 = none ∧ s.rfi.holdback.length = 32 ∧ reefers.rfi.holdback.length < 32 ∧
      reefers.heldOf 99 = none ∧
      (∃ v ∈ s.rfi.holdback, v.report.cls = .routine ∧ ∀ x ∈ s.rfi.holdback, x.report.cls = .routine →
        x.expiry < v.expiry ∨ (x.expiry = v.expiry ∧ v.report.tag.toNat ≤ x.report.tag.toNat)) ∧
      reefers.heldOf 8 = some (heldBack 8 .alert) ∧ reefers.now + 49999 < 1050000 ∧ 1050000 ≤ reefers.now + 50000 :=
  ⟨sound_of_check (by decide), sound_of_check (by decide), by decide⟩

/-- A buffer EMPTY, FILLING with room for one, CLOSED and SENDING, under the limit 2; a wait just running and expired. -/
theorem test_meets_BuffersFill :
    let filling := held.setBas { held.bas with
      buffers := [⟨.filling, 1, [report 9 1 .routine]⟩], waitDue := some 1200000 }
    let given := (bundling 0).setBas { (bundling 0).bas with
      buffers := [⟨.sending, 1, [report 9 1 .routine]⟩, ⟨.closed, 1, [report 9 1 .routine]⟩] }
    BundlesOk held ∧ Sound filling ∧ BundlesOk (bundling 0) ∧ held.running = true ∧
      held.cfg.bundleLimit ≤ (if held.cfg.bundleMode = .split then 12 else 24) ∧
      held.bas.buffers[0]? = some Buffer.reset ∧ filling.bas.buffers[0]? = some ⟨.filling, 1, [report 9 1 .routine]⟩ ∧
      (∀ b ∈ given.bas.buffers, b.state = .closed ∨ b.state = .sending) ∧ filling.bas.waitDue = some 1200000 ∧
      filling.now + 199999 < 1200000 ∧ 1200000 ≤ filling.now + 200000 :=
  ⟨(sound_of_check (by decide)).bundles, sound_of_check (by decide), (sound_of_check (by decide)).bundles, by decide⟩

/-- For the moves of BuffersFill: an EMPTY buffer beside a SENDING one, with an alert waiting, with as many routine reports
as its limit of 2, and with one fewer. -/
theorem test_meets_BuffersFill_moves :
    let waiting (alerts routines : List Report) : State := (bundling 0).setBas
      { alertIntake := alerts, routineIntake := routines,
        buffers := [⟨.sending, 1, [report 9 1 .routine]⟩, Buffer.reset], waitDue := none }
    let s := waiting [report 7 1 .alert] [report 8 1 .routine]
    s.cfg.bundleLimit = 2 ∧ s.bas.buffers[1]? = some Buffer.reset ∧ Buffer.reset.state = .empty ∧
      (∀ j x, j ≠ 1 → s.bas.buffers[j]? = some x → x.state = .closed ∨ x.state = .sending) ∧
      (∀ r ∈ s.bas.alertIntake, r.cls = .alert) ∧ (∀ r ∈ s.bas.routineIntake, r.cls = .routine) ∧
      2 ≤ (waiting [] [report 8 1 .routine, report 9 2 .routine]).bas.routineIntake.length ∧
      (waiting [] [report 8 1 .routine]).bas.routineIntake.length < 2 := by
  refine ⟨by decide, by decide, by decide, fun j x hj hx => ?_, by decide, by decide, by decide, by decide⟩
  match j, hj with
  | 0, _ => exact .inr (Option.some.inj hx ▸ rfl)
  | 1, hj => exact absurd rfl hj
  | _ + 2, _ => exact absurd hx (by nofun)

/-- A bundle for a station with the tag in custody, in holdback and in neither; a store with room. -/
theorem test_meets_BundleReceived :
    Sound reefers ∧ reefers.dispatches ⟨17, 63, .bundle [report 9 11 .alert]⟩ ∧ (reefers.arriving 900).hears = true ∧
      (reefers.custodyOf 9).isSome = true ∧ reefers.claimedHere 41 = false ∧ reefers.custodyOf 8 = none ∧
      (reefers.heldOf 8).isSome = true ∧ reefers.heldOf 7 = none ∧ (report 9 11 .alert).tag ≠ 0 ∧
      ((9 : Tag), (11 : Byte)) ∉ Gds.reset.seen ∧ Gds.reset.store.length < 256 :=
  ⟨sound_of_check (by decide), ⟨by decide, by decide, by decide⟩, by decide⟩

/-- Full stores: the oldest ROUTINE record that is not in hand, and for an ALERT the oldest ALERT. -/
theorem test_meets_BundleReceived_full :
    let x (cls : ReportClass) (inHand : Bool) : Stored := ⟨report 9 1 cls, 17, inHand⟩
    let later := List.replicate 254 (x .alert false)
    256 ≤ ([x .routine true] ++ x .routine false :: later).length ∧
      (∀ y ∈ [x .routine true], ¬(y.report.cls = .routine ∧ y.inHand = false)) ∧
      (∀ y ∈ [x .alert true] ++ x .alert false :: later, ¬(y.report.cls = .routine ∧ y.inHand = false)) := by
  decide +kernel

end Sys2Proof.Tests
end

