-- ==== Sys2Proof/Proofs/NeighbourRecords.lean ====
section
/-!
PROOFS. NBT's claimant query (R32): what one entry answers, what the table answers, and the statement ClaimantQuery.
-/

namespace Sys2Proof.Machine

/-- Two entries of a sorted table with one key are the same entry. -/
theorem TableSorted.eq_of_key_eq {α : Type} {key : α → Nat} {l : List α} {x y : α} (h : TableSorted key l)
    (hx : x ∈ l) (hy : y ∈ l) (hk : key x = key y) : x = y := by
  have found : tableFind key (key y) l = some x := (tableFind_eq_some h).2 ⟨hx, hk⟩
  rw [(tableFind_eq_some h).2 ⟨hy, rfl⟩] at found
  exact (Option.some.inj found).symm

/-- The first CLAIM item for a segment is the only one: a list of items has no segment twice (R22). -/
theorem find_claimItem_eq_some {g : Byte} {i : AdvItem} {items : List AdvItem} (h : TableSorted AdvItem.key items) :
    (items.find? fun i => i.segment = g && i.kind = .claim) = some i ↔
      i ∈ items ∧ i.segment = g ∧ i.kind = .claim := by
  constructor
  · intro found
    exact ⟨List.mem_of_find?_eq_some found, by simpa using List.find?_some found⟩
  · rintro ⟨hi, hseg, hkind⟩
    have hsome : (items.find? fun i => i.segment = g && i.kind = .claim).isSome := by
      rw [List.find?_isSome]
      exact ⟨i, hi, by simp [hseg, hkind]⟩
    obtain ⟨j, found⟩ := Option.isSome_iff_exists.1 hsome
    have hj : j.segment = g ∧ j.kind = .claim := by simpa using List.find?_some found
    have hkey : j.key = i.key := by simp [AdvItem.key, hj.1, hseg]
    rw [found, h.eq_of_key_eq (List.mem_of_find?_eq_some found) hi hkey]

/-- An entry answers a claimant query exactly when it is FRESH, without LISTEN and RADIO_LOST, and holds the segment with
kind CLAIM (R32). -/
theorem claimantOf_eq_some {g : Byte} {e : Neighbour} {n : Claimant} (h : TableSorted AdvItem.key e.items) :
    claimantOf g e = some n ↔
      e.stale = false ∧ e.listen = false ∧ e.radioLost = false ∧ e.address = n.address ∧
        e.advertisedC = n.advertisedC ∧ ∃ i ∈ e.items, i.segment = g ∧ i.kind = .claim ∧ i.score = n.score := by
  unfold claimantOf
  split
  case isTrue barred =>
    constructor
    · rintro ⟨⟩
    · rintro ⟨hs, hl, hr, -⟩
      simp [hs, hl, hr] at barred
  case isFalse heard =>
    obtain ⟨⟨hs, hl⟩, hr⟩ : (e.stale = false ∧ e.listen = false) ∧ e.radioLost = false := by simpa using heard
    simp only [Option.map_eq_some_iff, find_claimItem_eq_some h]
    constructor
    · rintro ⟨i, ⟨hi, hseg, hkind⟩, rfl⟩
      exact ⟨hs, hl, hr, rfl, rfl, i, hi, hseg, hkind, rfl⟩
    · rintro ⟨-, -, -, haddr, hc, i, hi, hseg, hkind, hscore⟩
      exact ⟨i, ⟨hi, hseg, hkind⟩, by rw [haddr, hc, hscore]⟩

namespace NeighboursOk

variable {s : State} {g : Byte} {n : Claimant}

/-- R32: the claimants are the answers of the entries. -/
theorem mem_claimants (h : NeighboursOk s) :
    n ∈ s.claimants g ↔
      ∃ e ∈ s.nbt.entries, e.stale = false ∧ e.listen = false ∧ e.radioLost = false ∧ e.address = n.address ∧
        e.advertisedC = n.advertisedC ∧ ∃ i ∈ e.items, i.segment = g ∧ i.kind = .claim ∧ i.score = n.score := by
  rw [State.claimants, List.mem_filterMap]
  exact exists_congr fun e => and_congr_right fun he => claimantOf_eq_some (h.entries e he).sorted

/-- There are no more claimants than the table can have entries (R19). -/
theorem length_claimants_le (h : NeighboursOk s) : (s.claimants g).length ≤ 12 :=
  le_trans (List.length_filterMap_le _ _) h.count

/-- The claimants stand by rising address, as the entries do. -/
theorem claimants_sorted (h : NeighboursOk s) : TableSorted (fun n : Claimant => n.address.toNat) (s.claimants g) := by
  refine List.pairwise_filterMap.2 (h.sorted.imp_of_mem fun {d e} hd he hlt m hm n hn => ?_)
  obtain ⟨-, -, -, hdm, -⟩ := (claimantOf_eq_some (h.entries d hd).sorted).1 hm
  obtain ⟨-, -, -, hen, -⟩ := (claimantOf_eq_some (h.entries e he).sorted).1 hn
  simpa only [Neighbour.key, hdm, hen] using hlt

theorem claimants_address_nodup (h : NeighboursOk s) : ((s.claimants g).map (·.address)).Nodup :=
  List.pairwise_map.2 (h.claimants_sorted.imp fun hlt heq => (congrArg BitVec.toNat heq).not_lt hlt)

/-- A claimed segment is a watched one: no entry's list holds another (R21). -/
theorem inWatchRange_of_mem_claimants (h : NeighboursOk s) (hn : n ∈ s.claimants g) : inWatchRange s.cfg g = true := by
  obtain ⟨e, he, -, -, -, -, -, i, hi, rfl, -, -⟩ := h.mem_claimants.1 hn
  exact ((h.entries e he).items i hi).1

end NeighboursOk

/-- Settles O34: the members by `mem_claimants`, the count and the addresses from the form of the table (R19), and the watch
range from what a list can hold. -/
theorem claimantQuery : Obligations.ClaimantQuery := by
  intro s g h
  refine ⟨fun n => h.mem_claimants, h.length_claimants_le, h.claimants_address_nodup, fun outside => ?_⟩
  refine List.eq_nil_iff_forall_not_mem.2 fun n hn => ?_
  exact Bool.false_ne_true (outside.symm.trans (h.inWatchRange_of_mem_claimants hn))

end Sys2Proof.Machine
end

