-- ==== Sys2Proof/Proofs/TrackedClaims.lean ====
section
/-!
PROOFS. R35 through the operations that many commands share. `Tracked` is `ClaimsOk` with the two facts it rests on. Each
operation keeps it; what a crane's leaving breaks for one segment, CVE's departure mends (R45).
-/

namespace Sys2Proof.Machine

/-! ### What is tracked -/

/-- What R35 rests on: every record is that of a segment of the quay (R1), and no crane has two contexts (R77). -/
structure HomeOk (s : State) : Prop where
  onQuay : s.cve.segments.length ≤ s.cfg.homeCount ∧ s.cfg.homeFirst + s.cfg.homeCount ≤ 128
  sorted : TableSorted Context.key s.cru.contexts

/-- R35, and what it rests on. -/
structure Tracked (s : State) : Prop extends ClaimsOk s, HomeOk s

/-- What stands while a crane has left `g` and CVE has not taken the departure: R35, but for a hold of `g`. -/
structure Departing (g : Byte) (s : State) : Prop extends HomeOk s where
  none : s.stc.runState ≠ .run ∨ s.rlc.radioLost = true → ∀ r ∈ s.cve.segments, r.claim = .unclaimed
  held : ∀ i r, s.cve.segments[i]? = some r → r.claim = .held → segmentAt s.cfg i ≠ g →
    s.activeAt (segmentAt s.cfg i) = true

/-- A segment is the position of an active context. -/
theorem State.activeAt_eq_true {s : State} {g : Byte} :
    s.activeAt g = true ↔ ∃ c ∈ s.cru.contexts, c.active = true ∧ c.position = g := by
  simp [State.activeAt]

/-- While nothing is claimed or held R35 holds. -/
theorem claimsOk_of_unclaimed {s : State} (h : ∀ r ∈ s.cve.segments, r.claim = .unclaimed) : ClaimsOk s :=
  ⟨fun _ => h, fun i r hi hr => by simp [h r (List.mem_of_getElem? hi)] at hr⟩

/-- Records with the same claims: each of one table answers to one of the other. -/
theorem exists_claim_eq {l m : List Segment} (h : l.map (·.claim) = m.map (·.claim)) {i : Nat} {r : Segment}
    (hr : l[i]? = some r) : ∃ r', m[i]? = some r' ∧ r'.claim = r.claim := by
  have hi : (m.map (·.claim))[i]? = some r.claim := by rw [← h, List.getElem?_map, hr]; rfl
  simpa using hi

namespace Tracked

variable {s t : State}

/-- R35 goes over to a state with the same run state and claims, no radio loss that was not there, and every active context
still where it was. -/
theorem transfer (h : Tracked s) (hstc : t.stc = s.stc) (hlost : t.rlc.radioLost = true → s.rlc.radioLost = true)
    (hclaims : t.cve.segments.map (·.claim) = s.cve.segments.map (·.claim))
    (hsorted : TableSorted Context.key t.cru.contexts) (hactive : ∀ g, s.activeAt g = true → t.activeAt g = true) :
    Tracked t := by
  have hcfg : t.cfg = s.cfg := by simp only [State.cfg, hstc]
  have hlen : t.cve.segments.length = s.cve.segments.length := by simpa using congrArg List.length hclaims
  refine { none := fun hn r hr => ?_, held := fun i r hi hr => ?_, onQuay := ?_, sorted := hsorted }
  · obtain ⟨i, hi⟩ := List.mem_iff_getElem?.1 hr
    obtain ⟨r', hi', hc⟩ := exists_claim_eq hclaims hi
    rw [hstc] at hn
    rw [← hc]
    exact h.none (hn.imp_right hlost) r' (List.mem_of_getElem? hi')
  · obtain ⟨r', hi', hc⟩ := exists_claim_eq hclaims hi
    rw [hcfg]
    exact hactive _ (h.held i r' hi' (hc.trans hr))
  · rw [hlen, hcfg]
    exact h.onQuay

/-! ### Replacing a block -/

theorem setNow (h : Tracked s) (x : Micros) : Tracked (s.setNow x) :=
  h.transfer rfl id rfl h.sorted fun _ => id

theorem setChoices (h : Tracked s) (x : Nat) : Tracked (s.setChoices x) :=
  h.transfer rfl id rfl h.sorted fun _ => id

theorem setPins (h : Tracked s) (x : Pins) : Tracked (s.setPins x) :=
  h.transfer rfl id rfl h.sorted fun _ => id

theorem setNbt (h : Tracked s) (x : Nbt) : Tracked (s.setNbt x) :=
  h.transfer rfl id rfl h.sorted fun _ => id

theorem setRfi (h : Tracked s) (x : Rfi) : Tracked (s.setRfi x) :=
  h.transfer rfl id rfl h.sorted fun _ => id

theorem setBas (h : Tracked s) (x : Bas) : Tracked (s.setBas x) :=
  h.transfer rfl id rfl h.sorted fun _ => id

theorem setGds (h : Tracked s) (x : Gds) : Tracked (s.setGds x) :=
  h.transfer rfl id rfl h.sorted fun _ => id

theorem setLnc (h : Tracked s) (x : Lnc) : Tracked (s.setLnc x) :=
  h.transfer rfl id rfl h.sorted fun _ => id

theorem setPending (h : Tracked s) (x : List Instr) : Tracked (s.setPending x) :=
  h.transfer rfl id rfl h.sorted fun _ => id

/-- Any change of RLC that does not begin the radio-lost condition. -/
theorem setRlc {x : Rlc} (h : Tracked s) (hx : x.radioLost = true → s.rlc.radioLost = true) : Tracked (s.setRlc x) :=
  h.transfer rfl hx rfl h.sorted fun _ => id

/-- Any change of CVE that leaves the claims. -/
theorem setCve {x : Cve} (h : Tracked s) (hx : x.segments.map (·.claim) = s.cve.segments.map (·.claim)) :
    Tracked (s.setCve x) :=
  h.transfer rfl id hx h.sorted fun _ => id

theorem advance (h : Tracked s) (dt : Micros) : Tracked (s.advance dt) := h.setNow _

/-! ### RLC's queues, occasions and flags -/

theorem queueControl (h : Tracked s) (m : ControlMsg) : Tracked (s.queueControl m) := h.setRlc id

theorem queueTerminal (h : Tracked s) (m : TermUplink) : Tracked (s.queueTerminal m) := h.setRlc id

theorem queueDrain (h : Tracked s) (m : DrainMsg) : Tracked (s.queueDrain m) := h.setRlc id

theorem recordOccasion (h : Tracked s) (o : Occasion) : Tracked (s.recordOccasion o) := by
  rw [State.recordOccasion_frame]
  exact h.setRlc id

theorem setFlag (h : Tracked s) (k : Sticky) : Tracked (s.setFlag k) := by
  unfold State.setFlag
  split
  · exact h
  · exact Tracked.recordOccasion (h.setRlc (by exact id)) _

/-! ### The context table -/

/-- A context put into the table, where the one it replaces, if active, was active at the same position. -/
theorem putContext {c : Context} (h : Tracked s)
    (hc : ∀ d, s.contextOf c.crane = some d → d.active = true → c.active = true ∧ c.position = d.position) :
    Tracked (s.putContext c) := by
  refine h.transfer rfl id rfl (tablePut_sorted h.sorted) fun g hg => ?_
  obtain ⟨d, hd, hactive, rfl⟩ := State.activeAt_eq_true.1 hg
  refine State.activeAt_eq_true.2 ?_
  by_cases hk : d.key = c.key
  · obtain ⟨hca, hcp⟩ := hc d ((tableFind_eq_some h.sorted).2 ⟨hd, hk⟩) hactive
    exact ⟨c, (mem_tablePut h.sorted).2 (.inl rfl), hca, hcp⟩
  · exact ⟨d, (mem_tablePut h.sorted).2 (.inr ⟨hd, hk⟩), hactive, rfl⟩

/-- A context changed in place that stays active where it was. -/
theorem changeContext {crane : Byte} {c d : Context} (h : Tracked s) (hc : s.contextOf crane = some c)
    (hcrane : d.crane = c.crane) (hd : c.active = true → d.active = true ∧ d.position = c.position) :
    Tracked (s.putContext d) := by
  obtain ⟨rfl, -⟩ := State.crane_of_contextOf hc
  refine h.putContext fun e he => ?_
  rw [hcrane, hc] at he
  cases he
  exact hd

/-- A new context for a crane that had none. -/
theorem newContext {c : Context} (h : Tracked s) (hc : s.contextOf c.crane = .none) : Tracked (s.putContext c) :=
  h.putContext fun d hd => by rw [hc] at hd; cases hd

/-- The context of a crane dropped: what is left of R35 before the departure. -/
theorem dropContext_departing {c : Context} (h : Tracked s) (hc : s.contextOf c.crane = some c) :
    Departing c.position (s.dropContext c.crane) := by
  refine ⟨⟨h.onQuay, tableErase_sorted h.sorted⟩, h.none, fun i r hi hr hne => ?_⟩
  obtain ⟨d, hd, hactive, hpos⟩ := State.activeAt_eq_true.1 (h.held i r hi hr)
  refine State.activeAt_eq_true.2 ⟨d, mem_tableErase.2 ⟨hd, fun hk => hne ?_⟩, hactive, hpos⟩
  have hdc : s.contextOf c.crane = some d := (tableFind_eq_some h.sorted).2 ⟨hd, hk⟩
  rw [hc] at hdc
  cases hdc
  exact hpos.symm

/-- A context with another position: what is left of R35 before the departure. -/
theorem moveContext_departing {c : Context} (h : Tracked s) (hc : s.contextOf c.crane = some c) (g : Byte) :
    Departing c.position (s.putContext { c with position := g }) := by
  refine ⟨⟨h.onQuay, tablePut_sorted h.sorted⟩, h.none, fun i r hi hr hne => ?_⟩
  obtain ⟨d, hd, hactive, hpos⟩ := State.activeAt_eq_true.1 (h.held i r hi hr)
  refine State.activeAt_eq_true.2 ⟨d, (mem_tablePut h.sorted).2 (.inr ⟨hd, fun hk => hne ?_⟩), hactive, hpos⟩
  have hdc : s.contextOf c.crane = some d := (tableFind_eq_some h.sorted).2 ⟨hd, hk⟩
  rw [hc] at hdc
  cases hdc
  exact hpos.symm

/-- A context that is not active dropped: no position loses its last active context. -/
theorem dropContext {crane : Byte} {c : Context} (h : Tracked s) (hc : s.contextOf crane = some c)
    (hc' : c.active = false) : Tracked (s.dropContext crane) := by
  refine h.transfer rfl id rfl (tableErase_sorted h.sorted) fun g hg => ?_
  obtain ⟨d, hd, hactive, hpos⟩ := State.activeAt_eq_true.1 hg
  refine State.activeAt_eq_true.2 ⟨d, mem_tableErase.2 ⟨hd, fun hk => ?_⟩, hactive, hpos⟩
  have hdc : s.contextOf crane = some d := (tableFind_eq_some h.sorted).2 ⟨hd, hk⟩
  rw [hc] at hdc
  cases hdc
  simp [hc'] at hactive

end Tracked

/-! ### Departures (R45) -/

/-- A home position of a home range on the quay is that of its segment. -/
theorem homePosition_segmentAt_of_onQuay {c : Settings} {i : Nat} (hc : c.homeFirst + c.homeCount ≤ 128)
    (hi : i < c.homeCount) : homePosition c (segmentAt c i) = some i := by
  have hmod : (segmentAt c i).toNat = c.homeFirst + i := by
    simp only [segmentAt, BitVec.toNat_ofNat]
    omega
  simp [homePosition, hmod, hi]

/-- The records after a hold has ended. -/
def releaseHold (segments : List Segment) (i : Nat) : List Segment :=
  segments.modify i fun r => { r with claim := .unclaimed }

/-- A record after a hold has ended is one from before, or is the record at the place, UNCLAIMED. -/
theorem getElem?_releaseHold {l : List Segment} {i j : Nat} {r : Segment} (h : (releaseHold l i)[j]? = some r) :
    r.claim = .unclaimed ∨ (j ≠ i ∧ l[j]? = some r) := by
  obtain ⟨r', hr', hr⟩ : ∃ r', l[j]? = some r' ∧ (if i = j then { r' with claim := .unclaimed } else r') = r := by
    simpa [releaseHold, List.getElem?_modify] using h
  split at hr
  case isTrue => exact .inl (hr ▸ rfl)
  case isFalse hij => exact .inr ⟨Ne.symm hij, hr ▸ hr'⟩

theorem Tracked.noticeIfChanged {s : State} (h : Tracked s) : Tracked s.noticeIfChanged := by
  unfold State.noticeIfChanged
  dsimp only
  split
  · exact h
  · exact Tracked.queueControl (h.setCve (by rfl)) _

/-- CVE's departure ends the hold that a crane's leaving left without an active context. -/
theorem Departing.departure {g : Byte} {s : State} (h : Departing g s) : Tracked (s.departure g) := by
  have settled (hg : ∀ i r, s.cve.segments[i]? = some r → r.claim = .held → segmentAt s.cfg i = g →
      s.activeAt g = true) : Tracked s := by
    refine { none := h.none, held := fun i r hi hr => ?_, onQuay := h.onQuay, sorted := h.sorted }
    by_cases he : segmentAt s.cfg i = g
    · rw [he]
      exact hg i r hi hr he
    · exact h.held i r hi hr he
  have position {i : Nat} {r : Segment} (hi : s.cve.segments[i]? = some r) :
      homePosition s.cfg (segmentAt s.cfg i) = some i := by
    have hlen := (List.getElem?_eq_some_iff.1 hi).1
    exact homePosition_segmentAt_of_onQuay h.onQuay.2 (lt_of_lt_of_le hlen h.onQuay.1)
  unfold State.departure
  split
  case h_2 away =>
    refine settled fun i r hi _ he => ?_
    rw [← he, position hi] at away
    cases away
  case h_1 i home =>
    split
    case isFalse kept =>
      refine settled fun j r hj hr he => ?_
      have hji : j = i := Option.some.inj (by rw [← position hj, he, home])
      subst hji
      have hclaim : s.claimOf g = some .held := by simp [State.claimOf, home, hj, hr]
      simpa [hclaim] using kept
    case isTrue ends =>
      refine Tracked.noticeIfChanged
        { none := fun hn r hr => ?_, held := fun j r hj hr => ?_, onQuay := ?_, sorted := h.sorted }
      · obtain ⟨j, hj⟩ := List.mem_iff_getElem?.1 hr
        rcases getElem?_releaseHold hj with hu | ⟨-, hj⟩
        · exact hu
        · exact h.none hn r (List.mem_of_getElem? hj)
      · rcases getElem?_releaseHold hj with hu | ⟨hne, hj⟩
        · simp [hu] at hr
        · refine h.held j r hj hr fun he => hne ?_
          exact Option.some.inj (by rw [← position hj, he, home])
      · simpa using h.onQuay

namespace Tracked

variable {s : State}

/-- A context freed: its departure, where it was active, keeps R35. -/
theorem freeContext {crane : Byte} {c : Context} (h : Tracked s) (hc : s.contextOf crane = some c) :
    Tracked (s.freeContext c) := by
  obtain ⟨rfl, -⟩ := State.crane_of_contextOf hc
  unfold State.freeContext
  dsimp only
  split
  case isTrue active => exact (h.dropContext_departing hc).departure
  case isFalse inactive => exact h.dropContext hc (by simpa using inactive)

theorem setPosition {crane : Byte} {c : Context} (h : Tracked s) (hc : s.contextOf crane = some c) (g : Byte) :
    Tracked (s.setPosition c g) := by
  have hcrane := (State.crane_of_contextOf hc).1
  unfold State.setPosition
  split
  · exact h
  · dsimp only
    split
    case isTrue active =>
      subst hcrane
      exact (h.moveContext_departing hc g).departure
    case isFalse inactive => exact h.changeContext hc rfl fun hactive => absurd hactive inactive

/-! ### Late counts, and the frames given to LNC -/

theorem countLate (h : Tracked s) (crane : Byte) : Tracked (s.countLate crane) := by
  unfold State.countLate
  split
  case h_1 c hc => exact h.changeContext hc rfl fun hactive => ⟨hactive, rfl⟩
  case h_2 => exact h

theorem craneFrameLost (h : Tracked s) (f : TxFrame) : Tracked (s.craneFrameLost f) := by
  unfold State.craneFrameLost
  split
  · exact h.countLate _
  · exact h

theorem openDefer (h : Tracked s) : Tracked s.openDefer := by
  rw [State.openDefer_frame]
  exact h.setLnc _

theorem reopenDefer (h : Tracked s) : Tracked s.reopenDefer := Tracked.openDefer (h.setLnc _)

theorem joinClass (h : Tracked s) (c : TxClass) (f : TxFrame) : Tracked (s.joinClass c f) :=
  Tracked.openDefer (h.setLnc _)

theorem giveCrane (h : Tracked s) (x : Frame) (life : Nat) : Tracked (s.giveCrane x life) := by
  unfold State.giveCrane
  dsimp only
  split
  · exact h.joinClass _ _
  · split
    · split
      · exact ((h.setLnc _).craneFrameLost _).reopenDefer
      · exact (h.setLnc _).reopenDefer
    · split
      · exact (h.setLnc _).craneFrameLost _
      · exact h.setLnc _

theorem giveAnswer (h : Tracked s) (x : Frame) : Tracked (s.giveAnswer x) := by
  obtain ⟨lnc, hl⟩ := s.giveAnswer_frame x
  rw [hl]
  exact h.setLnc _

theorem putBeacon (h : Tracked s) (x : Frame) : Tracked (s.putBeacon x) := by
  rcases s.putBeacon_frame x with ⟨lnc, hl⟩ | hl
  · rw [hl]
    exact h.setLnc _
  · rw [hl]
    exact h.setCve rfl

theorem withdrawCrane (h : Tracked s) (place : Nat) : Tracked (s.withdrawCrane place) := by
  unfold State.withdrawCrane
  split
  · split
    · exact h.setLnc _
    · dsimp only
      split
      · exact ((h.setLnc _).craneFrameLost _).reopenDefer
      · exact (h.setLnc _).craneFrameLost _
  · exact h

/-! ### The end of an attempt, carrier and faults -/

theorem endAttempt (h : Tracked s) : Tracked s.endAttempt := Tracked.openDefer (h.setLnc _)

theorem enterSuccessor (h : Tracked s) : Tracked s.enterSuccessor := by
  unfold State.enterSuccessor
  split
  · exact Tracked.setLnc (h.setCve (by rfl)) _
  · exact h

theorem remakeWithdrawal (h : Tracked s) : Tracked s.remakeWithdrawal := by
  unfold State.remakeWithdrawal
  split
  · split
    · exact (h.setLnc _).craneFrameLost _
    · exact h
  · exact h

theorem attemptCut (h : Tracked s) (c : TxClass) : Tracked (s.attemptCut c) := by
  cases c with
  | crane => exact h.remakeWithdrawal
  | beacon => exact h.enterSuccessor
  | handover => exact h
  | bundle => exact h

theorem carrierAppears (h : Tracked s) : Tracked s.carrierAppears := by
  have hnow : s.carrierAppears = s.arriving 0 := rfl
  obtain ⟨pins, lnc, hl⟩ := s.arriving_frame 0
  rw [hnow, hl]
  exact ((h.setNow _).setPins _).setLnc _

theorem carrierEnds (h : Tracked s) : Tracked s.carrierEnds := by
  obtain ⟨pins, lnc, hl⟩ := s.carrierEnds_frame
  rw [hl]
  exact (h.setPins _).setLnc _

theorem enterFault (h : Tracked s) (kind : FaultKind) : Tracked (s.enterFault kind) :=
  Tracked.recordOccasion (h.setLnc _) _

theorem jabber (h : Tracked s) : Tracked s.jabber := by
  unfold State.jabber
  split
  · split
    · exact h.enterFault _
    · exact h
  · split
    · exact h.enterFault _
    · exact h
  · exact h

theorem lineOpens (h : Tracked s) : Tracked s.lineOpens := by
  unfold State.lineOpens
  dsimp only
  split
  · exact h.setPins _
  · split
    · exact (h.setPins _).setLnc _
    · exact (((h.setPins _).setLnc _).attemptCut _).enterFault _
    · exact (h.setPins _).enterFault _
    · exact (h.setPins _).enterFault _

theorem lineOk (h : Tracked s) : Tracked s.lineOk := by
  unfold State.lineOk
  dsimp only
  split
  · exact h
  · split
    · exact (h.setPins _).setLnc _
    · exact h.setPins _

theorem faultEnds (h : Tracked s) : Tracked s.faultEnds := by
  unfold State.faultEnds
  split
  · exact Tracked.openDefer (Tracked.recordOccasion (h.setLnc _) _)
  · exact h

end Tracked

end Sys2Proof.Machine
end

