-- ==== Sys2Proof/Proofs/TrackedCranes.lean ====
section
/-!
PROOFS. R35 through CRU's operations: the outcomes and replies of the handover, uplinks and downlinks. A context changes in
place, stays active at its position, or leaves it with a departure.
-/

namespace Sys2Proof.Machine

/-- A context in OFFERING with a token is an active context of its crane. -/
theorem State.contextOf_of_offeringWith {s : State} {crane token peer : Byte} {c : Context} {phase : OfferPhase}
    (h : s.offeringWith crane token = some (c, peer, phase)) : s.contextOf crane = some c ∧ c.active = true := by
  obtain ⟨d, hd, hsome⟩ := Option.bind_eq_some_iff.1 h
  cases hstate : d.state with
  | anchored => simp [hstate] at hsome
  | pending => simp [hstate] at hsome
  | offering p tok ph =>
    simp only [hstate, Option.ite_none_right_eq_some, Option.some.injEq, Prod.mk.injEq] at hsome
    obtain ⟨-, rfl, -⟩ := hsome
    exact ⟨hd, by simp [Context.active, hstate]⟩

/-- A context that a reply matches is an active context of its crane (R102). -/
theorem State.contextOf_of_matchingOffer {s : State} {sender crane token : Byte} {c : Context}
    (h : s.matchingOffer sender crane token = some c) : s.contextOf crane = some c ∧ c.active = true := by
  obtain ⟨⟨d, peer, phase⟩, hd, hsome⟩ := Option.bind_eq_some_iff.1 h
  simp only [Option.ite_none_right_eq_some, Option.some.injEq] at hsome
  obtain ⟨-, rfl⟩ := hsome
  exact s.contextOf_of_offeringWith hd

/-- A PENDING context that a COMMIT or CANCEL matches is one of its crane, and not active (R112, R113). -/
theorem State.contextOf_of_matchingPending {s : State} {sender crane token : Byte} {c : Context}
    (h : s.matchingPending sender crane token = some c) : s.contextOf crane = some c ∧ c.active = false := by
  obtain ⟨d, hd, hsome⟩ := Option.bind_eq_some_iff.1 h
  cases hstate : d.state with
  | anchored => simp [hstate] at hsome
  | offering => simp [hstate] at hsome
  | pending p tok due =>
    simp only [hstate, Option.ite_none_right_eq_some, Option.some.injEq] at hsome
    obtain ⟨-, rfl⟩ := hsome
    exact ⟨hd, by simp [Context.active, hstate]⟩

namespace Tracked

variable {s : State}

/-- A context made active where it was. -/
theorem activateContext {crane : Byte} {c d : Context} (h : Tracked s) (hc : s.contextOf crane = some c)
    (hcrane : d.crane = c.crane) (hd : d.active = true) (hpos : d.position = c.position) : Tracked (s.putContext d) :=
  h.changeContext hc hcrane fun _ => ⟨hd, hpos⟩

theorem returnToAnchored {crane : Byte} {c : Context} (h : Tracked s) (hc : s.contextOf crane = some c)
    (retryAt : Micros) : Tracked (s.returnToAnchored c retryAt) :=
  h.activateContext hc rfl rfl rfl

/-! ### Outcomes of class 1 frames (R101, R104, R111) -/

theorem offerSent (h : Tracked s) (crane token : Byte) : Tracked (s.offerSent crane token) := by
  unfold State.offerSent
  split
  case h_1 ho => exact h.activateContext (s.contextOf_of_offeringWith ho).1 rfl rfl rfl
  case h_2 => exact h

theorem offerDiscarded (h : Tracked s) (crane token : Byte) : Tracked (s.offerDiscarded crane token) := by
  unfold State.offerDiscarded
  split
  case h_1 ho => exact h.returnToAnchored (s.contextOf_of_offeringWith ho).1 _
  case h_2 => exact h

theorem commitSent (h : Tracked s) (crane token : Byte) : Tracked (s.commitSent crane token) := by
  unfold State.commitSent
  split
  case h_1 ho => exact (h.queueControl _).freeContext (s.contextOf_of_offeringWith ho).1
  case h_2 => exact h

theorem commitDiscarded (h : Tracked s) (peer crane token : Byte) : Tracked (s.commitDiscarded peer crane token) := by
  have hanswer : Tracked (s.giveAnswer (s.ownFrame peer (.cancel crane token))) := h.giveAnswer _
  unfold State.commitDiscarded
  dsimp only
  split
  case h_1 ho => exact hanswer.returnToAnchored (State.contextOf_of_offeringWith ho).1 _
  case h_2 => exact hanswer

theorem takeDiscarded (h : Tracked s) (crane token : Byte) : Tracked (s.takeDiscarded crane token) := by
  unfold State.takeDiscarded
  split
  case h_1 c hc =>
    split
    case h_1 hstate =>
      split
      · exact h.dropContext hc (by simp [Context.active, hstate])
      · exact h
    case h_2 => exact h
  case h_2 => exact h

theorem handoverSent (h : Tracked s) (f : Frame) : Tracked (s.handoverSent f) := by
  unfold State.handoverSent
  split
  · exact h.offerSent _ _
  · exact h.commitSent _ _
  · exact h

theorem handoverDiscarded (h : Tracked s) (f : Frame) : Tracked (s.handoverDiscarded f) := by
  unfold State.handoverDiscarded
  split
  · exact h.offerDiscarded _ _
  · exact h.commitDiscarded _ _ _
  · exact h.takeDiscarded _ _
  · exact h

theorem giveHandover (h : Tracked s) (f : Frame) : Tracked (s.giveHandover f) := by
  unfold State.giveHandover
  split
  · exact h.joinClass _ _
  · exact h.handoverDiscarded _

/-! ### Attach, position, detach (R79 to R82) -/

theorem attach (h : Tracked s) (crane g : Byte) : Tracked (s.attach crane g) := by
  unfold State.attach
  split
  · exact h.queueControl _
  · split
    case h_1 c hc =>
      split
      case isTrue => exact h.setPosition hc g
      case isFalse inactive => exact h.changeContext hc rfl fun hactive => absurd hactive inactive
    case h_2 hc =>
      split
      · exact h.newContext hc
      · exact h.queueControl _

theorem position (h : Tracked s) (crane g : Byte) : Tracked (s.position crane g) := by
  unfold State.position
  split
  case h_1 c hc => exact h.setPosition hc g
  case h_2 => exact h

theorem detach (h : Tracked s) (crane : Byte) : Tracked (s.detach crane) := by
  unfold State.detach
  split
  case h_1 c hc =>
    split
    · exact h.freeContext hc
    · exact h
  case h_2 => exact h

/-! ### Downlinks (R90 to R95) -/

theorem joinDownlink (h : Tracked s) (crane seq : Byte) (deadline : Nat) (payload : List Byte) :
    Tracked (s.joinDownlink crane seq deadline payload) := by
  unfold State.joinDownlink
  split
  case h_1 c hc =>
    dsimp only
    split
    case isTrue active =>
      split
      · exact h.activateContext hc rfl active rfl
      · exact h.activateContext hc rfl active rfl
    case isFalse => exact h
  case h_2 => exact h

theorem downlinkDue (h : Tracked s) (crane : Byte) (place : Nat) : Tracked (s.downlinkDue crane place) := by
  unfold State.downlinkDue
  split
  case h_1 c hc =>
    split
    · split
      · exact h.changeContext hc rfl fun hactive => ⟨hactive, rfl⟩
      · exact h
    · exact h
  case h_2 => exact h

theorem downlink (h : Tracked s) (crane seq : Byte) (deadline : Nat) (payload : List Byte) :
    Tracked (s.downlink crane seq deadline payload) :=
  (h.giveCrane _ _).joinDownlink _ _ _ _

/-! ### Uplinks and the handover window (R84 to R86, R97 to R100) -/

theorem offerTo {crane : Byte} {c : Context} (h : Tracked s) (hc : s.contextOf crane = some c) (peer : Byte) :
    Tracked (s.offerTo c peer) := by
  have hcounter : Tracked (s.setCru { s.cru with tokenCounter := s.cru.tokenCounter + 1 }) :=
    h.transfer rfl id rfl h.sorted fun _ => id
  exact Tracked.giveHandover (hcounter.activateContext (c := c) hc (by rfl) (by rfl) (by rfl)) _

theorem handoverWindow (h : Tracked s) (crane : Byte) : Tracked (s.handoverWindow crane) := by
  unfold State.handoverWindow
  split
  case h_1 c hc =>
    split
    · split
      · exact h.offerTo hc _
      · exact h
    · exact h
  case h_2 => exact h

theorem uplink (h : Tracked s) (crane seq : Byte) (payload : List Byte) : Tracked (s.uplink crane seq payload) := by
  unfold State.uplink
  split
  case h_1 old hc =>
    split
    case isTrue active =>
      have hrelayed : Tracked (s.putContext (old.relayed s.now)) := h.activateContext hc rfl active rfl
      dsimp only
      split
      · exact ((hrelayed.giveCrane _ _).queueTerminal _).handoverWindow _
      · exact (hrelayed.giveCrane _ _).handoverWindow _
    case isFalse => exact h
  case h_2 => exact h

theorem staleWatch (h : Tracked s) (crane : Byte) : Tracked (s.staleWatch crane) := by
  unfold State.staleWatch
  split
  case h_1 c hc =>
    split
    · exact h.changeContext hc rfl fun hactive => ⟨hactive, rfl⟩
    · exact h
  case h_2 => exact h

theorem passUplink (h : Tracked s) (sender crane seq : Byte) (period : Word16) (late : Byte) (payload : List Byte) :
    Tracked (s.passUplink sender crane seq period late payload) := by
  unfold State.passUplink
  split
  · exact h.queueTerminal _
  · exact h

/-! ### The offerer's replies and guard (R102 to R106) -/

theorem takeReply (h : Tracked s) (sender crane token : Byte) : Tracked (s.takeReply sender crane token) := by
  unfold State.takeReply
  split
  case h_1 c hm =>
    exact Tracked.giveHandover (h.activateContext (s.contextOf_of_matchingOffer hm).1 (by rfl) (by rfl) (by rfl)) _
  case h_2 =>
    split
    · exact h
    · exact h.giveAnswer _

theorem refuseReply (h : Tracked s) (sender crane token : Byte) (reason : RefuseReason) :
    Tracked (s.refuseReply sender crane token reason) := by
  unfold State.refuseReply
  split
  case h_1 c hm =>
    obtain ⟨hc, -⟩ := s.contextOf_of_matchingOffer hm
    have hnext : Tracked (s.setChoices (s.choices + 1)) := h.setChoices _
    cases reason with
    | anchoredHere =>
      simp only [State.eitherOrder]
      split
      · exact (hnext.freeContext (crane := crane) hc).queueControl _
      · exact (hnext.queueControl _).freeContext (crane := crane) hc
    | yielded => exact h.returnToAnchored hc _
    | notClaimed => exact h.returnToAnchored hc _
    | full => exact h.returnToAnchored hc _
    | pendingOther => exact h.returnToAnchored hc _
    | notRunning => exact h.returnToAnchored hc _
  case h_2 => exact h

theorem offerGuard (h : Tracked s) (crane : Byte) : Tracked (s.offerGuard crane) := by
  unfold State.offerGuard
  split
  case h_1 c hc =>
    split
    · split
      · exact h.returnToAnchored hc _
      · exact h
    · exact h
  case h_2 => exact h

/-! ### The target (R109 to R114) -/

theorem offerReceived (h : Tracked s) (sender crane token g : Byte) (period : Word16) (late : Byte) :
    Tracked (s.offerReceived sender crane token g period late) := by
  unfold State.offerReceived
  split
  · exact h.giveAnswer _
  · split
    case h_1 c hc =>
      split
      · split
        · exact h.giveAnswer _
        · exact ((h.freeContext hc).queueControl _).giveAnswer _
      · exact h.giveAnswer _
    case h_2 hc =>
      split
      · exact h.giveAnswer _
      · split
        · exact h.giveAnswer _
        · exact (h.newContext hc).giveHandover _

theorem commitReceived (h : Tracked s) (sender crane token : Byte) : Tracked (s.commitReceived sender crane token) := by
  unfold State.commitReceived
  split
  case h_1 c hm => exact h.activateContext (s.contextOf_of_matchingPending hm).1 rfl rfl rfl
  case h_2 => exact h

theorem cancelReceived (h : Tracked s) (sender crane token : Byte) : Tracked (s.cancelReceived sender crane token) := by
  unfold State.cancelReceived
  split
  case h_1 c hm =>
    obtain ⟨hc, inactive⟩ := s.contextOf_of_matchingPending hm
    exact h.dropContext hc inactive
  case h_2 => exact h

theorem pendingGuard (h : Tracked s) (crane : Byte) : Tracked (s.pendingGuard crane) := by
  unfold State.pendingGuard
  split
  case h_1 c hc =>
    split
    case h_1 hstate =>
      split
      · exact h.dropContext hc (by simp [Context.active, hstate])
      · exact h
    case h_2 => exact h
  case h_2 => exact h

end Tracked

end Sys2Proof.Machine
end

