-- ==== Sys2Proof/Proofs/TrackedCommands.lean ====
section
/-!
PROOFS. R35 through samples, reports and bundles, CVE's evaluations (R38, R47), the radio link, resets and the end of LOAD,
and with them through every command.
-/

namespace Sys2Proof.Machine

/-! ### Claims of an evaluation (R38, R41, R42) -/

/-- The records an evaluation leaves meet R35, whatever the records before it (R41, R42). -/
theorem claim_decided {s : State} (p i : Nat) (r : Segment) :
    (s.stc.runState ≠ .run ∨ s.rlc.radioLost = true → (s.decided p i r).claim = .unclaimed) ∧
      ((s.decided p i r).claim = .held → s.activeAt (segmentAt s.cfg i) = true) := by
  simp only [State.decided, State.decideClaim]
  split
  case isTrue would =>
    have hclaims : s.stc.runState = .run ∧ s.rlc.radioLost = false := by
      simp only [State.wouldClaim, Bool.and_eq_true, decide_eq_true_eq, Bool.not_eq_true'] at would
      exact would.1.1
    refine ⟨fun hn => ?_, fun hr => by cases hr⟩
    simp [hclaims] at hn
  case isFalse =>
    split
    case isTrue holds =>
      simp only [Bool.and_eq_true, decide_eq_true_eq, Bool.not_eq_true'] at holds
      obtain ⟨⟨hrun, hlost⟩, hactive⟩ := holds
      refine ⟨fun hn => ?_, fun _ => hactive⟩
      simp [hrun, hlost] at hn
    case isFalse => exact ⟨fun _ => rfl, fun hr => by cases hr⟩

namespace HomeOk

variable {s : State}

/-- A station with no home range has no record. -/
theorem segments_eq_nil (h : HomeOk s) (h0 : s.cfg.homeCount = 0) : s.cve.segments = [] :=
  List.length_eq_zero_iff.1 (by have := h.onQuay.1; omega)

/-- The decisions of an evaluation establish R35 (R38, R42). -/
theorem decideAll (h : HomeOk s) : Tracked s.decideAll := by
  obtain ⟨rfi, hd, -⟩ := s.decideAll_frame
  rw [hd]
  refine Tracked.setRfi ?_ _
  refine { none := fun hn r hr => ?_, held := fun i r hi hr => ?_, onQuay := ?_, sorted := h.sorted }
  · obtain ⟨i, hi, rfl⟩ := List.mem_mapIdx.1 hr
    exact (claim_decided _ _ _).1 hn
  · simp only [State.setCve_cve, List.getElem?_mapIdx, Option.map_eq_some_iff] at hi
    obtain ⟨r', -, rfl⟩ := hi
    exact (claim_decided _ _ _).2 hr
  · simpa using h.onQuay

/-- The evaluation of the withdrawal establishes R35; a station with no home range has nothing to withdraw (R47). -/
theorem withdraw (h : HomeOk s) : Tracked s.withdraw := by
  unfold State.withdraw
  split
  case isTrue bare =>
    have hnil := h.segments_eq_nil bare
    exact ⟨claimsOk_of_unclaimed (by simp [hnil]), h⟩
  case isFalse => exact (h.decideAll.putBeacon _).noticeIfChanged

end HomeOk

namespace Tracked

variable {s : State}

theorem startGap (h : Tracked s) (p : Nat) : Tracked (s.startGap p) := h.setCve rfl

theorem countListen (h : Tracked s) : Tracked s.countListen := by
  unfold State.countListen
  split
  case isTrue listening =>
    have hnone : ∀ r ∈ s.cve.segments, r.claim = .unclaimed := h.none (.inl (by simp [listening]))
    dsimp only
    split
    · refine Tracked.recordOccasion ?_ _
      exact ⟨claimsOk_of_unclaimed hnone, h.onQuay, h.sorted⟩
    · exact h.setCve rfl
  case isFalse => exact h

theorem evaluate (h : Tracked s) : Tracked s.evaluate := by
  unfold State.evaluate
  split
  · exact h.startGap _
  · exact ((h.toHomeOk.decideAll.startGap _).putBeacon _).noticeIfChanged

theorem beaconExpiry (h : Tracked s) : Tracked s.beaconExpiry := by
  unfold State.beaconExpiry
  split
  · exact h.countListen.evaluate
  · exact h

/-! ### Samples, shadows and neighbours -/

theorem applySample (h : Tracked s) (g margin : Byte) : Tracked (s.applySample g margin) := by
  unfold State.applySample
  split
  · split
    · refine h.setCve (List.ext_getElem? fun j => ?_)
      cases hj : s.cve.segments[j]? <;> simp [List.getElem?_modify, hj, apply_ite Segment.claim, Segment.sample]
    · exact h
  · exact h

theorem setShadows (h : Tracked s) (shadowMap : Word16) : Tracked (s.setShadows shadowMap) := by
  unfold State.setShadows
  split
  · refine h.setCve (List.ext_getElem? fun j => ?_)
    cases hj : s.cve.segments[j]? <;> simp [hj]
  · exact h

theorem beaconIntake (h : Tracked s) (sender flags : Byte) (interval : Word16) (c : Byte) (items : List BeaconItem) :
    Tracked (s.beaconIntake sender flags interval c items) := by
  unfold State.beaconIntake
  dsimp only
  split
  · exact h
  · split
    · exact h.setNbt _
    · split
      · exact h.setNbt _
      · split
        · exact h.setNbt _
        · exact h.setFlag _

theorem stalePoint (h : Tracked s) (address : Byte) : Tracked (s.stalePoint address) := by
  unfold State.stalePoint
  split
  · split
    · exact h.setNbt _
    · exact h
  · exact h

theorem removalPoint (h : Tracked s) (address : Byte) : Tracked (s.removalPoint address) := by
  unfold State.removalPoint
  split
  · split
    · exact h.setNbt _
    · exact h
  · exact h

/-! ### Bundles and reefers -/

theorem closeBuffer (h : Tracked s) (i : Nat) : Tracked (s.closeBuffer i) := by
  obtain ⟨bas, lnc, hb⟩ := s.closeBuffer_frame i
  rw [hb]
  exact (h.setBas _).setLnc _

theorem makeMoves (h : Tracked s) : Tracked s.makeMoves := by
  obtain ⟨bas, lnc, hb⟩ := State.movesUpTo_frame (s.bas.alertIntake.length + s.bas.routineIntake.length) s
  unfold State.makeMoves
  rw [hb]
  exact (h.setBas _).setLnc _

theorem forward (h : Tracked s) (r : Report) : Tracked (s.forward r) := by
  obtain ⟨bas, lnc, hb⟩ := s.forward_frame r
  rw [hb]
  exact (h.setBas _).setLnc _

theorem bundleWait (h : Tracked s) : Tracked s.bundleWait := by
  unfold State.bundleWait
  split
  · split
    · exact (h.closeBuffer _).makeMoves
    · exact h
  · exact h

theorem gdsIntake (h : Tracked s) (station : Byte) (reports : List Report) : Tracked (s.gdsIntake station reports) := by
  obtain ⟨gds, hg⟩ := s.gdsIntake_frame station reports
  rw [hg]
  exact h.setGds _

theorem bundleOutcome (h : Tracked s) (sent : Bool) (i : Nat) : Tracked (s.bundleOutcome sent i) := by
  unfold State.bundleOutcome
  split
  · cases sent with
    | true => exact Tracked.makeMoves ((h.gdsIntake _ _).setBas _)
    | false => exact Tracked.makeMoves (h.setBas _)
  · exact h

theorem takeInHand (h : Tracked s) : Tracked s.takeInHand := by
  unfold State.takeInHand
  split
  · exact (h.setGds _).queueDrain _
  · exact h

theorem drainRequest (h : Tracked s) (limit : Nat) : Tracked (s.drainRequest limit) := by
  unfold State.drainRequest
  split
  · split
    · exact h.queueDrain _
    · exact (h.setGds _).takeInHand
  · exact h.queueDrain _

theorem enterHoldback (h : Tracked s) (r : Report) (margin : Byte) : Tracked (s.enterHoldback r margin) := by
  obtain ⟨rfi, hr, -⟩ := s.enterHoldback_frame r margin
  rw [hr]
  exact h.setRfi _

theorem routeReport (h : Tracked s) (r : Report) (margin : Byte) : Tracked (s.routeReport r margin) := by
  unfold State.routeReport
  split
  · split
    · exact h
    · split
      · exact Tracked.forward (h.setRfi _) _
      · exact Tracked.enterHoldback (h.setRfi _) _ _
  · split
    · split
      · exact h
      · split
        · exact h.setRfi _
        · split
          · exact Tracked.forward (Tracked.setRfi (h.setRfi _) _) _
          · exact (h.setFlag _).setRfi _
    · split
      · exact h.enterHoldback _ _
      · split
        · exact Tracked.forward (h.setRfi _) _
        · exact (h.setFlag _).enterHoldback _ _

theorem reeferIntake (h : Tracked s) (tag : Tag) (g seq : Byte) (setPoint supply : Word16) (alarm margin : Byte) :
    Tracked (s.reeferIntake tag g seq setPoint supply alarm margin) := by
  unfold State.reeferIntake
  split
  · exact h
  · exact h.routeReport _ _

theorem holdbackDue (h : Tracked s) (t : Tag) : Tracked (s.holdbackDue t) := by
  unfold State.holdbackDue
  split
  · split
    · exact Tracked.forward (h.setRfi _) _
    · exact h
  · exact h

theorem overheardBundle (h : Tracked s) (reports : List Report) : Tracked (s.overheardBundle reports) := by
  obtain ⟨rfi, hr⟩ := State.overheardBundle_frame reports s
  rw [hr]
  exact h.setRfi _

/-! ### Attempts and received frames -/

theorem gapEnds (h : Tracked s) : Tracked s.gapEnds := by
  unfold State.gapEnds
  split
  · split
    · split
      · split
        · exact h.withdrawCrane _
        · dsimp only
          split
          · exact Tracked.setBas (h.setLnc _) _
          · exact h.setLnc _
      · exact h
    · exact h
  · exact h

theorem frameSent (h : Tracked s) (c : TxClass) (f : TxFrame) : Tracked (s.frameSent c f) := by
  cases c with
  | crane => exact h
  | handover => exact h.handoverSent _
  | beacon => exact h.enterSuccessor
  | bundle => exact h.bundleOutcome _ _

theorem frameDiscarded (h : Tracked s) (c : TxClass) (f : TxFrame) : Tracked (s.frameDiscarded c f) := by
  cases c with
  | crane => exact h.craneFrameLost _
  | handover => exact h.handoverDiscarded _
  | beacon => exact h
  | bundle => exact h.bundleOutcome _ _

theorem transmissionDone (h : Tracked s) : Tracked s.transmissionDone := by
  unfold State.transmissionDone
  split
  · split
    · exact ((h.setLnc _).frameSent _ _).endAttempt
    · exact h.endAttempt
  · exact h

theorem collide (h : Tracked s) : Tracked s.collide := by
  unfold State.collide
  split
  · split
    · dsimp only
      split
      · exact h.enterSuccessor.endAttempt
      · split
        · exact ((h.setLnc _).frameDiscarded _ _).endAttempt
        · exact ((h.setLnc _).attemptCut _).endAttempt
    · exact h.endAttempt
  · exact h

theorem uplinkAged (h : Tracked s) (place : Nat) : Tracked (s.uplinkAged place) := by
  unfold State.uplinkAged
  split
  · split
    · exact h.withdrawCrane _
    · exact h
  · exact h

theorem downlinkAged (h : Tracked s) (place : Nat) : Tracked (s.downlinkAged place) := by
  unfold State.downlinkAged
  split
  · split
    · exact h.withdrawCrane _
    · exact h
  · exact h

theorem dispatchFrame (h : Tracked s) (sender : Byte) (b : FrameBody) : Tracked (s.dispatchFrame sender b) := by
  cases b with
  | beacon => exact h.beaconIntake _ _ _ _ _
  | craneUp => exact h.passUplink _ _ _ _ _ _
  | craneDown => exact h.joinDownlink _ _ _ _
  | offer => exact h.offerReceived _ _ _ _ _ _
  | take => exact h.takeReply _ _ _
  | refuse => exact h.refuseReply _ _ _ _
  | commit => exact h.commitReceived _ _ _
  | cancel => exact h.cancelReceived _ _ _
  | bundle => exact (h.overheardBundle _).gdsIntake _ _

theorem checkedFrame (h : Tracked s) (f : Frame) : Tracked (s.checkedFrame f) := by
  unfold State.checkedFrame
  split
  · exact h
  · split
    · exact h.setFlag _
    · split
      · exact h.dispatchFrame _ _
      · exact h

theorem checkedBytes (h : Tracked s) (bytes : List Byte) : Tracked (s.checkedBytes bytes) := by
  unfold State.checkedBytes
  split
  · exact h.checkedFrame _
  · exact h

theorem receive {take : State → State} (h : Tracked s) (htake : ∀ t, Tracked t → Tracked (take t)) :
    Tracked (s.receive take) := by
  unfold State.receive
  dsimp only
  split
  · exact (htake _ h.carrierAppears).carrierEnds
  · exact h.carrierAppears.carrierEnds

theorem receive_checkedFrame (h : Tracked s) (f : Frame) : Tracked (s.receive fun t => t.checkedFrame f) :=
  h.receive fun _ ht => ht.checkedFrame f

/-! ### Resets, messages and the parser -/

/-- A reset leaves no record and no context (R3, R76). -/
theorem of_blocksAtReset (hcve : s.cve = .reset) (hcru : s.cru = .reset) (hcfg : s.stc.loaded = .none) : Tracked s where
  toClaimsOk := claimsOk_of_unclaimed (by simp [hcve, Cve.reset])
  onQuay := by simp [State.cfg, hcve, hcfg, Cve.reset, Settings.empty]
  sorted := by simp [hcru, Cru.reset]

theorem warmRestart (s : State) (cause : ResetCause) : Tracked (s.warmRestart cause) := of_blocksAtReset rfl rfl rfl

theorem coldReset (s : State) : Tracked s.coldReset := by
  unfold State.coldReset
  dsimp only
  split
  · exact of_blocksAtReset rfl rfl rfl
  · exact of_blocksAtReset rfl rfl rfl

theorem supervisionStep (h : Tracked s) : Tracked s.supervisionStep := by
  obtain ⟨rlc, hs, hlost⟩ := s.supervisionStep_frame
  rw [hs]
  exact h.setRlc fun hx => by simp [hlost] at hx

theorem dispatchMessage (h : Tracked s) (m : Inbound) : Tracked (s.dispatchMessage m) := by
  cases m with
  | radioStatus => exact h.setShadows _
  | qualitySample => exact h.applySample _ _
  | reeferReport => exact (h.applySample _ _).reeferIntake _ _ _ _ _ _ _
  | craneAttach => exact h.attach _ _
  | cranePosition => exact h.position _ _
  | craneDetach => exact h.detach _
  | craneUplink crane =>
    unfold State.dispatchMessage
    dsimp only
    split
    · exact (h.applySample _ _).uplink _ _ _
    · exact h.uplink _ _ _
  | craneDownlink =>
    unfold State.dispatchMessage
    dsimp only
    split
    · exact h.downlink _ _ _ _
    · exact h.setFlag _
  | drain =>
    unfold State.dispatchMessage
    dsimp only
    split
    · exact h.drainRequest _
    · exact h.setFlag _
  | hold => exact h.setRlc id
  | resume => exact h.setRlc id
  | stateQuery => exact h.recordOccasion _
  | restart => exact warmRestart s _

theorem validMessage (h : Tracked s) (m : Inbound) : Tracked (s.validMessage m) := by
  unfold State.validMessage
  split
  · exact warmRestart s _
  · split
    · exact h
    · split
      · exact h.recordOccasion _
      · exact h
    · exact h.supervisionStep.dispatchMessage _
    · exact h.supervisionStep.dispatchMessage _

theorem messageArrives (h : Tracked s) (m : Inbound) : Tracked (s.messageArrives m) := by
  have hwaiting : Tracked (s.setRlc { s.rlc with parser := .waiting }) := h.setRlc id
  unfold State.messageArrives State.checkedMessage
  split
  · exact h
  · split
    · exact hwaiting.validMessage _
    · exact hwaiting.setFlag _

theorem completeMessage (h : Tracked s) (bytes : List Byte) : Tracked (s.completeMessage bytes) := by
  unfold State.completeMessage
  split
  · exact h
  · exact h.setFlag _
  · exact h.validMessage _

theorem receiveByte (h : Tracked s) (b : Byte) : Tracked (s.receiveByte b) := by
  have hparsed : Tracked (s.setRlc { s.rlc with parser := (parseByte s.now s.rlc.parser b).1 }) := h.setRlc id
  unfold State.receiveByte
  dsimp only
  split
  · exact hparsed.completeMessage _
  · exact hparsed

theorem receiveBytes (h : Tracked s) (bytes : List Byte) : Tracked (s.receiveBytes bytes) := by
  unfold State.receiveBytes
  split
  · exact h
  · exact List.foldlRecOn bytes _ h fun _ ht b _ => ht.receiveByte b

theorem parserPause (h : Tracked s) : Tracked s.parserPause := by
  unfold State.parserPause
  split
  · split
    · exact h.setRlc id
    · exact h
  · exact h

end Tracked

end Sys2Proof.Machine
end

