-- ==== Sys2Proof/Proofs/CoverageClaims.lean ====
section
/-!
PROOFS. R35 at the beginning of the radio-lost condition (R47, R83), at the end of LOAD and over the link's take; with these
every command keeps it, which is the statement ClaimsKept.
-/

namespace Sys2Proof.Machine

/-! ### Contexts freed under radio loss (R83) -/

/-- `t` comes from `s` by contexts that left it: nothing is claimed anew, and the rest of what R35 speaks of stays. -/
structure State.Leaves (s t : State) : Prop where
  stc : t.stc = s.stc
  radioLost : t.rlc.radioLost = s.rlc.radioLost
  home : HomeOk s → HomeOk t
  unclaimed : (∀ r ∈ s.cve.segments, r.claim = .unclaimed) → ∀ r ∈ t.cve.segments, r.claim = .unclaimed

namespace State.Leaves

variable {s t u : State}

theorem refl (s : State) : s.Leaves s := ⟨rfl, rfl, id, id⟩

theorem trans (h : s.Leaves t) (h' : t.Leaves u) : s.Leaves u :=
  ⟨h'.stc.trans h.stc, h'.radioLost.trans h.radioLost, h'.home ∘ h.home, h'.unclaimed ∘ h.unclaimed⟩

theorem noticeIfChanged (s : State) : s.Leaves s.noticeIfChanged := by
  unfold State.noticeIfChanged
  dsimp only
  split
  · exact refl s
  · exact ⟨rfl, rfl, fun h => ⟨h.onQuay, h.sorted⟩, id⟩

theorem departure (s : State) (g : Byte) : s.Leaves (s.departure g) := by
  unfold State.departure
  split
  · split
    · refine trans ?_ (noticeIfChanged _)
      refine ⟨rfl, rfl, fun h => ⟨by simpa using h.onQuay, h.sorted⟩, fun h r hr => ?_⟩
      obtain ⟨j, hj⟩ := List.mem_iff_getElem?.1 hr
      rcases getElem?_releaseHold hj with hu | ⟨-, hj⟩
      · exact hu
      · exact h r (List.mem_of_getElem? hj)
    · exact refl s
  · exact refl s

theorem freeContext (s : State) (c : Context) : s.Leaves (s.freeContext c) := by
  have hdrop : s.Leaves (s.dropContext c.crane) :=
    ⟨rfl, rfl, fun h => ⟨h.onQuay, tableErase_sorted h.sorted⟩, id⟩
  unfold State.freeContext
  dsimp only
  split
  · exact hdrop.trans (departure _ _)
  · exact hdrop

theorem freeContexts (s : State) (cs : List Context) : s.Leaves (s.freeContexts cs) :=
  List.foldlRecOn cs _ (refl s) fun t ht c _ => ht.trans (freeContext t c)

end State.Leaves

/-- The withdrawal leaves the radio-lost condition as it stands. -/
theorem State.withdraw_radioLost (s : State) : s.withdraw.rlc.radioLost = s.rlc.radioLost := by
  have hdecide : s.decideAll.rlc = s.rlc := by
    obtain ⟨rfi, hd, -⟩ := s.decideAll_frame
    rw [hd]
    rfl
  have hput : ∀ (t : State) (f : Frame), (t.putBeacon f).rlc = t.rlc := by
    intro t f
    rcases t.putBeacon_frame f with ⟨lnc, hl⟩ | hl
    · rw [hl]
      rfl
    · rw [hl]
      rfl
  unfold State.withdraw
  split
  · rfl
  · rw [(State.Leaves.noticeIfChanged _).radioLost, hput, hdecide]

/-- The beginning of the radio-lost condition: the withdrawal, wherever it falls among the departures, leaves every home
segment UNCLAIMED, and the departures after it claim nothing (R47, R83). -/
theorem HomeOk.withdrawAndFree {s : State} (h : HomeOk s) (hlost : s.rlc.radioLost = true) :
    Tracked s.withdrawAndFree := by
  have cleared (before after : List Context) (n : Nat) :
      Tracked ((((s.setChoices n).freeContexts before).withdraw).freeContexts after) := by
    have hbefore := State.Leaves.freeContexts (s.setChoices n) before
    have hwithdrawn : Tracked ((s.setChoices n).freeContexts before).withdraw :=
      (hbefore.home ⟨h.onQuay, h.sorted⟩).withdraw
    have hstill : ((s.setChoices n).freeContexts before).withdraw.rlc.radioLost = true := by
      rw [State.withdraw_radioLost, hbefore.radioLost]
      exact hlost
    have hafter := State.Leaves.freeContexts ((s.setChoices n).freeContexts before).withdraw after
    exact ⟨claimsOk_of_unclaimed (hafter.unclaimed (hwithdrawn.none (.inr hstill))), hafter.home hwithdrawn.toHomeOk⟩
  exact cleared _ _ _

/-! ### A settled home range, and the downlink head due first -/

/-- A home range settled from a record lies on the quay (R179). -/
theorem onQuay_settingsOf (r : Vector Byte 24) : (settingsOf r).homeFirst + (settingsOf r).homeCount ≤ 128 := by
  simp only [settingsOf, settledCount]
  generalize (if roleOf (recordByte r 1) = .edge ∧ min 16 (recordByte r 3) = 0 then 1 else min 16 (recordByte r 3)) = n
  split <;> omega

/-- The context whose downlink head is taken stands in the table (R166). -/
theorem State.mem_of_downlinkHead {s : State} {c : Context} {e : Downlink} (h : s.downlinkHead = some (c, e)) :
    c ∈ s.cru.contexts := by
  have hall : ∀ x, s.downlinkHead = some x → x.1 ∈ s.cru.contexts := by
    unfold State.downlinkHead
    refine List.foldlRecOn (motive := fun best => ∀ x : Context × Downlink, best = some x → x.1 ∈ s.cru.contexts) _ _
      (fun x hx => by cases hx) fun best hbest d hd x hx => ?_
    have hmem : d ∈ s.cru.contexts := (List.mem_filter.1 hd).1
    split at hx
    · exact hbest x hx
    · cases hx
      exact hmem
    · split at hx
      · cases hx
        exact hmem
      · exact hbest x hx
  exact hall (c, e) h

namespace Tracked

variable {s : State}

theorem beginRadioLost (h : Tracked s) : Tracked s.beginRadioLost := by
  unfold State.beginRadioLost
  dsimp only
  rw [State.recordOccasion_frame]
  exact HomeOk.withdrawAndFree ⟨h.onQuay, h.sorted⟩ rfl

theorem supervisionExpiry (h : Tracked s) : Tracked s.supervisionExpiry := by
  unfold State.supervisionExpiry
  split
  · split
    · exact warmRestart s _
    · exact h.beginRadioLost
  · exact h

/-! ### The end of LOAD (R176 to R181) -/

/-- Outside RUN the entry to HALT changes no claim. -/
theorem enterHalt (h : Tracked s) (hrun : s.stc.runState ≠ .run) (reason : HaltReason) :
    Tracked (s.enterHalt reason) := by
  refine Tracked.recordOccasion ?_ _
  exact ⟨claimsOk_of_unclaimed (h.none (.inl hrun)), h.onQuay, h.sorted⟩

/-- The records of a home range on the quay, as LOAD leaves them (R3). -/
theorem enterListen {c : Settings} (h : Tracked s) (hc : c.homeFirst + c.homeCount ≤ 128) :
    Tracked (s.enterListen c) := by
  have hrecords : Tracked ((s.setStc { s.stc with runState := .listen, loaded := some c, readSince := .none }).setCve
      { s.cve with
        segments := List.replicate c.homeCount Segment.reset, listenCount := 0, beaconGap := c.beaconBase,
        beaconDue := some (s.now + millis c.beaconBase) }) := by
    refine ⟨claimsOk_of_unclaimed fun r hr => ?_, ?_, h.sorted⟩
    · rw [List.eq_of_mem_replicate hr]
      rfl
    · simpa [State.cfg] using hc
  have hlisten : Tracked (State.recordOccasion .listen
      ((s.setStc { s.stc with runState := .listen, loaded := some c, readSince := .none }).startBlocks c)) :=
    Tracked.recordOccasion (Tracked.setRlc ((hrecords.setBas _).setLnc _) (by exact id)) _
  unfold State.enterListen
  dsimp only
  split
  · exact hlisten.enterFault _
  · exact hlisten

theorem readComplete (h : Tracked s) (hread : s.stc.readSince ≠ .none → s.stc.runState = .load) (r : Vector Byte 24) :
    Tracked (s.readComplete r) := by
  unfold State.readComplete
  split
  case isTrue => exact h
  case isFalse reading =>
    have hrun : s.stc.runState ≠ .run := by simp [hread reading]
    split
    · exact h.enterHalt hrun _
    · split
      · exact h.enterListen (onQuay_settingsOf r)
      · exact h.enterHalt hrun _

theorem readyTimeout (h : Tracked s) (hread : s.stc.readSince ≠ .none → s.stc.runState = .load) :
    Tracked s.readyTimeout := by
  unfold State.readyTimeout
  split
  case isTrue due =>
    have hreading : s.stc.readSince ≠ .none := by
      intro hn
      simp [hn, dueBy] at due
    exact h.enterHalt (by simp [hread hreading]) _
  case isFalse => exact h

/-! ### The link's take (R167) -/

theorem takeControl (h : Tracked s) (m : ControlMsg) : Tracked (s.takeControl m) := by
  cases m with
  | coverageNotice => exact h.setRlc id
  | craneRedirect => exact h.setRlc id
  | craneReject => exact h.setRlc id
  | stateReport => exact h.setRlc id

theorem handOver (h : Tracked s) : Tracked s.handOver := by
  rw [State.handOver_frame]
  exact Tracked.setRlc (h.setGds _) (by exact id)

theorem takeDrain (h : Tracked s) (m : DrainMsg) : Tracked (s.takeDrain m) := by
  have hqueue : Tracked (s.setRlc { s.rlc with drainQueue := s.rlc.drainQueue.drop 1 }) := h.setRlc id
  cases m with
  | record => exact Tracked.handOver (hqueue.setRlc (by exact id))
  | ended => exact hqueue.setRlc id

theorem takeDownlink {c : Context} (h : Tracked s) (hc : c ∈ s.cru.contexts) (e : Downlink) :
    Tracked (s.takeDownlink c e) := by
  have hfound : s.contextOf c.crane = some c := (tableFind_eq_some h.sorted).2 ⟨hc, rfl⟩
  have hput : Tracked (s.putContext { c with queue := c.queue.drop 1 }) :=
    h.changeContext hfound rfl fun hactive => ⟨hactive, rfl⟩
  exact hput.setRlc id

theorem takeTerminal (h : Tracked s) (m : TermUplink) : Tracked (s.takeTerminal m) := h.setRlc id

theorem takeCrane {t : State} (h : Tracked s) (ht : s.takeCrane = some t) : Tracked t := by
  unfold State.takeCrane at ht
  split at ht
  case h_1 hd =>
    cases ht
    split
    · exact h.takeTerminal _
    · exact h.takeDownlink (s.mem_of_downlinkHead hd) _
  case h_2 =>
    cases ht
    exact h.takeTerminal _
  case h_3 hd =>
    cases ht
    exact h.takeDownlink (s.mem_of_downlinkHead hd) _
  case h_4 => cases ht

theorem linkTake (h : Tracked s) : Tracked s.linkTake := by
  unfold State.linkTake
  split
  · exact h
  · split
    · exact Tracked.takeControl (h.setRlc (by exact id)) _
    · split
      case h_1 ht => exact h.takeCrane ht
      case h_2 =>
        split
        · exact h.takeDrain _
        · exact h

/-! ### Every command -/

theorem of_sound (h : Sound s) : Tracked s := by
  refine ⟨h.claims, ?_, h.cranes.sorted⟩
  cases hrun : s.running with
  | true =>
    obtain ⟨c, hc, hok⟩ := h.start.loaded hrun
    refine ⟨(h.segments.count hrun).le, ?_⟩
    simpa [State.cfg, hc] using hok.onQuay.2
  | false =>
    obtain ⟨hnone, hcve, -⟩ := h.start.unloaded hrun
    simp [State.cfg, hnone, hcve, Cve.reset, Settings.empty]

/-- What a command does before the link's take keeps R35. -/
theorem exec_done (h : Tracked s) (hread : s.stc.readSince ≠ .none → s.stc.runState = .load) (c : Instr) :
    ∃ u, exec c s = done u ∧ Tracked u := by
  have ha : ∀ dt, Tracked (s.advance dt) := h.advance
  cases c with
  | powerUp => exact ⟨_, rfl, coldReset _⟩
  | resetInputAsserted => exact ⟨_, rfl, coldReset _⟩
  | resetInputReleased => exact ⟨_, rfl, coldReset _⟩
  | configReadComplete dt record => exact ⟨_, rfl, (ha dt).readComplete hread record⟩
  | configReadyTimeout dt => exact ⟨_, rfl, (ha dt).readyTimeout hread⟩
  | parserTimeout dt => exact ⟨_, rfl, (ha dt).parserPause⟩
  | inboundMessageRejected dt bytes => exact ⟨_, rfl, (ha dt).receiveBytes bytes⟩
  | radioStatus dt | qualitySample dt | reeferReport dt | craneAttach dt | cranePosition dt | craneDetach dt
  | craneUplink dt | craneDownlink dt | drain dt | hold dt | resume dt | stateQuery dt | restart dt =>
    exact ⟨_, rfl, (ha dt).messageArrives _⟩
  | outboundMessageSent dt => exact ⟨_, rfl, (ha dt).setRlc id⟩
  | supervisionTimerExpiry dt => exact ⟨_, rfl, (ha dt).supervisionExpiry⟩
  | beaconTimerExpiry dt => exact ⟨_, rfl, (ha dt).beaconExpiry⟩
  | neighbourStalePoint dt => exact ⟨_, rfl, (ha dt).stalePoint _⟩
  | neighbourRemovalPoint dt => exact ⟨_, rfl, (ha dt).removalPoint _⟩
  | craneStaleExpiry dt => exact ⟨_, rfl, (ha dt).staleWatch _⟩
  | craneUpAgeLimit dt => exact ⟨_, rfl, (ha dt).uplinkAged _⟩
  | craneDownRemainingZero dt => exact ⟨_, rfl, (ha dt).downlinkAged _⟩
  | downlinkDeadline dt => exact ⟨_, rfl, (ha dt).downlinkDue _ _⟩
  | offerGuardExpiry dt => exact ⟨_, rfl, (ha dt).offerGuard _⟩
  | pendingGuardExpiry dt => exact ⟨_, rfl, (ha dt).pendingGuard _⟩
  | holdbackExpiry dt => exact ⟨_, rfl, (ha dt).holdbackDue _⟩
  | bundleWaitExpiry dt => exact ⟨_, rfl, (ha dt).bundleWait⟩
  | deferGapEnd dt => exact ⟨_, rfl, (ha dt).gapEnds⟩
  | transmissionComplete dt => exact ⟨_, rfl, (ha dt).transmissionDone⟩
  | collision dt => exact ⟨_, rfl, (ha dt).collide⟩
  | carrierAppears dt => exact ⟨_, rfl, (ha dt).carrierAppears⟩
  | jabberDetected dt => exact ⟨_, rfl, (ha dt).jabber⟩
  | lineOpenReported dt => exact ⟨_, rfl, (ha dt).lineOpens⟩
  | faultRecoveryExpiry dt => exact ⟨_, rfl, (ha dt).faultEnds⟩
  | receivedFrameDiscarded dt bytes => exact ⟨_, rfl, (ha dt).receive fun _ ht => ht.checkedBytes bytes⟩
  | addressClash dt => exact ⟨_, rfl, (ha dt).receive fun _ ht => ht.setFlag _⟩
  | beacon dt | craneUp dt | craneDown dt | offer dt | take dt | refuse dt | commit dt | cancel dt | bundle dt =>
    exact ⟨_, rfl, (ha dt).receive_checkedFrame _⟩
  | carrierEnds dt => exact ⟨_, rfl, (ha dt).carrierEnds⟩
  | lineConditionOk dt => exact ⟨_, rfl, (ha dt).lineOk⟩

theorem of_exec {t : State} (h : Tracked s) (hread : s.stc.readSince ≠ .none → s.stc.runState = .load) {c : Instr}
    (ht : exec c s = .next t) : Tracked t := by
  obtain ⟨u, hu, htracked⟩ := h.exec_done hread c
  rw [hu] at ht
  cases ht
  exact htracked.linkTake

/-- A step from a state with the invariants keeps R35; an idle one changes nothing (log 3). -/
theorem of_step {t : State} (h : Sound s) (ht : step s = .next t) : Tracked t := by
  unfold step at ht
  split at ht
  case h_1 c rest _ =>
    have hrest : Tracked (s.setPending rest) := (of_sound h).setPending rest
    exact hrest.of_exec h.start.reading ht
  case h_2 =>
    cases ht
    exact of_sound h

end Tracked

/-- Settles O7: at reset there is no record, and a step keeps R35 with what it rests on. -/
theorem claimsKept : Obligations.ClaimsKept :=
  ⟨claimsOk_of_unclaimed fun _ hr => (List.not_mem_nil hr).elim, fun _ _ h ht => (Tracked.of_step h ht).toClaimsOk⟩

end Sys2Proof.Machine
end

