-- ==== Sys2Proof/Proofs/NoHomeRange.lean ====
section
/-!
PROOFS. The expiry of the beacon timer at a station with no home range (R39): the statement NoHomeRangeExpiry.
-/

namespace Sys2Proof.Machine

/-- The load class of a penalty, by its three bounds (R16). -/
theorem loadClass_eq (p : Nat) :
    loadClass p = if 192 ≤ p then 3 else if 128 ≤ p then 2 else if 64 ≤ p then 1 else 0 := by
  unfold loadClass
  split_ifs <;> omega

/-- What waits after a message has joined the control queue waited before, or is that message (R165). -/
theorem State.mem_of_mem_queueControl {s : State} {m x : ControlMsg} (h : x ∈ (s.queueControl m).rlc.control) :
    x ∈ s.rlc.control ∨ x = m := by
  rcases List.mem_append.1 h with hkept | hnew
  · by_cases hroom : s.rlc.control.length < Config.queueCapacity
    · rw [if_pos hroom] at hkept
      exact .inl hkept
    · rw [if_neg hroom] at hkept
      exact .inl (List.mem_of_mem_eraseP hkept)
  · exact .inr (List.mem_singleton.1 hnew)

/-- Recording an occasion queues no message but a STATE REPORT (R171). -/
theorem State.mem_of_mem_recordOccasion {s : State} {o : Occasion} {x : ControlMsg}
    (h : x ∈ (s.recordOccasion o).rlc.control) : x ∈ s.rlc.control ∨ x = .stateReport := by
  unfold State.recordOccasion at h
  dsimp only at h
  split at h
  · exact State.mem_of_mem_queueControl h
  · exact .inl h

/-- RLC after an expiry of the beacon timer has counted: the expiry that enters RUN records it (R37, R171). -/
def State.countedRlc (s : State) : Rlc :=
  if s.evaluatedIn = s.stc.runState then s.rlc else (State.recordOccasion .run s).rlc

theorem State.countedRlc_advance (s : State) (dt : Micros) : (s.advance dt).countedRlc = s.countedRlc := by
  unfold State.countedRlc
  rw [State.recordOccasion_rlc (s := s.advance dt) (t := s) _ rfl rfl]
  rfl

/-- A due expiry at a station with no home range counts in LISTEN and starts the next gap, and that is all (R37, R39). -/
theorem State.beaconExpiry_of_bare {s : State} (hlisten : s.stc.runState = .listen → s.cve.listenCount < 12)
    (hrun : s.running = true) (hbare : s.cfg.homeCount = 0) (hdue : ∃ d, s.cve.beaconDue = some d ∧ d ≤ s.now) :
    s.beaconExpiry =
      ((s.setCve { s.cve with
          listenCount := if s.stc.runState = .listen then s.cve.listenCount + 1 else s.cve.listenCount,
          beaconGap := s.cfg.beaconBase * (1 + loadClass s.penalty),
          beaconDue := some (s.now + millis (s.cfg.beaconBase * (1 + loadClass s.penalty))) }).setStc
        { s.stc with runState := s.evaluatedIn }).setRlc s.countedRlc := by
  have hfires : (s.running && dueBy s.now s.cve.beaconDue) = true := by
    rw [hrun, dueBy_eq_true.2 hdue]
    rfl
  have hcfg : s.countListen.cfg = s.cfg := by
    rw [s.countListen_eq hlisten]
    rfl
  rw [State.beaconExpiry, if_pos hfires, State.evaluate, if_pos (by rw [hcfg]; exact hbare), s.countListen_eq hlisten,
    apply_ite State.rlc]
  rfl

/-- Settles O33, by `beaconExpiry_of_bare`; the slot is empty before and after (R39). -/
theorem noHomeRangeExpiry : Obligations.NoHomeRangeExpiry := by
  intro dt s h hrun hbare hdue p cls gap
  have hgap : (s.advance dt).cfg.beaconBase * (1 + loadClass (s.advance dt).penalty) = gap := by
    rw [loadClass_eq]
    rfl
  have hexpiry := State.beaconExpiry_of_bare (s := s.advance dt) h.segments.listening hrun hbare hdue
  rw [hgap, s.countedRlc_advance] at hexpiry
  refine ⟨_, congrArg done hexpiry, rfl, rfl, rfl, h.line.slot hbare, rfl, rfl, rfl, rfl, rfl, fun hsame => ?_,
    fun hruns => ?_, fun claimed held hnotice => ?_⟩
  · exact if_pos hsame
  · have hload : s.stc.runState ≠ .load := by
      intro hload
      simp [State.running, hload] at hrun
    rw [State.setRlc_rlc, State.countedRlc, if_neg hruns]
    refine ⟨?_, State.report_of_recordOccasion hload⟩
    rw [State.recordOccasion_frame]
    rfl
  · rw [State.setRlc_rlc, State.countedRlc] at hnotice
    split at hnotice
    · exact hnotice
    · exact (State.mem_of_mem_recordOccasion hnotice).resolve_right (by simp)

end Sys2Proof.Machine
end

