-- ==== Sys2Proof/Proofs/DeferOpens.lean ====
section
/-!
PROOFS. The opening of a DEFER (R59, R60) and the generator that its gap is drawn from (R63): the statement DeferOpens.
-/

namespace Sys2Proof.Machine

/-! ### The generator (R63) -/

/-- The feedback bit comes in as bit 1. -/
theorem getLsbD_advanceGen_zero (g : Word16) : (advanceGen g).getLsbD 0 = feedback g := by
  cases h : feedback g <;> simp [advanceGen, h]

/-- Every other bit is the one below it before the advance. -/
theorem getLsbD_advanceGen_succ (g : Word16) {i : Nat} (hi : i < 15) :
    (advanceGen g).getLsbD (i + 1) = g.getLsbD i := by
  have hshift : (g <<< 1).getLsbD (i + 1) = g.getLsbD i := by
    simp [BitVec.getLsbD_shiftLeft]
    omega
  have hone : (if feedback g then 1 else 0 : Word16).getLsbD (i + 1) = false := by
    split <;> simp
  rw [advanceGen, BitVec.getLsbD_or, hshift, hone, Bool.or_false]

/-- No two registers advance to the same: the fifteen lower bits stand in the result as they are, and bit 16 is what the
feedback bit adds to three of them. -/
theorem advanceGen_injective : Function.Injective advanceGen := by
  intro g h heq
  have hlow (i : Nat) (hi : i < 15) : g.getLsbD i = h.getLsbD i := by
    rw [← getLsbD_advanceGen_succ g hi, heq, getLsbD_advanceGen_succ h hi]
  have hfeedback : feedback g = feedback h := by
    rw [← getLsbD_advanceGen_zero, heq, getLsbD_advanceGen_zero]
  have htop : g.getLsbD 15 = h.getLsbD 15 := by
    rw [feedback, feedback, hlow 13 (by decide), hlow 12 (by decide), hlow 10 (by decide)] at hfeedback
    simpa only [Bool.xor_left_inj] using hfeedback
  refine BitVec.eq_of_getLsbD_eq fun i hi => ?_
  obtain hi | rfl : i < 15 ∨ i = 15 := by omega
  · exact hlow i hi
  · exact htop

/-- The register never runs into 0: only 0 advances to 0. -/
theorem advanceGen_ne_zero {g : Word16} (hg : g ≠ 0) : advanceGen g ≠ 0 :=
  advanceGen_injective.ne (a₂ := 0) hg

theorem lowBits_lt (j : Nat) (g : Word16) : lowBits j g < 2 ^ j :=
  Nat.mod_lt _ (Nat.two_pow_pos j)

/-! ### The gap (R60) -/

/-- Without a base backoff the generator is drawn from for a repeated attempt alone. -/
theorem gapOf_of_noBase {c : TxClass} (hc : c.hasBase = false) (n : Nat) (g : Word16) :
    gapOf c n g =
      if n = 0 then (c.gap, g) else (c.gap + 20 * lowBits (min n 4) (advanceGen g), advanceGen g) := by
  split <;> simp [gapOf, Config.slot, *]

/-- With a base backoff the first draw is its, and the second the collision backoff's. -/
theorem gapOf_of_hasBase {c : TxClass} (hc : c.hasBase = true) (n : Nat) (g : Word16) :
    gapOf c n g =
      if n = 0 then (c.gap + 20 * lowBits 4 (advanceGen g), advanceGen g)
      else (c.gap + 20 * lowBits 4 (advanceGen g) + 20 * lowBits (min n 4) (advanceGen (advanceGen g)),
        advanceGen (advanceGen g)) := by
  split <;> simp [gapOf, Config.slot, *]

/-- The longest gap of a class: its class gap, and the most that its draws add below the attempt limit (Table 4-2). -/
def TxClass.longestGap (c : TxClass) : Micros :=
  c.gap + (if c.hasBase then 20 * 15 else 0) + 20 * (2 ^ min (c.limit - 1) 4 - 1)

/-- Below the attempt limit the gap lies between the class gap and the longest gap. -/
theorem gapOf_bounds {c : TxClass} {n : Nat} (hn : n < c.limit) (g : Word16) :
    c.gap ≤ (gapOf c n g).1 ∧ (gapOf c n g).1 ≤ c.longestGap := by
  have hcollision (g' : Word16) : 20 * lowBits (min n 4) g' ≤ 20 * (2 ^ min (c.limit - 1) 4 - 1) := by
    have hdraw := lowBits_lt (min n 4) g'
    have hmost : 2 ^ min n 4 ≤ 2 ^ min (c.limit - 1) 4 := Nat.pow_le_pow_right (by decide) (by omega)
    omega
  have hbase : 20 * lowBits 4 (advanceGen g) ≤ 20 * 15 :=
    Nat.mul_le_mul_left 20 (Nat.le_of_lt_succ (lowBits_lt 4 (advanceGen g)))
  cases hc : c.hasBase with
  | false =>
    rw [gapOf_of_noBase hc, TxClass.longestGap, hc]
    split
    case isTrue => exact ⟨le_rfl, Nat.le_add_right _ _⟩
    case isFalse => exact ⟨Nat.le_add_right _ _, Nat.add_le_add_left (hcollision _) _⟩
  | true =>
    have hfirst := Nat.add_le_add_left hbase c.gap
    rw [gapOf_of_hasBase hc, TxClass.longestGap, hc]
    split
    case isTrue => exact ⟨Nat.le_add_right _ _, Nat.le_add_right_of_le hfirst⟩
    case isFalse =>
      exact ⟨Nat.le_add_right_of_le (Nat.le_add_right _ _), Nat.add_le_add hfirst (hcollision _)⟩

/-! ### The candidate (R59) -/

namespace Lnc

variable {l : Lnc} {f : TxFrame} {rest : List TxFrame}

theorem candidate_of_class0 (h : l.class0 = f :: rest) : l.candidate = some (.crane, f) := by
  simp [candidate, h]

theorem candidate_of_class1 (h0 : l.class0 = []) (h : l.class1 = f :: rest) : l.candidate = some (.handover, f) := by
  simp [candidate, h0, h]

theorem candidate_of_class2 (h0 : l.class0 = []) (h1 : l.class1 = []) (h : l.class2 = f :: rest) :
    l.candidate = some (.beacon, f) := by
  simp [candidate, h0, h1, h]

theorem candidate_of_class3 (h0 : l.class0 = []) (h1 : l.class1 = []) (h2 : l.class2 = []) (h : l.class3 = f :: rest) :
    l.candidate = some (.bundle, f) := by
  simp [candidate, h0, h1, h2, h]

theorem candidate_of_empty (h0 : l.class0 = []) (h1 : l.class1 = []) (h2 : l.class2 = []) (h3 : l.class3 = []) :
    l.candidate = none := by
  simp [candidate, h0, h1, h2, h3]

/-- The candidate is a frame of its class. -/
theorem mem_frames_of_candidate {c : TxClass} (h : l.candidate = some (c, f)) : f ∈ l.frames c := by
  unfold candidate at h
  split at h <;> cases h <;> simp [frames, *]

end Lnc

/-! ### A DEFER opens (R59) -/

/-- The state with a DEFER for a candidate of the class, of the given gap, and the generator after its draws. -/
def State.inDefer (s : State) (c : TxClass) (gap : Micros) (g : Word16) : State :=
  s.setLnc { s.lnc with line := .defer c (s.now + gap), generator := g }

/-- LNC may enter DEFER: active, on an idle line, in IDLE (R59). -/
structure State.MayDefer (s : State) : Prop where
  running : s.running = true
  silent : s.pins.carrier = false
  idle : s.lnc.line = .idle

theorem State.mayDefer_or (s : State) :
    s.MayDefer ∨ s.running = false ∨ s.pins.carrier = true ∨ s.lnc.line ≠ .idle := by
  by_cases hidle : s.lnc.line = .idle
  · cases hrun : s.running
    · exact .inr (.inl rfl)
    · cases hcarrier : s.pins.carrier
      · exact .inl ⟨hrun, hcarrier, hidle⟩
      · exact .inr (.inr (.inl rfl))
  · exact .inr (.inr (.inr hidle))

/-- Without a candidate nothing opens. -/
theorem State.openDefer_of_noCandidate {s : State} (hf : s.lnc.candidate = none) : s.openDefer = s := by
  simp [openDefer, hf]

namespace State.MayDefer

variable {s : State} {c : TxClass} {f : TxFrame}

/-- With a candidate the DEFER opens with its gap. -/
theorem openDefer_of_candidate (h : s.MayDefer) (hf : s.lnc.candidate = some (c, f)) :
    s.openDefer = s.inDefer c (gapOf c f.attempts s.lnc.generator).1 (gapOf c f.attempts s.lnc.generator).2 := by
  simp [openDefer, h.running, h.silent, h.idle, hf, inDefer]

/-- The DEFER of a candidate without a base backoff. -/
theorem openDefer_of_noBase (h : s.MayDefer) (hc : c.hasBase = false) (hf : s.lnc.candidate = some (c, f)) :
    (f.attempts = 0 → s.openDefer = s.inDefer c c.gap s.lnc.generator) ∧
      (0 < f.attempts → s.openDefer =
        s.inDefer c (c.gap + 20 * lowBits (min f.attempts 4) (advanceGen s.lnc.generator))
          (advanceGen s.lnc.generator)) := by
  rw [h.openDefer_of_candidate hf, gapOf_of_noBase hc]
  exact ⟨fun h0 => by rw [if_pos h0], fun hpos => by rw [if_neg hpos.ne']⟩

/-- The DEFER of a candidate with a base backoff. -/
theorem openDefer_of_hasBase (h : s.MayDefer) (hc : c.hasBase = true) (hf : s.lnc.candidate = some (c, f)) :
    (f.attempts = 0 → s.openDefer =
        s.inDefer c (c.gap + 20 * lowBits 4 (advanceGen s.lnc.generator)) (advanceGen s.lnc.generator)) ∧
      (0 < f.attempts → s.openDefer =
        s.inDefer c (c.gap + 20 * lowBits 4 (advanceGen s.lnc.generator) +
            20 * lowBits (min f.attempts 4) (advanceGen (advanceGen s.lnc.generator)))
          (advanceGen (advanceGen s.lnc.generator))) := by
  rw [h.openDefer_of_candidate hf, gapOf_of_hasBase hc]
  exact ⟨fun h0 => by rw [if_pos h0], fun hpos => by rw [if_neg hpos.ne']⟩

end State.MayDefer

/-- A DEFER found after the opening, where none was before, is the candidate's. -/
theorem State.candidate_of_openDefer {s : State} {c : TxClass} {e : Micros} (hidle : s.lnc.line = .idle)
    (hopen : s.openDefer.lnc.line = .defer c e) :
    ∃ f, s.lnc.candidate = some (c, f) ∧ e = s.now + (gapOf c f.attempts s.lnc.generator).1 := by
  have hopened : s.openDefer ≠ s := fun hsame => by
    rw [hsame, hidle] at hopen
    cases hopen
  have hmay : s.MayDefer := s.mayDefer_or.resolve_right fun hnot => hopened (State.openDefer_eq_self hnot)
  cases hf : s.lnc.candidate with
  | none => exact absurd (State.openDefer_of_noCandidate hf) hopened
  | some p =>
    rw [hmay.openDefer_of_candidate hf] at hopen
    cases hopen
    exact ⟨p.2, rfl, rfl⟩

/-- The end of a gap, where every frame of the class is below its attempt limit (Table 4-2). -/
theorem State.openDefer_gapEnd_bounds {s : State} {c : TxClass} {e : Micros}
    (hlimit : ∀ f ∈ s.lnc.frames c, f.attempts < c.limit) (hidle : s.lnc.line = .idle)
    (hopen : s.openDefer.lnc.line = .defer c e) :
    s.now + c.gap ≤ e ∧ e ≤ s.now + c.longestGap := by
  obtain ⟨f, hf, rfl⟩ := State.candidate_of_openDefer hidle hopen
  obtain ⟨hleast, hmost⟩ := gapOf_bounds (hlimit f (Lnc.mem_frames_of_candidate hf)) s.lnc.generator
  exact ⟨Nat.add_le_add_left hleast _, Nat.add_le_add_left hmost _⟩

/-- Settles O40: the candidate by the classes in their order, its gap by `gapOf_of_noBase` and `gapOf_of_hasBase`, the
range by `openDefer_gapEnd_bounds`, and the generator by its bits. A BEACON's gap ends by 440 µs, its limit being 2, and so
before the bound that it shares with a bundle's. -/
theorem deferOpens : Obligations.DeferOpens := by
  refine ⟨fun s => State.openDefer_eq_self, fun s hrun hcarrier hidle => ?_, fun s c e hlimit hidle hopen => ?_,
    fun g => ?_⟩
  · have h : s.MayDefer := ⟨hrun, hcarrier, hidle⟩
    exact ⟨fun h0 h1 h2 h3 => State.openDefer_of_noCandidate (Lnc.candidate_of_empty h0 h1 h2 h3),
      fun f rest hf => h.openDefer_of_noBase rfl (Lnc.candidate_of_class0 hf),
      fun h0 => ⟨fun f rest hf => h.openDefer_of_noBase rfl (Lnc.candidate_of_class1 h0 hf),
        fun h1 => ⟨fun f rest hf => h.openDefer_of_hasBase rfl (Lnc.candidate_of_class2 h0 h1 hf),
          fun f rest h2 hf => h.openDefer_of_hasBase rfl (Lnc.candidate_of_class3 h0 h1 h2 hf)⟩⟩⟩
  · obtain ⟨hleast, hmost⟩ := State.openDefer_gapEnd_bounds hlimit hidle hopen
    cases c with
    | crane => exact ⟨hleast, hmost⟩
    | handover => exact ⟨hleast, hmost⟩
    | beacon => exact ⟨hleast, hmost.trans (Nat.add_le_add_left (by decide : TxClass.beacon.longestGap ≤ 720) _)⟩
    | bundle => exact ⟨hleast, hmost⟩
  · exact ⟨getLsbD_advanceGen_zero g, fun i hi => getLsbD_advanceGen_succ g hi, advanceGen_ne_zero,
      fun h heq => advanceGen_injective heq⟩

end Sys2Proof.Machine
end

