-- ==== Sys2Proof/Proofs/HandoverWindow.lean ====
section
/-!
PROOFS. The handover window of a crane context (R97 to R100): when it offers, which claimant is the target, and what the
offer does; with these the statement HandoverWindow.
-/

namespace Sys2Proof.Machine

/-! ### The order of targets (R99) -/

/-- The order in its three keys: score, C, address. -/
theorem betterTarget_iff {a b : Claimant} :
    betterTarget a b = true ↔ b.score < a.score ∨ (b.score = a.score ∧ (a.advertisedC < b.advertisedC ∨
      (a.advertisedC = b.advertisedC ∧ a.address.toNat < b.address.toNat))) := by
  rw [eq_comm (a := b.score)]
  simp [betterTarget]

/-- Of two claimants at most one is the better target. -/
theorem betterTarget_asymm {a b : Claimant} (h : betterTarget a b = true) : betterTarget b a = false := by
  rw [← Bool.not_eq_true, betterTarget_iff]
  rw [betterTarget_iff] at h
  omega

/-- No other claimant in a list is as good a target. -/
def BestOf (n : Claimant) (l : List Claimant) : Prop := ∀ m ∈ l, m ≠ n → betterTarget n m = true

/-- One step of the choice: the best target so far, and the next claimant. -/
def keepBetter (best : Option Claimant) (m : Claimant) : Option Claimant :=
  match best with
  | none => some m
  | some b => if betterTarget m b then some m else some b

/-- What is kept is what was kept before or the next claimant. -/
theorem mem_or_eq_of_mem_keepBetter {best : Option Claimant} {m b : Claimant} (h : b ∈ keepBetter best m) :
    b ∈ best ∨ b = m := by
  cases best with
  | none => exact .inr (Option.mem_some.1 h).symm
  | some a =>
    rw [keepBetter] at h
    split at h
    · exact .inr (Option.mem_some.1 h).symm
    · exact .inl h

/-- The best target displaces whatever was kept before it. -/
theorem keepBetter_of_bestOf {best : Option Claimant} {n : Claimant} (h : BestOf n best.toList) :
    keepBetter best n = some n := by
  cases best with
  | none => rfl
  | some b =>
    rw [keepBetter]
    split
    case isTrue => rfl
    case isFalse worse =>
      by_cases hb : b = n
      · rw [hb]
      · exact absurd (h b (by simp) hb) worse

/-- Nothing displaces the best target. -/
theorem keepBetter_some_of_bestOf {n m : Claimant} (h : m ≠ n → betterTarget n m = true) :
    keepBetter (some n) m = some n := by
  rw [keepBetter]
  split
  case isTrue better =>
    by_cases hm : m = n
    · rw [hm]
    · rw [betterTarget_asymm (h hm)] at better
      cases better
  case isFalse => rfl

/-- The choice ends with the best target of a list, wherever in the list it stands. -/
theorem foldl_keepBetter_of_bestOf {n : Claimant} {l : List Claimant} {best : Option Claimant} (hl : BestOf n l)
    (hbest : BestOf n best.toList) (hn : best = some n ∨ n ∈ l) : l.foldl keepBetter best = some n := by
  induction l generalizing best with
  | nil => exact hn.resolve_right List.not_mem_nil
  | cons m l ih =>
    obtain ⟨hm, hrest⟩ := List.forall_mem_cons.1 hl
    refine ih hrest (fun b hb hne => ?_) ?_
    · obtain hb | rfl := mem_or_eq_of_mem_keepBetter (Option.mem_toList.1 hb)
      · exact hbest b (Option.mem_toList.2 hb) hne
      · exact hm hne
    · obtain rfl | hn := hn
      · exact .inl (keepBetter_some_of_bestOf hm)
      · obtain rfl | hn := List.mem_cons.1 hn
        · exact .inl (keepBetter_of_bestOf hbest)
        · exact .inr hn

/-! ### The target (R99) -/

section
variable {s : State} {g : Byte} {n : Claimant}

theorem State.target_eq :
    s.target g = ((s.claimants g).filter fun n => decide (n.advertisedC < 4)).foldl keepBetter none :=
  rfl

/-- Without an eligible claimant there is no target. -/
theorem State.target_eq_none (h : ∀ n ∈ s.claimants g, 4 ≤ n.advertisedC) : s.target g = none := by
  have hnone : ((s.claimants g).filter fun n => decide (n.advertisedC < 4)) = [] :=
    List.filter_eq_nil_iff.2 fun n hn => by simpa using h n hn
  rw [State.target_eq, hnone, List.foldl_nil]

/-- An eligible claimant that is better than every other eligible one is the target. -/
theorem State.target_eq_some (hn : n ∈ s.claimants g) (hc : n.advertisedC < 4)
    (hbest : ∀ m ∈ s.claimants g, m.advertisedC < 4 → m ≠ n → betterTarget n m = true) : s.target g = some n := by
  rw [State.target_eq]
  refine foldl_keepBetter_of_bestOf (fun m hm => ?_) (by simp [BestOf]) (.inr ?_)
  · obtain ⟨hm, heligible⟩ := List.mem_filter.1 hm
    exact hbest m hm (of_decide_eq_true heligible)
  · exact List.mem_filter.2 ⟨hn, decide_eq_true hc⟩

/-- A claimant is known by its address: a table has no address twice (R19). -/
theorem NeighboursOk.claimant_eq_of_address_eq {m : Claimant} (h : NeighboursOk s) (hm : m ∈ s.claimants g)
    (hn : n ∈ s.claimants g) (heq : m.address = n.address) : m = n :=
  h.claimants_sorted.eq_of_key_eq hm hn (congrArg BitVec.toNat heq)

end

/-! ### The window (R97, R98, R100) -/

section
variable {s : State} {crane : Byte} {c : Context}

/-- The first four conditions of R98, with R97 for the first. -/
abbrev State.ReadyToOffer (s : State) (c : Context) : Prop :=
  c.state = .anchored ∧ s.claimedHere c.position = false ∧ c.period ≠ none ∧ c.stale = false ∧ c.retryAt ≤ s.now

/-- A window at a context offers to the target where the context is ready and there is one. -/
theorem State.handoverWindow_eq (hc : s.contextOf crane = some c) :
    s.handoverWindow crane =
      if s.ReadyToOffer c then (s.target c.position).elim s fun n => s.offerTo c n.address else s := by
  have hready : (s.wantsHandover c && c.period.isSome && !c.stale && decide (c.retryAt ≤ s.now)) = true ↔
      s.ReadyToOffer c := by
    simp [State.wantsHandover, Option.isSome_iff_ne_none, and_assoc]
  simp only [State.handoverWindow, hc, hready]
  cases s.target c.position <;> rfl

theorem State.handoverWindow_of_not_ready (hc : s.contextOf crane = some c) (h : ¬s.ReadyToOffer c) :
    s.handoverWindow crane = s := by
  rw [State.handoverWindow_eq hc, if_neg h]

theorem State.handoverWindow_of_no_target (hc : s.contextOf crane = some c) (h : s.target c.position = none) :
    s.handoverWindow crane = s := by
  rw [State.handoverWindow_eq hc, h, Option.elim_none, ite_self]

theorem State.handoverWindow_of_target {n : Claimant} (hc : s.contextOf crane = some c) (hready : s.ReadyToOffer c)
    (h : s.target c.position = some n) : s.handoverWindow crane = s.offerTo c n.address := by
  rw [State.handoverWindow_eq hc, if_pos hready, h, Option.elim_some]

/-- CRU as an offer leaves it: the next token, and the context in OFFERING (R100). -/
def State.offering (s : State) (c : Context) (peer : Byte) : State :=
  (s.setCru { s.cru with tokenCounter := s.cru.tokenCounter + 1 }).putContext
    { c with state := .offering peer (s.cru.tokenCounter + 1) .sendingOffer }

/-- An offer puts the context into OFFERING and gives the OFFER to class 1. -/
theorem State.offerTo_eq (s : State) (c : Context) (peer : Byte) :
    s.offerTo c peer = (s.offering c peer).giveHandover ⟨s.cfg.address, peer,
      .offer c.crane (s.cru.tokenCounter + 1) c.position (BitVec.ofNat 16 (c.period.getD 0)) (BitVec.ofNat 8 c.late)⟩ :=
  rfl

/-- The offer's context is the only one that changes, and beside it the token counter alone. -/
theorem State.changesContext_offering (h : TableSorted Context.key s.cru.contexts) (peer : Byte) :
    (s.setCru { s.cru with tokenCounter := s.cru.tokenCounter + 1 }).changesContext (s.offering c peer) c.crane
      (some { c with state := .offering peer (s.cru.tokenCounter + 1) .sendingOffer }) :=
  State.changesContext_put h

end

/-- Settles O51: no OFFER without the conditions or without an eligible claimant, and else one to the claimant that is
better than every other eligible one (`State.target_eq_some`), whose address tells it from them. -/
theorem handoverWindow : Obligations.HandoverWindow := by
  intro crane c s hnbt hcru hc
  obtain ⟨rfl, -⟩ := State.crane_of_contextOf hc
  refine ⟨State.handoverWindow_of_not_ready hc,
    fun hnone => State.handoverWindow_of_no_target hc (State.target_eq_none hnone),
    fun n hready hn heligible hbest => ?_⟩
  have htarget : s.target c.position = some n := by
    refine State.target_eq_some hn heligible fun m hm hmc hne => betterTarget_iff.2 (hbest m hm hmc fun haddr => ?_)
    exact hne (hnbt.claimant_eq_of_address_eq hm hn haddr)
  obtain ⟨hoffering, hothers, htoken, -⟩ := State.changesContext_offering (c := c) hcru n.address
  refine ⟨s.offering c n.address, hoffering, hothers, htoken, rfl, ?_⟩
  rw [State.handoverWindow_of_target hc hready htarget, State.offerTo_eq]

end Sys2Proof.Machine
end

