-- ==== Sys2Proof/Proofs/LiveState.lean ====
section
/-!
PROOFS. What holds of a running part between the operations of one command. `Live` is `Sound` (Safety.lean), without the
claims of R35, for a part in LISTEN or RUN; four of its parts may be owed while a command is under way, and an operation of
the same command pays what another has left owing.
-/

namespace Sys2Proof.Machine

variable {s t : State}

/-! ### The invariants of Safety.lean depend on few blocks -/

theorem State.cfg_congr (hstc : t.stc = s.stc) : t.cfg = s.cfg := by rw [State.cfg, hstc, State.cfg]

theorem State.running_congr (hstc : t.stc = s.stc) : t.running = s.running := by rw [State.running, hstc, State.running]

theorem State.claimOf_congr (hstc : t.stc = s.stc) (hcve : t.cve = s.cve) (g : Byte) : t.claimOf g = s.claimOf g := by
  simp only [State.claimOf, State.cfg_congr hstc, hcve]

theorem State.claimedHere_congr (hstc : t.stc = s.stc) (hcve : t.cve = s.cve) (g : Byte) :
    t.claimedHere g = s.claimedHere g := by
  rw [State.claimedHere, State.claimOf_congr hstc hcve, State.claimedHere]

theorem SegmentsOk.congr (h : SegmentsOk s) (hstc : t.stc = s.stc) (hsegments : t.cve.segments = s.cve.segments)
    (hcount : t.cve.listenCount = s.cve.listenCount) : SegmentsOk t := by
  obtain ⟨count, ranges, listenCount, listening⟩ := h
  exact ⟨by rwa [State.running_congr hstc, State.cfg_congr hstc, hsegments], by rwa [hsegments], by rwa [hcount],
    by rwa [hstc, hcount]⟩

theorem NeighboursOk.congr (h : NeighboursOk s) (hstc : t.stc = s.stc) (hnbt : t.nbt = s.nbt) : NeighboursOk t := by
  obtain ⟨sorted, count, entries⟩ := h
  exact ⟨by rwa [hnbt], by rwa [hnbt], by rwa [hnbt, State.cfg_congr hstc]⟩

theorem ReefersOk.congr (h : ReefersOk s) (hclaimed : ∀ g, s.claimedHere g = true → t.claimedHere g = true)
    (hrfi : t.rfi = s.rfi) : ReefersOk t := by
  obtain ⟨custodySorted, custodyCount, custodyClaimed, heldSorted, heldCount, held, disjoint⟩ := h
  rw [← hrfi] at *
  exact ⟨custodySorted, custodyCount, fun r hr => (custodyClaimed r hr).imp_left (hclaimed _), heldSorted, heldCount, held,
    disjoint⟩

theorem DeliveryOk.congr (h : DeliveryOk s) (hgds : t.gds = s.gds) : DeliveryOk t := by
  obtain ⟨seen, store, idle, draining⟩ := h
  exact ⟨by rwa [hgds], by rwa [hgds], by rwa [hgds], by rwa [hgds]⟩

theorem LinkOk.congr (h : LinkOk s) (hstc : t.stc = s.stc) (hgds : t.gds = s.gds) (hrlc : t.rlc = s.rlc) : LinkOk t := by
  obtain ⟨control, oneReport, terminal, drainQueue, oneRecord, owed, running⟩ := h
  exact ⟨by rwa [hrlc], by rwa [hrlc], by rwa [hrlc], by rwa [hrlc], by rwa [hrlc, hgds], by rwa [hrlc, hstc],
    by rwa [hrlc, State.running_congr hstc]⟩

/-! ### The parts of `Live` -/

/-- STC of a part in LISTEN or RUN, the reset input inactive (R176, R178, R182). -/
structure Active (stc : Stc) (resetHeld : Bool) : Prop where
  runState : stc.runState = .listen ∨ stc.runState = .run
  loaded : ∃ c, stc.loaded = some c ∧ SettingsOk c
  notReading : stc.readSince = none
  noHalt : stc.haltReason = .none
  warmCount : stc.warmCount ≤ 15
  released : resetHeld = false

/-- The timers of CVE and of RLC run, with a gap that R17 allows (R36, R169). -/
structure ClockOk (c : Settings) (cve : Cve) (supervisionDue : Option Micros) : Prop where
  beacon : cve.beaconDue ≠ none
  gap : ∃ k, 1 ≤ k ∧ k ≤ 4 ∧ cve.beaconGap = c.beaconBase * k
  supervision : supervisionDue ≠ none

/-- The context table (R76, R77, Table 5-1). -/
structure ContextsOk (l : List Context) : Prop where
  sorted : TableSorted Context.key l
  count : l.length ≤ 4
  each : ∀ c ∈ l, ContextOk c

/-- BAS but for the moves: R141, R143, R144. -/
structure BuffersOk (c : Settings) (bas : Bas) : Prop where
  arranged : bas.buffers.length = bufferCount c.bundleMode
  buffers : ∀ b ∈ bas.buffers, b.ok (effectiveLimit c)
  oneFilling : (bas.buffers.countP fun b => b.state = .filling) ≤ 1
  waiting : bas.waitDue ≠ none ↔ ∃ b ∈ bas.buffers, b.state = .filling
  alerts : bas.alertIntake.length ≤ 8 ∧ ∀ r ∈ bas.alertIntake, r.cls = .alert ∧ reportOk r
  routines : bas.routineIntake.length ≤ 32 ∧ ∀ r ∈ bas.routineIntake, r.cls = .routine ∧ reportOk r

/-- No report waits while a buffer can receive it (R145). -/
def Bas.Moved (bas : Bas) : Prop :=
  receivingBuffer bas.buffers ≠ none → bas.alertIntake = [] ∧ bas.routineIntake = []

/-- A frame that a station of this configuration may put on the line (R186, R188). -/
def Settings.MayTransmit (c : Settings) (f : Frame) : Prop := frameWellFormed f = true ∧ f.sender = c.address

/-- A frame as a class may hold it (Table 4-2, R65). -/
structure TxFrameOk (c : Settings) (k : TxClass) (f : TxFrame) : Prop where
  kind : k.holds f.frame.body
  attempts : f.attempts < k.limit
  own : c.MayTransmit f.frame

/-- LNC's frames and its generator, whatever the line state (R39, R56, R63, Table 4-2). -/
structure ClassesOk (c : Settings) (lnc : Lnc) (successor : Option Frame) : Prop where
  frames : ∀ k, ∀ f ∈ lnc.frames k, TxFrameOk c k f
  room : ∀ k, k ≠ .bundle → (lnc.frames k).length ≤ k.capacity
  slot : c.homeCount = 0 → lnc.frames .beacon = []
  onLine : ∀ k f, lnc.line = .sending k f → c.MayTransmit f
  successor : ∀ f, successor = some f → TxClass.beacon.holds f.body ∧ c.MayTransmit f ∧ c.homeCount ≠ 0
  generator : lnc.generator ≠ 0

/-- The bundles of class 3 are those of the CLOSED and SENDING buffers, one each (R144, R150). -/
structure BundlesGiven (q : List TxFrame) (buffers : List Buffer) : Prop where
  bundles : ∀ f ∈ q, ∃ b, buffers[f.buffer]? = some b ∧ b.given = true ∧ f.frame.body = .bundle b.reports
  distinct : (q.map (·.buffer)).Nodup
  count : q.length = buffers.countP Buffer.given

/-- A frame is on the line. -/
def Lnc.onAir (l : Lnc) : Bool :=
  match l.line with
  | .sending .. => true
  | _ => false

/-- What an operation in the midst of a command may leave to a later one: the frame of an attempt that has ended, until LNC
leaves SENDING; the opening of a DEFER; the moves into a buffer; the notice of the claim maps; and the freeing of the
contexts at the beginning of the radio-lost condition. -/
inductive Debt where
  | attempt | defer | moves | notices | contexts
  deriving DecidableEq

/-- The line state with what goes with it (R50, R59, R67, R71, R72, R74). -/
structure LineKept (owed : List Debt) (pins : Pins) (lnc : Lnc) (succ : Option Frame) : Prop where
  candidate : ∀ k t, lnc.line = .defer k t → lnc.frames k ≠ [] ∧ pins.carrier = false
  receiving : lnc.receiving = true → pins.carrier = true ∧ lnc.line = .idle
  opened : pins.lineOpen = true → lnc.line = .fault
  successor : succ ≠ none → lnc.transmitting .beacon = true
  carrier : lnc.carrierSince ≠ none ↔ pins.carrier = true ∧ lnc.onAir = false
  recovery : lnc.recoverySince ≠ none ↔ lnc.line = .fault ∧ pins.carrier = false ∧ pins.lineOpen = false
  sent : .attempt ∉ owed → ∀ k f, lnc.line = .sending k f → lnc.frames k ≠ []
  ended : .attempt ∈ owed → lnc.onAir = true ∧ succ = none
  used : .defer ∉ owed → lnc.line = .idle → pins.carrier = false → lnc.candidate = none

/-- What holds of a running part that owes the parts `owed`. -/
structure Live (owed : List Debt) (s : State) : Prop where
  active : Active s.stc s.pins.resetHeld
  segments : SegmentsOk s
  clock : ClockOk s.cfg s.cve s.rlc.supervisionDue
  contexts : ContextsOk s.cru.contexts
  reefers : ReefersOk s
  neighbours : NeighboursOk s
  delivery : DeliveryOk s
  link : LinkOk s
  buffers : BuffersOk s.cfg s.bas
  classes : ClassesOk s.cfg s.lnc s.cve.successor
  bundles : BundlesGiven s.lnc.class3 s.bas.buffers
  line : LineKept owed s.pins s.lnc s.cve.successor
  moved : .moves ∉ owed → s.bas.Moved
  notices : .notices ∉ owed → NoticesOk s
  free : .contexts ∉ owed → s.stc.runState ≠ .run ∨ s.rlc.radioLost = true → s.cru.contexts = []

theorem Active.running (h : Active s.stc s.pins.resetHeld) : s.running = true := State.running_eq_true.2 h.runState

theorem Active.settings (h : Active s.stc s.pins.resetHeld) : SettingsOk s.cfg := by
  obtain ⟨c, hc, hok⟩ := h.loaded
  simpa [State.cfg, hc] using hok

theorem Active.ne_load (h : Active s.stc s.pins.resetHeld) : s.stc.runState ≠ .load := by
  rcases h.runState with h | h <;> simp [h]

/-- A bundle has its class to itself (R144). -/
theorem Live.bundle_capacity {owed : List Debt} (h : Live owed s) : s.lnc.class3.length ≤ 2 := by
  rw [h.bundles.count]
  refine List.countP_le_length.trans ?_
  rw [h.buffers.arranged]
  cases s.cfg.bundleMode <;> decide

/-- A running part that owes nothing and keeps R35 has every invariant. -/
theorem Live.sound (h : Live [] s) (hc : ClaimsOk s) : Sound s := by
  have hrun := h.active.running
  have hstate := h.active.runState
  have hne : s.stc.runState ≠ .load ∧ s.stc.runState ≠ .halt := by rcases hstate with h | h <;> simp [h]
  have hair : s.transmitEnable = s.lnc.onAir := rfl
  exact {
    start :=
      { loaded := fun _ => h.active.loaded, unloaded := fun hn => by simp [hrun] at hn,
        reading := fun hr => absurd h.active.notReading hr, loading := fun hl => absurd hl hne.1,
        held := fun hh => by simp [h.active.released] at hh,
        halted := by simp [h.active.noHalt, hne.2], warmCount := h.active.warmCount }
    segments := h.segments
    claims := hc
    cranes := ⟨h.contexts.sorted, h.contexts.count, h.free (by simp), h.contexts.each⟩
    neighbours := h.neighbours
    reefers := h.reefers
    bundles := ⟨fun _ => h.buffers.arranged, h.buffers.buffers, h.buffers.oneFilling, h.buffers.waiting, h.buffers.alerts,
      h.buffers.routines, h.moved (by simp)⟩
    delivery := h.delivery
    line :=
      { capacity := fun c => by
          by_cases hb : c = .bundle
          · subst hb
            exact h.bundle_capacity
          · exact h.classes.room c hb
        kinds := fun c f hf => ⟨(h.classes.frames c f hf).kind, (h.classes.frames c f hf).attempts⟩
        slot := h.classes.slot
        candidate := h.line.candidate
        sent := h.line.sent (by simp)
        used := fun _ => h.line.used (by simp)
        receiving := h.line.receiving
        generator := fun _ => h.classes.generator
        opened := fun _ => h.line.opened }
    owners :=
      { successor := fun f hf => ⟨(h.classes.successor f hf).1, h.line.successor (by simp [hf])⟩
        bundles := h.bundles.bundles
        distinct := h.bundles.distinct
        count := h.bundles.count }
    frames :=
      { given := fun c f hf => (h.classes.frames c f hf).own
        successor := fun f hf => (h.classes.successor f hf).2.1
        onLine := h.classes.onLine }
    link := h.link
    timers :=
      { beacon := by simp [h.clock.beacon, hrun]
        supervision := by simp [h.clock.supervision, hrun]
        carrier := by simpa [hrun, hair] using h.line.carrier
        recovery := h.line.recovery
        gap := fun _ => h.clock.gap }
    notices := h.notices (by simp) }

/-- A running part with every invariant owes nothing. -/
theorem Sound.live (h : Sound s) (hrun : s.running = true) : Live [] s := by
  have hstate := State.running_eq_true.1 hrun
  have hne : s.stc.runState ≠ .load ∧ s.stc.runState ≠ .halt := by rcases hstate with h | h <;> simp [h]
  have hair : s.transmitEnable = s.lnc.onAir := rfl
  have hread : s.stc.readSince = none := by
    by_contra hr
    exact hne.1 (h.start.reading hr)
  exact {
    active := ⟨hstate, h.start.loaded hrun, hread, by simpa [hne.2] using h.start.halted, h.start.warmCount, by
      by_contra hh
      exact hne.1 (h.start.held (by simpa using hh)).1⟩
    segments := h.segments
    clock := ⟨h.timers.beacon.2 hrun, h.timers.gap hrun, h.timers.supervision.2 hrun⟩
    contexts := ⟨h.cranes.sorted, h.cranes.count, h.cranes.contexts⟩
    reefers := h.reefers
    neighbours := h.neighbours
    delivery := h.delivery
    link := h.link
    buffers := ⟨h.bundles.arranged hrun, h.bundles.buffers, h.bundles.oneFilling, h.bundles.waiting, h.bundles.alerts,
      h.bundles.routines⟩
    classes :=
      { frames := fun k f hf => ⟨(h.line.kinds k f hf).1, (h.line.kinds k f hf).2, h.frames.given k f hf⟩
        room := fun k _ => h.line.capacity k
        slot := h.line.slot
        onLine := h.frames.onLine
        successor := fun f hf => by
          obtain ⟨hkind, htransmitting⟩ := h.owners.successor f hf
          refine ⟨hkind, h.frames.successor f hf, fun h0 => ?_⟩
          have hslot := h.line.slot h0
          unfold Lnc.transmitting at htransmitting
          split at htransmitting
          case h_1 k x hline =>
            obtain rfl := of_decide_eq_true htransmitting
            exact h.line.sent _ x hline hslot
          case h_2 => cases htransmitting
        generator := h.line.generator hrun }
    bundles := ⟨h.owners.bundles, h.owners.distinct, h.owners.count⟩
    line :=
      { candidate := h.line.candidate
        sent := fun _ => h.line.sent
        ended := by simp
        receiving := h.line.receiving
        opened := h.line.opened hrun
        successor := fun hs => by
          obtain ⟨f, hf⟩ := Option.ne_none_iff_exists'.1 hs
          exact (h.owners.successor f hf).2
        carrier := by simpa [hrun, hair] using h.timers.carrier
        recovery := h.timers.recovery
        used := fun _ => h.line.used hrun }
    moved := fun _ => h.bundles.moved
    notices := fun _ => h.notices
    free := fun _ => h.cranes.free }

/-! ### Replacing one block -/

namespace Live

variable {owed owed' : List Debt}

theorem setNow (h : Live owed s) (x : Micros) : Live owed (s.setNow x) :=
  { h with
    segments := h.segments.congr rfl rfl rfl
    reefers := h.reefers.congr (fun _ => id) rfl
    neighbours := h.neighbours.congr rfl rfl
    delivery := h.delivery.congr rfl
    link := h.link.congr rfl rfl rfl }

theorem setChoices (h : Live owed s) (x : Nat) : Live owed (s.setChoices x) :=
  { h with
    segments := h.segments.congr rfl rfl rfl
    reefers := h.reefers.congr (fun _ => id) rfl
    neighbours := h.neighbours.congr rfl rfl
    delivery := h.delivery.congr rfl
    link := h.link.congr rfl rfl rfl }

theorem setPending (h : Live owed s) (x : List Instr) : Live owed (s.setPending x) :=
  { h with
    segments := h.segments.congr rfl rfl rfl
    reefers := h.reefers.congr (fun _ => id) rfl
    neighbours := h.neighbours.congr rfl rfl
    delivery := h.delivery.congr rfl
    link := h.link.congr rfl rfl rfl }

/-- A change of the pins' levels, the reset input apart. -/
theorem setPins {x : Pins} (h : Live owed s) (hheld : x.resetHeld = s.pins.resetHeld)
    (hline : LineKept owed x s.lnc s.cve.successor) : Live owed (s.setPins x) :=
  { h with
    active := by
      have hactive := h.active
      rwa [← hheld] at hactive
    segments := h.segments.congr rfl rfl rfl
    reefers := h.reefers.congr (fun _ => id) rfl
    neighbours := h.neighbours.congr rfl rfl
    delivery := h.delivery.congr rfl
    link := h.link.congr rfl rfl rfl
    line := hline }

theorem setNbt {x : Nbt} (h : Live owed s) (hnbt : NeighboursOk (s.setNbt x)) : Live owed (s.setNbt x) :=
  { h with
    segments := h.segments.congr rfl rfl rfl
    reefers := h.reefers.congr (fun _ => id) rfl
    neighbours := hnbt
    delivery := h.delivery.congr rfl
    link := h.link.congr rfl rfl rfl }

/-- A change of the contexts that adds none, or adds one where there may be some (R77). -/
theorem setCru {x : Cru} (h : Live owed s) (hx : ContextsOk x.contexts)
    (hfree : (s.cru.contexts = [] → x.contexts = []) ∨ s.stc.runState = .run ∧ s.rlc.radioLost = false) :
    Live owed (s.setCru x) :=
  { h with
    segments := h.segments.congr rfl rfl rfl
    contexts := hx
    reefers := h.reefers.congr (fun _ => id) rfl
    neighbours := h.neighbours.congr rfl rfl
    delivery := h.delivery.congr rfl
    link := h.link.congr rfl rfl rfl
    free := fun howed hn => by
      rcases hfree with hfree | ⟨hrun, hlost⟩
      · exact hfree (h.free howed hn)
      · simp [hrun, hlost] at hn }

theorem setRfi {x : Rfi} (h : Live owed s) (hrfi : ReefersOk (s.setRfi x)) : Live owed (s.setRfi x) :=
  { h with
    segments := h.segments.congr rfl rfl rfl
    reefers := hrfi
    neighbours := h.neighbours.congr rfl rfl
    delivery := h.delivery.congr rfl
    link := h.link.congr rfl rfl rfl }

/-- A change of BAS and of LNC. -/
theorem setBasLnc {x : Bas} {y : Lnc} (h : Live owed s) (hbas : BuffersOk s.cfg x)
    (hclasses : ClassesOk s.cfg y s.cve.successor) (hgiven : BundlesGiven y.class3 x.buffers)
    (hline : LineKept owed s.pins y s.cve.successor) (hmoved : .moves ∉ owed → x.Moved) :
    Live owed ((s.setBas x).setLnc y) :=
  { h with
    segments := h.segments.congr rfl rfl rfl
    reefers := h.reefers.congr (fun _ => id) rfl
    neighbours := h.neighbours.congr rfl rfl
    delivery := h.delivery.congr rfl
    link := h.link.congr rfl rfl rfl
    buffers := hbas
    classes := hclasses
    bundles := hgiven
    line := hline
    moved := hmoved }

theorem setBas {x : Bas} (h : Live owed s) (hbas : BuffersOk s.cfg x) (hgiven : BundlesGiven s.lnc.class3 x.buffers)
    (hmoved : .moves ∉ owed → x.Moved) : Live owed (s.setBas x) :=
  h.setBasLnc hbas h.classes hgiven h.line hmoved

theorem setLnc {y : Lnc} (h : Live owed s) (hclasses : ClassesOk s.cfg y s.cve.successor)
    (hgiven : BundlesGiven y.class3 s.bas.buffers) (hline : LineKept owed s.pins y s.cve.successor) :
    Live owed (s.setLnc y) :=
  h.setBasLnc h.buffers hclasses hgiven hline h.moved

/-- A change of RLC and of GDS. -/
theorem setGdsRlc {x : Gds} {y : Rlc} (h : Live owed s) (hgds : DeliveryOk (s.setGds x))
    (hlink : LinkOk ((s.setGds x).setRlc y)) (hsupervision : y.supervisionDue ≠ none)
    (hlost : .contexts ∉ owed → y.radioLost = true → s.rlc.radioLost = true) :
    Live owed ((s.setGds x).setRlc y) :=
  { h with
    segments := h.segments.congr rfl rfl rfl
    clock := ⟨h.clock.beacon, h.clock.gap, hsupervision⟩
    reefers := h.reefers.congr (fun _ => id) rfl
    neighbours := h.neighbours.congr rfl rfl
    delivery := hgds.congr rfl
    link := hlink
    free := fun howed hn => h.free howed (hn.imp_right (hlost howed)) }

theorem setGds {x : Gds} (h : Live owed s) (hgds : DeliveryOk (s.setGds x)) (hdrain : x.drain = .idle ↔ s.gds.drain = .idle) :
    Live owed (s.setGds x) := by
  refine h.setGdsRlc hgds ?_ h.clock.supervision fun _ => id
  obtain ⟨control, oneReport, terminal, drainQueue, oneRecord, owed, running⟩ := h.link
  exact ⟨control, oneReport, terminal, drainQueue, by simpa [hdrain] using oneRecord, owed, running⟩

theorem setRlc {y : Rlc} (h : Live owed s) (hlink : LinkOk (s.setRlc y)) (hsupervision : y.supervisionDue ≠ none)
    (hlost : .contexts ∉ owed → y.radioLost = true → s.rlc.radioLost = true) : Live owed (s.setRlc y) :=
  h.setGdsRlc h.delivery hlink hsupervision hlost

/-- A change of CVE and of LNC. -/
theorem setCveLnc {x : Cve} {y : Lnc} (h : Live owed s) (hsegments : SegmentsOk (s.setCve x))
    (hclock : ClockOk s.cfg x s.rlc.supervisionDue)
    (hclaimed : ∀ g, s.claimedHere g = true → (s.setCve x).claimedHere g = true)
    (hclasses : ClassesOk s.cfg y x.successor) (hgiven : BundlesGiven y.class3 s.bas.buffers)
    (hline : LineKept owed' s.pins y x.successor) (hnotices : .notices ∉ owed' → NoticesOk (s.setCve x))
    (hsub : ∀ d, d ≠ .attempt → d ≠ .defer → d ≠ .notices → d ∈ owed → d ∈ owed') :
    Live owed' ((s.setCve x).setLnc y) :=
  { h with
    segments := hsegments.congr rfl rfl rfl
    clock := hclock
    reefers := h.reefers.congr hclaimed rfl
    neighbours := h.neighbours.congr rfl rfl
    delivery := h.delivery.congr rfl
    link := h.link.congr rfl rfl rfl
    classes := hclasses
    bundles := hgiven
    line := hline
    moved := fun hn => h.moved fun hm => hn (hsub _ (by simp) (by simp) (by simp) hm)
    notices := hnotices
    free := fun hn => h.free fun hm => hn (hsub _ (by simp) (by simp) (by simp) hm) }

/-- A change of CVE. -/
theorem setCve {x : Cve} (h : Live owed s) (hsegments : SegmentsOk (s.setCve x))
    (hclock : ClockOk s.cfg x s.rlc.supervisionDue)
    (hclaimed : ∀ g, s.claimedHere g = true → (s.setCve x).claimedHere g = true)
    (hclasses : ClassesOk s.cfg s.lnc x.successor) (hline : LineKept owed s.pins s.lnc x.successor)
    (hnotices : .notices ∉ owed → NoticesOk (s.setCve x)) : Live owed (s.setCve x) :=
  h.setCveLnc hsegments hclock hclaimed hclasses h.bundles hline hnotices fun _ _ _ _ => id

/-- A change of the pins' levels and of LNC. -/
theorem setPinsLnc {x : Pins} {y : Lnc} (h : Live owed s) (hheld : x.resetHeld = s.pins.resetHeld)
    (hclasses : ClassesOk s.cfg y s.cve.successor) (hgiven : BundlesGiven y.class3 s.bas.buffers)
    (hline : LineKept owed' x y s.cve.successor) (hsub : ∀ d, d ≠ .attempt → d ≠ .defer → d ∈ owed → d ∈ owed') :
    Live owed' ((s.setPins x).setLnc y) :=
  { h with
    active := by
      have hactive := h.active
      rwa [← hheld] at hactive
    segments := h.segments.congr rfl rfl rfl
    reefers := h.reefers.congr (fun _ => id) rfl
    neighbours := h.neighbours.congr rfl rfl
    delivery := h.delivery.congr rfl
    link := h.link.congr rfl rfl rfl
    classes := hclasses
    bundles := hgiven
    line := hline
    moved := fun hn => h.moved fun hm => hn (hsub _ (by simp) (by simp) hm)
    notices := fun hn => h.notices fun hm => hn (hsub _ (by simp) (by simp) hm)
    free := fun hn => h.free fun hm => hn (hsub _ (by simp) (by simp) hm) }

theorem advance (h : Live owed s) (dt : Micros) : Live owed (s.advance dt) := h.setNow _

end Live

end Sys2Proof.Machine
end

