-- ==== Sys2Proof/Proofs/LiveLink.lean ====
section
/-!
PROOFS. RLC's queues, occasions and flags, GDS and its drain: what each operation keeps of `LinkOk` and `DeliveryOk`
(R155 to R159, R165, R166, R171, R173), and so of `Live`.
-/

namespace Sys2Proof.Machine

variable {s : State}

/-! ### A full queue makes room (R165, R166) -/

section
variable {α : Type} {p : α → Bool} {q : List α}

/-- What a queue of eight keeps of its messages for a new one: of a full one the oldest that may go is dropped. -/
def keptOf (p : α → Bool) (q : List α) : List α := if q.length < Config.queueCapacity then q else q.eraseP p

theorem State.queueControl_eq (s : State) (m : ControlMsg) :
    s.queueControl m = s.setRlc { s.rlc with control := keptOf (fun x => !x.isReport) s.rlc.control ++ [m] } := rfl

theorem State.queueDrain_eq (s : State) (m : DrainMsg) :
    s.queueDrain m = s.setRlc { s.rlc with drainQueue := keptOf DrainMsg.isEnd s.rlc.drainQueue ++ [m] } := rfl

/-- A full queue splits at its oldest message that may go: at most one of its messages may not. -/
theorem exists_split_of_full (hfull : q.length = 8) (hone : (q.countP fun x => !p x) ≤ 1) :
    ∃ kept x later, q = kept ++ x :: later ∧ (∀ y ∈ kept, p y = false) ∧ p x = true ∧ keptOf p q = kept ++ later := by
  have hlen := q.length_eq_countP_add_countP (p := p)
  have hpos : 0 < q.countP p := by
    have hsame : (q.countP fun a => decide ¬p a = true) = q.countP fun x => !p x := by simp
    omega
  obtain ⟨x, hx, hpx⟩ := List.countP_pos_iff.1 hpos
  obtain ⟨a, kept, later, hkept, ha, hq, herase⟩ := List.exists_of_eraseP hx hpx
  refine ⟨kept, a, later, hq, fun y hy => by simpa using hkept y hy, ha, ?_⟩
  rw [keptOf, if_neg (by show ¬q.length < 8; omega), herase]

theorem keptOf_sublist : (keptOf p q).Sublist q := by
  unfold keptOf
  split
  · exact List.Sublist.refl _
  · exact List.eraseP_sublist

/-- There is room for the new message. -/
theorem length_keptOf_lt (hq : q.length ≤ 8) (hone : (q.countP fun x => !p x) ≤ 1) : (keptOf p q).length < 8 := by
  obtain hlt | hfull := Nat.lt_or_eq_of_le hq
  · exact lt_of_le_of_lt keptOf_sublist.length_le hlt
  · obtain ⟨kept, x, later, hq', -, -, hk⟩ := exists_split_of_full hfull hone
    have := congrArg List.length hq'
    rw [hk]
    simp only [List.length_append, List.length_cons] at this ⊢
    omega

/-- A message that may not go stays. -/
theorem mem_keptOf_of_neg {x : α} (hx : p x = false) : x ∈ keptOf p q ↔ x ∈ q := by
  unfold keptOf
  split
  · rfl
  · exact List.mem_eraseP_of_neg (by simp [hx])

/-- As many messages that may not go stay as there were. -/
theorem countP_keptOf : ((keptOf p q).countP fun x => !p x) = q.countP fun x => !p x := by
  unfold keptOf
  split
  · rfl
  · clear * -
    induction q with
    | nil => rfl
    | cons x q ih =>
      rw [List.eraseP_cons]
      cases hx : p x <;> simp_all

end

/-! ### The control queue (R165, R171) -/

namespace LinkOk

theorem notReport_count (h : LinkOk s) : (s.rlc.control.countP fun x => !!x.isReport) ≤ 1 := by
  simpa using h.oneReport

/-- A message joins the control queue; a STATE REPORT only where none waits. -/
theorem queueControl {m : ControlMsg} (h : LinkOk s) (hm : m ≠ .stateReport ∨ ControlMsg.stateReport ∉ s.rlc.control) :
    LinkOk (s.queueControl m) := by
  have hkept := countP_keptOf (p := fun x : ControlMsg => !x.isReport) (q := s.rlc.control)
  simp only [Bool.not_not] at hkept
  rw [State.queueControl_eq]
  exact
    { h with
      control := by
        simpa using length_keptOf_lt (p := fun x : ControlMsg => !x.isReport) h.control h.notReport_count
      oneReport := by
        simp only [State.setRlc_rlc, List.countP_append, hkept]
        rcases hm with hm | hm
        · have : m.isReport = false := by simpa [ControlMsg.isReport] using hm
          simpa [this] using h.oneReport
        · have : s.rlc.control.countP ControlMsg.isReport = 0 := by
            rw [List.countP_eq_zero]
            rintro x hx hr
            have : x = .stateReport := by simpa [ControlMsg.isReport] using hr
            exact hm (this ▸ hx)
          rw [this, Nat.zero_add]
          exact List.countP_le_length
      owed := fun hrun hocc => by
        refine List.mem_append_left _ ?_
        exact (mem_keptOf_of_neg (by simp [ControlMsg.isReport])).2 (h.owed hrun hocc) }

/-- Any change of RLC's other fields. -/
theorem setRlc {x : Rlc} (h : LinkOk s) (hcontrol : x.control = s.rlc.control) (hterminal : x.terminal = s.rlc.terminal)
    (hdrain : x.drainQueue = s.rlc.drainQueue)
    (howed : s.stc.runState ≠ .load → x.occasions ≠ .empty → ControlMsg.stateReport ∈ s.rlc.control)
    (hrunning : x.stopped = true ∨ x.radioLost = true → s.running = true) : LinkOk (s.setRlc x) := by
  obtain ⟨control, oneReport, terminal, drainQueue, oneRecord, -, -⟩ := h
  refine ⟨?_, ?_, ?_, ?_, ?_, ?_, hrunning⟩
  · rwa [State.setRlc_rlc, hcontrol]
  · rwa [State.setRlc_rlc, hcontrol]
  · rwa [State.setRlc_rlc, hterminal]
  · rwa [State.setRlc_rlc, hdrain]
  · rwa [State.setRlc_rlc, hdrain]
  · rwa [State.setRlc_rlc, hcontrol]

/-- An occasion is recorded. -/
theorem recordOccasion (h : LinkOk s) (o : Occasion) : LinkOk (s.recordOccasion o) := by
  unfold State.recordOccasion
  dsimp only
  split
  case isTrue hnone =>
    have hqueued : LinkOk (s.queueControl .stateReport) := h.queueControl (.inr hnone.2)
    exact hqueued.setRlc (x := { (s.queueControl .stateReport).rlc with occasions := s.rlc.occasions.add o }) rfl rfl rfl
      (fun _ _ => s.mem_queueControl _) h.running
  case isFalse hnone =>
    refine h.setRlc rfl rfl rfl (fun hrun _ => ?_) h.running
    by_contra hreport
    exact hnone ⟨hrun, hreport⟩

theorem setFlags (h : LinkOk s) (f : StickyFlags) : LinkOk (s.setRlc { s.rlc with flags := f }) :=
  h.setRlc rfl rfl rfl h.owed h.running

theorem setFlag (h : LinkOk s) (k : Sticky) : LinkOk (s.setFlag k) := by
  unfold State.setFlag
  split
  · exact h
  · exact (h.setFlags _).recordOccasion _

/-- A TERMINAL UPLINK joins its queue. -/
theorem queueTerminal (h : LinkOk s) (m : TermUplink) : LinkOk (s.queueTerminal m) :=
  { h with terminal := length_pushDropOldest (by decide) h.terminal }

/-- A message joins the drain queue, with what is then under way at GDS. -/
theorem queueDrain {g : Gds} {m : DrainMsg} (h : LinkOk s)
    (hone : (s.rlc.drainQueue.countP fun m => !m.isEnd) + (if m.isEnd then 0 else 1) = if g.drain = .idle then 0 else 1) :
    LinkOk ((s.setGds g).queueDrain m) := by
  have hlen := length_keptOf_lt (p := DrainMsg.isEnd) h.drainQueue (by
    rw [h.oneRecord]
    split <;> decide)
  rw [State.queueDrain_eq]
  exact
    { h with
      drainQueue := by simpa using hlen
      oneRecord := by
        refine Eq.trans ?_ hone
        simp only [State.setRlc_rlc, State.setGds_rlc, List.countP_append, countP_keptOf, List.countP_singleton]
        cases m.isEnd <;> rfl }

end LinkOk

/-! ### The delivery store (R155 to R159) -/

/-- What a store keeps of its records for a new one: the record in hand, which stands first, stays (R157). -/
theorem offerStore_eq_some {x : Stored} {store new : List Stored} (h : offerStore x store = some new)
    (hlen : store.length ≤ 256) :
    ∃ kept, new = kept ++ [x] ∧ kept.length < 256 ∧ kept.Sublist store ∧
      ∀ y rest, store = y :: rest → y.inHand = true → ∃ rest', kept = y :: rest' ∧ rest'.Sublist rest := by
  have herase (k : ReportClass) (hany : store.any (Stored.mayGiveWay k) = true) :
      (store.eraseP (Stored.mayGiveWay k)).length < 256 ∧ (store.eraseP (Stored.mayGiveWay k)).Sublist store ∧
        ∀ y rest, store = y :: rest → y.inHand = true →
          ∃ rest', store.eraseP (Stored.mayGiveWay k) = y :: rest' ∧ rest'.Sublist rest := by
    obtain ⟨a, ha, hk⟩ := List.any_eq_true.1 hany
    have hlt := List.length_eraseP_of_mem ha hk
    have hpos := List.length_pos_of_mem ha
    refine ⟨by omega, List.eraseP_sublist, ?_⟩
    rintro y rest rfl hy
    refine ⟨rest.eraseP (Stored.mayGiveWay k), ?_, List.eraseP_sublist⟩
    rw [List.eraseP_cons_of_neg (by simp [Stored.mayGiveWay, hy])]
  unfold offerStore at h
  split at h
  · rename_i hroom
    cases h
    exact ⟨store, rfl, hroom, List.Sublist.refl _, fun y rest hs _ => ⟨rest, hs, List.Sublist.refl _⟩⟩
  · split at h
    · rename_i hany
      cases h
      exact ⟨_, rfl, herase _ hany⟩
    · split at h
      · rename_i hany
        cases h
        exact ⟨_, rfl, herase _ hany.2⟩
      · cases h

/-- Temperatures are clamped into the range of R120. -/
theorem clampTemp_bounds (t : Word16) : -400 ≤ (clampTemp t).toInt ∧ (clampTemp t).toInt ≤ 500 := by
  have hlo : -400 ≤ max (-400) (min 500 t.toInt) := le_max_left _ _
  have hhi : max (-400) (min 500 t.toInt) ≤ 500 := max_le (by decide) (min_le_left _ _)
  rw [clampTemp, BitVec.toInt_ofInt_eq_self (by decide) (by norm_num) (by omega)]
  exact ⟨hlo, hhi⟩

/-- A queue with no item twice has none twice after a push of an item that it did not hold. -/
theorem nodup_pushDropOldest {α : Type} {n : Nat} {x : α} {q : List α} (hq : q.Nodup) (hx : x ∉ q) :
    (pushDropOldest n x q).Nodup := by
  unfold pushDropOldest
  split
  · refine List.nodup_append.2 ⟨hq, List.nodup_singleton x, fun a ha b hb he => hx ?_⟩
    rwa [← List.mem_singleton.1 hb, ← he]
  · refine List.nodup_append.2 ⟨hq.sublist (List.drop_sublist _ _), List.nodup_singleton x,
      fun a ha b hb he => hx ?_⟩
    rw [← List.mem_singleton.1 hb, ← he]
    exact List.mem_of_mem_drop ha

namespace DeliveryOk

/-- GDS takes one bundled report of a segment of the quay. -/
theorem intake {g : Gds} {station : Byte} {r : Report} (h : DeliveryOk (s.setGds g)) (hr : r.segment.toNat ≤ 127) :
    DeliveryOk (s.setGds (g.intake station r)) ∧ (g.intake station r).drain = g.drain := by
  unfold Gds.intake
  split
  · exact ⟨h, rfl⟩
  · split
    · exact ⟨h, rfl⟩
    · rename_i htag hseen
      split
      · rename_i new hnew
        obtain ⟨kept, rfl, hlt, hsub, hhand⟩ := offerStore_eq_some hnew h.store.1
        refine ⟨⟨⟨nodup_pushDropOldest h.seen.1 hseen, length_pushDropOldest (by decide) h.seen.2⟩,
          ⟨?_, fun x hx => ?_⟩, fun hidle x hx => ?_, fun a n hd => ?_⟩, rfl⟩
        · simp only [State.setGds_gds, List.length_append, List.length_singleton]
          omega
        · rcases List.mem_append.1 hx with hx | hx
          · exact h.store.2 x (hsub.subset hx)
          · obtain rfl := List.mem_singleton.1 hx
            exact ⟨htag, hr, clampTemp_bounds _, clampTemp_bounds _⟩
        · rcases List.mem_append.1 hx with hx | hx
          · exact h.idle hidle x (hsub.subset hx)
          · obtain rfl := List.mem_singleton.1 hx
            rfl
        · obtain ⟨ha, han, y, rest, hstore, hy, hrest⟩ := h.draining a n hd
          obtain ⟨rest', rfl, hrest'⟩ := hhand y rest hstore hy
          refine ⟨ha, han, y, rest' ++ [_], rfl, hy, fun z hz => ?_⟩
          rcases List.mem_append.1 hz with hz | hz
          · exact hrest z (hrest'.subset hz)
          · obtain rfl := List.mem_singleton.1 hz
            rfl
      · exact ⟨h, rfl⟩

/-- GDS takes the reports of a bundle. -/
theorem intakes {station : Byte} {reports : List Report} (h : DeliveryOk s)
    (hreports : ∀ r ∈ reports, r.segment.toNat ≤ 127) :
    DeliveryOk (s.setGds (reports.foldl (fun g r => g.intake station r) s.gds)) ∧
      (reports.foldl (fun g r => g.intake station r) s.gds).drain = s.gds.drain :=
  List.foldlRecOn (motive := fun g => DeliveryOk (s.setGds g) ∧ g.drain = s.gds.drain) reports _ ⟨h, rfl⟩
    fun g hg r hr => by
      obtain ⟨hok, hdrain⟩ := hg.1.intake (station := station) (hreports r hr)
      exact ⟨hok, hdrain.trans hg.2⟩

/-- A drain under way whose oldest record is taken in hand. -/
theorem takeHead {x : Stored} {store : List Stored} {g : Gds} {a n : Nat} (h : DeliveryOk (s.setGds g))
    (hstore : g.store = x :: store) (hhand : ∀ y ∈ g.store, y.inHand = false) (ha : 1 ≤ a) (han : a + n ≤ 64) :
    DeliveryOk (s.setGds { g with drain := .draining a n, store := { x with inHand := true } :: store }) := by
  have hlen := h.store.1
  have hok := h.store.2
  simp only [State.setGds_gds, hstore] at hlen hok
  rw [hstore] at hhand
  refine ⟨h.seen, ⟨hlen, fun y hy => ?_⟩, fun hidle => by simp at hidle, fun a' n' hd => ?_⟩
  · rcases List.mem_cons.1 hy with rfl | hy
    · exact hok x (by simp)
    · exact hok y (by simp [hy])
  · cases hd
    exact ⟨ha, han, _, _, rfl, rfl, fun y hy => hhand y (by simp [hy])⟩

/-- A drain that has ended, with nothing in hand. -/
theorem drainEnds {store : List Stored} {g : Gds} (h : DeliveryOk (s.setGds g)) (hstore : store.Sublist g.store)
    (hhand : ∀ y ∈ store, y.inHand = false) : DeliveryOk (s.setGds { g with drain := .idle, store := store }) :=
  ⟨h.seen, ⟨hstore.length_le.trans h.store.1, fun x hx => h.store.2 x (hstore.subset hx)⟩, fun _ => hhand,
    fun a n hd => by simp at hd⟩

end DeliveryOk

/-! ### The hand-over of a record (R159) -/

section
variable {a k : Nat} {x : Stored} {store : List Stored} {r : Report} {station : Byte} {rest : List DrainMsg}

/-- RLC with a DRAIN RECORD taken. -/
def State.recordTaken (s : State) (r : Report) (station : Byte) (rest : List DrainMsg) : State :=
  s.setRlc { s.rlc with drainQueue := rest, inProgress := some (.drainRecord r station) }

/-- The last record that a drain may hand over, or that there is, ends it. -/
theorem State.takeDrain_record_last (hd : s.gds.drain = .draining a k) (hs : s.gds.store = x :: store)
    (hx : x.inHand = true) (hq : s.rlc.drainQueue = .record r station :: rest) (hlast : a ≤ 1 ∨ store = []) :
    s.takeDrain (.record r station) = ((s.recordTaken r station rest).setGds
      { s.gds with drain := .idle, store := store }).queueDrain (.ended (k + 1) store.length .done) := by
  have hlast' : a - 1 = 0 ∨ store = [] := hlast.imp_left Nat.sub_eq_zero_of_le
  simp only [State.takeDrain, State.handOver, State.setRlc_gds, hd, hs, List.eraseP_cons_of_pos hx, hlast', if_true, hq]
  rfl

/-- Otherwise the next record is taken in hand. -/
theorem State.takeDrain_record_next {y : Stored} {ys : List Stored} (hd : s.gds.drain = .draining a k)
    (hs : s.gds.store = x :: store) (hx : x.inHand = true) (hq : s.rlc.drainQueue = .record r station :: rest)
    (ha : 1 < a) (hstore : store = y :: ys) :
    s.takeDrain (.record r station) = ((s.recordTaken r station rest).setGds
      { s.gds with drain := .draining (a - 1) (k + 1), store := { y with inHand := true } :: ys }).queueDrain
        (.record y.report y.station) := by
  subst hstore
  have hnext : ¬(a - 1 = 0 ∨ y :: ys = []) := by simp; omega
  simp only [State.takeDrain, State.handOver, State.setRlc_gds, hd, hs, List.eraseP_cons_of_pos hx, hnext, if_false, hq,
    State.takeInHand, State.setGds_gds]
  rfl

end

namespace Live

variable {owed : List Debt}

/-! ### RLC (R165, R166, R169 to R174) -/

/-- A change of RLC within `LinkOk` that leaves supervision and the radio-lost condition. -/
theorem editRlc {x : Rlc} (h : Live owed s) (hlink : LinkOk (s.setRlc x))
    (hsupervision : x.supervisionDue = s.rlc.supervisionDue) (hlost : x.radioLost = s.rlc.radioLost) :
    Live owed (s.setRlc x) :=
  h.setRlc hlink (hsupervision ▸ h.clock.supervision) fun _ hl => hlost ▸ hl

theorem queueControl {m : ControlMsg} (h : Live owed s) (hm : m ≠ .stateReport) : Live owed (s.queueControl m) :=
  h.editRlc (h.link.queueControl (.inl hm)) rfl rfl

theorem queueTerminal (h : Live owed s) (m : TermUplink) : Live owed (s.queueTerminal m) :=
  h.editRlc (h.link.queueTerminal m) rfl rfl

theorem recordOccasion (h : Live owed s) (o : Occasion) : Live owed (s.recordOccasion o) := by
  have hlink := h.link.recordOccasion o
  rw [State.recordOccasion_frame] at hlink ⊢
  exact h.editRlc hlink rfl rfl

theorem setFlag (h : Live owed s) (k : Sticky) : Live owed (s.setFlag k) := by
  unfold State.setFlag
  split
  · exact h
  · have hset : Live owed (s.setRlc { s.rlc with flags := s.rlc.flags.set k }) :=
      h.editRlc (h.link.setFlags _) rfl rfl
    exact hset.recordOccasion _

/-- The parser, the flow state and the message in progress are free. -/
theorem setParser (h : Live owed s) (p : Parser) : Live owed (s.setRlc { s.rlc with parser := p }) :=
  h.editRlc (h.link.setRlc rfl rfl rfl h.link.owed h.link.running) rfl rfl

theorem setStopped (h : Live owed s) (b : Bool) : Live owed (s.setRlc { s.rlc with stopped := b }) :=
  h.editRlc (h.link.setRlc rfl rfl rfl h.link.owed fun _ => h.active.running) rfl rfl

theorem setInProgress (h : Live owed s) (m : Option Outbound) :
    Live owed (s.setRlc { s.rlc with inProgress := m }) :=
  h.editRlc (h.link.setRlc rfl rfl rfl h.link.owed h.link.running) rfl rfl

theorem restartSupervision (h : Live owed s) : Live owed s.restartSupervision :=
  h.setRlc (h.link.setRlc rfl rfl rfl h.link.owed h.link.running) (by simp) fun _ => id

theorem supervisionStep (h : Live owed s) : Live owed s.supervisionStep := by
  have hrestarted := h.restartSupervision
  unfold State.supervisionStep
  dsimp only
  split
  · refine recordOccasion (hrestarted.setRlc ?_ (by simp [State.restartSupervision]) (by simp)) _
    exact hrestarted.link.setRlc rfl rfl rfl hrestarted.link.owed fun _ => hrestarted.active.running
  · exact hrestarted

/-! ### GDS (R155 to R159) -/

theorem gdsIntake {station : Byte} {reports : List Report} (h : Live owed s)
    (hreports : ∀ r ∈ reports, r.segment.toNat ≤ 127) : Live owed (s.gdsIntake station reports) := by
  unfold State.gdsIntake
  split
  · obtain ⟨hgds, hdrain⟩ := h.delivery.intakes (station := station) hreports
    exact h.setGds hgds (by rw [hdrain])
  · exact h

/-- A change of GDS with a message for the drain queue. -/
theorem setGdsQueueDrain {g : Gds} {m : DrainMsg} (h : Live owed s) (hgds : DeliveryOk (s.setGds g))
    (hone : (s.rlc.drainQueue.countP fun m => !m.isEnd) + (if m.isEnd then 0 else 1) = if g.drain = .idle then 0 else 1) :
    Live owed ((s.setGds g).queueDrain m) :=
  h.setGdsRlc hgds (h.link.queueDrain hone) h.clock.supervision fun _ => id

theorem queueDrainEnd (h : Live owed s) (count remaining : Nat) (status : DrainStatus) :
    Live owed (s.queueDrain (.ended count remaining status)) :=
  h.setGdsQueueDrain (g := s.gds) h.delivery h.link.oneRecord

theorem drainRequest {limit : Nat} (h : Live owed s) (hlimit : 1 ≤ limit ∧ limit ≤ 64) :
    Live owed (s.drainRequest limit) := by
  unfold State.drainRequest
  split
  case h_1 hidle =>
    split
    case isTrue => exact h.queueDrainEnd _ _ _
    case isFalse hstore =>
      obtain ⟨x, rest, hx⟩ := List.exists_cons_of_ne_nil hstore
      simp only [State.takeInHand, State.setGds_gds, hx]
      refine h.setGdsQueueDrain (h.delivery.takeHead hx ?_ hlimit.1 hlimit.2) ?_
      · exact h.delivery.idle hidle
      · have hnone := h.link.oneRecord
        simp only [hidle, if_true] at hnone
        rw [hnone]
        rfl
  case h_2 => exact h.queueDrainEnd _ _ _

/-- RLC takes the drain message at the head of its queue; a DRAIN RECORD is handed over (R159, R167). -/
theorem takeDrain {m : DrainMsg} {rest : List DrainMsg} (h : Live owed s) (hq : s.rlc.drainQueue = m :: rest) :
    Live owed (s.takeDrain m) := by
  have hcount := h.link.oneRecord
  have hlen := h.link.drainQueue
  simp only [hq, List.countP_cons, List.length_cons] at hcount hlen
  cases m with
  | ended count remaining status =>
    have hlink : LinkOk (s.setRlc { s.rlc with
        drainQueue := rest, inProgress := some (.drainEnd count remaining status) }) :=
      { h.link with
        drainQueue := (Nat.le_succ _).trans hlen
        oneRecord := hcount }
    have heq : s.takeDrain (.ended count remaining status) =
        s.setRlc { s.rlc with drainQueue := rest, inProgress := some (.drainEnd count remaining status) } := by
      simp only [State.takeDrain, hq]
      rfl
    rw [heq]
    exact h.editRlc hlink rfl rfl
  | record r station =>
    cases hd : s.gds.drain with
    | idle => simp [hd, DrainMsg.isEnd] at hcount
    | draining a n =>
      have hrest : (rest.countP fun m => !m.isEnd) = 0 := by
        rw [hd] at hcount
        exact Nat.succ.inj hcount
      obtain ⟨ha, han, x, store, hstore, hx, hhand⟩ := h.delivery.draining a n hd
      have hsub : store.Sublist s.gds.store := by simp [hstore]
      have hlink : LinkOk ((s.recordTaken r station rest).setGds { s.gds with drain := .idle, store := store }) :=
        { h.link with
          drainQueue := (Nat.le_succ _).trans hlen
          oneRecord := hrest }
      by_cases hlast : a ≤ 1 ∨ store = []
      · rw [State.takeDrain_record_last hd hstore hx hq hlast]
        refine h.setGdsRlc (h.delivery.drainEnds hsub hhand) ?_ h.clock.supervision fun _ => id
        exact hlink.queueDrain (by rw [hlink.oneRecord]; rfl)
      · obtain ⟨y, ys, rfl⟩ := List.exists_cons_of_ne_nil fun hnil => hlast (.inr hnil)
        have hmore : 1 < a := by
          by_contra hle
          exact hlast (.inl (by omega))
        rw [State.takeDrain_record_next hd hstore hx hq hmore rfl]
        have hended : DeliveryOk (s.setGds { s.gds with drain := .idle, store := y :: ys }) :=
          h.delivery.drainEnds hsub hhand
        refine h.setGdsRlc (hended.takeHead rfl hhand (by omega) (by omega)) ?_ h.clock.supervision fun _ => id
        exact hlink.queueDrain (by rw [hlink.oneRecord]; rfl)

end Live

end Sys2Proof.Machine
end

