-- ==== Sys2Proof/Proofs/LiveFrames.lean ====
section
/-!
PROOFS. Contexts put, changed and dropped, and LNC's operations: what each keeps of `Live`.
-/

namespace Sys2Proof.Machine

variable {s : State}

/-! ### The context table (R76, R77) -/

theorem ContextsOk.of_contextOf {crane : Byte} {c : Context} (h : ContextsOk s.cru.contexts)
    (hc : s.contextOf crane = some c) : ContextOk c :=
  h.each c (State.crane_of_contextOf hc).2

theorem ContextOk.addLate {c : Context} (h : ContextOk c) : ContextOk c.addLate :=
  { h with late := Nat.min_le_left _ _ }

namespace Live

variable {owed : List Debt}

/-- A context changed in place. -/
theorem changeContext {crane : Byte} {c d : Context} (h : Live owed s) (hc : s.contextOf crane = some c)
    (hcrane : d.crane = c.crane) (hd : ContextOk d) : Live owed (s.putContext d) := by
  obtain ⟨rfl, hmem⟩ := State.crane_of_contextOf hc
  have hfound : tableFind Context.key d.key s.cru.contexts = some c := by
    rw [Context.key, hcrane]
    exact hc
  refine h.setCru ⟨tablePut_sorted h.contexts.sorted, ?_, fun x hx => ?_⟩ (.inl fun hnil => ?_)
  · rw [length_tablePut h.contexts.sorted, hfound]
    exact h.contexts.count
  · rcases (mem_tablePut h.contexts.sorted).1 hx with rfl | ⟨hx, -⟩
    · exact hd
    · exact h.contexts.each x hx
  · simp [hnil] at hmem

/-- A new context, in RUN without radio loss, where there is room. -/
theorem newContext {c : Context} (h : Live owed s) (hroom : s.cru.contexts.length < 4) (hc : ContextOk c)
    (hrun : s.stc.runState = .run) (hlost : s.rlc.radioLost = false) : Live owed (s.putContext c) := by
  refine h.setCru ⟨tablePut_sorted h.contexts.sorted, ?_, fun x hx => ?_⟩ (.inr ⟨hrun, hlost⟩)
  · rw [length_tablePut h.contexts.sorted]
    split <;> omega
  · rcases (mem_tablePut h.contexts.sorted).1 hx with rfl | ⟨hx, -⟩
    · exact hc
    · exact h.contexts.each x hx

theorem dropContext (h : Live owed s) (crane : Byte) : Live owed (s.dropContext crane) := by
  refine h.setCru ⟨tableErase_sorted h.contexts.sorted, length_tableErase_le.trans h.contexts.count, fun x hx => ?_⟩
    (.inl fun hnil => ?_)
  · exact h.contexts.each x (mem_tableErase.1 hx).1
  · simp [hnil, tableErase]

theorem countLate (h : Live owed s) (crane : Byte) : Live owed (s.countLate crane) := by
  unfold State.countLate
  split
  case h_1 c hc => exact h.changeContext hc rfl (h.contexts.of_contextOf hc).addLate
  case h_2 => exact h

theorem craneFrameLost (h : Live owed s) (f : TxFrame) : Live owed (s.craneFrameLost f) := by
  unfold State.craneFrameLost
  split
  · exact h.countLate _
  · exact h

end Live

/-- The late counts do not depend on LNC. -/
theorem State.craneFrameLost_setLnc (x : Lnc) (f : TxFrame) :
    (s.setLnc x).craneFrameLost f = (s.craneFrameLost f).setLnc x := by
  simp only [State.craneFrameLost, State.countLate, State.setLnc_contextOf]
  split
  · split <;> rfl
  · rfl

/-! ### The classes of LNC -/

namespace Lnc

variable {l : Lnc} {k j : TxClass} {q : List TxFrame}

@[simp] theorem setFrames_line : (l.setFrames k q).line = l.line := by cases k <;> rfl
@[simp] theorem setFrames_receiving : (l.setFrames k q).receiving = l.receiving := by cases k <;> rfl
@[simp] theorem setFrames_carrierSince : (l.setFrames k q).carrierSince = l.carrierSince := by cases k <;> rfl
@[simp] theorem setFrames_recoverySince : (l.setFrames k q).recoverySince = l.recoverySince := by cases k <;> rfl
@[simp] theorem setFrames_generator : (l.setFrames k q).generator = l.generator := by cases k <;> rfl
@[simp] theorem setFrames_onAir : (l.setFrames k q).onAir = l.onAir := by cases k <;> rfl
@[simp] theorem setFrames_transmitting : (l.setFrames k q).transmitting j = l.transmitting j := by cases k <;> rfl
@[simp] theorem setFrames_deferring : (l.setFrames k q).deferring j = l.deferring j := by cases k <;> rfl
@[simp] theorem frames_setFrames_self : (l.setFrames k q).frames k = q := by cases k <;> rfl

theorem frames_setFrames_ne (h : j ≠ k) : (l.setFrames k q).frames j = l.frames j := by
  cases k <;> cases j <;> simp [frames, setFrames] at h ⊢

theorem frames_setFrames : (l.setFrames k q).frames j = if j = k then q else l.frames j := by
  split
  case isTrue h => rw [h, frames_setFrames_self]
  case isFalse h => exact frames_setFrames_ne h

theorem onAir_of_sending {f : Frame} (h : l.line = .sending k f) : l.onAir = true := by simp [onAir, h]

theorem onAir_eq_true : l.onAir = true ↔ ∃ k f, l.line = .sending k f := by
  cases h : l.line <;> simp [onAir, h]

theorem transmitting_eq_true : l.transmitting k = true ↔ ∃ f, l.line = .sending k f := by
  cases h : l.line <;> simp [transmitting, h]

theorem deferring_eq_true : l.deferring k = true ↔ ∃ t, l.line = .defer k t := by
  cases h : l.line <;> simp [deferring, h]

/-- Without a candidate every class is empty. -/
theorem frames_eq_nil_of_candidate (h : l.candidate = none) (k : TxClass) : l.frames k = [] := by
  unfold candidate at h
  split at h <;> cases h
  cases k <;> simp_all [frames]

end Lnc

namespace ClassesOk

variable {c : Settings} {l m : Lnc} {succ : Option Frame} {k : TxClass} {q : List TxFrame}

/-- The frames of a class replaced. -/
theorem setFrames (h : ClassesOk c l succ) (hq : ∀ f ∈ q, TxFrameOk c k f) (hroom : k ≠ .bundle → q.length ≤ k.capacity)
    (hslot : k = .beacon → c.homeCount = 0 → q = []) : ClassesOk c (l.setFrames k q) succ where
  frames := fun j f hf => by
    rw [Lnc.frames_setFrames] at hf
    split at hf
    case isTrue hj => exact hj ▸ hq f hf
    case isFalse => exact h.frames j f hf
  room := fun j hj => by
    rw [Lnc.frames_setFrames]
    split
    case isTrue hjk => exact hjk ▸ hroom (hjk ▸ hj)
    case isFalse => exact h.room j hj
  slot := fun h0 => by
    rw [Lnc.frames_setFrames]
    split
    case isTrue hk => exact hslot hk.symm h0
    case isFalse => exact h.slot h0
  onLine := fun j f hf => h.onLine j f (by simpa using hf)
  successor := h.successor
  generator := by simpa using h.generator

/-- Frames taken out of a class. -/
theorem setFrames_sublist (h : ClassesOk c l succ) (hq : q.Sublist (l.frames k)) : ClassesOk c (l.setFrames k q) succ :=
  h.setFrames (fun f hf => h.frames k f (hq.subset hf)) (fun hk => hq.length_le.trans (h.room k hk)) fun hk h0 => by
    subst hk
    rw [h.slot h0] at hq
    exact List.sublist_nil.1 hq

/-- A change that leaves the frames. -/
theorem congr (h : ClassesOk c l succ) (hframes : ∀ k, m.frames k = l.frames k) (hgen : m.generator ≠ 0)
    (hline : ∀ k f, m.line = .sending k f → c.MayTransmit f) : ClassesOk c m succ where
  frames := fun k f hf => h.frames k f (hframes k ▸ hf)
  room := fun k hk => (hframes k).symm ▸ h.room k hk
  slot := fun h0 => (hframes .beacon).trans (h.slot h0)
  onLine := hline
  successor := h.successor
  generator := hgen

end ClassesOk

namespace LineKept

variable {owed : List Debt} {p : Pins} {l m : Lnc} {succ : Option Frame} {k : TxClass} {q : List TxFrame}

/-! What a line state says of the rest. -/

theorem lineOpen_eq_false (h : LineKept owed p l succ) (hl : l.line ≠ .fault) : p.lineOpen = false := by
  by_contra ho
  exact hl (h.opened (by simpa using ho))

theorem recoverySince_eq_none (h : LineKept owed p l succ) (hl : l.line ≠ .fault) : l.recoverySince = none := by
  by_contra hr
  exact hl (h.recovery.1 hr).1

theorem receiving_eq_false (h : LineKept owed p l succ) (hl : l.line ≠ .idle) : l.receiving = false := by
  by_contra hr
  exact hl (h.receiving (by simpa using hr)).2

theorem successor_eq_none (h : LineKept owed p l succ) (hl : l.transmitting .beacon = false) : succ = none := by
  by_contra hs
  simp [h.successor hs] at hl

theorem attempt_notMem (h : LineKept owed p l succ) (hl : l.onAir = false) : .attempt ∉ owed := fun hm => by
  simp [(h.ended hm).1] at hl

theorem carrier_iff (h : LineKept owed p l succ) (hl : l.onAir = false) :
    l.carrierSince ≠ none ↔ p.carrier = true := by
  simpa [hl] using h.carrier

/-- A part in IDLE. -/
theorem of_idle (hm : m.line = .idle) (hreceiving : m.receiving = true → p.carrier = true) (hopen : p.lineOpen = false)
    (hsucc : succ = none) (hcarrier : m.carrierSince ≠ none ↔ p.carrier = true) (hrecovery : m.recoverySince = none)
    (howed : .attempt ∉ owed) (hused : .defer ∉ owed → p.carrier = false → m.candidate = none) :
    LineKept owed p m succ where
  candidate := by simp [hm]
  receiving := fun hr => ⟨hreceiving hr, hm⟩
  opened := by simp [hopen]
  successor := fun hs => absurd hsucc hs
  carrier := by simpa [Lnc.onAir, hm] using hcarrier
  recovery := by simp [hrecovery, hm]
  sent := by simp [hm]
  ended := fun hn => absurd hn howed
  used := fun hn _ => hused hn

/-- A part in FAULT. -/
theorem of_fault (hm : m.line = .fault) (hreceiving : m.receiving = false) (hsucc : succ = none)
    (hcarrier : m.carrierSince ≠ none ↔ p.carrier = true)
    (hrecovery : m.recoverySince ≠ none ↔ p.carrier = false ∧ p.lineOpen = false) (howed : .attempt ∉ owed) :
    LineKept owed p m succ where
  candidate := by simp [hm]
  receiving := by simp [hreceiving]
  opened := fun _ => hm
  successor := fun hs => absurd hsucc hs
  carrier := by simpa [Lnc.onAir, hm] using hcarrier
  recovery := by simpa [hm] using hrecovery
  sent := by simp [hm]
  ended := fun hn => absurd hn howed
  used := by simp [hm]

/-- The frames of a class replaced, where no attempt or DEFER is left without its candidate. -/
theorem setFrames (h : LineKept owed p l succ) (hq : l.deferring k = true ∨ l.transmitting k = true → q ≠ [])
    (hne : .defer ∉ owed → l.line = .idle → l.frames k ≠ []) : LineKept owed p (l.setFrames k q) succ where
  candidate := fun j t hj => by
    rw [Lnc.setFrames_line] at hj
    refine ⟨?_, (h.candidate j t hj).2⟩
    rw [Lnc.frames_setFrames]
    split
    case isTrue hjk =>
      subst hjk
      exact hq (.inl (Lnc.deferring_eq_true.2 ⟨t, hj⟩))
    case isFalse => exact (h.candidate j t hj).1
  receiving := by simpa using h.receiving
  opened := by simpa using h.opened
  successor := by simpa using h.successor
  carrier := by simpa using h.carrier
  recovery := by simpa using h.recovery
  sent := fun hn j f hj => by
    rw [Lnc.setFrames_line] at hj
    rw [Lnc.frames_setFrames]
    split
    case isTrue hjk =>
      subst hjk
      exact hq (.inr (Lnc.transmitting_eq_true.2 ⟨f, hj⟩))
    case isFalse => exact h.sent hn j f hj
  ended := by simpa using h.ended
  used := fun hn hidle hcarrier => by
    rw [Lnc.setFrames_line] at hidle
    exact absurd (Lnc.frames_eq_nil_of_candidate (h.used hn hidle hcarrier) k) (hne hn hidle)

/-- The opening of a DEFER may be owed. -/
theorem oweDefer (h : LineKept owed p l succ) : LineKept (.defer :: owed) p l succ :=
  { h with
    sent := fun hn => h.sent fun hm => hn (by simp [hm])
    ended := fun hm => h.ended (by simpa using hm)
    used := by simp }

/-- An attempt may end, once no successor waits behind it. -/
theorem oweAttempt (h : LineKept owed p l succ) (hair : l.onAir = true) (hsucc : succ = none) :
    LineKept (.attempt :: owed) p l succ :=
  { h with
    sent := by simp
    ended := fun _ => ⟨hair, hsucc⟩
    used := fun hn => h.used fun hm => hn (by simp [hm]) }

/-- Then its frame may leave its class. -/
theorem setFrames_of_attempt (h : LineKept owed p l succ) (hm : .attempt ∈ owed) :
    LineKept owed p (l.setFrames k q) succ := by
  obtain ⟨hair, hsucc⟩ := h.ended hm
  obtain ⟨j, f, hl⟩ := Lnc.onAir_eq_true.1 hair
  exact
    { candidate := by simp [hl]
      receiving := by simpa using h.receiving
      opened := by simpa using h.opened
      successor := fun hs => absurd hsucc hs
      carrier := by simpa using h.carrier
      recovery := by simpa using h.recovery
      sent := fun hn => absurd hm hn
      ended := fun _ => ⟨by simpa using hair, hsucc⟩
      used := by simp [hl] }

/-- An end of a DEFER leaves IDLE, and the next DEFER may have to open. -/
theorem toIdle {t : Micros} (h : LineKept owed p l succ) (hl : l.line = .defer k t) (hm : m.line = .idle)
    (hreceiving : m.receiving = l.receiving) (hcarrier : m.carrierSince = l.carrierSince)
    (hrecovery : m.recoverySince = l.recoverySince) : LineKept (.defer :: owed) p m succ := by
  have hair : l.onAir = false := by simp [Lnc.onAir, hl]
  refine of_idle hm ?_ (h.lineOpen_eq_false (by simp [hl])) (h.successor_eq_none (by simp [Lnc.transmitting, hl]))
    (hcarrier ▸ h.carrier_iff hair) (hrecovery ▸ h.recoverySince_eq_none (by simp [hl])) ?_ (by simp)
  · simp [hreceiving, h.receiving_eq_false (by simp [hl])]
  · simpa using h.attempt_notMem hair

/-- The end of an attempt leaves IDLE, and the next DEFER may have to open. -/
theorem endAttempt (h : LineKept (.attempt :: owed) p l succ) (howed : .attempt ∉ owed) (hm : m.line = .idle)
    (hreceiving : m.receiving = l.receiving) (hcarrier : m.carrierSince ≠ none ↔ p.carrier = true)
    (hrecovery : m.recoverySince = l.recoverySince) : LineKept (.defer :: owed) p m succ := by
  obtain ⟨hair, hsucc⟩ := h.ended (by simp)
  obtain ⟨k, f, hl⟩ := Lnc.onAir_eq_true.1 hair
  refine of_idle hm ?_ (h.lineOpen_eq_false (by simp [hl])) hsucc hcarrier
    (hrecovery ▸ h.recoverySince_eq_none (by simp [hl])) (by simpa using howed) (by simp)
  simp [hreceiving, h.receiving_eq_false (by simp [hl])]

end LineKept

/-! ### DEFERs, and frames given and withdrawn (R57 to R62) -/

theorem gapOf_generator_ne_zero {g : Word16} (hg : g ≠ 0) (c : TxClass) (n : Nat) : (gapOf c n g).2 ≠ 0 := by
  cases hc : c.hasBase with
  | false =>
    rw [gapOf_of_noBase hc]
    split
    · exact hg
    · exact advanceGen_ne_zero hg
  | true =>
    rw [gapOf_of_hasBase hc]
    split
    · exact advanceGen_ne_zero hg
    · exact advanceGen_ne_zero (advanceGen_ne_zero hg)

/-- A frame that joins a class of its kind. -/
theorem txFrameOk_newTx {c : Settings} {k : TxClass} {x : Frame} (hkind : k.holds x.body) (hx : c.MayTransmit x)
    (now : Micros) (life buffer : Nat) : TxFrameOk c k (newTx now x life buffer) :=
  ⟨hkind, by cases k <;> exact Nat.succ_pos _, hx⟩

namespace Live

variable {owed : List Debt}

/-- The opening of a DEFER is owed no more where none has to open. -/
theorem payDefer (h : Live (.defer :: owed) s)
    (hused : .defer ∉ owed → s.lnc.line = .idle → s.pins.carrier = false → s.lnc.candidate = none) : Live owed s :=
  { h with
    line :=
      { h.line with
        sent := fun hn => h.line.sent (by simpa using hn)
        ended := fun hm => h.line.ended (by simp [hm])
        used := hused }
    moved := fun hn => h.moved (by simpa using hn)
    notices := fun hn => h.notices (by simpa using hn)
    free := fun hn => h.free (by simpa using hn) }

theorem openDefer (h : Live (.defer :: owed) s) : Live owed s.openDefer := by
  rcases s.mayDefer_or with hmay | hnot
  · cases hf : s.lnc.candidate with
    | none =>
      rw [State.openDefer_of_noCandidate hf]
      exact h.payDefer fun _ _ _ => hf
    | some p =>
      obtain ⟨c, f⟩ := p
      rw [hmay.openDefer_of_candidate hf]
      have hmem := Lnc.mem_frames_of_candidate hf
      refine Live.payDefer (h.setLnc (h.classes.congr (fun k => by cases k <;> rfl)
        (gapOf_generator_ne_zero h.classes.generator _ _) (by simp)) h.bundles ?_) (by simp [State.inDefer])
      exact
        { candidate := fun k t hk => by
            cases hk
            exact ⟨fun hnil => by
              have hnil : s.lnc.frames c = [] := hnil
              simp [hnil] at hmem, hmay.silent⟩
          receiving := fun hr => by
            have := (h.line.receiving hr).1
            simp [hmay.silent] at this
          opened := fun ho => by
            have := h.line.opened ho
            simp [hmay.idle] at this
          successor := fun hs => by simpa [Lnc.transmitting, hmay.idle] using h.line.successor hs
          carrier := by simpa [hmay.silent] using h.line.carrier
          recovery := by simpa [hmay.idle] using h.line.recovery
          sent := by simp
          ended := fun hm => absurd hm (h.line.attempt_notMem (by simp [Lnc.onAir, hmay.idle]))
          used := by simp }
  · rw [State.openDefer_eq_self hnot]
    refine h.payDefer fun _ hidle hcarrier => ?_
    simp [h.active.running, hidle, hcarrier] at hnot

/-- A change of LNC that changes what is owed of the line. -/
theorem setLncOwing {owed' : List Debt} {y : Lnc} (h : Live owed s) (hclasses : ClassesOk s.cfg y s.cve.successor)
    (hgiven : BundlesGiven y.class3 s.bas.buffers) (hline : LineKept owed' s.pins y s.cve.successor)
    (hsub : ∀ d, d ≠ .attempt → d ≠ .defer → d ∈ owed → d ∈ owed') : Live owed' (s.setLnc y) :=
  h.setPinsLnc rfl hclasses hgiven hline hsub

/-- A change of LNC after which a DEFER may have to open. -/
theorem setLncDefer {y : Lnc} (h : Live owed s) (hclasses : ClassesOk s.cfg y s.cve.successor)
    (hgiven : BundlesGiven y.class3 s.bas.buffers) (hline : LineKept (.defer :: owed) s.pins y s.cve.successor) :
    Live (.defer :: owed) (s.setLnc y) :=
  h.setLncOwing hclasses hgiven hline fun d _ _ hd => by simp [hd]

/-- A frame joins class 0 or class 1, where there is room. -/
theorem joinClass {k : TxClass} {f : TxFrame} (h : Live owed s) (hk : k = .crane ∨ k = .handover)
    (hf : TxFrameOk s.cfg k f) (hroom : (s.lnc.frames k).length < k.capacity) : Live owed (s.joinClass k f) := by
  have hclass3 : ∀ q, (s.lnc.setFrames k q).class3 = s.lnc.class3 := by
    rcases hk with rfl | rfl <;> exact fun _ => rfl
  refine Live.openDefer (h.setLncDefer ?_ ?_ (h.line.oweDefer.setFrames (by simp) (by simp)))
  · refine h.classes.setFrames (fun x hx => ?_) (fun _ => by simpa using hroom) fun hb => ?_
    · rcases List.mem_append.1 hx with hx | hx
      · exact h.classes.frames k x hx
      · exact List.mem_singleton.1 hx ▸ hf
    · rcases hk with rfl | rfl <;> cases hb
  · rw [hclass3]
    exact h.bundles

/-- A crane frame leaves class 0, which held it, perhaps for another; the DEFER it was the candidate of ends (R62). -/
theorem loseCraneFrame {q : List TxFrame} {head : Bool} {f : TxFrame} (h : Live owed s) (hne : s.lnc.class0 ≠ [])
    (hq : ∀ f ∈ q, TxFrameOk s.cfg .crane f) (hlen : q.length ≤ 8)
    (hkeep : s.lnc.deferring .crane = true ∧ head = false ∨ s.lnc.transmitting .crane = true → q ≠ []) :
    Live owed (if s.lnc.deferring .crane && head then
      ((s.setLnc { s.lnc with class0 := q }).craneFrameLost f).reopenDefer
      else (s.setLnc { s.lnc with class0 := q }).craneFrameLost f) := by
  have hlost : Live owed (s.craneFrameLost f) := h.craneFrameLost f
  obtain ⟨cru, hcru⟩ := s.craneFrameLost_frame f
  have hcfg : (s.craneFrameLost f).cfg = s.cfg := by rw [hcru]; rfl
  have hlnc : (s.craneFrameLost f).lnc = s.lnc := by rw [hcru]; rfl
  have hclasses : ClassesOk (s.craneFrameLost f).cfg (s.lnc.setFrames .crane q) (s.craneFrameLost f).cve.successor := by
    have := hlost.classes
    rw [hlnc] at this
    exact this.setFrames (by rwa [hcfg]) (fun _ => hlen) (by simp)
  have hbundles := hlost.bundles
  have hline := hlost.line
  rw [hlnc] at hbundles hline
  rw [State.craneFrameLost_setLnc]
  split
  case isTrue hd =>
    simp only [Bool.and_eq_true] at hd
    obtain ⟨t, ht⟩ := Lnc.deferring_eq_true.1 hd.1
    exact Live.openDefer (hlost.setLncDefer (hclasses.congr (fun k => by cases k <;> rfl) hclasses.generator (by simp))
      hbundles (hline.toIdle ht rfl rfl rfl rfl))
  case isFalse hd =>
    refine hlost.setLnc hclasses hbundles (hline.setFrames (k := .crane) (fun hl => hkeep ?_) fun _ _ => hne)
    rcases hl with hl | hl
    · exact .inl ⟨hl, by simpa [hl] using hd⟩
    · exact .inr hl

/-- A frame of this station is given to class 0 (R57, R88). -/
theorem giveCrane {x : Frame} (h : Live owed s) (hkind : TxClass.crane.holds x.body) (hx : s.cfg.MayTransmit x)
    (life : Nat) : Live owed (s.giveCrane x life) := by
  have hnew := txFrameOk_newTx hkind hx s.now life 0
  have hle : s.lnc.class0.length ≤ 8 := h.classes.room .crane (by simp)
  unfold State.giveCrane
  dsimp only
  split
  case isTrue hroom => exact h.joinClass (.inl rfl) hnew hroom
  case isFalse hfull =>
    have hlen : s.lnc.class0.length = 8 := by
      have : ¬s.lnc.class0.length < 8 := hfull
      omega
    generalize hv : (if s.lnc.transmitting .crane = true then 1 else 0) = v
    have hv2 : v < 2 := by
      rw [← hv]
      split <;> decide
    obtain ⟨old, hold⟩ : ∃ old, s.lnc.class0[v]? = some old := ⟨_, List.getElem?_eq_getElem (by omega)⟩
    have hq : ∀ f ∈ (s.lnc.class0 ++ [newTx s.now x life 0]).eraseIdx v, TxFrameOk s.cfg .crane f := by
      intro f hf
      rcases List.mem_append.1 (List.mem_of_mem_eraseIdx hf) with hf | hf
      · exact h.classes.frames .crane f hf
      · exact List.mem_singleton.1 hf ▸ hnew
    have hlen' : ((s.lnc.class0 ++ [newTx s.now x life 0]).eraseIdx v).length = 8 := by
      rw [List.length_eraseIdx_of_lt] <;> simp <;> omega
    have hlost := h.loseCraneFrame (f := old) (head := true) (List.ne_nil_of_length_eq_add_one hlen) hq hlen'.le
      fun _ => List.ne_nil_of_length_eq_add_one hlen'
    rw [hold]
    simpa using hlost

/-- An answer is given to class 1, or turned away (R57). -/
theorem giveAnswer {x : Frame} (h : Live owed s) (hkind : TxClass.handover.holds x.body) (hx : s.cfg.MayTransmit x) :
    Live owed (s.giveAnswer x) := by
  unfold State.giveAnswer
  split
  case isTrue hroom => exact h.joinClass (.inr rfl) (txFrameOk_newTx hkind hx _ _ _) hroom
  case isFalse => exact h

end Live

end Sys2Proof.Machine
end

