-- ==== Sys2Proof/Proofs/LiveLine.lean ====
section
/-!
PROOFS. The line: BEACONs and withdrawals, the ends of attempts, carrier and faults; what each keeps of `Live`.
-/

namespace Sys2Proof.Machine

variable {s : State}

/-- A frame of this station with a body in order is one that it may put on the line. -/
theorem Active.mayTransmit_ownFrame {held : Bool} (h : Active s.stc held) (hheld : held = s.pins.resetHeld) {b : FrameBody}
    (hb : bodyWellFormed b = true) (dest : Byte) : s.cfg.MayTransmit (s.ownFrame dest b) := by
  subst hheld
  exact ⟨Bool.and_eq_true_iff.2 ⟨decide_eq_true h.settings.address, hb⟩, rfl⟩

namespace Live

variable {owed : List Debt}

theorem mayTransmit_ownFrame {b : FrameBody} (h : Live owed s) (hb : bodyWellFormed b = true) (dest : Byte) :
    s.cfg.MayTransmit (s.ownFrame dest b) := h.active.mayTransmit_ownFrame rfl hb dest

/-! ### The beacon slot (R49, R50) -/

/-- A BEACON is put into the slot of a station with a home range, or waits behind the one being transmitted. -/
theorem putBeacon {x : Frame} (h : Live owed s) (hn : .attempt ∉ owed) (hkind : TxClass.beacon.holds x.body)
    (hx : s.cfg.MayTransmit x) (hhome : s.cfg.homeCount ≠ 0) : Live owed (s.putBeacon x) := by
  have hclasses : ClassesOk s.cfg (s.lnc.setFrames .beacon [newTx s.now x 0 0]) s.cve.successor :=
    h.classes.setFrames (by simpa using txFrameOk_newTx hkind hx s.now 0 0) (by simp [TxClass.capacity])
      fun _ h0 => absurd h0 hhome
  unfold State.putBeacon
  split
  case isTrue htransmitting =>
    refine h.setCve (h.segments.congr rfl rfl rfl) ⟨h.clock.beacon, h.clock.gap, h.clock.supervision⟩ (fun _ => id) ?_ ?_ h.notices
    · exact { h.classes with successor := fun f hf => by cases hf; exact ⟨hkind, hx, hhome⟩ }
    · exact { h.line with successor := fun _ => htransmitting, ended := fun hm => absurd hm hn }
  case isFalse =>
    dsimp only
    split
    case isTrue hd =>
      obtain ⟨t, ht⟩ := Lnc.deferring_eq_true.1 hd
      exact Live.openDefer (h.setLncDefer (hclasses.congr (fun k => by cases k <;> rfl) hclasses.generator (by simp))
        h.bundles (h.line.toIdle ht rfl rfl rfl rfl))
    case isFalse =>
      exact Live.openDefer (h.setLncDefer hclasses h.bundles
        (h.line.oweDefer.setFrames (k := .beacon) (by simp) (by simp)))

/-! ### Withdrawal (R58, R87, R94) -/

theorem withdrawCrane (h : Live owed s) (place : Nat) : Live owed (s.withdrawCrane place) := by
  unfold State.withdrawCrane
  split
  case h_2 => exact h
  case h_1 f hf =>
    obtain ⟨hlt, -⟩ := List.getElem?_eq_some_iff.1 hf
    have hne : s.lnc.class0 ≠ [] := List.ne_nil_of_length_pos (by omega)
    have hle : s.lnc.class0.length ≤ 8 := h.classes.room .crane (by simp)
    have hframes : ∀ x ∈ s.lnc.class0, TxFrameOk s.cfg .crane x := h.classes.frames .crane
    split
    case isTrue hrefused =>
      have hclasses : ClassesOk s.cfg (s.lnc.setFrames .crane (s.lnc.class0.set 0 { f with withdrawRefused := true }))
          s.cve.successor := by
        refine h.classes.setFrames (fun x hx => ?_) (fun _ => by rw [List.length_set]; exact hle) (by simp)
        rcases List.mem_or_eq_of_mem_set hx with hx | rfl
        · exact hframes x hx
        · obtain ⟨hkind, hattempts, hown⟩ := hframes f (List.mem_of_getElem? hf)
          exact ⟨hkind, hattempts, hown⟩
      exact h.setLnc hclasses h.bundles (h.line.setFrames (k := .crane) (fun _ => by simpa using hne) fun _ _ => hne)
    case isFalse hremoved =>
      have hlost := h.loseCraneFrame (f := f) (q := s.lnc.class0.eraseIdx place) (head := decide (place = 0)) hne
        (fun x hx => hframes x (List.mem_of_mem_eraseIdx hx)) ((List.length_eraseIdx_le _ _).trans hle) fun hkeep => by
          have hplace : place ≠ 0 := by
            rcases hkeep with hkeep | hkeep
            · simpa using hkeep.2
            · simpa [hkeep] using hremoved
          refine List.ne_nil_of_length_pos ?_
          rw [List.length_eraseIdx_of_lt hlt]
          omega
      exact hlost

/-! ### The end of an attempt (R64, R65, R72) -/

/-- An attempt at a frame may end, once no successor waits behind it. -/
theorem oweAttempt (h : Live owed s) (hair : s.lnc.onAir = true) (hsucc : s.cve.successor = none) :
    Live (.attempt :: owed) s :=
  h.setLncOwing h.classes h.bundles (h.line.oweAttempt hair hsucc) fun d _ _ hd => by simp [hd]

/-- Its frame, of another class than class 3, may then leave its class. -/
theorem attemptLeaves {k : TxClass} {q : List TxFrame} (h : Live owed s) (hm : .attempt ∈ owed) (hk : k ≠ .bundle)
    (hq : q.Sublist (s.lnc.frames k)) : Live owed (s.setLnc (s.lnc.setFrames k q)) := by
  refine h.setLnc (h.classes.setFrames_sublist hq) ?_ (h.line.setFrames_of_attempt hm)
  have hclass3 : (s.lnc.setFrames k q).class3 = s.lnc.class3 := by 
    cases k with
    | crane => rfl
    | handover => rfl
    | beacon => rfl
    | bundle => exact absurd rfl hk
  rw [hclass3]
  exact h.bundles

theorem endAttempt (h : Live (.attempt :: owed) s) (hn : .attempt ∉ owed) : Live owed s.endAttempt := by
  have hclasses : ClassesOk s.cfg
      { s.lnc with line := .idle, carrierSince := if s.pins.carrier then some s.now else none } s.cve.successor :=
    h.classes.congr (fun k => by cases k <;> rfl) (by exact h.classes.generator) (by simp)
  refine Live.openDefer (h.setLncOwing (owed' := .defer :: owed) hclasses h.bundles
    (h.line.endAttempt hn rfl rfl ?_ rfl) ?_)
  · cases s.pins.carrier <;> simp
  · intro d hd _ hm
    simpa [hd] using Or.inr hm

/-- The successor, if there is one, enters the slot when the attempt at the slot's BEACON ends (R50). -/
theorem enterSuccessor (h : Live owed s) (hair : s.lnc.onAir = true) :
    Live (.attempt :: owed) s.enterSuccessor := by
  unfold State.enterSuccessor
  split
  case h_2 hsucc => exact h.oweAttempt hair hsucc
  case h_1 b hb =>
    obtain ⟨hkind, hx, hhome⟩ := h.classes.successor b hb
    have hclasses : ClassesOk s.cfg (s.lnc.setFrames .beacon [newTx s.now b 0 0]) none :=
      { h.classes.setFrames (by simpa using txFrameOk_newTx hkind hx s.now 0 0) (by simp [TxClass.capacity])
          fun _ h0 => absurd h0 hhome with
        successor := by simp }
    refine (h.setCveLnc (y := s.lnc.setFrames .beacon [newTx s.now b 0 0]) (x := { s.cve with successor := none })
      (owed' := .attempt :: owed) (h.segments.congr rfl rfl rfl)
      ⟨h.clock.beacon, h.clock.gap, h.clock.supervision⟩ (fun _ => id) hclasses h.bundles ?_ ?_ ?_)
    · have hline : LineKept owed s.pins s.lnc none :=
        { h.line with successor := fun hn => absurd rfl hn, ended := fun hm => ⟨hair, rfl⟩ }
      exact (hline.oweAttempt hair rfl).setFrames_of_attempt (by simp)
    · exact fun hn => h.notices fun hm => hn (by simp [hm])
    · exact fun d _ _ _ hm => by simp [hm]

/-- A refused withdrawal of the frame at the head of class 0 is made again (R87, R94). -/
theorem remakeWithdrawal (h : Live owed s) (hm : .attempt ∈ owed) : Live owed s.remakeWithdrawal := by
  unfold State.remakeWithdrawal
  split
  case h_1 f rest hq =>
    split
    · have hsub : rest.Sublist (s.lnc.frames .crane) := by simp [Lnc.frames, hq]
      exact (h.attemptLeaves hm (by simp) hsub).craneFrameLost f
    · exact h
  case h_2 => exact h

/-- What an attempt that ends without an outcome leaves in its class. -/
theorem attemptCut {k : TxClass} {f : Frame} (h : Live owed s) (hl : s.lnc.line = .sending k f) :
    Live (.attempt :: owed) (s.attemptCut k) := by
  have hair := Lnc.onAir_of_sending hl
  have hsucc (hk : k ≠ .beacon) : s.cve.successor = none :=
    h.line.successor_eq_none (by simpa [Lnc.transmitting, hl] using hk)
  cases k with
  | crane => exact (h.oweAttempt hair (hsucc (by simp))).remakeWithdrawal (by simp)
  | handover => exact h.oweAttempt hair (hsucc (by simp))
  | beacon => exact h.enterSuccessor hair
  | bundle => exact h.oweAttempt hair (hsucc (by simp))

/-! ### Carrier (R59, R61, R67, R71, R74) -/

/-- A change of the pins and of the line state, to another state than SENDING, that leaves the frames. -/
theorem reline {owed' : List Debt} {p : Pins} {y : Lnc} (h : Live owed s)
    (hline : LineKept owed' p y s.cve.successor) (hheld : p.resetHeld = s.pins.resetHeld) (hair : y.onAir = false)
    (hframes : ∀ k, y.frames k = s.lnc.frames k) (hgen : y.generator = s.lnc.generator)
    (hsub : ∀ d, d ≠ .attempt → d ≠ .defer → d ∈ owed → d ∈ owed') : Live owed' ((s.setPins p).setLnc y) := by
  refine h.setPinsLnc hheld (h.classes.congr hframes (hgen ▸ h.classes.generator) fun k f hf => ?_) ?_ hline hsub
  · simp [Lnc.onAir_of_sending hf] at hair
  · have hclass3 : y.class3 = s.lnc.class3 := hframes .bundle
    rw [hclass3]
    exact h.bundles

theorem carrierAppears (h : Live owed s) : Live owed s.carrierAppears := by
  have hrun := h.active.running
  unfold State.carrierAppears
  split
  case isTrue => exact h
  case isFalse hsilent =>
    have hsilent : s.pins.carrier = false := by simpa using hsilent
    have hbegins (hopen : s.pins.lineOpen = false) (hair : s.lnc.onAir = false)
        (hsucc : s.cve.successor = none) (hrecovery : s.lnc.recoverySince = none) :
        Live owed ((s.setPins { s.pins with carrier := true }).setLnc
          { s.lnc with line := .idle, receiving := true, carrierSince := some s.now }) := by
      have hline : LineKept owed { s.pins with carrier := true }
          { s.lnc with line := .idle, receiving := true, carrierSince := some s.now } s.cve.successor :=
        .of_idle rfl (fun _ => rfl) hopen hsucc (by simp) hrecovery (h.line.attempt_notMem hair) (by simp)
      exact h.reline hline rfl rfl (fun k => by cases k <;> rfl) rfl fun _ _ _ => id
    simp only [hrun, Bool.not_true, Bool.false_eq_true, if_false]
    split
    case h_1 hl =>
      exact hbegins (h.line.lineOpen_eq_false (by simp [hl])) (by simp [Lnc.onAir, hl])
        (h.line.successor_eq_none (by simp [Lnc.transmitting, hl])) (h.line.recoverySince_eq_none (by simp [hl]))
    case h_2 hl =>
      exact hbegins (h.line.lineOpen_eq_false (by simp [hl])) (by simp [Lnc.onAir, hl])
        (h.line.successor_eq_none (by simp [Lnc.transmitting, hl])) (h.line.recoverySince_eq_none (by simp [hl]))
    case h_3 hl =>
      have hline : LineKept owed { s.pins with carrier := true } s.lnc s.cve.successor :=
        { h.line with
          candidate := by simp [hl]
          receiving := fun hr => by simp [h.line.receiving_eq_false (by simp [hl])] at hr
          carrier := by simpa [hsilent, Lnc.onAir, hl] using h.line.carrier
          recovery := by simpa [hl] using h.line.recovery
          used := by simp [hl] }
      exact h.setPins rfl hline
    case h_4 hl =>
      have hline : LineKept owed { s.pins with carrier := true }
          { s.lnc with carrierSince := some s.now, recoverySince := none } s.cve.successor :=
        .of_fault hl (h.line.receiving_eq_false (by simp [hl]))
          (h.line.successor_eq_none (by simp [Lnc.transmitting, hl])) (by simp) (by simp)
          (h.line.attempt_notMem (by simp [Lnc.onAir, hl]))
      exact h.reline hline rfl (by simp [Lnc.onAir, hl]) (fun k => by cases k <;> rfl) rfl fun _ _ _ => id

theorem carrierEnds (h : Live owed s) : Live owed s.carrierEnds := by
  have hrun := h.active.running
  unfold State.carrierEnds
  split
  case isTrue => exact h
  case isFalse hcarrier =>
    have hcarrier : s.pins.carrier = true := by simpa using hcarrier
    simp only [hrun, Bool.not_true, Bool.false_eq_true, if_false]
    split
    case h_1 hl =>
      have hline : LineKept owed { s.pins with carrier := false } s.lnc s.cve.successor :=
        { h.line with
          candidate := by simp [hl]
          receiving := fun hr => by simp [h.line.receiving_eq_false (by simp [hl])] at hr
          carrier := by simpa [hcarrier, Lnc.onAir, hl] using h.line.carrier
          recovery := by simpa [hl] using h.line.recovery
          used := by simp [hl] }
      exact h.setPins rfl hline
    case h_2 hl =>
      have hline : LineKept owed { s.pins with carrier := false }
          { s.lnc with
            receiving := false, carrierSince := none
            recoverySince := if s.pins.lineOpen then none else some s.now } s.cve.successor := by
        refine .of_fault hl rfl (h.line.successor_eq_none (by simp [Lnc.transmitting, hl])) (by simp) ?_
          (h.line.attempt_notMem (by simp [Lnc.onAir, hl]))
        cases s.pins.lineOpen <;> simp
      exact h.reline hline rfl (by simp [Lnc.onAir, hl]) (fun k => by cases k <;> rfl) rfl fun _ _ _ => id
    case h_3 hl =>
      have hline : LineKept (.defer :: owed) { s.pins with carrier := false }
          { s.lnc with receiving := false, carrierSince := none } s.cve.successor :=
        .of_idle hl (by simp) (h.line.lineOpen_eq_false (by simp [hl]))
          (h.line.successor_eq_none (by simp [Lnc.transmitting, hl])) (by simp)
          (h.line.recoverySince_eq_none (by simp [hl]))
          (by simpa using h.line.attempt_notMem (by simp [Lnc.onAir, hl])) (by simp)
      exact Live.openDefer (h.reline hline rfl (by simp [Lnc.onAir, hl]) (fun k => by cases k <;> rfl) rfl
        fun d _ _ hd => by simp [hd])
    case h_4 hl => simp [(h.line.candidate _ _ hl).2] at hcarrier

/-! ### Faults (R71 to R74) -/

/-- LNC enters FAULT from another state than SENDING, perhaps with another line condition. -/
theorem enterFault {p : Pins} (h : Live owed s) (hair : s.lnc.onAir = false) (hcarrier : p.carrier = s.pins.carrier)
    (hheld : p.resetHeld = s.pins.resetHeld) (kind : FaultKind) : Live owed ((s.setPins p).enterFault kind) := by
  have hsucc : s.cve.successor = none := h.line.successor_eq_none <| by
    rw [← Bool.not_eq_true, Lnc.transmitting_eq_true]
    rintro ⟨f, hf⟩
    simp [Lnc.onAir_of_sending hf] at hair
  have hline : LineKept owed p
      { s.lnc with
        line := .fault, faultKind := kind, receiving := false
        recoverySince := if p.carrier || p.lineOpen then none else some s.now } s.cve.successor := by
    refine .of_fault rfl rfl hsucc ?_ ?_ (h.line.attempt_notMem hair)
    · rw [hcarrier]
      exact h.line.carrier_iff hair
    · cases p.carrier <;> cases p.lineOpen <;> simp
  exact recordOccasion (h.reline hline hheld rfl (fun k => by cases k <;> rfl) rfl fun _ _ _ => id) _

theorem jabber (h : Live owed s) : Live owed s.jabber := by
  unfold State.jabber
  split
  case h_1 hl _ =>
    split
    · exact h.enterFault (p := s.pins) (by simp [Lnc.onAir, hl]) rfl rfl _
    · exact h
  case h_2 hl _ =>
    split
    · exact h.enterFault (p := s.pins) (by simp [Lnc.onAir, hl]) rfl rfl _
    · exact h
  case h_3 => exact h

theorem lineOk (h : Live owed s) : Live owed s.lineOk := by
  unfold State.lineOk
  split
  case isTrue => exact h
  case isFalse hopen =>
    have hl : s.lnc.line = .fault := h.line.opened (by simpa using hopen)
    have hair : s.lnc.onAir = false := by simp [Lnc.onAir, hl]
    have hreceiving := h.line.receiving_eq_false (by simp [hl])
    have hsucc : s.cve.successor = none := h.line.successor_eq_none (by simp [Lnc.transmitting, hl])
    have hcarrier := h.line.carrier_iff hair
    have hn := h.line.attempt_notMem hair
    simp only [h.active.running, decide_eq_true hl, Bool.true_and, Bool.not_eq_true']
    split
    case isTrue hsilent =>
      have hline : LineKept owed { s.pins with lineOpen := false } { s.lnc with recoverySince := some s.now }
          s.cve.successor := .of_fault hl hreceiving hsucc hcarrier (by simp [hsilent]) hn
      exact h.reline hline rfl hair (fun k => by cases k <;> rfl) rfl fun _ _ _ => id
    case isFalse hloud =>
      refine h.setPins rfl (.of_fault hl hreceiving hsucc hcarrier ?_ hn)
      have hrecovery := h.line.recovery
      simpa [hloud] using hrecovery

theorem faultEnds (h : Live owed s) : Live owed s.faultEnds := by
  unfold State.faultEnds
  split
  case isFalse => exact h
  case isTrue hends =>
    simp only [Bool.and_eq_true, decide_eq_true_eq, dueBy_eq_true, Option.map_eq_some_iff] at hends
    obtain ⟨⟨-, hl⟩, _, ⟨_, hsince, -⟩, -⟩ := hends
    obtain ⟨-, hsilent, hopen⟩ := h.line.recovery.1 (by simp [hsince])
    have hair : s.lnc.onAir = false := by simp [Lnc.onAir, hl]
    have hline : LineKept (.defer :: owed) s.pins { s.lnc with line := .idle, recoverySince := none }
        s.cve.successor :=
      .of_idle rfl (fun hr => by simp [h.line.receiving_eq_false (l := s.lnc) (by simp [hl])] at hr) hopen
        (h.line.successor_eq_none (by simp [Lnc.transmitting, hl])) (h.line.carrier_iff hair) rfl
        (by simpa using h.line.attempt_notMem hair) (by simp)
    exact Live.openDefer (Live.recordOccasion (h.reline (p := s.pins) hline rfl rfl (fun k => by cases k <;> rfl) rfl
      fun d _ _ hd => by simp [hd]) _)

end Live

/-- The late counts do not depend on the pins. -/
theorem State.craneFrameLost_setPins (x : Pins) (f : TxFrame) :
    (s.setPins x).craneFrameLost f = (s.craneFrameLost f).setPins x := by
  simp only [State.craneFrameLost, State.countLate, State.setPins_contextOf]
  split
  · split <;> rfl
  · rfl

theorem State.attemptCut_pins (s : State) (k : TxClass) : (s.attemptCut k).pins = s.pins := by
  cases k with
  | crane =>
    simp only [State.attemptCut, State.remakeWithdrawal]
    split
    case h_1 f rest _ =>
      split
      · obtain ⟨cru, hcru⟩ := (s.setLnc { s.lnc with class0 := rest }).craneFrameLost_frame f
        rw [hcru]
        rfl
      · rfl
    case h_2 => rfl
  | handover => rfl
  | beacon =>
    simp only [State.attemptCut, State.enterSuccessor]
    split <;> rfl
  | bundle => rfl

/-- What an attempt that ends without an outcome leaves in its class depends on nothing that a cut by a fault changes
before it (R72). -/
theorem State.attemptCut_of_cut (s : State) (k : TxClass) (p : Pins) (since : Option Micros) :
    ((s.setPins p).setLnc { s.lnc with line := .idle, carrierSince := since }).attemptCut k =
      ((s.attemptCut k).setPins p).setLnc { (s.attemptCut k).lnc with line := .idle, carrierSince := since } := by
  cases k with
  | crane =>
    simp only [State.attemptCut, State.remakeWithdrawal, State.setLnc_lnc]
    split
    case h_1 f rest _ =>
      obtain ⟨cru, hcru⟩ := s.craneFrameLost_frame f
      split
      · simp only [State.craneFrameLost_setLnc, State.craneFrameLost_setPins, hcru]
        rfl
      · rfl
    case h_2 => rfl
  | handover => rfl
  | beacon =>
    simp only [State.attemptCut, State.enterSuccessor, State.setLnc_cve, State.setPins_cve]
    split <;> rfl
  | bundle => rfl

namespace Live

variable {owed : List Debt}

theorem lineOpens (h : Live owed s) (hn : .attempt ∉ owed) : Live owed s.lineOpens := by
  have hrun := h.active.running
  unfold State.lineOpens
  simp only [hrun, Bool.not_true, Bool.false_eq_true, if_false]
  split
  case h_1 hl =>
    have hair : s.lnc.onAir = false := by simp [Lnc.onAir, hl]
    have hline : LineKept owed { s.pins with lineOpen := true } { s.lnc with recoverySince := none }
        s.cve.successor :=
      .of_fault hl (h.line.receiving_eq_false (by simp [hl]))
        (h.line.successor_eq_none (by simp [Lnc.transmitting, hl])) (h.line.carrier_iff hair) (by simp) hn
    exact h.reline hline rfl hair (fun k => by cases k <;> rfl) rfl fun _ _ _ => id
  case h_2 k f hl =>
    have hcut := h.attemptCut hl
    obtain ⟨hair, hsucc⟩ := hcut.line.ended (by simp)
    have hpins := s.attemptCut_pins k
    rw [State.attemptCut_of_cut]
    have hline : LineKept owed { s.pins with lineOpen := true }
        { (s.attemptCut k).lnc with
          line := .fault, faultKind := .cut, receiving := false
          carrierSince := if s.pins.carrier then some s.now else none, recoverySince := none }
        (s.attemptCut k).cve.successor := by
      refine .of_fault rfl rfl hsucc ?_ (by simp) hn
      cases s.pins.carrier <;> simp
    have hfault := recordOccasion (hcut.reline hline (by rw [hpins]) rfl (fun k => by cases k <;> rfl) rfl
      fun d hd _ hm => by simpa [hd] using hm) .faultStart
    simpa [State.enterFault, hpins] using hfault
  case h_3 hl => exact h.enterFault (p := { s.pins with lineOpen := true }) (by simp [Lnc.onAir, hl]) rfl rfl _
  case h_4 hl => exact h.enterFault (p := { s.pins with lineOpen := true }) (by simp [Lnc.onAir, hl]) rfl rfl _

end Live

end Sys2Proof.Machine
end

