-- ==== Sys2Proof/Proofs/LiveCoverage.lean ====
section
/-!
PROOFS. CVE: samples, departures, the count of LISTEN, evaluations and the beginning of the radio-lost condition; what each
keeps of `Live`.
-/

namespace Sys2Proof.Machine

variable {s : State}

/-! ### What depends on the claims alone -/

theorem claimMap_congr {l m : List Segment} (h : l.map (·.claim) = m.map (·.claim)) (k : Claim) :
    claimMap k l = claimMap k m := by
  have hmap (n : List Segment) : claimMap k n =
      BitVec.ofNat 16 ((((n.map (·.claim)).zipIdx).map fun x => if x.1 = k then 2 ^ x.2 else 0).sum) := by
    simp [claimMap, List.zipIdx_map, Function.comp_def]
  rw [hmap, hmap, h]

theorem State.claimOf_setSegments {l : List Segment} (h : l.map (·.claim) = s.cve.segments.map (·.claim)) (g : Byte) :
    (s.setCve { s.cve with segments := l }).claimOf g = s.claimOf g := by
  have hat (i : Nat) : (l[i]?).map (·.claim) = (s.cve.segments[i]?).map (·.claim) := by
    rw [← List.getElem?_map, h, List.getElem?_map]
  simp only [State.claimOf, State.setCve_cfg, State.setCve_cve, hat]

/-! ### Segment records in range (R7, R8, R9, R13) -/

theorem steppedAcc_le {k a m : Nat} (hk : 1 ≤ k ∧ k ≤ 4) (ha : a ≤ 4080) (hm : m ≤ 255) : steppedAcc k a m ≤ 4080 := by
  have hstep (n : Nat) : (n + 2 ^ (k - 1)) / 2 ^ k ≤ n := by
    obtain ⟨h1, h4⟩ := hk
    interval_cases k <;> simp <;> omega
  have := hstep (16 * (m : Int) - (a : Int)).natAbs
  unfold steppedAcc
  dsimp only
  generalize ((16 * (m : Int) - (a : Int)).natAbs + 2 ^ (k - 1)) / 2 ^ k = step at this ⊢
  split <;> omega

theorem Segment.ok.sample {r : Segment} (h : r.ok) {k : Nat} (hk : 1 ≤ k ∧ k ≤ 4) (m : Byte) :
    (r.sample k m.toNat).ok := by
  obtain ⟨hacc, -, hscore⟩ := h
  have hm : m.toNat ≤ 255 := by omega
  refine ⟨?_, rfl, hscore⟩
  show (if r.primed then steppedAcc k r.acc m.toNat else 16 * m.toNat) ≤ 4080
  split
  · exact steppedAcc_le hk hacc hm
  · omega

theorem scoreOf_le (c : Settings) (p : Nat) (lost : Bool) (r : Segment) : scoreOf c p lost r ≤ 511 := by
  have hclamped (n : Nat) : min 511 n ≤ 511 := min_le_left _ _
  unfold scoreOf
  dsimp only
  split
  · exact Nat.zero_le _
  · split
    · exact (min_le_left _ _).trans (hclamped _)
    · exact hclamped _

theorem Segment.ok.decided {r : Segment} (h : r.ok) (p i : Nat) : (s.decided p i r).ok := by
  obtain ⟨hacc, hquality, -⟩ := h
  have hdecay : r.decay.acc ≤ 4080 ∧ r.decay.quality = qualityOf r.decay.acc := by
    unfold Segment.decay
    split
    · exact ⟨(Nat.sub_le _ _).trans hacc, rfl⟩
    · exact ⟨hacc, hquality⟩
  exact ⟨hdecay.1, hdecay.2, scoreOf_le _ _ _ _⟩

/-! ### Custody released (R44, R129) -/

/-- The *claim lost* events leave the custody of the other segments. -/
theorem State.releases_eq (gs : List Byte) (s : State) :
    gs.foldl State.releaseCustody s =
      s.setRfi { s.rfi with custody := s.rfi.custody.filter fun r => r.segment ∉ gs } := by
  induction gs generalizing s with
  | nil => simp [State.setRfi]
  | cons g gs ih =>
    rw [List.foldl_cons, ih]
    simp [State.releaseCustody, List.filter_filter, Bool.and_comm]

/-- The home segments that lose their claim, by their map positions. -/
theorem mem_lostSegments {c : Settings} {before after : List Segment} {g : Byte} :
    g ∈ lostSegments c before after ↔ ∃ i r r', before[i]? = some r ∧ after[i]? = some r' ∧ r.claim = .claimed ∧
      r'.claim ≠ .claimed ∧ g = segmentAt c i := by
  simp only [lostSegments, List.mem_map, List.mem_filter, Bool.and_eq_true, decide_eq_true_eq]
  constructor
  · rintro ⟨⟨⟨r, r'⟩, i⟩, ⟨hmem, hr, hr'⟩, rfl⟩
    obtain ⟨hb, ha⟩ := List.getElem?_zip_eq_some.1 (List.mem_zipIdx_iff_getElem?.1 hmem)
    exact ⟨i, r, r', hb, ha, hr, hr', rfl⟩
  · rintro ⟨i, r, r', hb, ha, hr, hr', rfl⟩
    exact ⟨⟨⟨r, r'⟩, i⟩, ⟨List.mem_zipIdx_iff_getElem?.2 (List.getElem?_zip_eq_some.2 ⟨hb, ha⟩), hr, hr'⟩, rfl⟩

/-- The records an evaluation decides. -/
def State.decidedSegments (s : State) : List Segment := s.cve.segments.mapIdx (s.decided s.penalty)

/-- RFI after the *claim lost* events of an evaluation. -/
def State.keptRfi (s : State) : Rfi :=
  { s.rfi with custody := s.rfi.custody.filter fun r =>
      r.segment ∉ lostSegments s.cfg s.cve.segments s.decidedSegments }

theorem State.decideAll_eq (s : State) :
    s.decideAll = (s.setCve { s.cve with segments := s.decidedSegments }).setRfi s.keptRfi := by
  unfold State.decideAll
  dsimp only
  rw [State.releases_eq]
  rfl

/-- A segment is CLAIMED by the record at its map position. -/
theorem State.claimedHere_eq_true {g : Byte} :
    s.claimedHere g = true ↔ ∃ i r, homePosition s.cfg g = some i ∧ s.cve.segments[i]? = some r ∧ r.claim = .claimed := by
  simp only [State.claimedHere, State.claimOf, decide_eq_true_eq, Option.bind_eq_some_iff, Option.map_eq_some_iff]
  aesop

/-- Custody stays in CLAIMED segments. -/
theorem ReefersOk.decided (h : ReefersOk s) :
    ReefersOk ((s.setCve { s.cve with segments := s.decidedSegments }).setRfi s.keptRfi) where
  custodySorted := h.custodySorted.filter _
  custodyCount := (List.length_filter_le _ _).trans h.custodyCount
  custodyClaimed := fun r hr => by
    obtain ⟨hr, hkept⟩ := List.mem_filter.1 hr
    obtain ⟨hclaimed, htag⟩ := h.custodyClaimed r hr
    refine ⟨?_, htag⟩
    obtain ⟨i, x, hi, hx, hc⟩ := State.claimedHere_eq_true.1 hclaimed
    obtain ⟨x', hx'⟩ : ∃ x', s.decidedSegments[i]? = some x' := by simp [State.decidedSegments, hx]
    refine State.claimedHere_eq_true.2 ⟨i, x', hi, hx', ?_⟩
    by_contra hlost
    refine of_decide_eq_true hkept (mem_lostSegments.2 ⟨i, x, x', hx, hx', hc, hlost, ?_⟩)
    exact (segmentAt_homePosition hi).1.symm
  heldSorted := h.heldSorted
  heldCount := h.heldCount
  held := h.held
  disjoint := fun r hr => h.disjoint r (List.mem_filter.1 hr).1

/-! ### The line's part of what is owed -/

theorem LineKept.congr_owed {owed owed' : List Debt} {p : Pins} {l : Lnc} {succ : Option Frame}
    (h : LineKept owed p l succ) (hattempt : Debt.attempt ∈ owed' ↔ Debt.attempt ∈ owed)
    (hdefer : Debt.defer ∈ owed' ↔ Debt.defer ∈ owed) : LineKept owed' p l succ :=
  { h with
    sent := by rw [hattempt]; exact h.sent
    ended := by rw [hattempt]; exact h.ended
    used := by rw [hdefer]; exact h.used }

namespace Live

variable {owed : List Debt}

/-- Other parts than those of the line may be owed. -/
theorem owe {d : Debt} (h : Live owed s) (hd : d ≠ .attempt ∧ d ≠ .defer) : Live (d :: owed) s :=
  { h with
    line := h.line.congr_owed (by simp [hd.1.symm]) (by simp [hd.2.symm])
    moved := fun hn => h.moved fun hm => hn (by simp [hm])
    notices := fun hn => h.notices fun hm => hn (by simp [hm])
    free := fun hn => h.free fun hm => hn (by simp [hm]) }

/-! ### Segment records -/

/-- A change of the segment records that leaves the claims. -/
theorem setSegments {l : List Segment} (h : Live owed s) (hclaims : l.map (·.claim) = s.cve.segments.map (·.claim))
    (hranges : ∀ r ∈ l, r.ok) : Live owed (s.setCve { s.cve with segments := l }) := by
  have hlen : l.length = s.cve.segments.length := by simpa using congrArg List.length hclaims
  refine h.setCve ⟨fun hrun => hlen.trans (h.segments.count hrun), hranges, h.segments.listenCount,
    h.segments.listening⟩ ⟨h.clock.beacon, h.clock.gap, h.clock.supervision⟩ (fun g hg => ?_) h.classes h.line
    fun hn => ?_
  · rw [State.claimedHere, State.claimOf_setSegments hclaims]
    exact hg
  · obtain ⟨hclaimed, hheld⟩ := h.notices hn
    exact ⟨hclaimed.trans (claimMap_congr hclaims _).symm, hheld.trans (claimMap_congr hclaims _).symm⟩

/-- A change of the segment records that claims nothing less leaves its notice owing. -/
theorem setSegmentsOwing {l : List Segment} (h : Live owed s) (hlen : l.length = s.cve.segments.length)
    (hranges : ∀ r ∈ l, r.ok)
    (hclaimed : ∀ g, s.claimedHere g = true → (s.setCve { s.cve with segments := l }).claimedHere g = true) :
    Live (.notices :: owed) (s.setCve { s.cve with segments := l }) :=
  h.setCveLnc (x := { s.cve with segments := l }) (y := s.lnc) ⟨fun hrun => hlen.trans (h.segments.count hrun), hranges, h.segments.listenCount,
    h.segments.listening⟩ ⟨h.clock.beacon, h.clock.gap, h.clock.supervision⟩ hclaimed h.classes h.bundles
    (h.line.congr_owed (by simp) (by simp)) (by simp) fun d _ _ _ hd => by simp [hd]

theorem applySample (h : Live owed s) (g margin : Byte) : Live owed (s.applySample g margin) := by
  unfold State.applySample
  split
  · split
    · refine h.setSegments (List.ext_getElem? fun j => ?_) fun r hr => ?_
      · cases hj : s.cve.segments[j]? <;> simp [List.getElem?_modify, hj, apply_ite Segment.claim, Segment.sample]
      · obtain ⟨j, hj⟩ := List.mem_iff_getElem?.1 hr
        obtain ⟨r', hr', rfl⟩ := Option.map_eq_some_iff.1 (List.getElem?_modify .. ▸ hj)
        have hok := h.segments.ranges r' (List.mem_of_getElem? hr')
        split
        · exact hok.sample h.active.settings.qualShift margin
        · exact hok
    · exact h
  · exact h

theorem setShadows (h : Live owed s) (shadowMap : Word16) : Live owed (s.setShadows shadowMap) := by
  unfold State.setShadows
  split
  · refine h.setSegments (List.ext_getElem? fun j => ?_) fun r hr => ?_
    · cases hj : s.cve.segments[j]? <;> simp [hj]
    · obtain ⟨i, hi, rfl⟩ := List.mem_mapIdx.1 hr
      exact h.segments.ranges s.cve.segments[i] (List.getElem_mem hi)
  · exact h

/-! ### Notices and departures (R45, R53, R54) -/

/-- A change of CVE after which the notified maps are those of the claims. -/
theorem payNotices {x : Cve} (h : Live (.notices :: owed) s) (hsegments : x.segments = s.cve.segments)
    (hcount : x.listenCount = s.cve.listenCount) (hdue : x.beaconDue = s.cve.beaconDue)
    (hgap : x.beaconGap = s.cve.beaconGap) (hsucc : x.successor = s.cve.successor)
    (hmaps : x.notifiedClaimed = claimMap .claimed s.cve.segments ∧ x.notifiedHeld = claimMap .held s.cve.segments) :
    Live owed (s.setCve x) := by
  have hclaim (g : Byte) : (s.setCve x).claimedHere g = s.claimedHere g := by
    have hclaimOf : (s.setCve x).claimOf g = s.claimOf g := by
      simp only [State.claimOf, State.setCve_cfg, State.setCve_cve, hsegments]
    rw [State.claimedHere, hclaimOf, State.claimedHere]
  refine h.setCveLnc (x := x) (y := s.lnc) (owed' := owed) (h.segments.congr rfl hsegments hcount)
    ⟨hdue ▸ h.clock.beacon, hgap ▸ h.clock.gap, h.clock.supervision⟩ (fun g hg => (hclaim g).trans hg)
    (hsucc ▸ h.classes) h.bundles (hsucc ▸ h.line.congr_owed (by simp) (by simp)) (fun _ => ?_) fun d _ _ hd hm => ?_
  · simpa only [NoticesOk, State.setCve_cve, hsegments] using hmaps
  · simpa [hd] using hm

theorem noticeIfChanged (h : Live (.notices :: owed) s) : Live owed s.noticeIfChanged := by
  unfold State.noticeIfChanged
  dsimp only
  split
  case isTrue hsame => exact h.payNotices rfl rfl rfl rfl rfl ⟨hsame.1.symm, hsame.2.symm⟩
  case isFalse =>
    refine Live.queueControl (h.payNotices ?_ ?_ ?_ ?_ ?_ ⟨?_, ?_⟩) (by simp) <;> rfl

theorem departure (h : Live owed s) (g : Byte) : Live owed (s.departure g) := by
  unfold State.departure
  split
  case h_2 => exact h
  case h_1 i hi =>
    split
    case isFalse => exact h
    case isTrue hends =>
      refine Live.noticeIfChanged (h.setSegmentsOwing (by simp) (fun r hr => ?_) fun k hk => ?_)
      · obtain ⟨j, hj⟩ := List.mem_iff_getElem?.1 hr
        obtain ⟨r', hr', rfl⟩ := Option.map_eq_some_iff.1 (List.getElem?_modify .. ▸ hj)
        have hok := h.segments.ranges r' (List.mem_of_getElem? hr')
        split
        · exact hok
        · exact hok
      · obtain ⟨j, r, hj, hr, hclaimed⟩ := State.claimedHere_eq_true.1 hk
        refine State.claimedHere_eq_true.2 ⟨j, r, hj, ?_, hclaimed⟩
        have hji : i ≠ j := by
          rintro rfl
          have hheld := hends.1
          simp [State.claimOf, hi, hr, hclaimed] at hheld
        simp [hji, hr]

theorem freeContext (h : Live owed s) (c : Context) : Live owed (s.freeContext c) := by
  unfold State.freeContext
  dsimp only
  split
  · exact (h.dropContext _).departure _
  · exact h.dropContext _

theorem freeContexts (h : Live owed s) (cs : List Context) : Live owed (s.freeContexts cs) :=
  List.foldlRecOn cs _ h fun _ ht c _ => ht.freeContext c

/-! ### Evaluations (R36 to R39, R47) -/

theorem startGap (h : Live owed s) (p : Nat) : Live owed (s.startGap p) :=
  h.setCve (h.segments.congr rfl rfl rfl)
    ⟨by simp, ⟨1 + loadClass p, by omega, by unfold loadClass; omega, rfl⟩, h.clock.supervision⟩ (fun _ => id)
    { h.classes with } { h.line with } h.notices

/-- The decisions of an evaluation leave its notice owing. -/
theorem decideAll (h : Live owed s) : Live (.notices :: owed) s.decideAll := by
  rw [State.decideAll_eq]
  exact
    { h with
      segments := ⟨fun hrun => by simpa [State.decidedSegments] using h.segments.count hrun,
        fun r hr => by
          obtain ⟨i, hi, rfl⟩ := List.mem_mapIdx.1 hr
          exact (h.segments.ranges _ (List.getElem_mem hi)).decided _ _,
        h.segments.listenCount, h.segments.listening⟩
      clock := ⟨h.clock.beacon, h.clock.gap, h.clock.supervision⟩
      reefers := h.reefers.decided
      neighbours := h.neighbours.congr rfl rfl
      delivery := h.delivery.congr rfl
      link := h.link.congr rfl rfl rfl
      line := h.line.congr_owed (by simp) (by simp)
      moved := fun hn => h.moved fun hm => hn (by simp [hm])
      notices := by simp
      free := fun hn => h.free fun hm => hn (by simp [hm]) }

/-- A BEACON of this station is in order (R51, R52). -/
theorem bodyWellFormed_beaconFrame (h : Live owed s) (c : Nat) : bodyWellFormed (s.beaconFrame c).body = true := by
  have hcount := h.segments.count h.active.running
  have hsettings := h.active.settings
  have hquay := hsettings.onQuay
  have hmany := hsettings.homeCount
  simp only [State.beaconFrame, State.ownFrame, bodyWellFormed, beaconItems, List.length_mapIdx, Bool.and_eq_true,
    decide_eq_true_eq, List.all_eq_true]
  refine ⟨by omega, fun x hx => ?_⟩
  obtain ⟨i, hi, rfl⟩ := List.mem_mapIdx.1 hx
  simp only [segmentInRange, segmentAt, BitVec.toNat_ofNat, decide_eq_true_eq]
  omega

/-- The BEACON of an evaluation, at a station with a home range. -/
theorem putOwnBeacon (h : Live owed s) (hn : .attempt ∉ owed) (hhome : s.cfg.homeCount ≠ 0) (c : Nat) :
    Live owed (s.putBeacon (s.beaconFrame c)) :=
  h.putBeacon hn rfl (h.mayTransmit_ownFrame (h.bodyWellFormed_beaconFrame c) _) hhome

theorem evaluate (h : Live owed s) (hn : .attempt ∉ owed) : Live owed s.evaluate := by
  unfold State.evaluate
  split
  case isTrue => exact h.startGap _
  case isFalse hhome =>
    have hcfg : s.decideAll.cfg = s.cfg := by rw [State.decideAll_eq]; rfl
    exact Live.noticeIfChanged ((h.decideAll.startGap _).putOwnBeacon (by simpa using hn)
      (by simpa [State.startGap, hcfg] using hhome) _)

theorem withdraw (h : Live owed s) (hn : .attempt ∉ owed) : Live owed s.withdraw := by
  unfold State.withdraw
  split
  case isTrue => exact h
  case isFalse hhome =>
    have hcfg : s.decideAll.cfg = s.cfg := by rw [State.decideAll_eq]; rfl
    exact Live.noticeIfChanged (h.decideAll.putOwnBeacon (by simpa using hn) (by simpa [hcfg] using hhome) _)

/-- An expiry counts in LISTEN, and the twelfth enters RUN. -/
theorem countListen (h : Live owed s) : Live owed s.countListen := by
  unfold State.countListen
  split
  case isFalse => exact h
  case isTrue hlisten =>
    have hcount := h.segments.listening hlisten
    have hnone (hn : .contexts ∉ owed) : s.cru.contexts = [] := h.free hn (.inl (by simp [hlisten]))
    dsimp only
    split
    case isTrue htwelve =>
      refine recordOccasion ?_ _
      exact
        { h with
          active := { h.active with runState := .inr rfl }
          segments := ⟨fun _ => h.segments.count h.active.running, h.segments.ranges, hcount, by simp⟩
          clock := ⟨h.clock.beacon, h.clock.gap, h.clock.supervision⟩
          reefers := h.reefers.congr (fun _ => id) rfl
          neighbours := ⟨h.neighbours.sorted, h.neighbours.count, h.neighbours.entries⟩
          delivery := h.delivery.congr rfl
          link := { h.link with
            owed := fun _ => h.link.owed h.active.ne_load
            running := fun _ => by simp [State.running] }
          free := fun hn _ => hnone hn }
    case isFalse hbefore =>
      refine h.setCve ⟨h.segments.count, h.segments.ranges, hcount, fun _ => ?_⟩
        ⟨h.clock.beacon, h.clock.gap, h.clock.supervision⟩ (fun _ => id) h.classes h.line h.notices
      exact lt_of_le_of_ne hcount hbefore

theorem beaconExpiry (h : Live owed s) (hn : .attempt ∉ owed) : Live owed s.beaconExpiry := by
  unfold State.beaconExpiry
  split
  · exact h.countListen.evaluate hn
  · exact h

end Live

/-! ### The beginning of the radio-lost condition (R47, R83, R169) -/

theorem State.freeContext_cru (s : State) (c : Context) : (s.freeContext c).cru = (s.dropContext c.crane).cru := by
  unfold State.freeContext
  dsimp only
  split
  · obtain ⟨cve, rlc, hd⟩ := (s.dropContext c.crane).departure_frame c.position
    rw [hd]
    rfl
  · rfl

/-- Contexts freed leave those of other cranes. -/
theorem State.mem_freeContexts {cs : List Context} {s : State} {x : Context} :
    x ∈ (s.freeContexts cs).cru.contexts ↔ x ∈ s.cru.contexts ∧ ∀ c ∈ cs, x.key ≠ c.key := by
  induction cs generalizing s with
  | nil => simp [State.freeContexts]
  | cons c cs ih =>
    have hfirst : x ∈ (s.freeContext c).cru.contexts ↔ x ∈ s.cru.contexts ∧ x.key ≠ c.key := by
      rw [State.freeContext_cru]
      exact mem_tableErase
    show x ∈ ((s.freeContext c).freeContexts cs).cru.contexts ↔ _
    rw [ih, hfirst]
    simp [and_assoc]

/-- The withdrawal leaves the contexts. -/
theorem State.withdraw_cru (s : State) : s.withdraw.cru = s.cru := by
  unfold State.withdraw
  split
  · rfl
  · dsimp only
    obtain ⟨cve, rlc, hnotice, -⟩ := (s.decideAll.putBeacon (s.decideAll.beaconFrame s.activeCount)).noticeIfChanged_frame
    rw [hnotice, State.decideAll_eq]
    obtain ⟨lnc, hput⟩ | hput := State.putBeacon_frame
      ((s.setCve { s.cve with segments := s.decidedSegments }).setRfi s.keptRfi) (State.beaconFrame
        ((s.setCve { s.cve with segments := s.decidedSegments }).setRfi s.keptRfi) s.activeCount)
    · rw [hput]
      rfl
    · rw [hput]
      rfl

/-- Every context is freed, whatever the order of the departures and the place of the withdrawal. -/
theorem State.withdrawAndFree_contexts (s : State) : s.withdrawAndFree.cru.contexts = [] := by
  refine List.eq_nil_iff_forall_not_mem.2 fun x hx => ?_
  unfold State.withdrawAndFree at hx
  dsimp only at hx
  obtain ⟨hx, hafter⟩ := State.mem_freeContexts.1 hx
  rw [State.withdraw_cru] at hx
  obtain ⟨hx, hbefore⟩ := State.mem_freeContexts.1 hx
  have horder : x ∈ shuffled s.choices s.cru.contexts := (shuffled_perm _ _).mem_iff.2 hx
  rw [← List.take_append_drop (Config.freeValue (s.choices + s.cru.contexts.length) % (s.cru.contexts.length + 1))
    (shuffled s.choices s.cru.contexts)] at horder
  rcases List.mem_append.1 horder with hmem | hmem
  · exact hbefore x hmem rfl
  · exact hafter x hmem rfl

namespace Live

variable {owed : List Debt}

/-- With every context freed nothing of R83 is owed. -/
theorem payContexts (h : Live (.contexts :: owed) s) (hnone : s.cru.contexts = []) : Live owed s :=
  { h with
    line := h.line.congr_owed (by simp) (by simp)
    moved := fun hn => h.moved (by simpa using hn)
    notices := fun hn => h.notices (by simpa using hn)
    free := fun _ _ => hnone }

theorem withdrawAndFree (h : Live (.contexts :: owed) s) (hn : .attempt ∉ owed) : Live owed s.withdrawAndFree := by
  refine Live.payContexts ?_ s.withdrawAndFree_contexts
  exact (((h.setChoices _).freeContexts _).withdraw (by simpa using hn)).freeContexts _

theorem beginRadioLost (h : Live owed s) (hn : .attempt ∉ owed) : Live owed s.beginRadioLost := by
  have hrestarted := h.restartSupervision.owe (d := .contexts) (by simp)
  have hlink : LinkOk (s.restartSupervision.setRlc { s.restartSupervision.rlc with radioLost := true }) :=
    hrestarted.link.setRlc rfl rfl rfl hrestarted.link.owed fun _ => hrestarted.active.running
  exact Live.withdrawAndFree (Live.recordOccasion (hrestarted.setRlc hlink (by simp [State.restartSupervision])
    (by simp)) _) hn

end Live

end Sys2Proof.Machine
end

