-- ==== Sys2Proof/Proofs/NeighbourTable.lean ====
section
/-!
PROOFS. NBT: the items an entry keeps of a BEACON (R21, R22), intake and aging (R23 to R30), and what each keeps of `Live`;
with these the statement KeptItems.
-/

namespace Sys2Proof.Machine

variable {s : State}

/-! ### Kept items (R21, R22) -/

/-- The segment of an item, as a test. -/
def AdvItem.of (g : Byte) (i : AdvItem) : Bool := i.segment = g

theorem mem_keepFirst {i k : AdvItem} {l : List AdvItem} (h : TableSorted AdvItem.key l) :
    k ∈ keepFirst i l ↔ k ∈ l ∨ k = i ∧ ∀ x ∈ l, x.segment ≠ i.segment := by
  unfold keepFirst
  split
  case isTrue hany =>
    obtain ⟨x, hx, hxi⟩ := List.any_eq_true.1 hany
    exact ⟨.inl, fun hk => hk.elim id fun hk => absurd (of_decide_eq_true hxi) (hk.2 x hx)⟩
  case isFalse hany =>
    have hnew : ∀ x ∈ l, x.segment ≠ i.segment := by simpa using hany
    have hkey : ∀ x ∈ l, x.key ≠ i.key := fun x hx hk => hnew x hx (BitVec.eq_of_toNat_eq hk)
    rw [mem_tablePut h]
    constructor
    · rintro (rfl | ⟨hk, -⟩)
      · exact .inr ⟨rfl, hnew⟩
      · exact .inl hk
    · rintro (hk | ⟨rfl, -⟩)
      · exact .inr ⟨hk, hkey k hk⟩
      · exact .inl rfl

theorem keepFirst_sorted {i : AdvItem} {l : List AdvItem} (h : TableSorted AdvItem.key l) :
    TableSorted AdvItem.key (keepFirst i l) := by
  unfold keepFirst
  split
  · exact h
  · exact tablePut_sorted h

theorem length_keepFirst_le {i : AdvItem} {l : List AdvItem} (h : TableSorted AdvItem.key l) :
    (keepFirst i l).length ≤ l.length + 1 := by
  unfold keepFirst
  split
  · exact Nat.le_succ _
  · rw [length_tablePut h]
    split <;> omega

/-- What a run of items leaves kept: what was kept before, and of each other segment the first item. -/
theorem foldl_keepFirst {items l : List AdvItem} (h : TableSorted AdvItem.key l) :
    TableSorted AdvItem.key (items.foldl (fun l i => keepFirst i l) l) ∧
      (items.foldl (fun l i => keepFirst i l) l).length ≤ l.length + items.length ∧
      ∀ k, k ∈ items.foldl (fun l i => keepFirst i l) l ↔
        k ∈ l ∨ (∀ x ∈ l, x.segment ≠ k.segment) ∧ items.find? (AdvItem.of k.segment) = some k := by
  induction items generalizing l with
  | nil => exact ⟨h, le_rfl, by simp⟩
  | cons i items ih =>
    obtain ⟨hsorted, hlen, hmem⟩ := ih (keepFirst_sorted (i := i) h)
    have hone := length_keepFirst_le (i := i) h
    refine ⟨hsorted, by simp only [List.foldl_cons, List.length_cons]; omega, fun k => ?_⟩
    have hnone : (∀ x ∈ keepFirst i l, x.segment ≠ k.segment) ↔
        (∀ x ∈ l, x.segment ≠ k.segment) ∧ i.segment ≠ k.segment := by
      constructor
      · intro hk
        refine ⟨fun x hx => hk x ((mem_keepFirst h).2 (.inl hx)), fun hik => ?_⟩
        by_cases hl : ∀ x ∈ l, x.segment ≠ i.segment
        · exact hk i ((mem_keepFirst h).2 (.inr ⟨rfl, hl⟩)) hik
        · push Not at hl
          obtain ⟨x, hx, hxi⟩ := hl
          exact hk x ((mem_keepFirst h).2 (.inl hx)) (hxi.trans hik)
      · rintro ⟨hl, hik⟩ x hx
        rcases (mem_keepFirst h).1 hx with hx | ⟨rfl, -⟩
        · exact hl x hx
        · exact hik
    rw [List.foldl_cons, hmem, mem_keepFirst h, hnone, List.find?_cons]
    by_cases hik : i.segment = k.segment
    · have hof : AdvItem.of k.segment i = true := decide_eq_true hik
      simp only [hof, Option.some.injEq, hik, ne_eq, not_true_eq_false, and_false, false_and, or_false]
      constructor
      · rintro (hk | ⟨rfl, hl⟩)
        · exact .inl hk
        · exact .inr ⟨hl, rfl⟩
      · rintro (hk | ⟨hl, rfl⟩)
        · exact .inl hk
        · exact .inr ⟨rfl, hl⟩
    · have hof : AdvItem.of k.segment i = false := decide_eq_false hik
      simp only [hof, ne_eq, hik, not_false_eq_true, and_true]
      constructor
      · rintro ((hk | ⟨rfl, -⟩) | hk)
        · exact .inl hk
        · exact absurd rfl hik
        · exact .inr hk
      · rintro (hk | hk)
        · exact .inl (.inl hk)
        · exact .inr hk

theorem keptItems_sorted (c : Settings) (items : List BeaconItem) : TableSorted AdvItem.key (keptItems c items) :=
  (foldl_keepFirst List.Pairwise.nil).1

theorem length_keptItems_le (c : Settings) (items : List BeaconItem) : (keptItems c items).length ≤ items.length := by
  have hlen := (foldl_keepFirst (items := (items.filter fun i => inWatchRange c i.segment).map storedItem)
    List.Pairwise.nil).2.1
  rw [List.length_nil, Nat.zero_add, List.length_map] at hlen
  exact hlen.trans (List.length_filter_le _ _)

/-- An entry keeps of each watched segment the first item, brought into range. -/
theorem mem_keptItems {c : Settings} {items : List BeaconItem} {k : AdvItem} :
    k ∈ keptItems c items ↔ inWatchRange c k.segment = true ∧
      ∃ x, items.find? (fun i => i.segment = k.segment) = some x ∧ storedItem x = k := by
  have hmem := (foldl_keepFirst (items := (items.filter fun i => inWatchRange c i.segment).map storedItem)
    List.Pairwise.nil).2.2 k
  rw [keptItems, hmem, List.find?_map, List.find?_filter]
  simp only [List.not_mem_nil, false_or, IsEmpty.forall_iff, implies_true, true_and, Option.map_eq_some_iff]
  have hpred : (fun i : BeaconItem => decide (inWatchRange c i.segment = true ∧
      (AdvItem.of k.segment ∘ storedItem) i = true)) =
        fun i => inWatchRange c k.segment && decide (i.segment = k.segment) := by
    funext i
    by_cases hi : i.segment = k.segment
    · simp [AdvItem.of, storedItem, hi]
    · simp [AdvItem.of, storedItem, hi]
  rw [hpred]
  cases inWatchRange c k.segment with
  | true => simp
  | false => simp [List.find?_eq_none.2]

theorem storedItem_eq_iff {x : BeaconItem} {k : AdvItem} :
    storedItem x = k ↔ x.segment = k.segment ∧ k.score = (if 511 < x.score.toNat then 511 else x.score.toNat) ∧
      k.kind = (if x.kind = 1 then .claim else if x.kind = 2 then .held else .none) := by
  have hscore : storedScore x.score = if 511 < x.score.toNat then 511 else x.score.toNat := by
    unfold storedScore
    split <;> omega
  obtain ⟨segment, kind, score⟩ := k
  simp only [storedItem, AdvItem.mk.injEq, hscore, storedKind]
  constructor
  · rintro ⟨h1, h2, h3⟩
    exact ⟨h1, h3.symm, h2.symm⟩
  · rintro ⟨h1, h3, h2⟩
    exact ⟨h1, h2.symm, h3.symm⟩

/-- Settles O37: the list by `mem_keptItems`, and the first item of a segment as the one with none before it. -/
theorem keptItems_of_beacon : Obligations.KeptItems := by
  intro c items
  refine ⟨keptItems_sorted c items, fun k => ?_⟩
  rw [mem_keptItems]
  refine and_congr_right fun _ => ?_
  simp only [List.find?_eq_some_iff_append, storedItem_eq_iff, decide_eq_true_eq, Bool.not_eq_true',
    decide_eq_false_iff_not]
  constructor
  · rintro ⟨x, ⟨hx, earlier, later, hitems, hfirst⟩, -, hscore, hkind⟩
    exact ⟨earlier, x, later, hitems, hfirst, hx, hscore, hkind⟩
  · rintro ⟨earlier, x, later, hitems, hfirst, hx, hscore, hkind⟩
    exact ⟨x, ⟨hx, earlier, later, hitems, hfirst⟩, hx, hscore, hkind⟩

/-! ### Entries in range (R19, R21, R22) -/

theorem keptItems_ok {c : Settings} {items : List BeaconItem} {k : AdvItem} (h : k ∈ keptItems c items) :
    inWatchRange c k.segment = true ∧ k.score ≤ 511 := by
  obtain ⟨hwatch, x, -, rfl⟩ := mem_keptItems.1 h
  exact ⟨hwatch, min_le_left _ _⟩

/-- The entry that a BEACON makes of a watched station. -/
theorem neighbourOk_beaconEntry {c : Settings} {now : Micros} {sender flags : Byte} {interval : Word16} {n : Byte}
    {items : List BeaconItem} (hsender : 1 ≤ sender.toNat ∧ sender.toNat ≤ 62) (hother : sender ≠ c.address)
    (hitems : items.length ≤ 16) (hkept : keptItems c items ≠ []) :
    NeighbourOk c (beaconEntry now sender flags interval n (keptItems c items)) where
  address := ⟨hsender.1, hsender.2, hother⟩
  interval := by
    simp only [beaconEntry, storedInterval, clampNat]
    omega
  advertisedC := min_le_left _ _
  count := ⟨List.length_pos_iff.2 hkept, (length_keptItems_le c items).trans hitems⟩
  sorted := keptItems_sorted c items
  items := fun _ => keptItems_ok

/-- The entry that gives way is a STALE one of the table. -/
theorem mem_of_displaced {l : List Neighbour} {e : Neighbour} (h : displaced l = some e) : e ∈ l ∧ e.stale = true := by
  have hall : ∀ x, displaced l = some x → x ∈ l ∧ x.stale = true := by
    unfold displaced
    refine List.foldlRecOn (motive := fun best => ∀ x : Neighbour, best = some x → x ∈ l ∧ x.stale = true) _ _
      (fun x hx => by cases hx) fun best hbest d hd x hx => ?_
    have hmem : d ∈ l ∧ d.stale = true := List.mem_filter.1 hd
    split at hx
    · cases hx
      exact hmem
    · split at hx
      · cases hx
        exact hmem
      · exact hbest x hx
  exact hall e h

namespace NeighboursOk

/-- An entry put into the table, where there is room or one with its address. -/
theorem put {e : Neighbour} {l : List Neighbour} (h : NeighboursOk (s.setNbt ⟨l⟩)) (he : NeighbourOk s.cfg e)
    (hroom : (tableFind Neighbour.key e.key l).isSome = true ∨ l.length < 12) :
    NeighboursOk (s.setNbt ⟨tablePut Neighbour.key e l⟩) where
  sorted := tablePut_sorted h.sorted
  count := by
    have hlen := h.count
    simp only [State.setNbt_nbt] at hlen ⊢
    rw [length_tablePut (l := l) h.sorted]
    rcases hroom with hfound | hroom
    · simpa [hfound] using hlen
    · split <;> omega
  entries := fun x hx => by
    rcases (mem_tablePut h.sorted).1 hx with rfl | ⟨hx, -⟩
    · exact he
    · exact h.entries x hx

/-- An entry freed. -/
theorem erase {l : List Neighbour} (h : NeighboursOk (s.setNbt ⟨l⟩)) (k : Nat) :
    NeighboursOk (s.setNbt ⟨tableErase Neighbour.key k l⟩) where
  sorted := tableErase_sorted h.sorted
  count := length_tableErase_le.trans h.count
  entries := fun x hx => h.entries x (mem_tableErase.1 hx).1

end NeighboursOk

namespace Live

variable {owed : List Debt}

theorem beaconIntake {sender flags c : Byte} {interval : Word16} {items : List BeaconItem} (h : Live owed s)
    (hsender : 1 ≤ sender.toNat ∧ sender.toNat ≤ 62) (hitems : items.length ≤ 16) :
    Live owed (s.beaconIntake sender flags interval c items) := by
  have hnbt : NeighboursOk (s.setNbt ⟨s.nbt.entries⟩) := h.neighbours
  unfold State.beaconIntake
  split
  case isTrue => exact h
  case isFalse hdispatched =>
    have hother : sender ≠ s.cfg.address := fun he => hdispatched (by simp [he])
    dsimp only
    split
    case isTrue => exact h.setNbt (hnbt.erase _)
    case isFalse hkept =>
      have hentry := neighbourOk_beaconEntry (now := s.now) (flags := flags) (interval := interval) (n := c) hsender
        hother hitems hkept
      split
      case isTrue hroom => exact h.setNbt (hnbt.put hentry hroom)
      case isFalse hfull =>
        split
        case h_1 e he =>
          refine h.setNbt ((hnbt.erase _).put hentry (.inr ?_))
          have hfound : tableFind Neighbour.key e.key s.nbt.entries = some e :=
            (tableFind_eq_some h.neighbours.sorted).2 ⟨(mem_of_displaced he).1, rfl⟩
          exact lt_of_lt_of_le (length_tableErase_lt (by rw [hfound]; rfl)) h.neighbours.count
        case h_2 => exact h.setFlag _

theorem stalePoint (h : Live owed s) (address : Byte) : Live owed (s.stalePoint address) := by
  unfold State.stalePoint
  split
  case h_1 e he =>
    split
    · have hnbt : NeighboursOk (s.setNbt ⟨s.nbt.entries⟩) := h.neighbours
      obtain ⟨hmem, hkey⟩ := (tableFind_eq_some h.neighbours.sorted).1 he
      have hstale : NeighbourOk s.cfg { e with stale := true } := { h.neighbours.entries e hmem with }
      refine h.setNbt (hnbt.put hstale (.inl ?_))
      have hfound : tableFind Neighbour.key e.key s.nbt.entries = some e := by rw [hkey, he]
      exact Option.isSome_of_eq_some hfound
    · exact h
  case h_2 => exact h

theorem removalPoint (h : Live owed s) (address : Byte) : Live owed (s.removalPoint address) := by
  unfold State.removalPoint
  split
  · split
    · exact h.setNbt (NeighboursOk.erase (s := s) (l := s.nbt.entries) h.neighbours _)
    · exact h
  · exact h

end Live

end Sys2Proof.Machine
end

