-- ==== Sys2Proof/Proofs/LiveCranes.lean ====
section
/-!
PROOFS. CRU: attach and detach, uplinks and downlinks, and the handover; what each operation keeps of `Live`.
-/

namespace Sys2Proof.Machine

variable {s : State}

/-! ### Contexts in range (Table 5-1) -/

namespace ContextOk

variable {c : Context}

/-- A change of the state, to an active one, and of the times. -/
theorem toActive {d : Context} (h : ContextOk c) (hactive : d.active = true) (hcrane : d.crane = c.crane)
    (hposition : d.position = c.position) (hperiod : d.period = c.period) (hlate : d.late = c.late)
    (hqueue : d.queue = c.queue) : ContextOk d where
  crane := hcrane ▸ h.crane
  position := hposition ▸ h.position
  period := hperiod ▸ h.period
  late := hlate ▸ h.late
  queue := hqueue ▸ h.queue
  payload := hqueue ▸ h.payload
  pending := by simp [hactive]

theorem craneInRange (h : ContextOk c) : craneInRange c.crane = true := decide_eq_true h.crane

theorem periodInRange (h : ContextOk c) : periodInRange (periodField c.period) = true := by
  refine decide_eq_true ?_
  cases hp : c.period with
  | none => simp [periodField]
  | some p =>
    have := h.period p hp
    simp only [periodField, Option.getD_some, BitVec.toNat_ofNat]
    omega

/-- A context after its relay steps (R85). -/
theorem relayed (h : ContextOk c) (hactive : c.active = true)
    (now : Micros) : ContextOk (c.relayed now) :=
  { h with
    period := fun p hp => by
      simp only [Context.relayed] at hp
      split at hp
      · cases hp
        simp only [measuredPeriod, clampNat]
        omega
      · exact h.period p hp
    pending := fun hn => by
      have hsame : c.active = false := hn
      simp [hactive] at hsame }

end ContextOk

namespace Live

variable {owed : List Debt}

theorem contextOk {crane : Byte} {c : Context} (h : Live owed s) (hc : s.contextOf crane = some c) : ContextOk c :=
  h.contexts.of_contextOf hc

theorem returnToAnchored {crane : Byte} {c : Context} (h : Live owed s) (hc : s.contextOf crane = some c)
    (retryAt : Micros) : Live owed (s.returnToAnchored c retryAt) :=
  h.changeContext hc rfl ((h.contextOk hc).toActive rfl rfl rfl rfl rfl rfl)

/-! ### Outcomes of class 1 frames (R101, R104, R111) -/

theorem offerSent (h : Live owed s) (crane token : Byte) : Live owed (s.offerSent crane token) := by
  unfold State.offerSent
  split
  case h_1 ho =>
    have hc := (s.contextOf_of_offeringWith ho).1
    exact h.changeContext hc rfl ((h.contextOk hc).toActive rfl rfl rfl rfl rfl rfl)
  case h_2 => exact h

theorem offerDiscarded (h : Live owed s) (crane token : Byte) : Live owed (s.offerDiscarded crane token) := by
  unfold State.offerDiscarded
  split
  case h_1 ho => exact h.returnToAnchored (s.contextOf_of_offeringWith ho).1 _
  case h_2 => exact h

theorem commitSent (h : Live owed s) (crane token : Byte) : Live owed (s.commitSent crane token) := by
  unfold State.commitSent
  split
  case h_1 => exact (h.queueControl (by simp)).freeContext _
  case h_2 => exact h

/-- An answer of this station to an OFFER or a TAKE. -/
theorem giveOwnAnswer {b : FrameBody} (h : Live owed s) (hkind : TxClass.handover.holds b)
    (hb : bodyWellFormed b = true) (dest : Byte) : Live owed (s.giveAnswer (s.ownFrame dest b)) :=
  h.giveAnswer hkind (h.mayTransmit_ownFrame hb dest)

theorem commitDiscarded {crane : Byte} (h : Live owed s) (hcrane : craneInRange crane = true) (peer token : Byte) :
    Live owed (s.commitDiscarded peer crane token) := by
  have hanswer : Live owed (s.giveAnswer (s.ownFrame peer (.cancel crane token))) :=
    h.giveOwnAnswer (by exact rfl) (by simpa [bodyWellFormed] using hcrane) peer
  unfold State.commitDiscarded
  dsimp only
  split
  case h_1 ho => exact hanswer.returnToAnchored (State.contextOf_of_offeringWith ho).1 _
  case h_2 => exact hanswer

theorem takeDiscarded (h : Live owed s) (crane token : Byte) : Live owed (s.takeDiscarded crane token) := by
  unfold State.takeDiscarded
  split
  · split
    · split
      · exact h.dropContext _
      · exact h
    · exact h
  · exact h

theorem handoverSent (h : Live owed s) (f : Frame) : Live owed (s.handoverSent f) := by
  unfold State.handoverSent
  split
  · exact h.offerSent _ _
  · exact h.commitSent _ _
  · exact h

theorem handoverDiscarded {f : Frame} (h : Live owed s) (hf : frameWellFormed f = true) :
    Live owed (s.handoverDiscarded f) := by
  have hbody : bodyWellFormed f.body = true := (Bool.and_eq_true_iff.1 hf).2
  unfold State.handoverDiscarded
  split
  case h_1 => exact h.offerDiscarded _ _
  case h_2 crane token hb =>
    rw [hb] at hbody
    exact h.commitDiscarded (by simpa [bodyWellFormed] using hbody) _ _
  case h_3 => exact h.takeDiscarded _ _
  case h_4 => exact h

/-- A frame of the handover is given to class 1, or answered DISCARDED at once (R57). -/
theorem giveHandover {f : Frame} (h : Live owed s) (hkind : TxClass.handover.holds f.body) (hf : s.cfg.MayTransmit f) :
    Live owed (s.giveHandover f) := by
  unfold State.giveHandover
  split
  case isTrue hroom => exact h.joinClass (.inr rfl) (txFrameOk_newTx hkind hf _ _ _) hroom
  case isFalse => exact h.handoverDiscarded hf.1

theorem giveOwnHandover {b : FrameBody} (h : Live owed s) (hkind : TxClass.handover.holds b)
    (hb : bodyWellFormed b = true) (dest : Byte) : Live owed (s.giveHandover (s.ownFrame dest b)) :=
  h.giveHandover hkind (h.mayTransmit_ownFrame hb dest)

/-! ### Attach, position, detach (R79 to R82) -/

theorem setPosition {crane g : Byte} {c : Context} (h : Live owed s) (hc : s.contextOf crane = some c)
    (hg : g.toNat ≤ 127) : Live owed (s.setPosition c g) := by
  have hmoved : Live owed (s.putContext { c with position := g }) :=
    h.changeContext hc rfl { h.contextOk hc with position := hg }
  unfold State.setPosition
  split
  · exact h
  · dsimp only
    split
    · exact hmoved.departure _
    · exact hmoved

theorem attach {crane g : Byte} (h : Live owed s) (hlost : s.rlc.radioLost = false)
    (hcrane : 1 ≤ crane.toNat ∧ crane.toNat ≤ 31) (hg : g.toNat ≤ 127) : Live owed (s.attach crane g) := by
  unfold State.attach
  split
  case isTrue => exact h.queueControl (by simp)
  case isFalse hrun =>
    split
    case h_1 c hc =>
      split
      case isTrue => exact h.setPosition hc hg
      case isFalse hpending =>
        have hok := h.contextOk hc
        exact h.changeContext hc rfl
          { crane := hok.crane, position := hg, period := hok.period, late := hok.late, queue := hok.queue
            payload := hok.payload, pending := by simp [Context.active] }
    case h_2 =>
      split
      case isTrue hroom =>
        refine h.newContext hroom ?_ (by simpa using hrun) hlost
        exact
          { crane := hcrane, position := hg, period := by simp [attachedContext], late := Nat.zero_le _
            queue := Nat.zero_le _, payload := by simp [attachedContext], pending := fun _ => rfl }
      case isFalse => exact h.queueControl (by simp)

theorem position {crane g : Byte} (h : Live owed s) (hg : g.toNat ≤ 127) : Live owed (s.position crane g) := by
  unfold State.position
  split
  case h_1 hc => exact h.setPosition hc hg
  case h_2 => exact h

theorem detach (h : Live owed s) (crane : Byte) : Live owed (s.detach crane) := by
  unfold State.detach
  split
  · split
    · exact h.freeContext _
    · exact h
  · exact h

/-! ### Downlinks (R90 to R95) -/

theorem joinDownlink {payload : List Byte} (h : Live owed s) (crane seq : Byte) (deadline : Nat)
    (hpayload : 1 ≤ payload.length ∧ payload.length ≤ 48) : Live owed (s.joinDownlink crane seq deadline payload) := by
  unfold State.joinDownlink
  split
  case h_2 => exact h
  case h_1 c hc =>
    split
    case isFalse => exact h
    case isTrue hactive =>
      have hok := h.contextOk hc
      have hjoined (d : Context) (hd : ContextOk d) (hcrane : d.crane = c.crane) (hstate : d.active = true) :
          Live owed (s.putContext { d with
            queue := pushDropOldest Config.downlinkCapacity ⟨seq, payload, s.now + millis deadline⟩ c.queue }) := by
        refine h.changeContext hc hcrane { hd with
          queue := length_pushDropOldest (by decide) hok.queue
          payload := fun e he => ?_
          pending := fun hn => by
            have hsame : d.active = false := hn
            simp [hstate] at hsame }
        rcases mem_of_mem_pushDropOldest he with rfl | he
        · exact hpayload
        · exact hok.payload e he
      dsimp only
      split
      · exact hjoined c hok rfl hactive
      · exact hjoined c.addLate hok.addLate rfl hactive

theorem downlinkDue (h : Live owed s) (crane : Byte) (place : Nat) : Live owed (s.downlinkDue crane place) := by
  unfold State.downlinkDue
  split
  case h_1 c hc =>
    split
    · split
      · have hok := (h.contextOk hc).addLate
        refine h.changeContext hc rfl { hok with
          queue := (List.length_eraseIdx_le _ _).trans hok.queue
          payload := fun e he => hok.payload e (List.mem_of_mem_eraseIdx he)
          pending := fun hn => ?_ }
        have hnil : c.queue = [] := hok.pending hn
        simp [hnil]
      · exact h
    · exact h
  case h_2 => exact h

theorem downlink {crane : Byte} {payload : List Byte} (h : Live owed s) (hcrane : craneInRange crane = true)
    (hpayload : payloadInRange payload = true) (seq : Byte) (deadline : Nat) :
    Live owed (s.downlink crane seq deadline payload) := by
  have hgiven := h.giveCrane (x := s.ownFrame 63 (.craneDown crane seq (BitVec.ofNat 16 deadline) payload)) rfl
    (h.mayTransmit_ownFrame (by simp [bodyWellFormed, hcrane, hpayload]) _) deadline
  exact hgiven.joinDownlink _ _ _ (of_decide_eq_true hpayload)

/-! ### Uplinks and the handover window (R84 to R86, R97 to R100) -/

theorem offerTo {crane : Byte} {c : Context} (h : Live owed s) (hc : s.contextOf crane = some c) (peer : Byte) :
    Live owed (s.offerTo c peer) := by
  have hok := h.contextOk hc
  have hcounter : Live owed (s.setCru { s.cru with tokenCounter := s.cru.tokenCounter + 1 }) :=
    h.setCru h.contexts (.inl id)
  have hoffering : Live owed (s.offering c peer) :=
    hcounter.changeContext (c := c) hc rfl (hok.toActive rfl rfl rfl rfl rfl rfl)
  rw [State.offerTo_eq]
  refine hoffering.giveHandover rfl (hoffering.mayTransmit_ownFrame (b := .offer c.crane (s.cru.tokenCounter + 1)
    c.position (periodField c.period) (lateField c.late)) ?_ peer)
  simp only [bodyWellFormed, hok.craneInRange, hok.periodInRange, Bool.and_true, Bool.true_and]
  exact decide_eq_true hok.position

theorem handoverWindow (h : Live owed s) (crane : Byte) : Live owed (s.handoverWindow crane) := by
  unfold State.handoverWindow
  split
  case h_1 c hc =>
    split
    · split
      · exact h.offerTo hc _
      · exact h
    · exact h
  case h_2 => exact h

theorem uplink {crane : Byte} {payload : List Byte} (h : Live owed s) (hpayload : payloadInRange payload = true)
    (seq : Byte) : Live owed (s.uplink crane seq payload) := by
  unfold State.uplink
  split
  case h_2 => exact h
  case h_1 old hc =>
    obtain ⟨rfl, -⟩ := State.crane_of_contextOf hc
    split
    case isFalse => exact h
    case isTrue hactive =>
      have hok := (h.contextOk hc).relayed hactive s.now
      have hrelayed : Live owed (s.putContext (old.relayed s.now)) := h.changeContext hc rfl hok
      have hgiven := hrelayed.giveCrane (x := (s.putContext (old.relayed s.now)).ownFrame 63 (.craneUp old.crane seq
          (periodField (old.relayed s.now).period) (lateField (old.relayed s.now).late) payload)) rfl
        (hrelayed.mayTransmit_ownFrame (by
          simp only [bodyWellFormed, hok.periodInRange, hpayload, Bool.and_true]
          exact hok.craneInRange) _) ((old.relayed s.now).period.getD s.cfg.craneStale)
      dsimp only
      split
      · exact (hgiven.queueTerminal _).handoverWindow _
      · exact hgiven.handoverWindow _

theorem staleWatch (h : Live owed s) (crane : Byte) : Live owed (s.staleWatch crane) := by
  unfold State.staleWatch
  split
  case h_1 c hc =>
    split
    · exact h.changeContext hc rfl { h.contextOk hc with period := by simp }
    · exact h
  case h_2 => exact h

theorem passUplink (h : Live owed s) (sender crane seq : Byte) (period : Word16) (late : Byte) (payload : List Byte) :
    Live owed (s.passUplink sender crane seq period late payload) := by
  unfold State.passUplink
  split
  · exact h.queueTerminal _
  · exact h

/-! ### The offerer's replies and guard (R102 to R106) -/

theorem takeReply {crane : Byte} (h : Live owed s) (hcrane : craneInRange crane = true) (sender token : Byte) :
    Live owed (s.takeReply sender crane token) := by
  unfold State.takeReply
  split
  case h_1 c hm =>
    have hc := (s.contextOf_of_matchingOffer hm).1
    have hcommitting : Live owed (s.putContext { c with state := .offering sender token .committing }) :=
      h.changeContext hc rfl ((h.contextOk hc).toActive rfl rfl rfl rfl rfl rfl)
    exact hcommitting.giveOwnHandover (by exact rfl) (by simpa [bodyWellFormed] using hcrane) sender
  case h_2 =>
    split
    · exact h
    · exact h.giveOwnAnswer (by exact rfl) (by simpa [bodyWellFormed] using hcrane) sender

theorem refuseReply (h : Live owed s) (sender crane token : Byte) (reason : RefuseReason) :
    Live owed (s.refuseReply sender crane token reason) := by
  unfold State.refuseReply
  split
  case h_1 c hm =>
    have hc := (s.contextOf_of_matchingOffer hm).1
    have hnext : Live owed (s.setChoices (s.choices + 1)) := h.setChoices _
    cases reason with
    | anchoredHere =>
      simp only [State.eitherOrder]
      split
      · exact (hnext.freeContext _).queueControl (by simp)
      · exact (hnext.queueControl (by simp)).freeContext _
    | yielded => exact h.returnToAnchored hc _
    | notClaimed => exact h.returnToAnchored hc _
    | full => exact h.returnToAnchored hc _
    | pendingOther => exact h.returnToAnchored hc _
    | notRunning => exact h.returnToAnchored hc _
  case h_2 => exact h

theorem offerGuard (h : Live owed s) (crane : Byte) : Live owed (s.offerGuard crane) := by
  unfold State.offerGuard
  split
  case h_1 c hc =>
    split
    · split
      · exact h.returnToAnchored hc _
      · exact h
    · exact h
  case h_2 => exact h

/-! ### The target (R109 to R114) -/

theorem refuseOffer {crane : Byte} (h : Live owed s) (hcrane : craneInRange crane = true) (sender token : Byte)
    (reason : RefuseReason) : Live owed (s.refuseOffer sender crane token reason) :=
  h.giveOwnAnswer (by exact rfl) (by simpa [bodyWellFormed] using hcrane) sender

theorem offerReceived {crane g : Byte} {period : Word16} (h : Live owed s) (hcrane : craneInRange crane = true)
    (hg : g.toNat ≤ 127) (hperiod : period.toNat ≤ 4095) (sender token late : Byte) :
    Live owed (s.offerReceived sender crane token g period late) := by
  unfold State.offerReceived
  split
  case isTrue => exact h.refuseOffer hcrane _ _ _
  case isFalse hruns =>
    obtain ⟨hrun, hlost⟩ : s.stc.runState = .run ∧ s.rlc.radioLost = false := by simpa using hruns
    split
    case h_1 c hc =>
      split
      · split
        · exact h.refuseOffer hcrane _ _ _
        · exact ((h.freeContext c).queueControl (by simp)).refuseOffer hcrane _ _ _
      · exact h.refuseOffer hcrane _ _ _
    case h_2 hc =>
      split
      · exact h.refuseOffer hcrane _ _ _
      · split
        · exact h.refuseOffer hcrane _ _ _
        · rename_i hroom
          have hpending : Live owed (s.putContext
              (pendingContext s.now s.cfg.handoverGuard sender crane token g period late)) := by
            refine h.newContext (Nat.lt_of_not_le hroom) ?_ hrun hlost
            exact
              { crane := of_decide_eq_true hcrane, position := hg
                period := fun p hp => by
                  simp only [pendingContext, offeredPeriod, Option.ite_none_left_eq_some, Option.some.injEq] at hp
                  obtain ⟨hne, rfl⟩ := hp
                  have hpos : period.toNat ≠ 0 := fun h0 => hne (BitVec.eq_of_toNat_eq h0)
                  omega
                late := by
                  simp only [pendingContext]
                  omega
                queue := Nat.zero_le _, payload := by simp [pendingContext], pending := fun _ => rfl }
          exact hpending.giveOwnHandover (by exact rfl) (by simpa [bodyWellFormed] using hcrane) sender

theorem commitReceived (h : Live owed s) (sender crane token : Byte) :
    Live owed (s.commitReceived sender crane token) := by
  unfold State.commitReceived
  split
  case h_1 c hm =>
    have hc := (s.contextOf_of_matchingPending hm).1
    exact h.changeContext hc rfl ((h.contextOk hc).toActive rfl rfl rfl rfl rfl rfl)
  case h_2 => exact h

theorem cancelReceived (h : Live owed s) (sender crane token : Byte) :
    Live owed (s.cancelReceived sender crane token) := by
  unfold State.cancelReceived
  split
  · exact h.dropContext _
  · exact h

theorem pendingGuard (h : Live owed s) (crane : Byte) : Live owed (s.pendingGuard crane) := by
  unfold State.pendingGuard
  split
  · split
    · split
      · exact h.dropContext _
      · exact h
    · exact h
  · exact h

end Live

end Sys2Proof.Machine
end

