-- ==== Sys2Proof/Proofs/LiveBundles.lean ====
section
/-!
PROOFS. BAS: buffers filled, closed and emptied, and the moves; with class 3 what each keeps of `Live`.
-/

namespace Sys2Proof.Machine

variable {s : State}

/-! ### Buffers (R143 to R149) -/

/-- The buffer is in FILLING. -/
def Buffer.isFilling (b : Buffer) : Bool := b.state = .filling

/-- A buffer that can receive: in FILLING, or EMPTY while none is in FILLING (R145). -/
def Buffer.MayReceive (bs : List Buffer) (b : Buffer) : Prop :=
  b.state = .filling ∨ b.state = .empty ∧ bs.countP Buffer.isFilling = 0

theorem receivingBuffer_some {bs : List Buffer} {i : Nat} (h : receivingBuffer bs = some i) :
    ∃ b, bs[i]? = some b ∧ b.MayReceive bs := by
  unfold receivingBuffer at h
  split at h
  case h_1 j hj =>
    cases h
    obtain ⟨hi, hfilling, -⟩ := List.findIdx?_eq_some_iff_getElem.1 hj
    exact ⟨bs[i], List.getElem?_eq_getElem hi, .inl (of_decide_eq_true hfilling)⟩
  case h_2 hnone =>
    obtain ⟨hi, hempty, -⟩ := List.findIdx?_eq_some_iff_getElem.1 h
    refine ⟨bs[i], List.getElem?_eq_getElem hi, .inr ⟨of_decide_eq_true hempty, ?_⟩⟩
    exact List.countP_eq_zero.2 fun x hx => by
      have := List.findIdx?_eq_none_iff.1 hnone x hx
      simpa [Buffer.isFilling] using this

/-- Which buffer receives depends on the buffers in FILLING and the EMPTY ones. -/
theorem receivingBuffer_eq_none_iff {bs : List Buffer} : receivingBuffer bs = none ↔ ∀ b ∈ bs, b.given = true := by
  constructor
  · intro h b hb
    unfold receivingBuffer at h
    split at h
    case h_1 => cases h
    case h_2 hfilling =>
      have h1 := List.findIdx?_eq_none_iff.1 hfilling b hb
      have h2 := List.findIdx?_eq_none_iff.1 h b hb
      cases hstate : b.state <;> simp [hstate, Buffer.given] at h1 h2 ⊢
  · intro h
    refine receivingBuffer_eq_none fun x hx => ?_
    have hgiven := h x hx
    cases hstate : x.state <;> simp [hstate, Buffer.given] at hgiven ⊢

/-- A test counts at one place what it says of the buffer put there. -/
theorem countP_set {bs : List Buffer} {i : Nat} {b b' : Buffer} (p : Buffer → Bool) (hb : bs[i]? = some b) :
    (bs.set i b').countP p + (if p b then 1 else 0) = bs.countP p + if p b' then 1 else 0 := by
  obtain ⟨hi, rfl⟩ := List.getElem?_eq_some_iff.1 hb
  rw [List.countP_set hi]
  split
  case isTrue hp =>
    have hpos := List.countP_pos_iff.2 ⟨bs[i], List.getElem_mem hi, hp⟩
    omega
  case isFalse => omega

theorem effectiveLimit_bounds (c : Settings) :
    1 ≤ effectiveLimit c ∧ effectiveLimit c ≤ bufferCapacity c.bundleMode ∧ effectiveLimit c ≤ 24 := by
  have hcapacity : 1 ≤ bufferCapacity c.bundleMode ∧ bufferCapacity c.bundleMode ≤ 24 := by
    cases c.bundleMode <;> decide
  unfold effectiveLimit
  split <;> omega

namespace Buffer

variable {b : Buffer} {bs : List Buffer}

theorem MayReceive.given (h : b.MayReceive bs) : b.given = false := by
  rcases h with h | ⟨h, -⟩ <;> simp [Buffer.given, h]

theorem given_of_state (h : b.state = .closed ∨ b.state = .sending) : b.given = true := by
  rcases h with h | h <;> simp [Buffer.given, h]

end Buffer

namespace BuffersOk

variable {c : Settings} {bas : Bas} {i : Nat} {b b' : Buffer}

theorem fillingCount (h : BuffersOk c bas) : bas.buffers.countP Buffer.isFilling ≤ 1 := h.oneFilling

theorem waitDue_iff (h : BuffersOk c bas) : bas.waitDue ≠ none ↔ 0 < bas.buffers.countP Buffer.isFilling := by
  rw [h.waiting, List.countP_pos_iff]
  simp [Buffer.isFilling]

/-- A buffer put in the place of one, where at most one is in FILLING then and the wait timer runs exactly with it. -/
theorem set {wait : Option Micros} (h : BuffersOk c bas) (hb' : b'.ok (effectiveLimit c))
    (hone : (bas.buffers.set i b').countP Buffer.isFilling ≤ 1)
    (hwait : wait ≠ none ↔ 0 < (bas.buffers.set i b').countP Buffer.isFilling) :
    BuffersOk c { bas with buffers := bas.buffers.set i b', waitDue := wait } where
  arranged := by simpa using h.arranged
  buffers := fun x hx => by
    rcases List.mem_or_eq_of_mem_set hx with hx | rfl
    · exact h.buffers x hx
    · exact hb'
  oneFilling := hone
  waiting := by
    rw [List.countP_pos_iff] at hwait
    simpa [Buffer.isFilling] using hwait
  alerts := h.alerts
  routines := h.routines

/-- How many are in FILLING while a buffer can receive. -/
theorem countP_of_mayReceive (h : BuffersOk c bas) (hb : bas.buffers[i]? = some b) (hfree : b.MayReceive bas.buffers) :
    bas.buffers.countP Buffer.isFilling = if b.isFilling then 1 else 0 := by
  have hone := h.fillingCount
  rcases hfree with hfilling | ⟨hempty, hnone⟩
  · have hpos := List.countP_pos_iff.2 ⟨b, List.mem_of_getElem? hb, show b.isFilling = true from decide_eq_true hfilling⟩
    have hb' : b.isFilling = true := decide_eq_true hfilling
    rw [hb', if_pos rfl]
    omega
  · have hb' : b.isFilling = false := by simp [Buffer.isFilling, hempty]
    rw [hb', hnone]
    rfl

end BuffersOk

namespace BundlesGiven

variable {q : List TxFrame} {bs : List Buffer} {i : Nat} {b b' : Buffer} {f : TxFrame} {rest : List TxFrame}

/-- The buffers of the bundles in class 3 are with LNC. -/
theorem buffer_ne (h : BundlesGiven q bs) (hb : bs[i]? = some b) (hg : b.given = false) (hf : f ∈ q) :
    f.buffer ≠ i := by
  rintro rfl
  obtain ⟨x, hx, hgiven, -⟩ := h.bundles f hf
  rw [hb] at hx
  cases hx
  simp [hg] at hgiven

/-- A change of a buffer that is not with LNC, and is not after it. -/
theorem set (h : BundlesGiven q bs) (hb : bs[i]? = some b) (hg : b.given = false) (hg' : b'.given = false) :
    BundlesGiven q (bs.set i b') where
  bundles := fun f hf => by
    rw [List.getElem?_set_ne (h.buffer_ne hb hg hf).symm]
    exact h.bundles f hf
  distinct := h.distinct
  count := by
    have hcount := countP_set (b' := b') Buffer.given hb
    simp only [hg, hg', Bool.false_eq_true, if_false, Nat.add_zero] at hcount
    rw [h.count, hcount]

/-- A buffer closes and its bundle joins class 3. -/
theorem close (h : BundlesGiven q bs) (hb : bs[i]? = some b) (hg : b.given = false) (hg' : b'.given = true)
    (hbuffer : f.buffer = i) (hbody : f.frame.body = .bundle b'.reports) : BundlesGiven (q ++ [f]) (bs.set i b') where
  bundles := fun x hx => by
    rcases List.mem_append.1 hx with hx | hx
    · rw [List.getElem?_set_ne (h.buffer_ne hb hg hx).symm]
      exact h.bundles x hx
    · obtain rfl := List.mem_singleton.1 hx
      rw [hbuffer]
      exact ⟨b', by simp [(List.getElem?_eq_some_iff.1 hb).1], hg', hbody⟩
  distinct := by
    rw [List.map_append, List.nodup_append]
    refine ⟨h.distinct, List.nodup_singleton _, fun x hx y hy hxy => ?_⟩
    obtain ⟨z, hz, rfl⟩ := List.mem_map.1 hx
    simp only [List.map_cons, List.map_nil, List.mem_singleton] at hy
    exact h.buffer_ne hb hg hz (hxy.trans (hy.trans hbuffer))
  count := by
    have hcount := countP_set (b' := b') Buffer.given hb
    simp only [hg, hg', Bool.false_eq_true, if_false, if_true, Nat.add_zero] at hcount
    rw [List.length_append, h.count, hcount]
    rfl

/-- The bundle at the head leaves class 3 and its buffer LNC. -/
theorem leave (h : BundlesGiven (f :: rest) bs) (hg' : b'.given = false) :
    BundlesGiven rest (bs.set f.buffer b') := by
  obtain ⟨b, hb, hg, -⟩ := h.bundles f (by simp)
  have hdistinct := h.distinct
  rw [List.map_cons, List.nodup_cons] at hdistinct
  refine ⟨fun x hx => ?_, hdistinct.2, ?_⟩
  · have hne : f.buffer ≠ x.buffer := fun he => hdistinct.1 (List.mem_map.2 ⟨x, hx, he.symm⟩)
    rw [List.getElem?_set_ne hne]
    exact h.bundles x (by simp [hx])
  · have hcount := countP_set (b' := b') Buffer.given hb
    have hlen := h.count
    simp only [hg, hg', Bool.false_eq_true, if_false, if_true, Nat.add_zero] at hcount
    rw [List.length_cons] at hlen
    omega

/-- Another frame at the head for the same bundle. -/
theorem replaceHead {x : TxFrame} (h : BundlesGiven (f :: rest) bs) (hbuffer : x.buffer = f.buffer)
    (hbody : x.frame.body = f.frame.body) : BundlesGiven (x :: rest) bs where
  bundles := fun y hy => by
    rcases List.mem_cons.1 hy with rfl | hy
    · rw [hbuffer, hbody]
      exact h.bundles f (by simp)
    · exact h.bundles y (by simp [hy])
  distinct := by
    rw [List.map_cons, hbuffer]
    exact h.distinct
  count := h.count

/-- A buffer with LNC becomes SENDING. -/
theorem sending (h : BundlesGiven q bs) (hb : bs[i]? = some b) (hg : b.given = true) :
    BundlesGiven q (bs.modify i fun b => { b with state := .sending }) where
  bundles := fun f hf => by
    obtain ⟨x, hx, hgiven, hbody⟩ := h.bundles f hf
    by_cases hi : i = f.buffer
    · exact ⟨{ x with state := .sending }, by simp [hi, hx], rfl, hbody⟩
    · exact ⟨x, by simp [hi, hx], hgiven, hbody⟩
  distinct := h.distinct
  count := by
    have hset : (bs.modify i fun b => { b with state := .sending }) = bs.set i { b with state := .sending } := by
      rw [List.modify_eq_set_getElem?, hb]
      rfl
    have hcount := countP_set (b' := { b with state := .sending }) Buffer.given hb
    rw [hset, h.count]
    have hsending : ({ b with state := .sending } : Buffer).given = true := rfl
    simp only [hg, hsending, if_true] at hcount
    omega

end BundlesGiven

theorem State.openDefer_bas (s : State) : s.openDefer.bas = s.bas := by
  rw [State.openDefer_frame]
  rfl

namespace Live

variable {owed : List Debt} {i : Nat} {b b' : Buffer} {r : Report}

/-! ### Closing and filling (R146, R147, R149) -/

theorem bufferOk (h : Live owed s) (hb : s.bas.buffers[i]? = some b) : b.ok (effectiveLimit s.cfg) :=
  h.buffers.buffers b (List.mem_of_getElem? hb)

/-- A bundle of this station is in order. -/
theorem mayTransmit_bundle {reports : List Report} (h : Live owed s) (hreports : ∀ r ∈ reports, reportOk r)
    (hpos : 1 ≤ reports.length) (hlimit : reports.length ≤ effectiveLimit s.cfg) :
    s.cfg.MayTransmit ⟨s.cfg.address, 63, .bundle reports⟩ := by
  refine h.mayTransmit_ownFrame (b := .bundle reports) ?_ 63
  have hmost := (effectiveLimit_bounds s.cfg).2.2
  simp only [bodyWellFormed, Bool.and_eq_true, decide_eq_true_eq, List.all_eq_true]
  refine ⟨⟨hpos, hlimit.trans hmost⟩, fun r hr => ?_⟩
  obtain ⟨-, hsegment, -⟩ := hreports r hr
  exact decide_eq_true hsegment

/-- A buffer that could receive closes, and its bundle joins class 3. -/
theorem closes (h : Live (.moves :: owed) s) (hb : s.bas.buffers[i]? = some b) (hfree : b.MayReceive s.bas.buffers)
    (hclosed : b'.state = .closed) (hok : b'.ok (effectiveLimit s.cfg)) :
    Live (.moves :: owed) (((s.setBas { s.bas with buffers := s.bas.buffers.set i b', waitDue := none }).setLnc
      { s.lnc with
        class3 := s.lnc.class3 ++ [newTx s.now ⟨s.cfg.address, 63, .bundle b'.reports⟩ 0 i] }).openDefer) := by
  have hcount := countP_set (b' := b') Buffer.isFilling hb
  rw [h.buffers.countP_of_mayReceive hb hfree] at hcount
  have hnot : b'.isFilling = false := by simp [Buffer.isFilling, hclosed]
  have hnone : (s.bas.buffers.set i b').countP Buffer.isFilling = 0 := by
    simp only [hnot, Bool.false_eq_true, if_false] at hcount
    omega
  obtain ⟨hreports, hstate⟩ := hok
  rw [hclosed] at hstate
  have hframe : TxFrameOk s.cfg .bundle (newTx s.now ⟨s.cfg.address, 63, .bundle b'.reports⟩ 0 i) :=
    txFrameOk_newTx (by exact rfl) (h.mayTransmit_bundle hreports hstate.1 (by omega)) _ _ _
  refine Live.openDefer ?_
  have howing : Live (.defer :: .moves :: owed) s :=
    h.setLncOwing h.classes h.bundles h.line.oweDefer fun d _ _ hd => by simp [hd]
  refine howing.setBasLnc (h.buffers.set ⟨hreports, by rw [hclosed]; exact hstate⟩ (by omega) (by simp [hnone])) ?_
    (h.bundles.close hb hfree.given (Buffer.given_of_state (.inl hclosed)) rfl rfl) ?_ (by simp)
  · refine h.classes.setFrames (k := .bundle) (fun x hx => ?_) (by simp) (by simp)
    rcases List.mem_append.1 hx with hx | hx
    · exact h.classes.frames .bundle x hx
    · exact List.mem_singleton.1 hx ▸ hframe
  · exact howing.line.setFrames (k := .bundle) (by simp) (by simp)

/-- The FILLING buffer closes. -/
theorem closeBuffer (h : Live (.moves :: owed) s) (hb : s.bas.buffers[i]? = some b) (hfilling : b.state = .filling) :
    Live (.moves :: owed) (s.closeBuffer i) := by
  obtain ⟨hreports, hstate⟩ := h.bufferOk hb
  rw [hfilling] at hstate
  have hclosed := h.closes (b' := { b with state := .closed }) hb (.inl hfilling) rfl ⟨hreports, hstate.1, hstate.2.2⟩
  unfold State.closeBuffer
  rw [hb]
  exact hclosed

/-- A report is put into a buffer that can receive. -/
theorem fillBuffer (h : Live (.moves :: owed) s) (hi : receivingBuffer s.bas.buffers = some i) (hr : reportOk r) :
    Live (.moves :: owed) (s.fillBuffer i r) := by
  obtain ⟨b, hb, hfree⟩ := receivingBuffer_some hi
  obtain ⟨hreports, hstate⟩ := h.bufferOk hb
  have hlimit := (effectiveLimit_bounds s.cfg).1
  rw [State.fillBuffer_eq r hb]
  generalize hroom : (if b.state = .empty then effectiveLimit s.cfg else b.room) - 1 = room
  generalize hnew : (if b.state = .empty then [] else b.reports) ++ [r] = reports
  have hall : ∀ x ∈ reports, reportOk x := by
    rw [← hnew]
    intro x hx
    rcases List.mem_append.1 hx with hx | hx
    · split at hx
      · cases hx
      · exact hreports x hx
    · exact List.mem_singleton.1 hx ▸ hr
  have hsum : 1 ≤ reports.length ∧ reports.length + room = effectiveLimit s.cfg := by
    rw [← hnew, ← hroom, List.length_append, List.length_singleton]
    rcases hfree with hfilling | ⟨hempty, -⟩
    · rw [hfilling] at hstate
      simp only [hfilling, reduceCtorEq, if_false]
      omega
    · simp only [hempty, if_true, List.length_nil]
      omega
  dsimp only
  split
  case isTrue => exact h.closes hb hfree rfl ⟨hall, hsum⟩
  case isFalse hopen =>
    have hcount := countP_set (b' := ⟨.filling, room, reports⟩) Buffer.isFilling hb
    rw [h.buffers.countP_of_mayReceive hb hfree] at hcount
    have hone : (s.bas.buffers.set i ⟨.filling, room, reports⟩).countP Buffer.isFilling = 1 := by
      have hfilling : (⟨.filling, room, reports⟩ : Buffer).isFilling = true := rfl
      simp only [hfilling, if_true] at hcount
      omega
    refine h.setBas (h.buffers.set ⟨hall, hsum.1, ?_, hsum.2⟩ hone.le ?_)
      (h.bundles.set hb hfree.given rfl) (by simp)
    · exact Nat.pos_of_ne_zero fun h0 => hopen (.inl h0)
    · simp only [hone, Nat.lt_one_iff, iff_true]
      split
      · simp
      · rename_i hne
        refine h.buffers.waitDue_iff.2 (List.countP_pos_iff.2 ⟨b, List.mem_of_getElem? hb, ?_⟩)
        exact decide_eq_true (hfree.resolve_right fun he => hne he.1)

/-! ### Moves (R142, R145) -/

theorem alertTaken {rest : List Report} (h : Live (.moves :: owed) s) (ha : s.bas.alertIntake = r :: rest) :
    Live (.moves :: owed) (s.setBas { s.bas with alertIntake := rest }) := by
  have halerts := h.buffers.alerts
  rw [ha] at halerts
  refine h.setBas { h.buffers with alerts := ⟨(Nat.le_succ _).trans halerts.1, fun x hx => halerts.2 x (by simp [hx])⟩ }
    h.bundles (by simp)

theorem routineTaken {rest : List Report} (h : Live (.moves :: owed) s) (hr : s.bas.routineIntake = r :: rest) :
    Live (.moves :: owed) (s.setBas { s.bas with routineIntake := rest }) := by
  have hroutines := h.buffers.routines
  rw [hr] at hroutines
  refine h.setBas { h.buffers with
    routines := ⟨(Nat.le_succ _).trans hroutines.1, fun x hx => hroutines.2 x (by simp [hx])⟩ } h.bundles (by simp)

end Live

/-- Filling a buffer leaves the intakes. -/
theorem State.fillBuffer_intakes (s : State) (i : Nat) (r : Report) :
    (s.fillBuffer i r).bas.alertIntake = s.bas.alertIntake ∧ (s.fillBuffer i r).bas.routineIntake = s.bas.routineIntake := by
  cases hb : s.bas.buffers[i]? with
  | none => simp [State.fillBuffer, hb]
  | some b =>
    have hbas (p : Prop) [Decidable p] (x y : State) (hx : x.bas.alertIntake = s.bas.alertIntake ∧
        x.bas.routineIntake = s.bas.routineIntake) (hy : y.bas.alertIntake = s.bas.alertIntake ∧
        y.bas.routineIntake = s.bas.routineIntake) : (if p then x else y).bas.alertIntake = s.bas.alertIntake ∧
          (if p then x else y).bas.routineIntake = s.bas.routineIntake := by
      split
      · exact hx
      · exact hy
    rw [State.fillBuffer_eq r hb]
    refine hbas _ _ _ ?_ ⟨rfl, rfl⟩
    rw [State.openDefer_bas]
    exact ⟨rfl, rfl⟩

namespace Live

variable {owed : List Debt}

/-- One move takes a report out of an intake. -/
theorem oneMove {t : State} (h : Live (.moves :: owed) s) (ht : s.oneMove = some t) :
    Live (.moves :: owed) t ∧ t.bas.alertIntake.length + t.bas.routineIntake.length + 1 =
      s.bas.alertIntake.length + s.bas.routineIntake.length := by
  obtain ⟨i, hi, ht⟩ := Option.bind_eq_some_iff.1 ht
  split at ht
  case h_1 r rest ha =>
    cases ht
    have hok : reportOk r := (h.buffers.alerts.2 r (by simp [ha])).2
    obtain ⟨h1, h2⟩ := State.fillBuffer_intakes (s.setBas { s.bas with alertIntake := rest }) i r
    refine ⟨(h.alertTaken ha).fillBuffer hi hok, ?_⟩
    rw [h1, h2, ha]
    simp only [State.setBas_bas, List.length_cons]
    omega
  case h_2 r rest ha hr =>
    cases ht
    have hok : reportOk r := (h.buffers.routines.2 r (by simp [hr])).2
    obtain ⟨h1, h2⟩ := State.fillBuffer_intakes (s.setBas { s.bas with routineIntake := rest }) i r
    refine ⟨(h.routineTaken hr).fillBuffer hi hok, ?_⟩
    rw [h1, h2, hr]
    simp only [State.setBas_bas, List.length_cons]
    omega
  case h_3 => cases ht

/-- With no move possible none is owed. -/
theorem payMoves (h : Live (.moves :: owed) s) (hmoved : s.bas.Moved) : Live owed s :=
  { h with
    line := h.line.congr_owed (by simp) (by simp)
    moved := fun _ => hmoved
    notices := fun hn => h.notices (by simpa using hn)
    free := fun hn => h.free (by simpa using hn) }

theorem movesUpTo {n : Nat} (h : Live (.moves :: owed) s)
    (hn : n = s.bas.alertIntake.length + s.bas.routineIntake.length) : Live owed (s.movesUpTo n) := by
  induction n generalizing s with
  | zero =>
    refine h.payMoves fun _ => ?_
    exact ⟨List.length_eq_zero_iff.1 (by omega), List.length_eq_zero_iff.1 (by omega)⟩
  | succ n ih =>
    unfold State.movesUpTo
    split
    case h_1 t ht =>
      obtain ⟨hlive, hcount⟩ := h.oneMove ht
      exact ih hlive (by omega)
    case h_2 hnone =>
      refine h.payMoves fun hreceives => ?_
      obtain ⟨i, hi⟩ := Option.ne_none_iff_exists'.1 hreceives
      simp only [State.oneMove, hi, Option.bind_some] at hnone
      cases ha : s.bas.alertIntake <;> cases hr : s.bas.routineIntake <;> simp_all

theorem makeMoves (h : Live (.moves :: owed) s) : Live owed s.makeMoves := h.movesUpTo rfl

theorem forward {r : Report} (h : Live owed s) (hr : reportOk r) : Live owed (s.forward r) := by
  have howing := h.owe (d := .moves) (by simp)
  unfold State.forward
  refine Live.makeMoves ?_
  split
  case h_1 hcls =>
    refine howing.setBas { h.buffers with
      alerts := ⟨length_pushDropOldest (by decide) h.buffers.alerts.1, fun x hx => ?_⟩ } h.bundles (by simp)
    rcases mem_of_mem_pushDropOldest hx with rfl | hx
    · exact ⟨hcls, hr⟩
    · exact h.buffers.alerts.2 x hx
  case h_2 hcls =>
    refine howing.setBas { h.buffers with
      routines := ⟨length_pushDropOldest (by decide) h.buffers.routines.1, fun x hx => ?_⟩ } h.bundles (by simp)
    rcases mem_of_mem_pushDropOldest hx with rfl | hx
    · exact ⟨hcls, hr⟩
    · exact h.buffers.routines.2 x hx

theorem bundleWait (h : Live owed s) : Live owed s.bundleWait := by
  unfold State.bundleWait
  split
  · split
    case h_1 i hi =>
      obtain ⟨hlt, hfilling, -⟩ := List.findIdx?_eq_some_iff_getElem.1 hi
      exact ((h.owe (by simp)).closeBuffer (List.getElem?_eq_getElem hlt) (of_decide_eq_true hfilling)).makeMoves
    case h_2 => exact h
  · exact h

end Live

end Sys2Proof.Machine
end

