-- ==== Sys2Proof/Proofs/LiveAttempts.lean ====
section
/-!
PROOFS. The start of an attempt, its outcomes, and received frames; what each keeps of `Live`.
-/

namespace Sys2Proof.Machine

variable {s : State}

/-! ### The start of an attempt (R61, R64) -/

/-- The frame as an attempt starts differs from the one given in the deadline of a CRANE DOWN alone. -/
theorem frameWellFormed_onLine (f : TxFrame) (now : Micros) :
    frameWellFormed (f.onLine now) = frameWellFormed f.frame ∧ (f.onLine now).sender = f.frame.sender := by
  unfold TxFrame.onLine
  split
  case h_1 hb => simp [frameWellFormed, bodyWellFormed, hb]
  case h_2 => exact ⟨rfl, rfl⟩

theorem BuffersOk.sending {c : Settings} {bas : Bas} {i : Nat} {b : Buffer} (h : BuffersOk c bas)
    (hb : bas.buffers[i]? = some b) (hg : b.given = true) :
    BuffersOk c { bas with buffers := bas.buffers.set i { b with state := .sending } } := by
  have hcount := countP_set (b' := { b with state := .sending }) Buffer.isFilling hb
  have hnot : b.isFilling = false := by
    cases hstate : b.state <;> simp [Buffer.isFilling, Buffer.given, hstate] at hg ⊢
  have hsending : ({ b with state := .sending } : Buffer).isFilling = false := rfl
  simp only [hnot, hsending, Bool.false_eq_true, if_false, Nat.add_zero] at hcount
  refine h.set (wait := bas.waitDue) ?_ (by rw [hcount]; exact h.fillingCount) (by rw [hcount]; exact h.waitDue_iff)
  obtain ⟨hreports, hstate⟩ := h.buffers b (List.mem_of_getElem? hb)
  refine ⟨hreports, ?_⟩
  cases hb : b.state <;> simp [Buffer.given, hb] at hg hstate ⊢ <;> exact hstate

theorem receivingBuffer_sending {bs : List Buffer} {i : Nat} {b : Buffer} (hb : bs[i]? = some b) (hg : b.given = true) :
    receivingBuffer (bs.set i { b with state := .sending }) = none ↔ receivingBuffer bs = none := by
  have hcount := countP_set (b' := { b with state := .sending }) Buffer.given hb
  have hsending : ({ b with state := .sending } : Buffer).given = true := rfl
  simp only [hg, hsending, if_true] at hcount
  have hlen : (bs.set i { b with state := .sending }).length = bs.length := List.length_set
  rw [receivingBuffer_eq_none_iff, receivingBuffer_eq_none_iff, ← List.countP_eq_length, ← List.countP_eq_length]
  omega

namespace Live

variable {owed : List Debt}

theorem bufferSending {f : TxFrame} (h : Live owed s) (hf : f ∈ s.lnc.class3) : Live owed (s.bufferSending f.buffer) := by
  obtain ⟨b, hb, hg, -⟩ := h.bundles.bundles f hf
  have hset : (s.bas.buffers.modify f.buffer fun b => { b with state := .sending }) =
      s.bas.buffers.set f.buffer { b with state := .sending } := by
    rw [List.modify_eq_set_getElem?, hb]
    rfl
  have hgiven := h.bundles.sending hb hg
  unfold State.bufferSending
  rw [hset] at hgiven ⊢
  refine h.setBas (h.buffers.sending hb hg) hgiven fun hn hreceives => h.moved hn fun hnone => hreceives ?_
  exact (receivingBuffer_sending hb hg).2 hnone

/-- The gap has run out: an attempt starts, or the CRANE DOWN with no time left is withdrawn. -/
theorem gapEnds (h : Live owed s) (hn : .attempt ∉ owed) : Live owed s.gapEnds := by
  unfold State.gapEnds
  split
  case h_2 => exact h
  case h_1 k gapEnd hl =>
    split
    case isFalse => exact h
    case isTrue =>
      split
      case h_2 => exact h
      case h_1 f hf =>
        split
        case isTrue => exact h.withdrawCrane _
        case isFalse =>
          have hmem : f ∈ s.lnc.frames k := List.mem_of_head? hf
          have hown := (h.classes.frames k f hmem).own
          have hclasses : ClassesOk s.cfg { s.lnc with line := .sending k (f.onLine s.now) } s.cve.successor :=
            h.classes.congr (fun j => by cases j <;> rfl) h.classes.generator fun j x hx => by
              cases hx
              obtain ⟨hwf, hsender⟩ := frameWellFormed_onLine f s.now
              exact ⟨hwf.trans hown.1, hsender.trans hown.2⟩
          obtain ⟨hne, hsilent⟩ := h.line.candidate k gapEnd hl
          have hline : LineKept owed s.pins { s.lnc with line := .sending k (f.onLine s.now) } s.cve.successor :=
            { candidate := by simp
              receiving := fun hr => by simp [h.line.receiving_eq_false (l := s.lnc) (by simp [hl])] at hr
              opened := fun ho => by simp [h.line.lineOpen_eq_false (by simp [hl])] at ho
              successor := fun hs => absurd (h.line.successor_eq_none (by simp [Lnc.transmitting, hl])) hs
              carrier := by simpa [Lnc.onAir, hl, hsilent] using h.line.carrier
              recovery := by simpa [hl] using h.line.recovery
              sent := fun _ j x hx => by
                cases hx
                intro hnil
                exact hne (by rw [← hnil]; cases k <;> rfl)
              ended := fun hm => absurd hm hn
              used := by simp }
          have hsending : Live owed (s.setLnc { s.lnc with line := .sending k (f.onLine s.now) }) :=
            h.setLnc hclasses h.bundles hline
          dsimp only
          split
          case isTrue hk =>
            subst hk
            exact hsending.bufferSending hmem
          case isFalse => exact hsending

/-! ### Outcomes (R64, R65, R66, R150) -/

end Live

/-- GDS takes no notice of LNC. -/
theorem State.gdsIntake_setLnc (s : State) (x : Lnc) (station : Byte) (reports : List Report) :
    (s.setLnc x).gdsIntake station reports = (s.gdsIntake station reports).setLnc x := by
  unfold State.gdsIntake
  rw [State.setLnc_cfg]
  by_cases hrole : s.cfg.role = .gateway
  · rw [if_pos hrole, if_pos hrole]
    rfl
  · rw [if_neg hrole, if_neg hrole]

namespace Live

variable {owed : List Debt}

/-- The bundle at the head of class 3 leaves it, its buffer is EMPTY, and the moves follow. -/
theorem bundleLeaves {f : TxFrame} {rest : List TxFrame} (h : Live owed s) (hm : .attempt ∈ owed)
    (hq : s.lnc.class3 = f :: rest) : Live owed (State.makeMoves ((s.setBas
      { s.bas with buffers := s.bas.buffers.set f.buffer Buffer.reset }).setLnc (s.lnc.setFrames .bundle rest))) := by
  have hgiven := h.bundles
  rw [hq] at hgiven
  obtain ⟨b, hb, hg, -⟩ := hgiven.bundles f (by simp)
  have hcount := countP_set (b' := Buffer.reset) Buffer.isFilling hb
  have hnot : b.isFilling = false := by
    cases hstate : b.state <;> simp [Buffer.isFilling, Buffer.given, hstate] at hg ⊢
  have hreset : Buffer.reset.isFilling = false := rfl
  simp only [hnot, hreset, Bool.false_eq_true, if_false, Nat.add_zero] at hcount
  have hsub : rest.Sublist (s.lnc.frames .bundle) := by simp [Lnc.frames, hq]
  have hbuffers : BuffersOk s.cfg { s.bas with buffers := s.bas.buffers.set f.buffer Buffer.reset } :=
    h.buffers.set (wait := s.bas.waitDue) ⟨by simp [Buffer.reset], rfl⟩ (by rw [hcount]; exact h.buffers.fillingCount)
      (by rw [hcount]; exact h.buffers.waitDue_iff)
  exact Live.makeMoves ((h.owe (by simp)).setBasLnc hbuffers (h.classes.setFrames_sublist hsub) (hgiven.leave rfl)
    ((h.owe (by simp)).line.setFrames_of_attempt (by simp [hm])) (by simp))

/-- The outcome of the bundle at the head of class 3, once it has left the class. -/
theorem bundleOutcome {f : TxFrame} {rest : List TxFrame} (h : Live owed s) (hm : .attempt ∈ owed)
    (hq : s.lnc.class3 = f :: rest) (sent : Bool) :
    Live owed ((s.setLnc (s.lnc.setFrames .bundle rest)).bundleOutcome sent f.buffer) := by
  obtain ⟨b, hb, -, -⟩ := h.bundles.bundles f (by simp [hq])
  obtain ⟨hreports, -⟩ := h.bufferOk hb
  cases sent with
  | false =>
    simp only [State.bundleOutcome, State.setLnc_bas, hb]
    exact h.bundleLeaves hm hq
  | true =>
    simp only [State.bundleOutcome, State.setLnc_bas, hb, State.gdsIntake_setLnc, if_true, State.setLnc_cfg]
    have hdelivered := h.gdsIntake (station := s.cfg.address) fun r hr => (hreports r hr).2.1
    obtain ⟨gds, hgds⟩ := s.gdsIntake_frame s.cfg.address b.reports
    rw [hgds] at hdelivered ⊢
    exact hdelivered.bundleLeaves hm hq

/-- The last byte has gone out without a difference. -/
theorem transmissionDone (h : Live owed s) (hn : .attempt ∉ owed) : Live owed s.transmissionDone := by
  unfold State.transmissionDone
  split
  case h_2 => exact h
  case h_1 k x hl =>
    split
    case h_2 hnil => exact absurd hnil (h.line.sent hn k x hl)
    case h_1 f rest hq =>
      have hair := Lnc.onAir_of_sending hl
      have hsucc (hk : k ≠ .beacon) : s.cve.successor = none :=
        h.line.successor_eq_none (by simpa [Lnc.transmitting, hl] using hk)
      have hsub : rest.Sublist (s.lnc.frames k) := by simp [hq]
      refine Live.endAttempt ?_ hn
      cases k with
      | crane => exact (h.oweAttempt hair (hsucc (by simp))).attemptLeaves (by simp) (by simp) hsub
      | handover =>
        exact ((h.oweAttempt hair (hsucc (by simp))).attemptLeaves (by simp) (by simp) hsub).handoverSent _
      | beacon =>
        cases hs : s.cve.successor with
        | none =>
          have hleft := (h.oweAttempt hair hs).attemptLeaves (k := .beacon) (by simp) (by simp) hsub
          simpa only [State.frameSent, State.enterSuccessor, State.setLnc_cve, hs] using hleft
        | some b =>
          have hentered := h.enterSuccessor hair
          simp only [State.enterSuccessor, hs] at hentered
          simp only [State.frameSent, State.enterSuccessor, State.setLnc_cve, hs]
          exact hentered
      | bundle => exact (h.oweAttempt hair (hsucc (by simp))).bundleOutcome (by simp) hq true

/-- The frame at the head with another attempt, below the limit. -/
theorem attemptCounted {k : TxClass} {f : TxFrame} {rest : List TxFrame} (h : Live owed s)
    (hq : s.lnc.frames k = f :: rest) (hlimit : f.attempts + 1 < k.limit) :
    Live owed (s.setLnc (s.lnc.setFrames k ({ f with attempts := f.attempts + 1 } :: rest))) := by
  have hframes := h.classes.frames k
  have hroom := h.classes.room k
  rw [hq] at hframes hroom
  have hclasses : ClassesOk s.cfg (s.lnc.setFrames k ({ f with attempts := f.attempts + 1 } :: rest))
      s.cve.successor := by
    refine h.classes.setFrames (fun x hx => ?_) hroom fun hk h0 => ?_
    · rcases List.mem_cons.1 hx with rfl | hx
      · exact { hframes f (by simp) with attempts := hlimit }
      · exact hframes x (by simp [hx])
    · subst hk
      rw [h.classes.slot h0] at hq
      cases hq
  refine h.setLnc hclasses ?_ (h.line.setFrames (by simp) fun _ _ => by simp [hq])
  cases k with
  | crane => exact h.bundles
  | handover => exact h.bundles
  | beacon => exact h.bundles
  | bundle =>
    have hgiven := h.bundles
    rw [show s.lnc.class3 = f :: rest from hq] at hgiven
    exact hgiven.replaceHead rfl rfl

/-- A collision. -/
theorem collide (h : Live owed s) (hn : .attempt ∉ owed) : Live owed s.collide := by
  unfold State.collide
  split
  case h_2 => exact h
  case h_1 k x hl =>
    split
    case h_2 hnil => exact absurd hnil (h.line.sent hn k x hl)
    case h_1 f rest hq =>
      have hair := Lnc.onAir_of_sending hl
      have hown := (h.classes.frames k f (by simp [hq])).own
      have hsub : rest.Sublist (s.lnc.frames k) := by simp [hq]
      dsimp only
      split
      case isTrue => exact (h.enterSuccessor hair).endAttempt hn
      case isFalse hnone =>
        have hsucc : s.cve.successor = none := by
          by_cases hk : k = .beacon
          · simpa [hk] using hnone
          · exact h.line.successor_eq_none (by simpa [Lnc.transmitting, hl] using hk)
        split
        case isTrue =>
          refine Live.endAttempt ?_ hn
          cases k with
          | crane => exact ((h.oweAttempt hair hsucc).attemptLeaves (by simp) (by simp) hsub).craneFrameLost f
          | handover =>
            exact ((h.oweAttempt hair hsucc).attemptLeaves (by simp) (by simp) hsub).handoverDiscarded hown.1
          | beacon => exact (h.oweAttempt hair hsucc).attemptLeaves (by simp) (by simp) hsub
          | bundle => exact (h.oweAttempt hair hsucc).bundleOutcome (by simp) hq false
        case isFalse hbelow =>
          have hcounted := h.attemptCounted hq (Nat.lt_of_not_le hbelow)
          exact (hcounted.attemptCut (k := k) (f := x) (by simpa using hl)).endAttempt hn

theorem uplinkAged (h : Live owed s) (place : Nat) : Live owed (s.uplinkAged place) := by
  unfold State.uplinkAged
  split
  · split
    · exact h.withdrawCrane _
    · exact h
  · exact h

theorem downlinkAged (h : Live owed s) (place : Nat) : Live owed (s.downlinkAged place) := by
  unfold State.downlinkAged
  split
  · split
    · exact h.withdrawCrane _
    · exact h
  · exact h

end Live

end Sys2Proof.Machine
end

