-- ==== Sys2Proof/Proofs/LiveReefers.lean ====
section
/-!
PROOFS. RFI: custody and holdback; what each operation keeps of `ReefersOk`, and so of `Live`.
-/

namespace Sys2Proof.Machine

variable {s : State}

/-! ### Custody records and holdback entries by tag -/

theorem State.custodyOf_eq_some (h : TableSorted Custody.key s.rfi.custody) {t : Tag} {r : Custody} :
    s.custodyOf t = some r ↔ r ∈ s.rfi.custody ∧ r.tag = t := by
  rw [State.custodyOf, tableFind_eq_some h]
  exact and_congr_right fun _ => BitVec.toNat_inj

theorem State.custodyOf_eq_none {t : Tag} : s.custodyOf t = none ↔ ∀ r ∈ s.rfi.custody, r.tag ≠ t := by
  rw [State.custodyOf, tableFind_eq_none]
  exact forall₂_congr fun _ _ => not_congr BitVec.toNat_inj

theorem State.heldOf_eq_some (h : TableSorted Held.key s.rfi.holdback) {t : Tag} {e : Held} :
    s.heldOf t = some e ↔ e ∈ s.rfi.holdback ∧ e.report.tag = t := by
  rw [State.heldOf, tableFind_eq_some h]
  exact and_congr_right fun _ => BitVec.toNat_inj

theorem State.heldOf_eq_none {t : Tag} : s.heldOf t = none ↔ ∀ e ∈ s.rfi.holdback, e.report.tag ≠ t := by
  rw [State.heldOf, tableFind_eq_none]
  exact forall₂_congr fun _ _ => not_congr BitVec.toNat_inj

/-- The entry that gives way to an ALERT is a ROUTINE one of the list. -/
theorem mem_of_routineVictim {l : List Held} {e : Held} (h : routineVictim l = some e) :
    e ∈ l ∧ e.report.cls = .routine := by
  have hall : ∀ x, routineVictim l = some x → x ∈ l ∧ x.report.cls = .routine := by
    unfold routineVictim
    refine List.foldlRecOn (motive := fun best => ∀ x : Held, best = some x → x ∈ l ∧ x.report.cls = .routine) _ _
      (fun x hx => by cases hx) fun best hbest d hd x hx => ?_
    have hmem : d ∈ l ∧ d.report.cls = .routine := by simpa using List.mem_filter.1 hd
    split at hx
    · cases hx
      exact hmem
    · split at hx
      · cases hx
        exact hmem
      · exact hbest x hx
  exact hall e h

/-! ### What RFI's operations keep (R124, R129, R131) -/

namespace ReefersOk

/-- No tag is held that is in custody. -/
theorem heldOf_eq_none {t : Tag} {r : Custody} (h : ReefersOk s) (hr : s.custodyOf t = some r) : s.heldOf t = none := by
  obtain ⟨hmem, rfl⟩ := (State.custodyOf_eq_some h.custodySorted).1 hr
  exact State.heldOf_eq_none.2 fun e he hte => h.disjoint r hmem e he hte.symm

theorem custodyOf_eq_none {t : Tag} {e : Held} (h : ReefersOk s) (he : s.heldOf t = some e) : s.custodyOf t = none := by
  obtain ⟨hmem, rfl⟩ := (State.heldOf_eq_some h.heldSorted).1 he
  exact State.custodyOf_eq_none.2 fun r hr => h.disjoint r hr e hmem

/-- A report of a CLAIMED segment is taken into custody, or its record updated. -/
theorem putCustody {r : Report} (h : ReefersOk s) (hclaimed : s.claimedHere r.segment = true) (htag : r.tag ≠ 0)
    (hroom : (s.custodyOf r.tag).isSome = true ∨ s.rfi.custody.length < 384) (hheld : s.heldOf r.tag = none) :
    ReefersOk (s.putCustody r) where
  custodySorted := tablePut_sorted h.custodySorted
  custodyCount := by
    have hlen := length_tablePut (x := custodyFrom r) h.custodySorted
    have hmost := h.custodyCount
    show (tablePut Custody.key (custodyFrom r) s.rfi.custody).length ≤ 384
    rw [hlen]
    rcases hroom with hfound | hroom
    · exact (if_pos hfound).trans_le hmost
    · split <;> omega
  custodyClaimed := fun x hx => by
    rcases (mem_tablePut h.custodySorted).1 hx with rfl | ⟨hx, -⟩
    · exact ⟨hclaimed, htag⟩
    · exact h.custodyClaimed x hx
  heldSorted := h.heldSorted
  heldCount := h.heldCount
  held := h.held
  disjoint := fun x hx e he => by
    rcases (mem_tablePut h.custodySorted).1 hx with rfl | ⟨hx, -⟩
    · exact (State.heldOf_eq_none.1 hheld e he).symm
    · exact h.disjoint x hx e he

theorem dropCustody (h : ReefersOk s) (t : Tag) : ReefersOk (s.dropCustody t) where
  custodySorted := tableErase_sorted h.custodySorted
  custodyCount := length_tableErase_le.trans h.custodyCount
  custodyClaimed := fun x hx => h.custodyClaimed x (mem_tableErase.1 hx).1
  heldSorted := h.heldSorted
  heldCount := h.heldCount
  held := h.held
  disjoint := fun x hx => h.disjoint x (mem_tableErase.1 hx).1

theorem dropHeld (h : ReefersOk s) (t : Tag) : ReefersOk (s.dropHeld t) where
  custodySorted := h.custodySorted
  custodyCount := h.custodyCount
  custodyClaimed := h.custodyClaimed
  heldSorted := tableErase_sorted h.heldSorted
  heldCount := length_tableErase_le.trans h.heldCount
  held := fun e he => h.held e (mem_tableErase.1 he).1
  disjoint := fun r hr e he => h.disjoint r hr e (mem_tableErase.1 he).1

/-- A report is held, where there is room or an entry of its tag. -/
theorem putHeld {e : Held} (h : ReefersOk s) (he : reportOk e.report)
    (hroom : (s.heldOf e.report.tag).isSome = true ∨ s.rfi.holdback.length < 32)
    (hcustody : s.custodyOf e.report.tag = none) :
    ReefersOk (s.setRfi { s.rfi with holdback := tablePut Held.key e s.rfi.holdback }) where
  custodySorted := h.custodySorted
  custodyCount := h.custodyCount
  custodyClaimed := h.custodyClaimed
  heldSorted := tablePut_sorted h.heldSorted
  heldCount := by
    have hlen := length_tablePut (x := e) h.heldSorted
    have hmost := h.heldCount
    show (tablePut Held.key e s.rfi.holdback).length ≤ 32
    rw [hlen]
    rcases hroom with hfound | hroom
    · exact (if_pos hfound).trans_le hmost
    · split <;> omega
  held := fun x hx => by
    rcases (mem_tablePut h.heldSorted).1 hx with rfl | ⟨hx, -⟩
    · exact he
    · exact h.held x hx
  disjoint := fun r hr x hx => by
    rcases (mem_tablePut h.heldSorted).1 hx with rfl | ⟨hx, -⟩
    · exact State.custodyOf_eq_none.1 hcustody r hr
    · exact h.disjoint r hr x hx

theorem enterHoldback {r : Report} (h : ReefersOk s) (hr : reportOk r) (hcustody : s.custodyOf r.tag = none)
    (margin : Byte) : ReefersOk (s.enterHoldback r margin) := by
  unfold State.enterHoldback
  dsimp only
  split
  case isTrue hroom => exact h.putHeld (e := s.heldEntry r margin) hr (.inr hroom) hcustody
  case isFalse =>
    split
    case h_1 v _ hv =>
      have hfound : s.heldOf v.report.tag = some v :=
        (State.heldOf_eq_some h.heldSorted).2 ⟨(mem_of_routineVictim hv).1, rfl⟩
      refine (h.dropHeld v.report.tag).putHeld (e := s.heldEntry r margin) hr (.inr ?_) hcustody
      exact lt_of_lt_of_le (length_tableErase_lt (Option.isSome_of_eq_some hfound)) h.heldCount
    case h_2 => exact h

theorem replaceHeld {old : Held} {r : Report} (h : ReefersOk s) (hr : reportOk r) (hold : s.heldOf r.tag = some old)
    (margin : Byte) : ReefersOk (s.replaceHeld old r margin) := by
  have hcustody := h.custodyOf_eq_none hold
  unfold State.replaceHeld
  dsimp only
  split
  · exact h.putHeld (e := s.heldEntry { r with cls := .alert } margin) hr (.inl (Option.isSome_of_eq_some hold)) hcustody
  · exact h.putHeld (e := s.heldEntry r margin) hr (.inl (Option.isSome_of_eq_some hold)) hcustody

theorem overheard (h : ReefersOk s) (r : Report) : ReefersOk (s.overheard r) := by
  unfold State.overheard
  split
  · split
    · exact h.dropCustody _
    · exact h
  · split
    · split
      · exact h
      · exact h.dropHeld _
    · exact h

theorem overheardBundle (h : ReefersOk s) (reports : List Report) : ReefersOk (s.overheardBundle reports) :=
  List.foldlRecOn reports _ h fun _ ht r _ => ht.overheard r

end ReefersOk

namespace Live

variable {owed : List Debt}

theorem claimedHere_of_rfiClaims {g : Byte} (h : s.rfiClaims g = true) : s.claimedHere g = true :=
  (Bool.and_eq_true_iff.1 h).2

theorem putCustody {r : Report} (h : Live owed s) (hclaims : s.rfiClaims r.segment = true) (hr : reportOk r)
    (hroom : (s.custodyOf r.tag).isSome = true ∨ s.rfi.custody.length < 384) (hheld : s.heldOf r.tag = none) :
    Live owed (s.putCustody r) :=
  h.setRfi (h.reefers.putCustody (claimedHere_of_rfiClaims hclaims) hr.1 hroom hheld)

theorem enterHoldback {r : Report} (h : Live owed s) (hr : reportOk r) (hcustody : s.custodyOf r.tag = none)
    (margin : Byte) : Live owed (s.enterHoldback r margin) := by
  have hreefers := h.reefers.enterHoldback hr hcustody margin
  obtain ⟨rfi, hs, -⟩ := s.enterHoldback_frame r margin
  rw [hs] at hreefers ⊢
  exact h.setRfi hreefers

theorem replaceHeld {old : Held} {r : Report} (h : Live owed s) (hr : reportOk r) (hold : s.heldOf r.tag = some old)
    (margin : Byte) : Live owed (s.replaceHeld old r margin) :=
  h.setRfi (h.reefers.replaceHeld hr hold margin)

end Live

/-- A flag set leaves what RFI holds. -/
theorem State.setFlag_rfi (s : State) (k : Sticky) : (s.setFlag k).rfi = s.rfi := by
  have hframe := congrArg State.rfi (s.setFlag_frame k)
  exact hframe

namespace Live

variable {owed : List Debt}

/-- A report is routed by Table 7-1. -/
theorem routeReport {r : Report} (h : Live owed s) (hr : reportOk r) (margin : Byte) :
    Live owed (s.routeReport r margin) := by
  unfold State.routeReport
  split
  case h_1 rec hrec =>
    have hheld := h.reefers.heldOf_eq_none hrec
    split
    · exact h
    · split
      case isTrue hclaims =>
        exact (h.putCustody hclaims hr (.inl (Option.isSome_of_eq_some hrec)) hheld).forward hr
      case isFalse =>
        have hdropped : Live owed (s.dropCustody r.tag) := h.setRfi (h.reefers.dropCustody _)
        refine hdropped.enterHoldback hr ?_ margin
        show tableFind Custody.key r.tag.toNat (tableErase Custody.key r.tag.toNat s.rfi.custody) = none
        rw [tableFind_erase h.reefers.custodySorted, if_pos rfl]
  case h_2 hnone =>
    split
    case h_1 old hold =>
      split
      · exact h
      · split
        · exact h.replaceHeld hr hold margin
        · rename_i hclaims
          have hclaims : s.rfiClaims r.segment = true := by simpa using hclaims
          split
          case isTrue hroom =>
            have hdropped : Live owed (s.dropHeld r.tag) := h.setRfi (h.reefers.dropHeld _)
            have hheld : (s.dropHeld r.tag).heldOf r.tag = none := by
              show tableFind Held.key r.tag.toNat (tableErase Held.key r.tag.toNat s.rfi.holdback) = none
              rw [tableFind_erase h.reefers.heldSorted, if_pos rfl]
            refine (hdropped.putCustody hclaims hr (.inr hroom) hheld).forward ?_
            split
            · exact hr
            · exact hr
          case isFalse =>
            refine (h.setFlag .custodyFull).replaceHeld (old := old) hr ?_ margin
            rw [State.heldOf, State.setFlag_rfi]
            exact hold
    case h_2 hheld =>
      split
      · exact h.enterHoldback hr hnone margin
      · rename_i hclaims
        have hclaims : s.rfiClaims r.segment = true := by simpa using hclaims
        split
        case isTrue hroom => exact (h.putCustody hclaims hr (.inr hroom) hheld).forward hr
        case isFalse =>
          refine (h.setFlag .custodyFull).enterHoldback hr ?_ margin
          rw [State.custodyOf, State.setFlag_rfi]
          exact hnone

theorem reeferIntake {g : Byte} (h : Live owed s) (hg : g.toNat ≤ 127) (tag : Tag) (seq : Byte)
    (setPoint supply : Word16) (alarm margin : Byte) :
    Live owed (s.reeferIntake tag g seq setPoint supply alarm margin) := by
  unfold State.reeferIntake
  split
  case isTrue => exact h
  case isFalse htaken =>
    exact h.routeReport ⟨fun h0 => htaken (.inl h0), hg, clampTemp_bounds _, clampTemp_bounds _⟩ margin

theorem holdbackDue (h : Live owed s) (t : Tag) : Live owed (s.holdbackDue t) := by
  unfold State.holdbackDue
  split
  case h_1 e he =>
    split
    · have hdropped : Live owed (s.dropHeld t) := h.setRfi (h.reefers.dropHeld _)
      exact hdropped.forward (h.reefers.held e ((State.heldOf_eq_some h.reefers.heldSorted).1 he).1)
    · exact h
  case h_2 => exact h

theorem overheardBundle (h : Live owed s) (reports : List Report) : Live owed (s.overheardBundle reports) := by
  have hreefers := h.reefers.overheardBundle reports
  obtain ⟨rfi, hs⟩ := State.overheardBundle_frame reports s
  rw [hs] at hreefers ⊢
  exact h.setRfi hreefers

end Live

end Sys2Proof.Machine
end

