-- ==== Sys2Proof/Proofs/LiveDispatch.lean ====
section
/-!
PROOFS. Received frames and messages, and the link's take; what each keeps of `Live`.
-/

namespace Sys2Proof.Machine

variable {s : State}

/-! ### The link's take (R166, R167, R172) -/

/-- A control message is taken; with the STATE REPORT go the occasions it tells. -/
theorem LinkOk.takeControl {m : ControlMsg} {rest : List ControlMsg} (h : LinkOk s) (hq : s.rlc.control = m :: rest) :
    LinkOk ((s.setRlc { s.rlc with control := rest }).takeControl m) := by
  have hcontrol := h.control
  have hreport := h.oneReport
  have howed := h.owed
  rw [hq] at hcontrol hreport howed
  have hrest : rest.length ≤ 8 := (Nat.le_succ _).trans hcontrol
  have hone : rest.countP ControlMsg.isReport ≤ 1 := (List.sublist_cons_self m rest).countP_le.trans hreport
  cases m with
  | stateReport =>
    exact { h with control := hrest, oneReport := hone, owed := fun _ hocc => absurd rfl hocc, running := h.running }
  | coverageNotice =>
    exact { h with
      control := hrest, oneReport := hone, running := h.running
      owed := fun hrun hocc => (List.mem_cons.1 (howed hrun hocc)).resolve_left (by simp) }
  | craneRedirect =>
    exact { h with
      control := hrest, oneReport := hone, running := h.running
      owed := fun hrun hocc => (List.mem_cons.1 (howed hrun hocc)).resolve_left (by simp) }
  | craneReject =>
    exact { h with
      control := hrest, oneReport := hone, running := h.running
      owed := fun hrun hocc => (List.mem_cons.1 (howed hrun hocc)).resolve_left (by simp) }

/-- Taking a control message changes RLC alone, and neither supervision nor the radio-lost condition. -/
theorem State.takeControl_frame (s : State) (m : ControlMsg) :
    ∃ rlc, s.takeControl m = s.setRlc rlc ∧ rlc.supervisionDue = s.rlc.supervisionDue ∧
      rlc.radioLost = s.rlc.radioLost := by
  cases m <;> exact ⟨_, rfl, rfl, rfl⟩

theorem LinkOk.takeTerminal (h : LinkOk s) (m : TermUplink) : LinkOk (s.takeTerminal m) :=
  { h with terminal := (List.drop_sublist _ _).length_le.trans h.terminal, running := h.running }

/-- The head that is taken is that of a queue (R166). -/
theorem State.head_of_downlinkHead {c : Context} {e : Downlink} (h : s.downlinkHead = some (c, e)) :
    c.queue.head? = some e := by
  have hall : ∀ x, s.downlinkHead = some x → x.1.queue.head? = some x.2 := by
    unfold State.downlinkHead
    refine List.foldlRecOn (motive := fun best => ∀ x : Context × Downlink, best = some x →
      x.1.queue.head? = some x.2) _ _ (fun x hx => by cases hx) fun best hbest d _ x hx => ?_
    split at hx
    case h_1 => exact hbest x hx
    case h_2 e he =>
      cases hx
      exact he
    case h_3 b e he =>
      split at hx
      · cases hx
        exact he
      · exact hbest x hx
  exact hall (c, e) h

theorem clampNat_bounds {lo hi : Nat} (h : lo ≤ hi) (x : Nat) : lo ≤ clampNat lo hi x ∧ clampNat lo hi x ≤ hi := by
  unfold clampNat
  omega

namespace Live

variable {owed : List Debt}

theorem takeControl {m : ControlMsg} {rest : List ControlMsg} (h : Live owed s) (hq : s.rlc.control = m :: rest) :
    Live owed ((s.setRlc { s.rlc with control := rest }).takeControl m) := by
  have hlink := h.link.takeControl hq
  obtain ⟨rlc, ht, hdue, hlost⟩ := (s.setRlc { s.rlc with control := rest }).takeControl_frame m
  rw [ht] at hlink ⊢
  exact h.editRlc hlink hdue hlost

theorem takeTerminal (h : Live owed s) (m : TermUplink) : Live owed (s.takeTerminal m) :=
  h.editRlc (h.link.takeTerminal m) rfl rfl

theorem takeDownlink {c : Context} (h : Live owed s) (hc : c ∈ s.cru.contexts) (e : Downlink) :
    Live owed (s.takeDownlink c e) := by
  have hfound : s.contextOf c.crane = some c := (tableFind_eq_some h.contexts.sorted).2 ⟨hc, rfl⟩
  have hok := h.contexts.each c hc
  have hput : Live owed (s.putContext { c with queue := c.queue.drop 1 }) :=
    h.changeContext hfound rfl { hok with
      queue := (List.drop_sublist _ _).length_le.trans hok.queue
      payload := fun x hx => hok.payload x (List.mem_of_mem_drop hx)
      pending := fun hn => by
        have hnil : c.queue = [] := hok.pending hn
        simp [hnil] }
  exact hput.setInProgress _

theorem takeCrane {t : State} (h : Live owed s) (ht : s.takeCrane = some t) : Live owed t := by
  unfold State.takeCrane at ht
  split at ht
  case h_1 hd =>
    cases ht
    split
    · exact h.takeTerminal _
    · exact h.takeDownlink (s.mem_of_downlinkHead hd) _
  case h_2 =>
    cases ht
    exact h.takeTerminal _
  case h_3 hd =>
    cases ht
    exact h.takeDownlink (s.mem_of_downlinkHead hd) _
  case h_4 => cases ht

theorem linkTake (h : Live owed s) : Live owed s.linkTake := by
  unfold State.linkTake
  split
  · exact h
  · split
    case h_1 hq => exact h.takeControl hq
    case h_2 =>
      split
      case h_1 ht => exact h.takeCrane ht
      case h_2 =>
        split
        case h_1 hq => exact h.takeDrain hq
        case h_2 => exact h

/-! ### Received frames (R67 to R70) -/

/-- A well-formed frame of another station goes to its owner. -/
theorem dispatchFrame {f : Frame} (h : Live owed s) (hf : frameWellFormed f = true) :
    Live owed (s.dispatchFrame f.sender f.body) := by
  obtain ⟨hsender, hbody⟩ := Bool.and_eq_true_iff.1 hf
  obtain ⟨sender, dest, body⟩ := f
  cases body with
  | beacon flags interval c items =>
    simp only [bodyWellFormed, Bool.and_eq_true, decide_eq_true_eq] at hbody
    exact h.beaconIntake (of_decide_eq_true hsender) hbody.1
  | craneUp => exact h.passUplink _ _ _ _ _ _
  | craneDown =>
    simp only [bodyWellFormed, Bool.and_eq_true] at hbody
    exact h.joinDownlink _ _ _ (of_decide_eq_true hbody.2)
  | offer =>
    simp only [bodyWellFormed, Bool.and_eq_true] at hbody
    obtain ⟨⟨hcrane, hsegment⟩, hperiod⟩ := hbody
    exact h.offerReceived hcrane (of_decide_eq_true hsegment) (of_decide_eq_true hperiod) _ _ _
  | take => exact h.takeReply hbody _ _
  | refuse => exact h.refuseReply _ _ _ _
  | commit => exact h.commitReceived _ _ _
  | cancel => exact h.cancelReceived _ _ _
  | bundle reports =>
    simp only [bodyWellFormed, Bool.and_eq_true, List.all_eq_true] at hbody
    exact (h.overheardBundle reports).gdsIntake fun r hr => of_decide_eq_true (hbody.2 r hr)

theorem checkedFrame (h : Live owed s) (f : Frame) : Live owed (s.checkedFrame f) := by
  unfold State.checkedFrame
  split
  case isTrue => exact h
  case isFalse hf =>
    split
    · exact h.setFlag _
    · split
      · exact h.dispatchFrame (by simpa using hf)
      · exact h

theorem checkedBytes (h : Live owed s) (bytes : List Byte) : Live owed (s.checkedBytes bytes) := by
  unfold State.checkedBytes
  split
  · exact h.checkedFrame _
  · exact h

theorem receive {take : State → State} (h : Live owed s) (htake : ∀ t, Live owed t → Live owed (take t)) :
    Live owed (s.receive take) := by
  unfold State.receive
  dsimp only
  split
  · exact (htake _ h.carrierAppears).carrierEnds
  · exact h.carrierAppears.carrierEnds

/-! ### Messages (R161 to R164) -/

/-- A well-formed message other than RESTART goes to its owners. -/
theorem dispatchMessage {m : Inbound} (h : Live owed s) (hlost : s.rlc.radioLost = false)
    (hm : inboundWellFormed m = true) (hrestart : m ≠ .restart) : Live owed (s.dispatchMessage m) := by
  cases m with
  | radioStatus => exact h.setShadows _
  | qualitySample => exact h.applySample _ _
  | reeferReport => exact (h.applySample _ _).reeferIntake (of_decide_eq_true hm) _ _ _ _ _ _
  | craneAttach =>
    simp only [inboundWellFormed, Bool.and_eq_true] at hm
    exact h.attach hlost (of_decide_eq_true hm.1) (of_decide_eq_true hm.2)
  | cranePosition =>
    simp only [inboundWellFormed, Bool.and_eq_true] at hm
    exact h.position (of_decide_eq_true hm.2)
  | craneDetach => exact h.detach _
  | craneUplink crane =>
    simp only [inboundWellFormed, Bool.and_eq_true] at hm
    unfold State.dispatchMessage
    dsimp only
    split
    · exact (h.applySample _ _).uplink hm.2 _
    · exact h.uplink hm.2 _
  | craneDownlink =>
    simp only [inboundWellFormed, Bool.and_eq_true] at hm
    unfold State.dispatchMessage
    dsimp only
    split
    · exact h.downlink hm.1 hm.2 _ _
    · exact h.setFlag _
  | drain =>
    unfold State.dispatchMessage
    dsimp only
    split
    · exact h.drainRequest (clampNat_bounds (by decide) _)
    · exact h.setFlag _
  | hold => exact h.setStopped true
  | resume => exact h.setStopped false
  | stateQuery => exact h.recordOccasion _
  | restart => exact absurd rfl hrestart

end Live

end Sys2Proof.Machine
end

