-- ==== Sys2Proof/Proofs/StillState.lean ====
section
/-!
PROOFS. Every step keeps every invariant: a part in LISTEN or RUN by `Live`, one in LOAD or HALT by `Still`, with the resets
and the end of LOAD between them; the statement SoundKept, and the statements that give its parts.
-/

namespace Sys2Proof.Machine

variable {s : State}

/-! ### A part in LOAD or HALT -/

/-- What holds of a part that is not running: its blocks hold their reset values but for STC and RLC. -/
structure Still (s : State) : Prop where
  start : StartOk s
  stopped : s.running = false
  link : LinkOk s
  supervision : s.rlc.supervisionDue = none

theorem Sound.still (h : Sound s) (hrun : s.running = false) : Still s :=
  ⟨h.start, hrun, h.link, by
    by_contra hdue
    simp [h.timers.supervision.1 hdue] at hrun⟩

namespace Still

theorem blocks (h : Still s) : s.blocksAtReset := (h.start.unloaded h.stopped).2

theorem notLost (h : Still s) : s.rlc.radioLost = false := by
  by_contra hlost
  have hrun := h.link.running (.inr (by simpa using hlost))
  simp [h.stopped] at hrun

theorem runState (h : Still s) : s.stc.runState = .load ∨ s.stc.runState = .halt := by
  have hrun := h.stopped
  cases hs : s.stc.runState <;> simp [State.running, hs] at hrun ⊢

/-- A part in LOAD or HALT has every invariant. -/
theorem sound (h : Still s) : Sound s := by
  obtain ⟨hcve, hnbt, hcru, hrfi, hbas, hgds, hlnc⟩ := h.blocks
  have hrun := h.stopped
  have hstate := h.runState
  have hloaded := (h.start.unloaded hrun).1
  have hframes (k : TxClass) : s.lnc.frames k = [] := by
    rw [hlnc]
    cases k <;> rfl
  exact {
    start := h.start
    segments := ⟨by simp [hrun], by simp [hcve, Cve.reset], by simp [hcve, Cve.reset],
      fun hl => by simp [hl] at hstate⟩
    claims := claimsOk_of_unclaimed (by simp [hcve, Cve.reset])
    cranes := ⟨by simp [hcru, Cru.reset], by simp [hcru, Cru.reset], fun _ => by simp [hcru, Cru.reset],
      by simp [hcru, Cru.reset]⟩
    neighbours := ⟨by simp [hnbt, Nbt.reset], by simp [hnbt, Nbt.reset], by simp [hnbt, Nbt.reset]⟩
    reefers := ⟨by simp [hrfi, Rfi.reset], by simp [hrfi, Rfi.reset], by simp [hrfi, Rfi.reset],
      by simp [hrfi, Rfi.reset], by simp [hrfi, Rfi.reset], by simp [hrfi, Rfi.reset], by simp [hrfi, Rfi.reset]⟩
    bundles := ⟨by simp [hrun], by simp [hbas, Bas.reset], by simp [hbas, Bas.reset], by simp [hbas, Bas.reset],
      by simp [hbas, Bas.reset], by simp [hbas, Bas.reset], by simp [hbas, Bas.reset]⟩
    delivery := ⟨by simp [hgds, Gds.reset], by simp [hgds, Gds.reset], by simp [hgds, Gds.reset],
      by simp [hgds, Gds.reset]⟩
    line :=
      { capacity := fun c => by simp [hframes]
        kinds := fun c f hf => by simp [hframes] at hf
        slot := fun _ => hframes .beacon
        candidate := by simp [hlnc, Lnc.reset]
        sent := by simp [hlnc, Lnc.reset]
        used := by simp [hrun]
        receiving := by simp [hlnc, Lnc.reset]
        generator := by simp [hrun]
        opened := by simp [hrun] }
    owners :=
      { successor := by simp [hcve, Cve.reset]
        bundles := by simp [hlnc, Lnc.reset]
        distinct := by simp [hlnc, Lnc.reset]
        count := by simp [hlnc, Lnc.reset, hbas, Bas.reset] }
    frames :=
      { given := fun c f hf => by simp [hframes] at hf
        successor := by simp [hcve, Cve.reset]
        onLine := by simp [hlnc, Lnc.reset] }
    link := h.link
    timers :=
      { beacon := by simp [hcve, Cve.reset, hrun]
        supervision := by simp [h.supervision, hrun]
        carrier := by simp [hlnc, Lnc.reset, hrun]
        recovery := by simp [hlnc, Lnc.reset]
        gap := by simp [hrun] }
    notices := by
      have hzero (k : Claim) : claimMap k [] = 0 := rfl
      simp [NoticesOk, hcve, Cve.reset, hzero] }

/-! ### What a command can change in LOAD and HALT -/

theorem setNow (h : Still s) (x : Micros) : Still (s.setNow x) :=
  ⟨{ h.start with }, h.stopped, h.link.congr rfl rfl rfl, h.supervision⟩

theorem setPending (h : Still s) (x : List Instr) : Still (s.setPending x) :=
  ⟨{ h.start with }, h.stopped, h.link.congr rfl rfl rfl, h.supervision⟩

/-- A change of the pins' levels, the reset input apart. -/
theorem setPins {x : Pins} (h : Still s) (hheld : x.resetHeld = s.pins.resetHeld) : Still (s.setPins x) :=
  ⟨{ h.start with
      loading := by simpa [hheld] using h.start.loading
      held := by simpa [hheld] using h.start.held }, h.stopped, h.link.congr rfl rfl rfl, h.supervision⟩

/-- A change of RLC, which is at reset while the reset input is held. -/
theorem setRlc {x : Rlc} (h : Still s) (hheld : s.pins.resetHeld = true → x = .reset) (hlink : LinkOk (s.setRlc x))
    (hdue : x.supervisionDue = none) : Still (s.setRlc x) :=
  ⟨{ h.start with
      held := fun hh => by
        obtain ⟨hload, hread, -⟩ := h.start.held hh
        exact ⟨hload, hread, hheld hh⟩ }, h.stopped, hlink, hdue⟩

/-! ### Resets (R182, R183) -/

/-- RLC at reset holds nothing (R175). -/
theorem linkOk_of_reset (hrlc : s.rlc = .reset) (hgds : s.gds = .reset) : LinkOk s := by
  constructor <;> simp [hrlc, hgds, Rlc.reset, Gds.reset]

theorem warmRestart (cause : ResetCause) (hheld : s.pins.resetHeld = false) : Still (s.warmRestart cause) where
  start :=
    { loaded := fun h => by cases h
      unloaded := fun _ => ⟨rfl, rfl, rfl, rfl, rfl, rfl, rfl, rfl⟩
      reading := fun _ => rfl
      loading := fun _ _ h => by cases h
      held := fun h => by
        have : s.pins.resetHeld = true := h
        simp [hheld] at this
      halted := by simp [State.warmRestart, State.enterLoad]
      warmCount := Nat.min_le_left _ _ }
  stopped := rfl
  link := linkOk_of_reset rfl rfl
  supervision := rfl

theorem coldReset (s : State) : Still s.coldReset := by
  unfold State.coldReset
  dsimp only
  split
  case isTrue hheld =>
    exact {
      start :=
        { loaded := fun h => by cases h
          unloaded := fun _ => ⟨rfl, rfl, rfl, rfl, rfl, rfl, rfl, rfl⟩
          reading := fun _ => rfl
          loading := fun _ h => by
            have : s.pins.resetHeld = false := h
            simp [hheld] at this
          held := fun _ => ⟨rfl, rfl, rfl⟩
          halted := by simp [State.enterLoad]
          warmCount := Nat.zero_le _ }
      stopped := rfl
      link := linkOk_of_reset rfl rfl
      supervision := rfl }
  case isFalse hheld =>
    exact {
      start :=
        { loaded := fun h => by cases h
          unloaded := fun _ => ⟨rfl, rfl, rfl, rfl, rfl, rfl, rfl, rfl⟩
          reading := fun _ => rfl
          loading := fun _ _ h => by cases h
          held := fun h => absurd h hheld
          halted := by simp [State.enterLoad]
          warmCount := Nat.zero_le _ }
      stopped := rfl
      link := linkOk_of_reset rfl rfl
      supervision := rfl }

/-! ### Messages (R161, R163, R167, R171, R173) -/

theorem released_of_halt (h : Still s) (hstate : s.stc.runState = .halt) : s.pins.resetHeld = false := by
  by_contra hheld
  obtain ⟨hload, -, -⟩ := h.start.held (by simpa using hheld)
  simp [hstate] at hload

theorem recordOccasion (h : Still s) (hheld : s.pins.resetHeld = false) (o : Occasion) : Still (s.recordOccasion o) := by
  have hlink := h.link.recordOccasion o
  rw [State.recordOccasion_frame] at hlink ⊢
  exact h.setRlc (by simp [hheld]) hlink h.supervision

theorem setFlag (h : Still s) (hheld : s.pins.resetHeld = false) (k : Sticky) : Still (s.setFlag k) := by
  unfold State.setFlag
  split
  · exact h
  · have hset : Still (s.setRlc { s.rlc with flags := s.rlc.flags.set k }) :=
      h.setRlc (by simp [hheld]) (h.link.setFlags _) h.supervision
    exact hset.recordOccasion hheld _

theorem setParser (h : Still s) (hheld : s.pins.resetHeld = false) (p : Parser) :
    Still (s.setRlc { s.rlc with parser := p }) :=
  h.setRlc (by simp [hheld]) (h.link.setRlc rfl rfl rfl h.link.owed h.link.running) h.supervision

/-- In LOAD and HALT only RESTART and STATE QUERY are taken (Table 9-1). -/
theorem validMessage (h : Still s) (hheld : s.pins.resetHeld = false) (m : Inbound) : Still (s.validMessage m) := by
  have hrun := h.stopped
  unfold State.validMessage
  split
  · exact warmRestart _ hheld
  · split
    case h_1 => exact h
    case h_2 =>
      split
      · exact h.recordOccasion hheld _
      · exact h
    case h_3 hs => simp [State.running, hs] at hrun
    case h_4 hs => simp [State.running, hs] at hrun

theorem validMessage_pins (h : Still s) (m : Inbound) : (s.validMessage m).pins = s.pins := by
  have hrun := h.stopped
  unfold State.validMessage
  split
  · rfl
  · split
    case h_1 => rfl
    case h_2 =>
      split
      · rw [State.recordOccasion_frame]
        rfl
      · rfl
    case h_3 hs => simp [State.running, hs] at hrun
    case h_4 hs => simp [State.running, hs] at hrun

theorem messageSent (h : Still s) : Still s.messageSent :=
  h.setRlc (fun hh => by
    obtain ⟨-, -, hrlc⟩ := h.start.held hh
    rw [hrlc]
    rfl) (h.link.setRlc rfl rfl rfl h.link.owed h.link.running) h.supervision

theorem parserPause (h : Still s) : Still s.parserPause := by
  unfold State.parserPause
  split
  case h_1 hp =>
    split
    · refine h.setParser ?_ _
      by_contra hh
      obtain ⟨-, -, hrlc⟩ := h.start.held (by simpa using hh)
      simp [hrlc, Rlc.reset] at hp
    · exact h
  case h_2 => exact h

/-! ### The line (R59, R71, R72) -/

theorem carrierAppears (h : Still s) : Still s.carrierAppears := by
  simp only [State.carrierAppears, h.stopped]
  split
  · exact h
  · exact h.setPins rfl

theorem carrierEnds (h : Still s) : Still s.carrierEnds := by
  simp only [State.carrierEnds, h.stopped]
  split
  · exact h
  · exact h.setPins rfl

theorem lineOpens (h : Still s) : Still s.lineOpens := by
  simp only [State.lineOpens, h.stopped]
  exact h.setPins rfl

theorem lineOk (h : Still s) : Still s.lineOk := by
  simp only [State.lineOk, h.stopped]
  split
  · exact h
  · exact h.setPins rfl

/-- LNC is inactive, so no frame is received (R55, R67). -/
theorem receive (h : Still s) (take : State → State) : Still (s.receive take) := by
  have happeared := h.carrierAppears
  simp only [State.receive, State.hears, happeared.stopped]
  exact happeared.carrierEnds

/-! ### Nothing else runs: no timer, no context, no frame -/

theorem idle_line (h : Still s) : s.lnc.line = .idle := by
  obtain ⟨-, -, -, -, -, -, hlnc⟩ := h.blocks
  rw [hlnc]
  rfl

theorem contextOf (h : Still s) (crane : Byte) : s.contextOf crane = none := by
  obtain ⟨-, -, hcru, -⟩ := h.blocks
  simp [State.contextOf, hcru, Cru.reset, tableFind]

theorem tableFind_entries (h : Still s) (k : Nat) : tableFind Neighbour.key k s.nbt.entries = none := by
  obtain ⟨-, hnbt, -⟩ := h.blocks
  simp [hnbt, Nbt.reset, tableFind]

theorem heldOf (h : Still s) (t : Tag) : s.heldOf t = none := by
  obtain ⟨-, -, -, hrfi, -⟩ := h.blocks
  simp [State.heldOf, hrfi, Rfi.reset, tableFind]

theorem supervisionExpiry_eq (h : Still s) : s.supervisionExpiry = s := by simp [State.supervisionExpiry, h.stopped]

theorem beaconExpiry_eq (h : Still s) : s.beaconExpiry = s := by simp [State.beaconExpiry, h.stopped]

theorem stalePoint_eq (h : Still s) (address : Byte) : s.stalePoint address = s := by
  simp [State.stalePoint, h.tableFind_entries]

theorem removalPoint_eq (h : Still s) (address : Byte) : s.removalPoint address = s := by
  simp [State.removalPoint, h.tableFind_entries]

theorem staleWatch_eq (h : Still s) (crane : Byte) : s.staleWatch crane = s := by
  simp [State.staleWatch, h.contextOf]

theorem downlinkDue_eq (h : Still s) (crane : Byte) (place : Nat) : s.downlinkDue crane place = s := by
  simp [State.downlinkDue, h.contextOf]

theorem offerGuard_eq (h : Still s) (crane : Byte) : s.offerGuard crane = s := by simp [State.offerGuard, h.contextOf]

theorem pendingGuard_eq (h : Still s) (crane : Byte) : s.pendingGuard crane = s := by
  simp [State.pendingGuard, h.contextOf]

theorem holdbackDue_eq (h : Still s) (t : Tag) : s.holdbackDue t = s := by simp [State.holdbackDue, h.heldOf]

theorem bundleWait_eq (h : Still s) : s.bundleWait = s := by
  obtain ⟨-, -, -, -, hbas, -⟩ := h.blocks
  simp [State.bundleWait, hbas, Bas.reset, dueBy]

theorem class0_eq_nil (h : Still s) : s.lnc.class0 = [] := by
  obtain ⟨-, -, -, -, -, -, hlnc⟩ := h.blocks
  rw [hlnc]
  rfl

theorem uplinkAged_eq (h : Still s) (place : Nat) : s.uplinkAged place = s := by
  simp [State.uplinkAged, h.class0_eq_nil]

theorem downlinkAged_eq (h : Still s) (place : Nat) : s.downlinkAged place = s := by
  simp [State.downlinkAged, h.class0_eq_nil]

theorem gapEnds_eq (h : Still s) : s.gapEnds = s := by simp [State.gapEnds, h.idle_line]

theorem transmissionDone_eq (h : Still s) : s.transmissionDone = s := by simp [State.transmissionDone, h.idle_line]

theorem collide_eq (h : Still s) : s.collide = s := by simp [State.collide, h.idle_line]

theorem jabber_eq (h : Still s) : s.jabber = s := by
  unfold State.jabber
  split <;> simp [h.stopped]

theorem faultEnds_eq (h : Still s) : s.faultEnds = s := by simp [State.faultEnds, h.stopped]

/-! ### The link's take (R166, R167) -/

theorem takeControl {m : ControlMsg} {rest : List ControlMsg} (h : Still s) (hheld : s.pins.resetHeld = false)
    (hq : s.rlc.control = m :: rest) : Still ((s.setRlc { s.rlc with control := rest }).takeControl m) := by
  have hlink := h.link.takeControl hq
  obtain ⟨rlc, ht, hdue, -⟩ := (s.setRlc { s.rlc with control := rest }).takeControl_frame m
  rw [ht] at hlink ⊢
  exact h.setRlc (x := rlc) (by simp [hheld]) hlink (hdue.trans h.supervision)

/-- No crane has a context, so the crane class gives a terminal uplink alone. -/
theorem takeCrane {t : State} (h : Still s) (hheld : s.pins.resetHeld = false) (ht : s.takeCrane = some t) : Still t := by
  obtain ⟨-, -, hcru, -⟩ := h.blocks
  have hnone : s.downlinkHead = none := by simp [State.downlinkHead, hcru, Cru.reset]
  unfold State.takeCrane at ht
  rw [hnone] at ht
  split at ht
  case h_1 hd => cases hd
  case h_2 m _ _ =>
    cases ht
    exact h.setRlc (by simp [hheld]) (h.link.takeTerminal m) h.supervision
  case h_3 hd => cases hd
  case h_4 => cases ht

/-- No drain is under way, so the drain queue gives a DRAIN END alone. -/
theorem takeDrain {m : DrainMsg} {rest : List DrainMsg} (h : Still s) (hheld : s.pins.resetHeld = false)
    (hq : s.rlc.drainQueue = m :: rest) : Still (s.takeDrain m) := by
  obtain ⟨-, -, -, -, -, hgds, -⟩ := h.blocks
  have hcount := h.link.oneRecord
  have hlen := h.link.drainQueue
  simp only [hq, List.countP_cons, List.length_cons, hgds, Gds.reset, if_true] at hcount hlen
  cases m with
  | record => simp [DrainMsg.isEnd] at hcount
  | ended count remaining status =>
    have hrest : s.rlc.drainQueue.drop 1 = rest := by simp [hq]
    refine h.setRlc (by simp [hheld]) ?_ h.supervision
    exact { h.link with
      drainQueue := by simpa [hrest] using (Nat.le_succ _).trans hlen
      oneRecord := by simpa [hrest, hgds, Gds.reset, DrainMsg.isEnd] using hcount
      running := h.link.running }

/-- RLC goes on in LOAD and HALT; while the reset input is held it has nothing to take (R167, R182). -/
theorem linkTake (h : Still s) : Still s.linkTake := by
  by_cases hheld : s.pins.resetHeld = true
  · obtain ⟨-, -, hrlc⟩ := h.start.held hheld
    have hcontexts : s.cru.contexts = [] := by
      obtain ⟨-, -, hcru, -⟩ := h.blocks
      simp [hcru, Cru.reset]
    have hself : s.linkTake = s := by
      simp [State.linkTake, State.takeCrane, State.downlinkHead, hcontexts, hrlc, Rlc.reset]
    rwa [hself]
  · have hreleased : s.pins.resetHeld = false := by simpa using hheld
    unfold State.linkTake
    split
    · exact h
    · split
      case h_1 hq => exact h.takeControl hreleased hq
      case h_2 =>
        split
        case h_1 ht => exact h.takeCrane hreleased ht
        case h_2 =>
          split
          case h_1 hq => exact h.takeDrain hreleased hq
          case h_2 => exact h

end Still

end Sys2Proof.Machine
end

