-- ==== Sys2Proof/Proofs/SoundKept.lean ====
section
/-!
PROOFS. The end of LOAD (R176 to R181), and every command on a part that is running or still; the statement SoundKept, and
the statements that give its parts.
-/

namespace Sys2Proof.Machine

variable {s : State}

/-! ### The settled configuration (R178, R179) -/

theorem settledCount_bounds (role : Role) (first count : Nat) :
    settledCount role first count ≤ 16 ∧ (first ≤ 127 → first + settledCount role first count ≤ 128) ∧
      (role = .edge → first ≤ 127 → 1 ≤ settledCount role first count) := by
  have hleast : (if role = .edge ∧ min 16 count = 0 then 1 else min 16 count) ≤ 16 ∧
      (role = .edge → 1 ≤ (if role = .edge ∧ min 16 count = 0 then 1 else min 16 count)) := by
    split
    case isTrue => exact ⟨by omega, fun _ => le_rfl⟩
    case isFalse hn => exact ⟨by omega, fun hr => by simp only [hr, true_and] at hn; omega⟩
  simp only [settledCount]
  generalize (if role = .edge ∧ min 16 count = 0 then 1 else min 16 count) = n at *
  obtain ⟨hn, hedge⟩ := hleast
  split
  · exact ⟨by omega, fun _ => by omega, fun _ _ => by omega⟩
  · exact ⟨hn, fun _ => by omega, fun hr _ => hedge hr⟩

/-- A record with a valid address gives a configuration in range. -/
theorem settingsOf_ok {r : Vector Byte 24} (h : senderInRange r[0] = true) : SettingsOk (settingsOf r) := by
  obtain ⟨hcount, hquay, hedge⟩ :=
    settledCount_bounds (roleOf (recordByte r 1)) (min 127 (recordByte r 2)) (recordByte r 3)
  have hfirst : min 127 (recordByte r 2) ≤ 127 := Nat.min_le_left _ _
  have hclamp {lo hi : Nat} (hle : lo ≤ hi) (x : Nat) := clampNat_bounds hle x
  have hfloor : recordByte r 7 ≤ 255 := Nat.le_of_lt_succ r[7].isLt
  have hbase := hclamp (lo := 5) (hi := 200) (by decide) (recordByte r 4)
  exact {
    address := of_decide_eq_true h
    homeCount := hcount
    onQuay := ⟨hfirst, hquay hfirst⟩
    edge := fun hr => hedge hr hfirst
    beaconBase := by
      simp only [settingsOf]
      omega
    qualShift := hclamp (by decide) _
    hyst := Nat.min_le_left _ _
    claimFloor := hfloor
    shadowCap := Nat.min_le_left _ _
    hbBase := hclamp (by decide) _
    bundleLimit := Nat.min_le_left _ _
    bundleWait := hclamp (by decide) _
    handoverGuard := hclamp (by decide) _
    craneStale := hclamp (by decide) _
    radioWatch := hclamp (by decide) _ }

/-! ### The end of LOAD -/

/-- An occasion that is recorded as LOAD ends brings the STATE REPORT for those recorded before it (R171). -/
theorem LinkOk.leaveLoad {t : State} (h : LinkOk s) (hstopped : s.rlc.stopped = false) (hlost : s.rlc.radioLost = false)
    (hgds : t.gds = s.gds) (hrlc : t.rlc = { s.rlc with supervisionDue := t.rlc.supervisionDue }) (o : Occasion) :
    LinkOk (t.recordOccasion o) := by
  have hbase : LinkOk (t.setRlc { t.rlc with occasions := .empty }) := by
    rw [hrlc]
    exact { h with
      oneRecord := by simpa [hgds] using h.oneRecord
      owed := fun _ hocc => absurd rfl hocc
      running := by simp [hstopped, hlost] }
  unfold State.recordOccasion
  dsimp only
  split
  case isTrue hnone =>
    have hqueued := hbase.queueControl (m := .stateReport) (.inr hnone.2)
    exact hqueued.setRlc rfl rfl rfl (fun _ _ => State.mem_queueControl _ _) hbase.running
  case isFalse hnone =>
    refine hbase.setRlc rfl rfl rfl (fun hrun _ => ?_) hbase.running
    by_contra hreport
    exact hnone ⟨hrun, hreport⟩

/-- The pins have no part in an occasion. -/
theorem State.recordOccasion_setPins (s : State) (p : Pins) (o : Occasion) :
    (s.setPins p).recordOccasion o = (s.recordOccasion o).setPins p := by
  by_cases h : s.stc.runState ≠ .load ∧ ControlMsg.stateReport ∉ s.rlc.control
  · have h' : (s.setPins p).stc.runState ≠ .load ∧ ControlMsg.stateReport ∉ (s.setPins p).rlc.control := h
    simp only [State.recordOccasion, if_pos h, if_pos h']
    rfl
  · have h' : ¬((s.setPins p).stc.runState ≠ .load ∧ ControlMsg.stateReport ∉ (s.setPins p).rlc.control) := h
    simp only [State.recordOccasion, if_neg h, if_neg h']
    rfl

namespace Still

theorem notStopped (h : Still s) : s.rlc.stopped = false := by
  by_contra hstopped
  have hrun := h.link.running (.inl (by simpa using hstopped))
  simp [h.stopped] at hrun

/-- A memory that is being read is read in LOAD, with the reset input inactive. -/
theorem of_reading (h : Still s) (hread : s.stc.readSince ≠ none) : s.pins.resetHeld = false := by
  by_contra hheld
  obtain ⟨-, hnone, -⟩ := h.start.held (by simpa using hheld)
  exact hread hnone

theorem enterHalt {reason : HaltReason} (h : Still s) (hheld : s.pins.resetHeld = false) (hreason : reason ≠ .none) :
    Still (s.enterHalt reason) := by
  have hlink := h.link.leaveLoad h.notStopped h.notLost
    (t := s.setStc { s.stc with runState := .halt, haltReason := reason, readSince := none }) rfl rfl .halt
  obtain ⟨hnone, hblocks⟩ := h.start.unloaded h.stopped
  unfold State.enterHalt
  rw [State.recordOccasion_frame] at hlink ⊢
  exact {
    start :=
      { loaded := fun hr => by cases hr
        unloaded := fun _ => ⟨hnone, hblocks⟩
        reading := fun hr => absurd rfl hr
        loading := fun hl => by cases hl
        held := fun hh => by
          have hh : s.pins.resetHeld = true := hh
          simp [hheld] at hh
        halted := by simpa using hreason
        warmCount := h.start.warmCount }
    stopped := rfl
    link := hlink
    supervision := h.supervision }

/-- The part as LISTEN begins, before the occasion is recorded. -/
def begun (s : State) (c : Settings) : State :=
  (s.setStc { s.stc with runState := .listen, loaded := some c, readSince := none }).startBlocks c

theorem begun_lnc (h : Still s) (c : Settings) : (begun s c).lnc = { Lnc.reset with
    generator := seedOf c.address, carrierSince := if s.pins.carrier then some s.now else none } := by
  obtain ⟨-, -, -, -, -, -, hlnc⟩ := h.blocks
  rw [← hlnc]
  rfl

theorem begun_successor (h : Still s) (c : Settings) : (begun s c).cve.successor = none := by
  obtain ⟨hcve, -⟩ := h.blocks
  simp [begun, State.startBlocks, hcve, Cve.reset]

/-- The buffers of the arrangement are EMPTY (R143). -/
theorem buffersOk_begun (h : Still s) (c : Settings) : BuffersOk c (begun s c).bas := by
  obtain ⟨-, -, -, -, hbas, -⟩ := h.blocks
  have hreset : (begun s c).bas = { Bas.reset with buffers := List.replicate (bufferCount c.bundleMode) .reset } := by
    rw [← hbas]
    rfl
  constructor <;> simp [hreset, Bas.reset, Buffer.reset, Buffer.ok, List.countP_replicate]

theorem seedOf_ne_zero {a : Byte} (h : 1 ≤ a.toNat) : seedOf a ≠ 0 := by
  intro h0
  have := congrArg BitVec.toNat h0
  simp [seedOf] at this
  omega

/-- No frame has been given; the generator holds the own address (R63). -/
theorem classesOk_begun {c : Settings} (h : Still s) (hc : SettingsOk c) :
    ClassesOk c (begun s c).lnc (begun s c).cve.successor := by
  rw [begun_lnc h, begun_successor h]
  have hframes (k : TxClass) : Lnc.frames { Lnc.reset with
      generator := seedOf c.address, carrierSince := if s.pins.carrier then some s.now else none } k = [] := by
    cases k <;> rfl
  exact {
    frames := fun k f hf => by simp [hframes] at hf
    room := fun k _ => by simp [hframes]
    slot := fun _ => hframes _
    onLine := fun k f hf => by cases hf
    successor := fun f hf => by cases hf
    generator := seedOf_ne_zero hc.address.1 }

/-- The line is IDLE with nothing to send; the carrier timer follows the pin (R71, log 7). -/
theorem lineKept_begun (h : Still s) (c : Settings) (hopen : s.pins.lineOpen = false) :
    LineKept [] s.pins (begun s c).lnc (begun s c).cve.successor := by
  rw [begun_lnc h, begun_successor h]
  constructor <;> simp [Lnc.reset, Lnc.onAir, Lnc.candidate, hopen]

/-- LISTEN begins on a line that is not reported open. -/
theorem listening {c : Settings} (h : Still s) (hload : s.stc.runState = .load) (hheld : s.pins.resetHeld = false)
    (hc : SettingsOk c) (hopen : s.pins.lineOpen = false) : Live [] ((begun s c).recordOccasion .listen) := by
  obtain ⟨hcve, hnbt, hcru, hrfi, hbas, hgds, hlnc⟩ := h.blocks
  have hcontexts : s.cru.contexts = [] := by simp [hcru, Cru.reset]
  have hhalt : s.stc.haltReason = .none := by
    by_contra hreason
    have := h.start.halted.1 hreason
    simp [hload] at this
  have hlink : LinkOk ((begun s c).recordOccasion .listen) :=
    h.link.leaveLoad (t := begun s c) h.notStopped h.notLost rfl rfl _
  have hquiet : LinkOk ((begun s c).setRlc { (begun s c).rlc with occasions := .empty }) :=
    { h.link with
      oneRecord := h.link.oneRecord
      owed := fun _ hocc => absurd rfl hocc
      running := fun _ => rfl }
  have hstarted : Live [] ((begun s c).setRlc { (begun s c).rlc with occasions := .empty }) := {
    active := ⟨.inl rfl, ⟨c, rfl, hc⟩, rfl, hhalt, h.start.warmCount, hheld⟩
    segments := ⟨fun _ => List.length_replicate, fun r hr => by
      rw [List.eq_of_mem_replicate hr]
      exact ⟨by decide, by decide, by decide⟩, Nat.zero_le _, fun _ => Nat.zero_lt_succ _⟩
    clock := ⟨by simp [begun, State.startBlocks], ⟨1, le_rfl, by decide, (Nat.mul_one _).symm⟩, by
      simp [begun, State.startBlocks]⟩
    contexts := by
      have hnil : (begun s c).cru.contexts = [] := hcontexts
      constructor <;> simp [hnil]
    reefers := by
      have hreset : (begun s c).rfi = .reset := hrfi
      constructor <;> simp [hreset, Rfi.reset]
    neighbours := by
      have hreset : (begun s c).nbt = .reset := hnbt
      constructor <;> simp [hreset, Nbt.reset]
    delivery := by
      have hreset : (begun s c).gds = .reset := hgds
      constructor <;> simp [hreset, Gds.reset]
    link := hquiet
    buffers := buffersOk_begun h c
    classes := classesOk_begun h hc
    bundles := by
      have hnone : (begun s c).lnc.class3 = [] := by rw [begun_lnc h]; rfl
      have hbuffers : (begun s c).bas.buffers = List.replicate (bufferCount c.bundleMode) .reset := rfl
      constructor <;> simp [hnone, hbuffers, Buffer.reset, Buffer.given, List.countP_replicate]
    line := lineKept_begun h c hopen
    moved := fun _ _ => by
      have hnone : s.bas.alertIntake = [] ∧ s.bas.routineIntake = [] := by simp [hbas, Bas.reset]
      exact hnone
    notices := fun _ => by
      have hmap (k : Claim) (hk : k ≠ .unclaimed) : claimMap k (List.replicate c.homeCount .reset) = 0 := by
        rw [claimMap_eq_zero k (by simpa using hc.homeCount)]
        intro r hr
        rw [List.eq_of_mem_replicate hr]
        exact fun h => hk h.symm
      exact ⟨by simp [begun, State.startBlocks, hcve, Cve.reset, hmap],
        by simp [begun, State.startBlocks, hcve, Cve.reset, hmap]⟩
    free := fun _ _ => hcontexts }
  rw [State.recordOccasion_frame] at hlink ⊢
  exact hstarted.editRlc hlink rfl rfl

theorem enterListen {c : Settings} (h : Still s) (hload : s.stc.runState = .load) (hheld : s.pins.resetHeld = false)
    (hc : SettingsOk c) : Live [] (s.enterListen c) := by
  have hclosed : Live [] ((begun (s.setPins { s.pins with lineOpen := false }) c).recordOccasion .listen) :=
    Still.listening (h.setPins rfl) hload hheld hc rfl
  unfold State.enterListen
  dsimp only
  split
  case isTrue =>
    have hpins : (((begun (s.setPins { s.pins with lineOpen := false }) c).recordOccasion .listen).setPins s.pins) =
        (begun s c).recordOccasion .listen := by
      rw [← State.recordOccasion_setPins]
      rfl
    have hair : ((begun (s.setPins { s.pins with lineOpen := false }) c).recordOccasion .listen).lnc.onAir = false := by
      rw [State.recordOccasion_frame]
      have hlnc := begun_lnc (s := s.setPins { s.pins with lineOpen := false }) (h.setPins rfl) c
      simp [hlnc, Lnc.onAir, Lnc.reset]
    have hfault := hclosed.enterFault (p := s.pins) hair (by rw [State.recordOccasion_frame]; rfl)
      (by rw [State.recordOccasion_frame]; rfl) .cut
    rwa [hpins] at hfault
  case isFalse hopen =>
    exact h.listening hload hheld hc (by simpa using hopen)

end Still

/-! ### Running or still -/

/-- What holds between the commands: all of `Live` in LISTEN and RUN, all of `Still` in LOAD and HALT. -/
def State.Kept (s : State) : Prop := Live [] s ∨ Still s

theorem State.kept_of_sound (h : Sound s) : s.Kept := by
  cases hrun : s.running
  · exact .inr (h.still hrun)
  · exact .inl (h.live hrun)

theorem State.Kept.sound (h : s.Kept) (hc : ClaimsOk s) : Sound s := by
  rcases h with h | h
  · exact h.sound hc
  · exact h.sound

/-- What holds between the commands while the reset input is inactive. -/
def State.Open (s : State) : Prop := Live [] s ∨ Still s ∧ s.pins.resetHeld = false

theorem State.Kept.open (h : s.Kept) (hheld : s.pins.resetHeld = false) : s.Open := h.imp_right fun h => ⟨h, hheld⟩

namespace Live

/-! ### Messages in LISTEN and RUN (R161 to R163, R169) -/

theorem validMessage {m : Inbound} (h : Live [] s) (hm : inboundWellFormed m = true) : (s.validMessage m).Open := by
  by_cases hrestart : m = .restart
  · subst hrestart
    exact .inr ⟨Still.warmRestart _ h.active.released, h.active.released⟩
  · have hdispatch : Live [] (s.supervisionStep.dispatchMessage m) := by
      obtain ⟨rlc, hs, hlost⟩ := s.supervisionStep_frame
      exact h.supervisionStep.dispatchMessage (by rw [hs]; exact hlost) hm hrestart
    have heq : s.validMessage m = s.supervisionStep.dispatchMessage m := by
      rcases h.active.runState with hs | hs <;> cases m <;> simp [State.validMessage, hs] at hrestart ⊢
    exact .inl (by rwa [heq])

theorem parserPause (h : Live [] s) : Live [] s.parserPause := by
  unfold State.parserPause
  split
  · split
    · exact h.setParser _
    · exact h
  · exact h

theorem supervisionExpiry (h : Live [] s) : s.supervisionExpiry.Kept := by
  unfold State.supervisionExpiry
  split
  · split
    · exact .inr (Still.warmRestart _ h.active.released)
    · exact .inl (h.beginRadioLost (by simp))
  · exact .inl h

/-- No memory is read in LISTEN and RUN. -/
theorem readComplete (h : Live [] s) (r : Vector Byte 24) : Live [] (s.readComplete r) := by
  simpa [State.readComplete, h.active.notReading] using h

theorem readyTimeout (h : Live [] s) : Live [] s.readyTimeout := by
  simpa [State.readyTimeout, h.active.notReading, dueBy] using h

end Live

namespace Still

theorem readComplete (h : Still s) (r : Vector Byte 24) : (s.readComplete r).Kept := by
  unfold State.readComplete
  split
  case isTrue => exact .inr h
  case isFalse hread =>
    have hheld := h.of_reading hread
    split
    · exact .inr (h.enterHalt hheld (by decide))
    · split
      case isTrue haddress => exact .inl (h.enterListen (h.start.reading hread) hheld (settingsOf_ok haddress))
      case isFalse => exact .inr (h.enterHalt hheld (by decide))

theorem readyTimeout (h : Still s) : Still s.readyTimeout := by
  unfold State.readyTimeout
  split
  case isTrue due =>
    refine h.enterHalt (h.of_reading fun hnone => ?_) (by decide)
    simp [hnone, dueBy] at due
  case isFalse => exact h

end Still

namespace State.Kept

theorem setNow (h : s.Kept) (x : Micros) : (s.setNow x).Kept := h.imp (·.setNow x) (·.setNow x)

theorem setPending (h : s.Kept) (x : List Instr) : (s.setPending x).Kept := h.imp (·.setPending x) (·.setPending x)

end State.Kept

/-- A message that the checks accept is well formed (R162). -/
theorem wellFormed_of_readMessage {bytes : List Byte} {m : Inbound} (h : readMessage bytes = .good m) :
    inboundWellFormed m = true := by
  unfold readMessage at h
  split at h
  · split at h
    · split at h
      · split at h
        · split at h
          case isTrue hm =>
            cases h
            exact hm
          case isFalse => cases h
        · cases h
      · cases h
    · cases h
  · cases h

namespace State.Open

theorem kept (h : s.Open) : s.Kept := h.imp_right And.left

theorem setFlag (h : s.Open) (k : Sticky) : (s.setFlag k).Open := by
  rcases h with h | ⟨h, hheld⟩
  · exact .inl (h.setFlag k)
  · have hpins : (s.setFlag k).pins = s.pins := by
      have hframe := congrArg State.pins (s.setFlag_frame k)
      rwa [State.setRlc_pins] at hframe
    exact .inr ⟨h.setFlag hheld k, by rwa [hpins]⟩

theorem setParser (h : s.Open) (p : Parser) : (s.setRlc { s.rlc with parser := p }).Open :=
  h.imp (·.setParser p) fun ⟨h, hheld⟩ => ⟨h.setParser hheld p, hheld⟩

theorem validMessage {m : Inbound} (h : s.Open) (hm : inboundWellFormed m = true) : (s.validMessage m).Open := by
  rcases h with h | ⟨h, hheld⟩
  · exact h.validMessage hm
  · exact .inr ⟨h.validMessage hheld m, by rwa [h.validMessage_pins]⟩

theorem messageArrives (h : s.Open) (m : Inbound) : (s.messageArrives m).Open := by
  unfold State.messageArrives State.checkedMessage
  split
  · exact h
  · split
    case isTrue hm => exact (h.setParser .waiting).validMessage hm
    case isFalse => exact (h.setParser .waiting).setFlag _

theorem completeMessage (h : s.Open) (bytes : List Byte) : (s.completeMessage bytes).Open := by
  unfold State.completeMessage
  split
  case h_1 => exact h
  case h_2 => exact h.setFlag _
  case h_3 hm => exact h.validMessage (wellFormed_of_readMessage hm)

theorem receiveByte (h : s.Open) (b : Byte) : (s.receiveByte b).Open := by
  unfold State.receiveByte
  dsimp only
  split
  · exact (h.setParser (parseByte s.now s.rlc.parser b).1).completeMessage _
  · exact h.setParser _

end State.Open

namespace State.Kept

/-- While the reset input is held no message is taken (R182). -/
theorem messageArrives (h : s.Kept) (m : Inbound) : (s.messageArrives m).Kept := by
  by_cases hheld : s.pins.resetHeld = true
  · rwa [State.messageArrives, if_pos hheld]
  · exact ((h.open (by simpa using hheld)).messageArrives m).kept

theorem receiveBytes (h : s.Kept) (bytes : List Byte) : (s.receiveBytes bytes).Kept := by
  unfold State.receiveBytes
  split
  case isTrue => exact h
  case isFalse hheld =>
    exact (List.foldlRecOn (motive := State.Open) bytes _ (h.open (by simpa using hheld)) fun _ ht b _ => ht.receiveByte b).kept

theorem receive {take : State → State} (h : s.Kept) (htake : ∀ t, Live [] t → Live [] (take t)) :
    (s.receive take).Kept :=
  h.imp (·.receive htake) (·.receive take)

/-! ### Every command -/

/-- What a command does before the link's take. -/
theorem exec_done (h : s.Kept) (c : Instr) : ∃ u, exec c s = done u ∧ u.Kept := by
  have ha : ∀ dt, (s.advance dt).Kept := fun dt => h.setNow (s.now + dt)
  cases c with
  | powerUp => exact ⟨_, rfl, .inr (Still.coldReset _)⟩
  | resetInputAsserted => exact ⟨_, rfl, .inr (Still.coldReset _)⟩
  | resetInputReleased => exact ⟨_, rfl, .inr (Still.coldReset _)⟩
  | configReadComplete dt record => exact ⟨_, rfl, (ha dt).elim (fun h => .inl (h.readComplete record)) (·.readComplete record)⟩
  | configReadyTimeout dt => exact ⟨_, rfl, (ha dt).imp (·.readyTimeout) (·.readyTimeout)⟩
  | parserTimeout dt => exact ⟨_, rfl, (ha dt).imp (·.parserPause) (·.parserPause)⟩
  | inboundMessageRejected dt bytes => exact ⟨_, rfl, (ha dt).receiveBytes bytes⟩
  | radioStatus dt | qualitySample dt | reeferReport dt | craneAttach dt | cranePosition dt | craneDetach dt
  | craneUplink dt | craneDownlink dt | drain dt | hold dt | resume dt | stateQuery dt | restart dt =>
    exact ⟨_, rfl, (ha dt).messageArrives _⟩
  | outboundMessageSent dt => exact ⟨_, rfl, (ha dt).imp (·.setInProgress none) (·.messageSent)⟩
  | supervisionTimerExpiry dt =>
    exact ⟨_, rfl, (ha dt).elim (·.supervisionExpiry) fun h => .inr (by rwa [h.supervisionExpiry_eq])⟩
  | beaconTimerExpiry dt =>
    exact ⟨_, rfl, (ha dt).imp (·.beaconExpiry (by simp)) fun h => by rwa [h.beaconExpiry_eq]⟩
  | neighbourStalePoint dt => exact ⟨_, rfl, (ha dt).imp (·.stalePoint _) fun h => by rwa [h.stalePoint_eq]⟩
  | neighbourRemovalPoint dt => exact ⟨_, rfl, (ha dt).imp (·.removalPoint _) fun h => by rwa [h.removalPoint_eq]⟩
  | craneStaleExpiry dt => exact ⟨_, rfl, (ha dt).imp (·.staleWatch _) fun h => by rwa [h.staleWatch_eq]⟩
  | craneUpAgeLimit dt => exact ⟨_, rfl, (ha dt).imp (·.uplinkAged _) fun h => by rwa [h.uplinkAged_eq]⟩
  | craneDownRemainingZero dt => exact ⟨_, rfl, (ha dt).imp (·.downlinkAged _) fun h => by rwa [h.downlinkAged_eq]⟩
  | downlinkDeadline dt => exact ⟨_, rfl, (ha dt).imp (·.downlinkDue _ _) fun h => by rwa [h.downlinkDue_eq]⟩
  | offerGuardExpiry dt => exact ⟨_, rfl, (ha dt).imp (·.offerGuard _) fun h => by rwa [h.offerGuard_eq]⟩
  | pendingGuardExpiry dt => exact ⟨_, rfl, (ha dt).imp (·.pendingGuard _) fun h => by rwa [h.pendingGuard_eq]⟩
  | holdbackExpiry dt => exact ⟨_, rfl, (ha dt).imp (·.holdbackDue _) fun h => by rwa [h.holdbackDue_eq]⟩
  | bundleWaitExpiry dt => exact ⟨_, rfl, (ha dt).imp (·.bundleWait) fun h => by rwa [h.bundleWait_eq]⟩
  | deferGapEnd dt => exact ⟨_, rfl, (ha dt).imp (·.gapEnds (by simp)) fun h => by rwa [h.gapEnds_eq]⟩
  | transmissionComplete dt =>
    exact ⟨_, rfl, (ha dt).imp (·.transmissionDone (by simp)) fun h => by rwa [h.transmissionDone_eq]⟩
  | collision dt => exact ⟨_, rfl, (ha dt).imp (·.collide (by simp)) fun h => by rwa [h.collide_eq]⟩
  | carrierAppears dt => exact ⟨_, rfl, (ha dt).imp (·.carrierAppears) (·.carrierAppears)⟩
  | jabberDetected dt => exact ⟨_, rfl, (ha dt).imp (·.jabber) fun h => by rwa [h.jabber_eq]⟩
  | lineOpenReported dt => exact ⟨_, rfl, (ha dt).imp (·.lineOpens (by simp)) (·.lineOpens)⟩
  | faultRecoveryExpiry dt => exact ⟨_, rfl, (ha dt).imp (·.faultEnds) fun h => by rwa [h.faultEnds_eq]⟩
  | receivedFrameDiscarded dt bytes => exact ⟨_, rfl, (ha dt).receive fun _ ht => ht.checkedBytes bytes⟩
  | addressClash dt => exact ⟨_, rfl, (ha dt).receive fun _ ht => ht.setFlag _⟩
  | beacon dt | craneUp dt | craneDown dt | offer dt | take dt | refuse dt | commit dt | cancel dt | bundle dt =>
    exact ⟨_, rfl, (ha dt).receive fun _ ht => ht.checkedFrame _⟩
  | carrierEnds dt => exact ⟨_, rfl, (ha dt).imp (·.carrierEnds) (·.carrierEnds)⟩
  | lineConditionOk dt => exact ⟨_, rfl, (ha dt).imp (·.lineOk) (·.lineOk)⟩

theorem linkTake (h : s.Kept) : s.linkTake.Kept := h.imp (·.linkTake) (·.linkTake)

theorem of_exec {t : State} (h : s.Kept) {c : Instr} (ht : exec c s = .next t) : t.Kept := by
  obtain ⟨u, hu, hkept⟩ := h.exec_done c
  rw [hu] at ht
  cases ht
  exact hkept.linkTake

/-- A step takes the front command; an idle one changes nothing (log 3). -/
theorem of_step {t : State} (h : s.Kept) (ht : step s = .next t) : t.Kept := by
  unfold step at ht
  split at ht
  case h_1 => exact (h.setPending _).of_exec ht
  case h_2 =>
    cases ht
    exact h

end State.Kept

/-- Every invariant after a step: R35 by `Tracked`, the others by `State.Kept`. -/
theorem Sound.of_step {t : State} (h : Sound s) (ht : step s = .next t) : Sound t :=
  ((State.kept_of_sound h).of_step ht).sound (Tracked.of_step h ht).toClaimsOk

/-- Settles O4: a running part and a still one each keep their invariants, and resets and the end of LOAD lead from one to
the other. -/
theorem soundKept : Obligations.SoundKept := fun _ _ h ht => h.of_step ht

/-- Settles O5, as parts of `Sound`. -/
theorem startKept : Obligations.StartKept := fun _ _ h ht => ⟨(h.of_step ht).start, (h.of_step ht).timers⟩

/-- Settles O6, as parts of `Sound`. -/
theorem segmentsKept : Obligations.SegmentsKept := fun _ _ h ht => ⟨(h.of_step ht).segments, (h.of_step ht).notices⟩

/-- Settles O8, as parts of `Sound`. -/
theorem tablesKept : Obligations.TablesKept := fun _ _ h ht => ⟨(h.of_step ht).cranes, (h.of_step ht).neighbours⟩

/-- Settles O9, as a part of `Sound`. -/
theorem reefersKept : Obligations.ReefersKept := fun _ _ h ht => (h.of_step ht).reefers

/-- Settles O10, as a part of `Sound`. -/
theorem bundlesKept : Obligations.BundlesKept := fun _ _ h ht => (h.of_step ht).bundles

/-- Settles O11, as parts of `Sound`. -/
theorem deliveryKept : Obligations.DeliveryKept := fun _ _ h ht => ⟨(h.of_step ht).delivery, (h.of_step ht).link⟩

/-- Settles O12, as parts of `Sound`. -/
theorem lineKept : Obligations.LineKept := fun _ _ h ht => ⟨(h.of_step ht).line, (h.of_step ht).owners⟩

/-- Settles O13, as a part of `Sound`. -/
theorem framesKept : Obligations.FramesKept := fun _ _ h ht => (h.of_step ht).frames

end Sys2Proof.Machine
end

