-- ==== Sys2Proof/Proofs/StartAndResets.lean ====
section
/-!
PROOFS. The step, power-up, the reset input, the warm restart and the end of LOAD (R176 to R183): the statements
StepRunsFrontCommand, SoundAtReset, ColdReset, WarmRestart, UnusableRecordHalts, EntersListen and SettingsFromRecord.
-/

namespace Sys2Proof.Machine

variable {s : State}

/-- Settles O1: `step` is defined so. -/
theorem stepRunsFrontCommand : Obligations.StepRunsFrontCommand := fun c rest s =>
  ⟨fun h => by simp [step, h], fun h => by simp [step, h]⟩

/-- Settles O3: power-up is a cold reset, which leaves the part still. -/
theorem soundAtReset : Obligations.SoundAtReset := by
  have hreset : State.reset = State.reset.coldReset := rfl
  rw [Obligations.SoundAtReset, hreset]
  exact (Still.coldReset _).sound

/-! ### Resets (R182, R183) -/

/-- RLC at reset has nothing to take. -/
theorem linkTake_of_reset (hcru : s.cru = .reset) (hrlc : s.rlc = .reset) : s.linkTake = s := by
  simp [State.linkTake, State.takeCrane, State.downlinkHead, hcru, hrlc, Cru.reset, Rlc.reset]

theorem coldReset_eq (s : State) : s.coldReset = s.resetBlocks.setStc { Stc.reset with
    readSince := if s.pins.resetHeld then none else some s.now } := by
  unfold State.coldReset
  dsimp only
  split <;> rfl

theorem linkTake_coldReset (s : State) : s.coldReset.linkTake = s.coldReset := by
  rw [coldReset_eq]
  exact linkTake_of_reset rfl rfl

namespace Still

theorem carrierAppears_eq (h : Still s) : ∃ p, s.carrierAppears = s.setPins p := by
  simp only [State.carrierAppears, h.stopped]
  split
  · exact ⟨s.pins, rfl⟩
  · exact ⟨_, rfl⟩

theorem carrierEnds_eq (h : Still s) : ∃ p, s.carrierEnds = s.setPins p := by
  simp only [State.carrierEnds, h.stopped]
  split
  · exact ⟨s.pins, rfl⟩
  · exact ⟨_, rfl⟩

theorem lineOpens_eq (h : Still s) : ∃ p, s.lineOpens = s.setPins p := by
  simp only [State.lineOpens, h.stopped]
  exact ⟨_, rfl⟩

theorem lineOk_eq (h : Still s) : ∃ p, s.lineOk = s.setPins p := by
  simp only [State.lineOk, h.stopped]
  split
  · exact ⟨s.pins, rfl⟩
  · exact ⟨_, rfl⟩

theorem receive_eq (h : Still s) (take : State → State) : ∃ p, s.receive take = s.setPins p := by
  have happeared := h.carrierAppears
  obtain ⟨p, hp⟩ := h.carrierAppears_eq
  obtain ⟨q, hq⟩ := happeared.carrierEnds_eq
  simp only [State.receive, State.hears, happeared.stopped]
  exact ⟨q, by rw [hp] at hq; exact (congrArg State.carrierEnds hp).trans hq⟩

/-- A command other than a reset, while the reset input is held: time passes and the pins' levels are followed (R182,
log 14). -/
theorem exec_held (h : Still s) (hheld : s.pins.resetHeld = true) (c : Instr)
    (hc : ∀ dt, c ≠ .powerUp dt ∧ c ≠ .resetInputAsserted dt ∧ c ≠ .resetInputReleased dt) :
    ∃ n p, exec c s = done ((s.setNow n).setPins p) := by
  obtain ⟨-, hread, hrlc⟩ := h.start.held hheld
  have ha : ∀ dt, Still (s.advance dt) := fun dt => h.setNow (s.now + dt)
  have same {u : State} {dt : Micros} (hu : u = s.advance dt) : ∃ n p, done u = done ((s.setNow n).setPins p) :=
    ⟨s.now + dt, s.pins, congrArg done hu⟩
  have pins {u : State} {dt : Micros} (hu : ∃ p, u = (s.advance dt).setPins p) :
      ∃ n p, done u = done ((s.setNow n).setPins p) := by
    obtain ⟨p, hp⟩ := hu
    exact ⟨s.now + dt, p, congrArg done hp⟩
  have nomessage (dt : Micros) (m : Inbound) : (s.advance dt).messageArrives m = s.advance dt := if_pos hheld
  cases c with
  | powerUp dt => exact absurd rfl (hc dt).1
  | resetInputAsserted dt => exact absurd rfl (hc dt).2.1
  | resetInputReleased dt => exact absurd rfl (hc dt).2.2
  | configReadComplete dt record => exact same (dt := dt) (by simp [State.readComplete, hread])
  | configReadyTimeout dt => exact same (dt := dt) (by simp [State.readyTimeout, hread, dueBy])
  | parserTimeout dt => exact same (dt := dt) (by simp [State.parserPause, hrlc, Rlc.reset])
  | inboundMessageRejected dt bytes => exact same (dt := dt) (if_pos hheld)
  | radioStatus dt | qualitySample dt | reeferReport dt | craneAttach dt | cranePosition dt | craneDetach dt
  | craneUplink dt | craneDownlink dt | drain dt | hold dt | resume dt | stateQuery dt | restart dt =>
    exact same (nomessage dt _)
  | outboundMessageSent dt =>
    have hnone : { s.rlc with inProgress := none } = s.rlc := by rw [hrlc]; rfl
    exact same (dt := dt) (congrArg (s.advance dt).setRlc hnone)
  | supervisionTimerExpiry dt => exact same (ha dt).supervisionExpiry_eq
  | beaconTimerExpiry dt => exact same (ha dt).beaconExpiry_eq
  | neighbourStalePoint dt => exact same ((ha dt).stalePoint_eq _)
  | neighbourRemovalPoint dt => exact same ((ha dt).removalPoint_eq _)
  | craneStaleExpiry dt => exact same ((ha dt).staleWatch_eq _)
  | craneUpAgeLimit dt => exact same ((ha dt).uplinkAged_eq _)
  | craneDownRemainingZero dt => exact same ((ha dt).downlinkAged_eq _)
  | downlinkDeadline dt => exact same ((ha dt).downlinkDue_eq _ _)
  | offerGuardExpiry dt => exact same ((ha dt).offerGuard_eq _)
  | pendingGuardExpiry dt => exact same ((ha dt).pendingGuard_eq _)
  | holdbackExpiry dt => exact same ((ha dt).holdbackDue_eq _)
  | bundleWaitExpiry dt => exact same (ha dt).bundleWait_eq
  | deferGapEnd dt => exact same (ha dt).gapEnds_eq
  | transmissionComplete dt => exact same (ha dt).transmissionDone_eq
  | collision dt => exact same (ha dt).collide_eq
  | jabberDetected dt => exact same (ha dt).jabber_eq
  | faultRecoveryExpiry dt => exact same (ha dt).faultEnds_eq
  | carrierAppears dt => exact pins (ha dt).carrierAppears_eq
  | carrierEnds dt => exact pins (ha dt).carrierEnds_eq
  | lineOpenReported dt => exact pins (ha dt).lineOpens_eq
  | lineConditionOk dt => exact pins (ha dt).lineOk_eq
  | receivedFrameDiscarded dt | addressClash dt | beacon dt | craneUp dt | craneDown dt | offer dt | take dt | refuse dt
  | commit dt | cancel dt | bundle dt =>
    exact pins ((ha dt).receive_eq _)

end Still

/-- Settles O17: a cold reset has the values of `State.reset`, and a part held in reset is still, with nothing of RLC to go
on. -/
theorem coldReset : Obligations.ColdReset := by
  refine ⟨fun dt s => ?_, fun c s t h hheld ht hc => ?_⟩
  · have hdone (u : State) : done u.coldReset = .next u.coldReset := congrArg _ (linkTake_coldReset u)
    exact ⟨(hdone _).trans (congrArg _ (coldReset_eq _)), (hdone _).trans (congrArg _ (coldReset_eq _)),
      (hdone _).trans (congrArg _ (coldReset_eq _))⟩
  · have hrun : s.running = false := by
      obtain ⟨hload, -, -⟩ := h.start.held hheld
      simp [State.running, hload]
    have hstill := h.still hrun
    obtain ⟨n, p, hn⟩ := hstill.exec_held hheld c hc
    obtain ⟨-, -, hrlc⟩ := h.start.held hheld
    obtain ⟨-, -, hcru, -⟩ := hstill.blocks
    have hidle : ((s.setNow n).setPins p).linkTake = (s.setNow n).setPins p := linkTake_of_reset hcru hrlc
    rw [hn, done, hidle] at ht
    cases ht
    rfl

theorem warmRestart_eq (s : State) (cause : ResetCause) : s.warmRestart cause = s.resetBlocks.setStc { Stc.reset with
    cause := cause, warmCount := if s.stc.warmCount < 15 then s.stc.warmCount + 1 else 15, readSince := some s.now } := by
  have hcount : min 15 (s.stc.warmCount + 1) = if s.stc.warmCount < 15 then s.stc.warmCount + 1 else 15 := by
    split <;> omega
  rw [State.warmRestart, hcount]
  rfl

theorem linkTake_warmRestart (s : State) (cause : ResetCause) : (s.warmRestart cause).linkTake = s.warmRestart cause :=
  linkTake_of_reset rfl rfl

/-- Settles O18: a warm restart has the values of `State.reset` but for the cause and the count. -/
theorem warmRestart : Obligations.WarmRestart := by
  intro dt s hheld
  have hdone (u : State) (cause : ResetCause) : done (u.warmRestart cause) = .next (u.warmRestart cause) :=
    congrArg _ (linkTake_warmRestart u cause)
  refine ⟨?_, fun hrun hlost hdue => ?_⟩
  · have harrives : (s.advance dt).messageArrives .restart =
        ((s.advance dt).setRlc { s.rlc with parser := .waiting }).warmRestart .request := by
      simp only [State.messageArrives, State.advance_eq, State.setNow_pins, hheld]
      rfl
    exact (congrArg done harrives).trans ((hdone _ _).trans (congrArg _ (warmRestart_eq _ _)))
  · have hexpires : (s.advance dt).supervisionExpiry = (s.advance dt).warmRestart .supervision := by
      have hrun' : (s.advance dt).running = true := hrun
      have hdue' : dueBy (s.advance dt).now (s.advance dt).rlc.supervisionDue = true := dueBy_eq_true.2 hdue
      have hlost' : (s.advance dt).rlc.radioLost = true := hlost
      rw [State.supervisionExpiry, hrun', hdue', hlost']
      rfl
    exact (congrArg done hexpires).trans ((hdone _ _).trans (congrArg _ (warmRestart_eq _ _)))

/-! ### The end of LOAD (R176 to R181) -/

theorem recordAbsent_iff {r : Vector Byte 24} : recordAbsent r = true ↔ ∀ i : Fin 24, r[i] = 0xFF := by
  simp only [recordAbsent, List.all_eq_true, decide_eq_true_eq, Vector.mem_toList_iff]
  constructor
  · intro h i
    exact h _ (Vector.getElem_mem i.isLt)
  · intro h b hb
    obtain ⟨i, hi, rfl⟩ := Vector.mem_iff_getElem.1 hb
    exact h ⟨i, hi⟩

/-- Settles O19: by the checks of a read record, and what an occasion recorded outside LOAD leaves in the control queue. -/
theorem unusableRecordHalts : Obligations.UnusableRecordHalts := by
  intro dt r s since hread
  have hne : (s.advance dt).stc.readSince ≠ none := by simp [hread]
  refine ⟨fun habsent => ?_, fun hpresent haddress => ?_, fun hdue => ?_, fun reason => ⟨?_, ?_⟩⟩
  · have hcomplete : (s.advance dt).readComplete r = (s.advance dt).enterHalt .configAbsent := by
      rw [State.readComplete, if_neg hne, if_pos (recordAbsent_iff.2 habsent)]
    exact congrArg done hcomplete
  · have hnot : ¬recordAbsent r = true := by
      rw [recordAbsent_iff]
      obtain ⟨i, hi⟩ := hpresent
      exact fun h => hi (h i)
    have hbad : ¬senderInRange r[0] = true := by
      rw [senderInRange, decide_eq_true_eq]
      rcases haddress with h | h
      · simp [h]
      · omega
    have hcomplete : (s.advance dt).readComplete r = (s.advance dt).enterHalt .badAddress := by
      rw [State.readComplete, if_neg hne, if_neg hnot, if_neg hbad]
    exact congrArg done hcomplete
  · have hlate : dueBy (s.advance dt).now ((s.advance dt).stc.readSince.map (· + Config.readyLimit)) = true :=
      dueBy_eq_true.2 ⟨since + 20000, by simp [hread, Config.readyLimit, millis], hdue⟩
    have htimeout : (s.advance dt).readyTimeout = (s.advance dt).enterHalt .configAbsent := by
      rw [State.readyTimeout, if_pos hlate]
    exact congrArg done htimeout
  · exact congrArg (·.rlc.occasions.halt) (State.recordOccasion_frame _ .halt)
  · exact State.report_of_recordOccasion (by simp)

end Sys2Proof.Machine
end

