-- ==== Sys2Proof/Proofs/EndOfLoad.lean ====
section
/-!
PROOFS. The configuration record and the entry into LISTEN (R177 to R181): the statements SettingsFromRecord and
EntersListen.
-/

namespace Sys2Proof.Machine

variable {s : State}

/-! ### The record (R178, R179) -/

theorem recordByte_eq_iff {r : Vector Byte 24} {i : Fin 24} {n : Nat} (hn : n < 256) :
    recordByte r i = n ↔ r[i] = BitVec.ofNat 8 n := by
  rw [← BitVec.toNat_inj, BitVec.toNat_ofNat, Nat.mod_eq_of_lt hn]
  rfl

theorem roleOf_eq_gateway {b : Nat} : roleOf b = .gateway ↔ b = 1 := by
  unfold roleOf
  split <;> simp_all

theorem modeOf_eq_split {b : Nat} : modeOf b = .split ↔ b = 1 := by
  unfold modeOf
  split <;> simp_all

theorem bufferCapacity_eq (m : BundleMode) : bufferCapacity m = if m = .split then 12 else 24 := by cases m <;> rfl

theorem bufferCount_eq (m : BundleMode) :
    List.replicate (bufferCount m) Buffer.reset = if m = .split then [Buffer.reset, Buffer.reset] else [Buffer.reset] := by
  cases m <;> rfl

/-- Settles O21: field by field of `settingsOf`. -/
theorem settingsFromRecord : Obligations.SettingsFromRecord := by
  intro r hleast hmost
  have hok : SettingsOk (settingsOf r) := settingsOf_ok (decide_eq_true ⟨hleast, hmost⟩)
  have hfirst : min 127 (recordByte r 2) ≤ 127 := Nat.min_le_left _ _
  have hcount := recordByte_eq_iff (r := r) (i := 3) (n := 0) (by decide)
  refine ⟨hok, rfl, roleOf_eq_gateway.trans (recordByte_eq_iff (by decide)),
    modeOf_eq_split.trans (recordByte_eq_iff (by decide)), Nat.min_comm _ _, ?_, ?_, ?_⟩
  · intro hedge h0
    have hedge' : roleOf (recordByte r 1) = .edge := hedge
    have h0' : recordByte r 3 = 0 := hcount.2 h0
    simp only [settingsOf, settledCount, hedge', h0']
    simp
  · intro hn
    have hn' : ¬(roleOf (recordByte r 1) = .edge ∧ min 16 (recordByte r 3) = 0) := fun ⟨hedge, h0⟩ =>
      hn ⟨hedge, hcount.1 (by omega)⟩
    have h3 : recordByte r 3 = r[3].toNat := rfl
    simp only [settingsOf, settledCount, if_neg hn']
    split <;> omega
  · have h4 : recordByte r 4 = r[4].toNat := rfl
    have h5 : recordByte r 5 = r[5].toNat := rfl
    have h50 := recordByte_eq_iff (r := r) (i := 5) (n := 0) (by decide)
    have h6 : recordByte r 6 = r[6].toNat := rfl
    have h13 : recordByte r 13 = r[13].toNat := rfl
    simp only [settingsOf, clampNat, h4, h6, h13, bufferCapacity_eq, recordWord]
    refine ⟨by omega, by omega, by omega, by omega, fun h => ?_, by omega, Nat.min_comm _ _, rfl, Nat.min_comm _ _, ?_,
      Nat.min_comm _ _, ?_, ?_, ?_, ?_⟩
    · rw [h50.2 h]
      decide
    all_goals rw [Nat.min_comm]

/-! ### LISTEN begins (R181) -/

/-- Recording an occasion adds it to the set; outside LOAD a STATE REPORT waits then (R171). -/
theorem State.recordOccasion_exists (s : State) (o : Occasion) : ∃ q, s.recordOccasion o = s.setRlc { s.rlc with
    occasions := s.rlc.occasions.add o, control := q } ∧ (s.stc.runState ≠ .load → ControlMsg.stateReport ∈ q) :=
  ⟨_, s.recordOccasion_frame o, State.report_of_recordOccasion⟩

/-- The line fault with its recovery timer, and the occasion it records (R73, R74). -/
theorem State.enterFault_exists (s : State) (kind : FaultKind) {since : Option Micros}
    (hsince : (if s.pins.carrier || s.pins.lineOpen then none else some s.now) = since) : ∃ q, s.enterFault kind =
    (s.setLnc { s.lnc with
      line := .fault, faultKind := kind, receiving := false, recoverySince := since }).setRlc
        { s.rlc with occasions := s.rlc.occasions.add .faultStart, control := q } ∧
      (s.stc.runState ≠ .load → ControlMsg.stateReport ∈ q) := by
  subst hsince
  exact State.recordOccasion_exists _ _

/-- What LISTEN begins with, on a line that is not reported open. -/
theorem enterListen_of_closed {c : Settings} (h : s.pins.lineOpen = false) :
    ∃ q, ControlMsg.stateReport ∈ q ∧ s.enterListen c = (Still.begun s c).setRlc
      { (Still.begun s c).rlc with occasions := s.rlc.occasions.add .listen, control := q } := by
  obtain ⟨q, hq, hreport⟩ := (Still.begun s c).recordOccasion_exists .listen
  refine ⟨q, hreport (fun h => by cases h), ?_⟩
  simp only [State.enterListen, h]
  exact hq

/-- On a line that is reported open LNC enters FAULT at once (R72). -/
theorem enterListen_of_open {c : Settings} (h : s.pins.lineOpen = true) :
    ∃ q, ControlMsg.stateReport ∈ q ∧ s.enterListen c = ((Still.begun s c).setLnc
      { (Still.begun s c).lnc with line := .fault, faultKind := .cut, receiving := false, recoverySince := none }).setRlc
      { (Still.begun s c).rlc with occasions := (s.rlc.occasions.add .listen).add .faultStart, control := q } := by
  obtain ⟨q, hq, -⟩ := (Still.begun s c).recordOccasion_exists .listen
  have hnone : (if s.pins.carrier || s.pins.lineOpen then none else some s.now) = none := by simp [h]
  obtain ⟨q', hfault, hreport⟩ := State.enterFault_exists ((Still.begun s c).setRlc
    { (Still.begun s c).rlc with occasions := s.rlc.occasions.add .listen, control := q }) .cut hnone
  refine ⟨q', hreport (fun h => by cases h), ?_⟩
  simp only [State.enterListen, h, if_true]
  exact (congrArg (State.enterFault · .cut) hq).trans hfault

theorem seedOf_toNat (a : Byte) : (seedOf a).toNat = a.toNat := by
  simp only [seedOf, BitVec.toNat_setWidth]
  omega

/-- A read record with a valid address ends LOAD. -/
theorem readComplete_of_address {r : Vector Byte 24} (hread : s.stc.readSince ≠ none) (hr : senderInRange r[0] = true) :
    s.readComplete r = s.enterListen (settingsOf r) := by
  have hpresent : ¬recordAbsent r = true := by
    rw [recordAbsent_iff]
    intro hall
    have h0 : r[0] = 0xFF := hall 0
    simp [h0, senderInRange] at hr
  rw [State.readComplete, if_neg hread, if_neg hpresent, if_pos hr]

/-- Settles O20: the blocks as `startBlocks` leaves them, with the occasion or occasions recorded. -/
theorem entersListen : Obligations.EntersListen := by
  intro dt r s hread hleast hmost
  have hcomplete : (s.advance dt).readComplete r = (s.advance dt).enterListen (settingsOf r) :=
    readComplete_of_address hread (decide_eq_true ⟨hleast, hmost⟩)
  refine ⟨_, congrArg done hcomplete, ?_⟩
  cases hopen : s.pins.lineOpen
  · obtain ⟨q, hreport, hlisten⟩ := enterListen_of_closed (s := s.advance dt) (c := settingsOf r) hopen
    rw [hlisten]
    exact ⟨rfl, rfl, congrArg (fun b => { s.bas with buffers := b }) (bufferCount_eq _), seedOf_toNat _,
      ⟨fun _ => ⟨rfl, rfl⟩, fun h => by cases h⟩, rfl, rfl, hreport, rfl, rfl, rfl, rfl, rfl⟩
  · obtain ⟨q, hreport, hlisten⟩ := enterListen_of_open (s := s.advance dt) (c := settingsOf r) hopen
    rw [hlisten]
    exact ⟨rfl, rfl, congrArg (fun b => { s.bas with buffers := b }) (bufferCount_eq _), seedOf_toNat _,
      ⟨(fun h => by cases h), fun _ => ⟨rfl, rfl⟩⟩, rfl, rfl, hreport, rfl, rfl, rfl, rfl, rfl⟩

end Sys2Proof.Machine
end

