-- ==== Sys2Proof/Proofs/EveryCommand.lean ====
section
/-!
PROOFS. What no command but a few changes: the moment, the queue of commands, STC, the pins, the neighbour table, and of RLC the
parser, the radio-lost condition and supervision. With it every command completes and moves the clock by what it says: the
statement CommandsComplete.
-/

namespace Sys2Proof.Machine

/-- The part of the state that most operations leave alone; first of it the model's own moment and queue of commands. -/
def State.base (s : State) : (Micros × List Instr) × Stc × Pins × Nbt × Parser × Bool × Option Micros :=
  ((s.now, s.pending), s.stc, s.pins, s.nbt, s.rlc.parser, s.rlc.radioLost, s.rlc.supervisionDue)

namespace State

variable (s : State)

@[simp] theorem base_setChoices (x : Nat) : (s.setChoices x).base = s.base := rfl
@[simp] theorem base_setCve (x : Cve) : (s.setCve x).base = s.base := rfl
@[simp] theorem base_setCru (x : Cru) : (s.setCru x).base = s.base := rfl
@[simp] theorem base_setRfi (x : Rfi) : (s.setRfi x).base = s.base := rfl
@[simp] theorem base_setBas (x : Bas) : (s.setBas x).base = s.base := rfl
@[simp] theorem base_setGds (x : Gds) : (s.setGds x).base = s.base := rfl
@[simp] theorem base_setLnc (x : Lnc) : (s.setLnc x).base = s.base := rfl

@[simp] theorem base_setRlc (x : Rlc) (hparser : x.parser = s.rlc.parser) (hlost : x.radioLost = s.rlc.radioLost)
    (hdue : x.supervisionDue = s.rlc.supervisionDue) : (s.setRlc x).base = s.base := by
  simp [base, hparser, hlost, hdue]

/-! ### Contexts and RLC -/

@[simp] theorem base_putContext (c : Context) : (s.putContext c).base = s.base := by
  simp [State.putContext]

@[simp] theorem base_dropContext (crane : Byte) : (s.dropContext crane).base = s.base := by
  simp [State.dropContext]

@[simp] theorem base_countLate (crane : Byte) : (s.countLate crane).base = s.base := by
  unfold State.countLate
  split <;> simp

@[simp] theorem base_queueControl (m : ControlMsg) : (s.queueControl m).base = s.base := by
  simp [State.queueControl]

@[simp] theorem base_queueTerminal (m : TermUplink) : (s.queueTerminal m).base = s.base := by
  simp [State.queueTerminal]

@[simp] theorem base_queueDrain (m : DrainMsg) : (s.queueDrain m).base = s.base := by
  simp [State.queueDrain]

@[simp] theorem base_recordOccasion (o : Occasion) : (s.recordOccasion o).base = s.base := by
  rw [recordOccasion_frame]
  simp

@[simp] theorem base_setFlag (k : Sticky) : (s.setFlag k).base = s.base := by
  unfold State.setFlag
  split <;> simp

@[simp] theorem base_messageSent : (s.messageSent).base = s.base := by
  simp [State.messageSent]

/-! ### Segments, BEACONs and the line -/

@[simp] theorem base_applySample (g : Byte) (margin : Byte) : (s.applySample g margin).base = s.base := by
  obtain ⟨cve, h⟩ := s.applySample_frame g margin
  simp [h]

@[simp] theorem base_setShadows (m : Word16) : (s.setShadows m).base = s.base := by
  unfold State.setShadows
  split <;> simp

@[simp] theorem base_decideAll : (s.decideAll).base = s.base := by
  obtain ⟨rfi, h, -⟩ := s.decideAll_frame
  simp [h]

@[simp] theorem base_noticeIfChanged : (s.noticeIfChanged).base = s.base := by
  unfold State.noticeIfChanged
  dsimp only
  split <;> simp

@[simp] theorem base_departure (g : Byte) : (s.departure g).base = s.base := by
  unfold State.departure
  split
  · split <;> simp
  · simp

@[simp] theorem base_openDefer : (s.openDefer).base = s.base := by
  rw [openDefer_frame]
  simp

@[simp] theorem base_reopenDefer : (s.reopenDefer).base = s.base := by
  simp [State.reopenDefer]

@[simp] theorem base_joinClass (c : TxClass) (f : TxFrame) : (s.joinClass c f).base = s.base := by
  simp [State.joinClass]

@[simp] theorem base_craneFrameLost (f : TxFrame) : (s.craneFrameLost f).base = s.base := by
  unfold State.craneFrameLost
  split <;> simp

@[simp] theorem base_giveCrane (frame : Frame) (life : Nat) : (s.giveCrane frame life).base = s.base := by
  unfold State.giveCrane
  dsimp only
  split
  · simp
  · split <;> split <;> simp

@[simp] theorem base_giveAnswer (frame : Frame) : (s.giveAnswer frame).base = s.base := by
  unfold State.giveAnswer
  split <;> simp

@[simp] theorem base_giveBundle (frame : Frame) (buffer : Nat) : (s.giveBundle frame buffer).base = s.base := by
  simp [State.giveBundle]

@[simp] theorem base_putBeacon (frame : Frame) : (s.putBeacon frame).base = s.base := by
  unfold State.putBeacon
  dsimp only
  split
  · simp
  · split <;> simp

@[simp] theorem base_withdrawCrane (place : Nat) : (s.withdrawCrane place).base = s.base := by
  unfold State.withdrawCrane
  dsimp only
  split
  · split
    · simp
    · split <;> simp
  · simp

@[simp] theorem base_endAttempt : (s.endAttempt).base = s.base := by
  simp [State.endAttempt]

@[simp] theorem base_enterSuccessor : (s.enterSuccessor).base = s.base := by
  unfold State.enterSuccessor
  split <;> simp

@[simp] theorem base_remakeWithdrawal : (s.remakeWithdrawal).base = s.base := by
  unfold State.remakeWithdrawal
  split
  · split <;> simp
  · simp

@[simp] theorem base_attemptCut (c : TxClass) : (s.attemptCut c).base = s.base := by
  cases c <;> simp [State.attemptCut]

@[simp] theorem base_enterFault (kind : FaultKind) : (s.enterFault kind).base = s.base := by
  simp [State.enterFault]

@[simp] theorem base_jabber : (s.jabber).base = s.base := by
  unfold State.jabber
  split
  · split <;> simp
  · split <;> simp
  · simp

@[simp] theorem base_faultEnds : (s.faultEnds).base = s.base := by
  unfold State.faultEnds
  split <;> simp

/-! ### Contexts -/

@[simp] theorem base_freeContext (c : Context) : (s.freeContext c).base = s.base := by
  unfold State.freeContext
  dsimp only
  split <;> simp

@[simp] theorem base_freeContexts (cs : List Context) : (s.freeContexts cs).base = s.base := by
  unfold State.freeContexts
  exact List.foldlRecOn (motive := fun t => State.base t = s.base) cs _ rfl fun t ht c _ => by simp [ht]

@[simp] theorem base_returnToAnchored (c : Context) (retryAt : Micros) : (s.returnToAnchored c retryAt).base = s.base := by
  simp [State.returnToAnchored]

@[simp] theorem base_offerSent (crane : Byte) (token : Byte) : (s.offerSent crane token).base = s.base := by
  unfold State.offerSent
  split <;> simp

@[simp] theorem base_offerDiscarded (crane : Byte) (token : Byte) : (s.offerDiscarded crane token).base = s.base := by
  unfold State.offerDiscarded
  split <;> simp

@[simp] theorem base_commitSent (crane : Byte) (token : Byte) : (s.commitSent crane token).base = s.base := by
  unfold State.commitSent
  split <;> simp

@[simp] theorem base_commitDiscarded (peer : Byte) (crane : Byte) (token : Byte) : (s.commitDiscarded peer crane token).base = s.base := by
  unfold State.commitDiscarded
  dsimp only
  split <;> simp

@[simp] theorem base_takeDiscarded (crane : Byte) (token : Byte) : (s.takeDiscarded crane token).base = s.base := by
  unfold State.takeDiscarded
  split
  · split
    · split <;> simp
    · simp
  · simp

@[simp] theorem base_handoverSent (f : Frame) : (s.handoverSent f).base = s.base := by
  unfold State.handoverSent
  split <;> simp

@[simp] theorem base_handoverDiscarded (f : Frame) : (s.handoverDiscarded f).base = s.base := by
  unfold State.handoverDiscarded
  split <;> simp

@[simp] theorem base_giveHandover (f : Frame) : (s.giveHandover f).base = s.base := by
  unfold State.giveHandover
  split <;> simp

@[simp] theorem base_setPosition (c : Context) (segment : Byte) : (s.setPosition c segment).base = s.base := by
  unfold State.setPosition
  dsimp only
  split
  · simp
  · split <;> simp

@[simp] theorem base_attach (crane : Byte) (segment : Byte) : (s.attach crane segment).base = s.base := by
  unfold State.attach
  split
  · simp
  · split
    · split <;> simp
    · split <;> simp

@[simp] theorem base_position (crane : Byte) (segment : Byte) : (s.position crane segment).base = s.base := by
  unfold State.position
  split <;> simp

@[simp] theorem base_detach (crane : Byte) : (s.detach crane).base = s.base := by
  unfold State.detach
  split
  · split <;> simp
  · simp

@[simp] theorem base_joinDownlink (crane : Byte) (seq : Byte) (deadline : Nat) (payload : List Byte) : (s.joinDownlink crane seq deadline payload).base = s.base := by
  unfold State.joinDownlink
  split
  · split <;> simp
  · simp

@[simp] theorem base_downlink (crane : Byte) (seq : Byte) (deadline : Nat) (payload : List Byte) : (s.downlink crane seq deadline payload).base = s.base := by
  simp [State.downlink]

@[simp] theorem base_downlinkDue (crane : Byte) (place : Nat) : (s.downlinkDue crane place).base = s.base := by
  unfold State.downlinkDue
  split
  · split
    · split <;> simp
    · simp
  · simp

@[simp] theorem base_offerTo (c : Context) (peer : Byte) : (s.offerTo c peer).base = s.base := by
  simp [State.offerTo]

@[simp] theorem base_handoverWindow (crane : Byte) : (s.handoverWindow crane).base = s.base := by
  unfold State.handoverWindow
  split
  · split
    · split <;> simp
    · simp
  · simp

@[simp] theorem base_uplink (crane : Byte) (seq : Byte) (payload : List Byte) : (s.uplink crane seq payload).base = s.base := by
  unfold State.uplink
  split
  · dsimp only
    split
    · split <;> simp
    · simp
  · simp

@[simp] theorem base_staleWatch (crane : Byte) : (s.staleWatch crane).base = s.base := by
  unfold State.staleWatch
  split
  · split <;> simp
  · simp

@[simp] theorem base_passUplink (sender : Byte) (crane : Byte) (seq : Byte) (period : Word16) (late : Byte) (payload : List Byte) : (s.passUplink sender crane seq period late payload).base = s.base := by
  unfold State.passUplink
  split <;> simp

@[simp] theorem base_takeReply (sender : Byte) (crane : Byte) (token : Byte) : (s.takeReply sender crane token).base = s.base := by
  unfold State.takeReply
  split
  · simp
  · split <;> simp

@[simp] theorem base_refuseReply (sender : Byte) (crane : Byte) (token : Byte) (reason : RefuseReason) : (s.refuseReply sender crane token reason).base = s.base := by
  unfold State.refuseReply
  split
  · split
    · unfold State.eitherOrder
      dsimp only
      split <;> simp
    · simp
    all_goals simp
  · simp

@[simp] theorem base_offerGuard (crane : Byte) : (s.offerGuard crane).base = s.base := by
  unfold State.offerGuard
  split
  · split
    · split <;> simp
    · simp
  · simp

@[simp] theorem base_refuseOffer (sender : Byte) (crane : Byte) (token : Byte) (reason : RefuseReason) : (s.refuseOffer sender crane token reason).base = s.base := by
  simp [State.refuseOffer]

@[simp] theorem base_offerReceived (sender : Byte) (crane : Byte) (token : Byte) (segment : Byte) (period : Word16) (late : Byte) : (s.offerReceived sender crane token segment period late).base = s.base := by
  unfold State.offerReceived
  split
  · simp
  · split
    · split
      · split <;> simp
      · simp
    · split
      · simp
      · split <;> simp

@[simp] theorem base_commitReceived (sender : Byte) (crane : Byte) (token : Byte) : (s.commitReceived sender crane token).base = s.base := by
  unfold State.commitReceived
  split <;> simp

@[simp] theorem base_cancelReceived (sender : Byte) (crane : Byte) (token : Byte) : (s.cancelReceived sender crane token).base = s.base := by
  unfold State.cancelReceived
  split <;> simp

@[simp] theorem base_pendingGuard (crane : Byte) : (s.pendingGuard crane).base = s.base := by
  unfold State.pendingGuard
  split
  · split
    · split <;> simp
    · simp
  · simp

/-! ### Evaluations -/

@[simp] theorem base_startGap (p : Nat) : (s.startGap p).base = s.base := by
  simp [State.startGap]

@[simp] theorem base_evaluate : (s.evaluate).base = s.base := by
  unfold State.evaluate
  split <;> simp

@[simp] theorem base_withdraw : (s.withdraw).base = s.base := by
  unfold State.withdraw
  split <;> simp

@[simp] theorem base_withdrawAndFree : (s.withdrawAndFree).base = s.base := by
  simp [State.withdrawAndFree]

/-! ### Bundles and reefers -/

@[simp] theorem base_closeBuffer (i : Nat) : (s.closeBuffer i).base = s.base := by
  obtain ⟨bas, lnc, h⟩ := s.closeBuffer_frame _
  rw [h]
  simp

@[simp] theorem base_fillBuffer (i : Nat) (r : Report) : (s.fillBuffer i r).base = s.base := by
  obtain ⟨bas, lnc, h⟩ := s.fillBuffer_frame _ _
  rw [h]
  simp

@[simp] theorem base_forward (r : Report) : (s.forward r).base = s.base := by
  obtain ⟨bas, lnc, h⟩ := s.forward_frame _
  rw [h]
  simp

@[simp] theorem base_makeMoves : (s.makeMoves).base = s.base := by
  obtain ⟨bas, lnc, h⟩ := State.movesUpTo_frame (s.bas.alertIntake.length + s.bas.routineIntake.length) s
  rw [State.makeMoves, h]
  simp

@[simp] theorem base_bundleWait : (s.bundleWait).base = s.base := by
  unfold State.bundleWait
  split
  · split <;> simp
  · simp

@[simp] theorem base_bufferSending (i : Nat) : (s.bufferSending i).base = s.base := by
  simp [State.bufferSending]

@[simp] theorem base_gdsIntake (station : Byte) (reports : List Report) : (s.gdsIntake station reports).base = s.base := by
  obtain ⟨gds, h⟩ := s.gdsIntake_frame _ _
  rw [h]
  simp

@[simp] theorem base_takeInHand : (s.takeInHand).base = s.base := by
  unfold State.takeInHand
  split <;> simp

@[simp] theorem base_drainRequest (limit : Nat) : (s.drainRequest limit).base = s.base := by
  unfold State.drainRequest
  split
  · split <;> simp
  · simp

@[simp] theorem base_bundleOutcome (sent : Bool) (i : Nat) : (s.bundleOutcome sent i).base = s.base := by
  unfold State.bundleOutcome
  dsimp only
  split
  · split <;> simp
  · simp

@[simp] theorem base_enterHoldback (r : Report) (margin : Byte) : (s.enterHoldback r margin).base = s.base := by
  obtain ⟨rfi, h, -⟩ := s.enterHoldback_frame r margin
  simp [h]

@[simp] theorem base_replaceHeld (old : Held) (r : Report) (margin : Byte) : (s.replaceHeld old r margin).base = s.base := by
  simp [State.replaceHeld]

@[simp] theorem base_putCustody (r : Report) : (s.putCustody r).base = s.base := by
  simp [State.putCustody]

@[simp] theorem base_dropCustody (t : Tag) : (s.dropCustody t).base = s.base := by
  simp [State.dropCustody]

@[simp] theorem base_dropHeld (t : Tag) : (s.dropHeld t).base = s.base := by
  simp [State.dropHeld]

@[simp] theorem base_routeReport (r : Report) (margin : Byte) : (s.routeReport r margin).base = s.base := by
  unfold State.routeReport
  split
  · split
    · simp
    · split <;> simp
  · split
    · split
      · simp
      · split
        · simp
        · split <;> simp
    · split
      · simp
      · split <;> simp

@[simp] theorem base_reeferIntake (tag : Tag) (segment : Byte) (seq : Byte) (setPoint : Word16) (supply : Word16) (alarm : Byte) (margin : Byte) : (s.reeferIntake tag segment seq setPoint supply alarm margin).base = s.base := by
  unfold State.reeferIntake
  split <;> simp

@[simp] theorem base_holdbackDue (t : Tag) : (s.holdbackDue t).base = s.base := by
  unfold State.holdbackDue
  split
  · split <;> simp
  · simp

@[simp] theorem base_overheardBundle (reports : List Report) : (s.overheardBundle reports).base = s.base := by
  obtain ⟨rfi, h⟩ := State.overheardBundle_frame reports s
  simp [h]

/-! ### Attempts -/

@[simp] theorem base_gapEnds : (s.gapEnds).base = s.base := by
  unfold State.gapEnds
  split
  · split
    · split
      · split
        · simp
        · dsimp only
          split <;> simp
      · simp
    · simp
  · simp

@[simp] theorem base_frameSent (c : TxClass) (f : TxFrame) : (s.frameSent c f).base = s.base := by
  cases c <;> simp [State.frameSent]

@[simp] theorem base_frameDiscarded (c : TxClass) (f : TxFrame) : (s.frameDiscarded c f).base = s.base := by
  cases c <;> simp [State.frameDiscarded]

@[simp] theorem base_transmissionDone : (s.transmissionDone).base = s.base := by
  unfold State.transmissionDone
  split
  · split <;> simp
  · simp

@[simp] theorem base_collide : (s.collide).base = s.base := by
  unfold State.collide
  split
  · split
    · dsimp only
      split
      · simp
      · split <;> simp
    · simp
  · simp

@[simp] theorem base_uplinkAged (place : Nat) : (s.uplinkAged place).base = s.base := by
  unfold State.uplinkAged
  split
  · split <;> simp
  · simp

@[simp] theorem base_downlinkAged (place : Nat) : (s.downlinkAged place).base = s.base := by
  unfold State.downlinkAged
  split
  · split <;> simp
  · simp

/-- A message in LISTEN and RUN, other than RESTART, leaves the base as the supervision step made it. -/
theorem base_dispatchMessage {m : Inbound} (hm : m ≠ .restart) : (s.dispatchMessage m).base = s.base := by
  cases m with
  | craneUplink crane =>
    unfold State.dispatchMessage
    dsimp only
    split <;> simp
  | craneDownlink | drain =>
    unfold State.dispatchMessage
    dsimp only
    split <;> simp
  | restart => exact absurd rfl hm
  | radioStatus | qualitySample | reeferReport | craneAttach | cranePosition | craneDetach | hold | resume | stateQuery =>
    simp [State.dispatchMessage]

/-! ### Operations that change more, but not the moment or the queue of commands -/

@[simp] theorem moment_setPins (x : Pins) : (s.setPins x).base.1 = s.base.1 := rfl
@[simp] theorem moment_setStc (x : Stc) : (s.setStc x).base.1 = s.base.1 := rfl
@[simp] theorem moment_setNbt (x : Nbt) : (s.setNbt x).base.1 = s.base.1 := rfl
@[simp] theorem moment_setRlc (x : Rlc) : (s.setRlc x).base.1 = s.base.1 := rfl

@[simp] theorem moment_coldReset : s.coldReset.base.1 = s.base.1 := by
  rw [coldReset_eq]
  rfl

@[simp] theorem moment_warmRestart (cause : ResetCause) : (s.warmRestart cause).base.1 = s.base.1 := rfl

@[simp] theorem moment_enterHalt (reason : HaltReason) : (s.enterHalt reason).base.1 = s.base.1 := by
  simp [State.enterHalt]

@[simp] theorem moment_enterListen (c : Settings) : (s.enterListen c).base.1 = s.base.1 := by
  unfold State.enterListen
  dsimp only
  split <;> simp [State.startBlocks]

@[simp] theorem moment_readComplete (r : Vector Byte 24) : (s.readComplete r).base.1 = s.base.1 := by
  unfold State.readComplete
  split
  · rfl
  · split
    · simp
    · split <;> simp

@[simp] theorem moment_readyTimeout : s.readyTimeout.base.1 = s.base.1 := by
  unfold State.readyTimeout
  split <;> simp

@[simp] theorem moment_supervisionStep : s.supervisionStep.base.1 = s.base.1 := by
  unfold State.supervisionStep State.restartSupervision
  dsimp only
  split <;> simp

@[simp] theorem moment_supervisionExpiry : s.supervisionExpiry.base.1 = s.base.1 := by
  unfold State.supervisionExpiry State.beginRadioLost State.restartSupervision
  split
  · split <;> simp
  · rfl

@[simp] theorem moment_countListen : s.countListen.base.1 = s.base.1 := by
  unfold State.countListen
  dsimp only
  split
  · split <;> simp
  · rfl

@[simp] theorem moment_beaconExpiry : s.beaconExpiry.base.1 = s.base.1 := by
  unfold State.beaconExpiry
  split <;> simp

@[simp] theorem moment_stalePoint (address : Byte) : (s.stalePoint address).base.1 = s.base.1 := by
  unfold State.stalePoint
  split
  · split <;> simp
  · rfl

@[simp] theorem moment_removalPoint (address : Byte) : (s.removalPoint address).base.1 = s.base.1 := by
  unfold State.removalPoint
  split
  · split <;> simp
  · rfl

@[simp] theorem moment_beaconIntake (sender flags : Byte) (interval : Word16) (c : Byte) (items : List BeaconItem) :
    (s.beaconIntake sender flags interval c items).base.1 = s.base.1 := by
  unfold State.beaconIntake
  dsimp only
  split
  · rfl
  · split
    · rfl
    · split
      · rfl
      · split <;> simp

/-! ### Messages -/

@[simp] theorem moment_validMessage (m : Inbound) : (s.validMessage m).base.1 = s.base.1 := by
  unfold State.validMessage
  split
  case h_1 => simp
  case h_2 hm =>
    split
    · rfl
    · split <;> simp
    · rw [base_dispatchMessage _ hm, moment_supervisionStep]
    · rw [base_dispatchMessage _ hm, moment_supervisionStep]

@[simp] theorem moment_messageArrives (m : Inbound) : (s.messageArrives m).base.1 = s.base.1 := by
  unfold State.messageArrives State.checkedMessage
  split
  · rfl
  · split <;> simp

@[simp] theorem moment_receiveByte (b : Byte) : (s.receiveByte b).base.1 = s.base.1 := by
  unfold State.receiveByte State.completeMessage
  dsimp only
  split
  · split <;> simp
  · rfl

@[simp] theorem moment_receiveBytes (bytes : List Byte) : (s.receiveBytes bytes).base.1 = s.base.1 := by
  unfold State.receiveBytes
  split
  · rfl
  · exact List.foldlRecOn (motive := fun t => (State.base t).1 = s.base.1) bytes _ rfl fun t ht b _ => by simp [ht]

@[simp] theorem moment_parserPause : s.parserPause.base.1 = s.base.1 := by
  unfold State.parserPause
  split
  · split <;> simp
  · rfl

/-! ### The line and received frames -/

@[simp] theorem moment_carrierAppears : s.carrierAppears.base.1 = s.base.1 := by
  unfold State.carrierAppears
  dsimp only
  split
  · rfl
  · split
    · rfl
    · split <;> simp

@[simp] theorem moment_carrierEnds : s.carrierEnds.base.1 = s.base.1 := by
  obtain ⟨pins, lnc, h⟩ := s.carrierEnds_frame
  rw [h]
  rfl

@[simp] theorem moment_lineOpens : s.lineOpens.base.1 = s.base.1 := by
  unfold State.lineOpens
  dsimp only
  split
  · rfl
  · split <;> simp

@[simp] theorem moment_lineOk : s.lineOk.base.1 = s.base.1 := by
  unfold State.lineOk
  dsimp only
  split
  · rfl
  · split <;> simp

@[simp] theorem moment_dispatchFrame (sender : Byte) (b : FrameBody) : (s.dispatchFrame sender b).base.1 = s.base.1 := by
  cases b <;> simp [State.dispatchFrame]

@[simp] theorem moment_checkedFrame (f : Frame) : (s.checkedFrame f).base.1 = s.base.1 := by
  unfold State.checkedFrame
  split
  · rfl
  · split
    · simp
    · split <;> simp

@[simp] theorem moment_checkedBytes (bytes : List Byte) : (s.checkedBytes bytes).base.1 = s.base.1 := by
  unfold State.checkedBytes
  split <;> simp

theorem moment_receive {take : State → State} (htake : ∀ t, (take t).base.1 = t.base.1) :
    (s.receive take).base.1 = s.base.1 := by
  unfold State.receive
  dsimp only
  split <;> simp [htake]

theorem moment_linkTake : s.linkTake.base.1 = s.base.1 := by
  obtain ⟨cru, gds, rlc, h⟩ := s.linkTake_frame
  rw [h]
  rfl

end State

/-! ### Every command (log 1, log 4) -/

/-- What a command does before the link's take keeps the queue of commands, after its time has passed. -/
theorem exec_moment (c : Instr) (s : State) :
    ∃ u, exec c s = done u ∧ u.base.1 = (s.now + c.elapsed, s.pending) := by
  have kept {u : State} {dt : Micros} (h : u.base.1 = (s.advance dt).base.1) :
      ∃ v, done u = done v ∧ v.base.1 = (s.now + dt, s.pending) := ⟨u, rfl, h⟩
  cases c with
  | receivedFrameDiscarded | addressClash | beacon | craneUp | craneDown | offer | take | refuse | commit | cancel | bundle =>
    exact kept (State.moment_receive _ fun t => by simp)
  | powerUp | resetInputAsserted | resetInputReleased | configReadComplete | configReadyTimeout | parserTimeout
  | inboundMessageRejected | radioStatus | qualitySample | reeferReport | craneAttach | cranePosition | craneDetach
  | craneUplink | craneDownlink | drain | hold | resume | stateQuery | restart | outboundMessageSent
  | supervisionTimerExpiry | beaconTimerExpiry | neighbourStalePoint | neighbourRemovalPoint | craneStaleExpiry
  | craneUpAgeLimit | craneDownRemainingZero | downlinkDeadline | offerGuardExpiry | pendingGuardExpiry | holdbackExpiry
  | bundleWaitExpiry | deferGapEnd | transmissionComplete | collision | carrierAppears | jabberDetected | lineOpenReported
  | faultRecoveryExpiry | carrierEnds | lineConditionOk =>
    exact kept (by simp [State.resetInput, Instr.elapsed])

/-- A message in progress is enough. -/
theorem linkUsed_of_inProgress {s : State} (h : s.rlc.inProgress ≠ none) : s.linkUsed := fun hn => absurd hn h

theorem inProgress_takeCrane {s t : State} (h : s.takeCrane = some t) : t.rlc.inProgress ≠ none := by
  unfold State.takeCrane at h
  split at h
  · cases h
    split <;> simp [State.takeTerminal, State.takeDownlink]
  · cases h
    simp [State.takeTerminal]
  · cases h
    simp [State.takeDownlink]
  · cases h

theorem inProgress_takeDrain (s : State) (m : DrainMsg) : (s.takeDrain m).rlc.inProgress ≠ none := by
  cases m with
  | ended => simp [State.takeDrain]
  | record =>
    unfold State.takeDrain
    dsimp only
    rw [State.handOver_frame]
    simp

/-- After the take the link carries a message, is stopped, or has nothing to take (R167). -/
theorem linkUsed_linkTake (s : State) : s.linkTake.linkUsed := by
  unfold State.linkTake
  split
  case isTrue hbusy =>
    intro hfree hflowing
    simp [hfree, hflowing] at hbusy
  case isFalse =>
    split
    case h_1 m _ _ => exact linkUsed_of_inProgress (by cases m <;> simp [State.takeControl])
    case h_2 hcontrol =>
      split
      case h_1 ht => exact linkUsed_of_inProgress (inProgress_takeCrane ht)
      case h_2 hcrane =>
        split
        case h_1 => exact linkUsed_of_inProgress (inProgress_takeDrain _ _)
        case h_2 hdrain => exact fun _ _ => ⟨hcontrol, hcrane, hdrain⟩

/-- Settles O2: each command ends in the link's take, and nothing but the clock's advance touches the moment or the queue. -/
theorem commandsComplete : Obligations.CommandsComplete := by
  intro c s
  obtain ⟨u, hu, hmoment⟩ := exec_moment c s
  have htaken : (u.linkTake.now, u.linkTake.pending) = (s.now + c.elapsed, s.pending) := u.moment_linkTake.trans hmoment
  obtain ⟨hnow, hpending⟩ := Prod.ext_iff.1 htaken
  exact ⟨u.linkTake, hu, hpending, hnow, linkUsed_linkTake u⟩

end Sys2Proof.Machine
end

