-- ==== Sys2Proof/Proofs/FormatsReadBack.lean ====
section
/-!
PROOFS. The Formats chapter read back (R185 to R190): fields, items and reports, bodies, frames and messages; the statements
FrameRoundTrip, MessageRoundTrip and BytesAreTheMessage.
-/

namespace Sys2Proof.Machine

/-! ### Fields and the check -/

@[simp] theorem word16_hiByte_loByte (w : Word16) : word16 (hiByte w) (loByte w) = w := by
  apply BitVec.eq_of_toNat_eq
  simp only [word16, hiByte, loByte, BitVec.toNat_append, BitVec.extractLsb'_toNat, Nat.shiftRight_eq_div_pow,
    Nat.shiftLeft_eq]
  have := w.isLt
  rw [← Nat.shiftLeft_eq, ← Nat.shiftLeft_add_eq_or_of_lt (by omega), Nat.shiftLeft_eq]
  omega

@[simp] theorem tagOf_tagBytes (t : Tag) :
    tagOf (t.extractLsb' 16 8) (t.extractLsb' 8 8) (t.extractLsb' 0 8) = t := by
  apply BitVec.eq_of_toNat_eq
  have := t.isLt
  simp only [tagOf, BitVec.toNat_append, BitVec.extractLsb'_toNat, Nat.shiftRight_eq_div_pow]
  rw [← Nat.shiftLeft_add_eq_or_of_lt (by omega), ← Nat.shiftLeft_add_eq_or_of_lt (by omega), Nat.shiftLeft_eq,
    Nat.shiftLeft_eq]
  omega

@[simp] theorem extractLsb'_alarmClassByte (a : BitVec 4) (k : ReportClass) :
    (alarmClassByte a k).extractLsb' 0 4 = a := by
  simp only [alarmClassByte]
  exact BitVec.extractLsb'_append_eq_right

@[simp] theorem classOfByte_alarmClassByte (a : BitVec 4) (k : ReportClass) : classOfByte (alarmClassByte a k) = k := by
  have hmsb (x : BitVec 4) : (x ++ a : Byte).msb = x.msb := BitVec.msb_append
  have hset : (8#4).msb = true := rfl
  cases k <;> simp [alarmClassByte, classOfByte, hmsb, hset]

@[simp] theorem refuseReasonOf_refuseCode (r : RefuseReason) : refuseReasonOf (refuseCode r) = some r := by
  cases r <;> decide

theorem toNat_ofNat_byte {n : Nat} (h : n ≤ 255) : (BitVec.ofNat 8 n).toNat = n := by
  rw [BitVec.toNat_ofNat, Nat.mod_eq_of_lt (by omega)]

@[simp] theorem length_withCrc (l : List Byte) : (withCrc l).length = l.length + 2 := by simp [withCrc]

@[simp] theorem take_withCrc (l : List Byte) : (withCrc l).take l.length = l := by simp [withCrc]

/-- What carries its check passes the check (R186). -/
@[simp] theorem crcHolds_withCrc (l : List Byte) : crcHolds (withCrc l) = true := by simp [crcHolds]

/-! ### Items and reports -/

theorem length_flatMap_itemBytes (l : List BeaconItem) : (l.flatMap itemBytes).length = 4 * l.length := by
  induction l with
  | nil => rfl
  | cons i is ih => simp [itemBytes, ih]; omega

theorem length_flatMap_reportBytes (l : List Report) : (l.flatMap reportBytes).length = 10 * l.length := by
  induction l with
  | nil => rfl
  | cons r rs ih => simp [reportBytes, tagBytes, ih]; omega

theorem readItems_itemBytes (l : List BeaconItem) : readItems (l.flatMap itemBytes) = some l := by
  induction l with
  | nil => rfl
  | cons i is ih => simp [itemBytes, readItems, ih]

theorem readReports_reportBytes (l : List Report) : readReports (l.flatMap reportBytes) = some l := by
  induction l with
  | nil => rfl
  | cons r rs ih => simp [reportBytes, tagBytes, readReports, ih]

/-! ### Quay line frames -/

theorem length_bodyBytes_le {b : FrameBody} (h : bodyWellFormed b = true) : (bodyBytes b).length ≤ 250 := by
  cases b with
  | beacon flags interval c items =>
    simp only [bodyWellFormed, Bool.and_eq_true, decide_eq_true_eq] at h
    simp only [bodyBytes, List.length_append, length_flatMap_itemBytes, List.length_cons, List.length_nil]
    omega
  | craneUp | craneDown =>
    simp only [bodyWellFormed, payloadInRange, Bool.and_eq_true, decide_eq_true_eq] at h
    simp only [bodyBytes, List.length_append, List.length_cons, List.length_nil]
    omega
  | bundle reports =>
    simp only [bodyWellFormed, Bool.and_eq_true, decide_eq_true_eq] at h
    simp only [bodyBytes, List.length_cons, length_flatMap_reportBytes]
    omega
  | offer | take | refuse | commit | cancel => simp [bodyBytes]

/-- The body of a kind and the bytes of its fields (Table 11-2). -/
theorem readBody_bodyBytes {b : FrameBody} (h : bodyWellFormed b = true) :
    readBody (bodyKind b) (bodyBytes b) = some b := by
  cases b with
  | beacon flags interval c items =>
    simp only [bodyWellFormed, Bool.and_eq_true, decide_eq_true_eq] at h
    simp [-List.length_flatMap, readBody, bodyKind, bodyBytes, length_flatMap_itemBytes, toNat_ofNat_byte (show items.length ≤ 255 by omega),
      readItems_itemBytes]
  | craneUp crane seq period late payload =>
    simp only [bodyWellFormed, payloadInRange, Bool.and_eq_true, decide_eq_true_eq] at h
    simp [readBody, bodyKind, bodyBytes, toNat_ofNat_byte (show payload.length ≤ 255 by omega)]
  | craneDown crane seq deadline payload =>
    simp only [bodyWellFormed, payloadInRange, Bool.and_eq_true, decide_eq_true_eq] at h
    simp [readBody, bodyKind, bodyBytes, toNat_ofNat_byte (show payload.length ≤ 255 by omega)]
  | bundle reports =>
    simp only [bodyWellFormed, Bool.and_eq_true, decide_eq_true_eq] at h
    simp [-List.length_flatMap, readBody, bodyKind, bodyBytes, length_flatMap_reportBytes,
      toNat_ofNat_byte (show reports.length ≤ 255 by omega), readReports_reportBytes]
  | offer | take | refuse | commit | cancel => simp [readBody, bodyKind, bodyBytes]

/-- Settles O14: each check of R68 passes in turn. -/
theorem frameRoundTrip : Obligations.FrameRoundTrip := by
  intro f hf
  have hbody : bodyWellFormed f.body = true := (Bool.and_eq_true_iff.1 hf).2
  have hlen := length_bodyBytes_le hbody
  have hbyte := toNat_ofNat_byte (hlen.trans (by decide))
  unfold readFrame encodeFrame
  rw [if_pos ⟨by simp, crcHolds_withCrc _⟩, length_withCrc, Nat.add_sub_cancel, take_withCrc]
  simp only [List.cons_append, List.nil_append]
  rw [if_pos ⟨by omega, hbyte⟩, readBody_bodyBytes hbody]
  exact if_pos hf

/-! ### Radio messages -/

theorem length_inboundBytes_le {m : Inbound} (h : inboundWellFormed m = true) : (inboundBytes m).length ≤ 255 := by
  cases m with
  | craneUplink | craneDownlink =>
    simp only [inboundWellFormed, payloadInRange, Bool.and_eq_true, decide_eq_true_eq] at h
    simp only [inboundBytes, List.length_append, List.length_cons, List.length_nil]
    omega
  | radioStatus | qualitySample | reeferReport | craneAttach | cranePosition | craneDetach | drain | hold | resume
  | stateQuery | restart => simp [inboundBytes, tagBytes]

/-- The message of a kind and the bytes of its fields (Table 11-5). -/
theorem readInboundBody_inboundBytes {m : Inbound} (h : inboundWellFormed m = true) :
    readInboundBody (inboundKind m) (inboundBytes m) = some m := by
  cases m with
  | craneUplink crane seq margin payload =>
    simp only [inboundWellFormed, payloadInRange, Bool.and_eq_true, decide_eq_true_eq] at h
    simp [readInboundBody, inboundKind, inboundBytes, toNat_ofNat_byte (show payload.length ≤ 255 by omega)]
  | craneDownlink crane seq deadline payload =>
    simp only [inboundWellFormed, payloadInRange, Bool.and_eq_true, decide_eq_true_eq] at h
    simp [readInboundBody, inboundKind, inboundBytes, toNat_ofNat_byte (show payload.length ≤ 255 by omega)]
  | radioStatus | qualitySample | reeferReport | craneAttach | cranePosition | craneDetach | drain | hold | resume
  | stateQuery | restart => simp [readInboundBody, inboundKind, inboundBytes, tagBytes]

/-- Settles O15: each check of R162 passes in turn. -/
theorem messageRoundTrip : Obligations.MessageRoundTrip := by
  intro m hm
  have hbyte := toNat_ofNat_byte (length_inboundBytes_le hm)
  unfold readMessage encodeInbound
  rw [if_pos (crcHolds_withCrc _), length_withCrc, Nat.add_sub_cancel, take_withCrc]
  simp only [List.cons_append, List.nil_append]
  rw [if_pos hbyte, readInboundBody_inboundBytes hm]
  exact if_pos hm

/-! ### The parser (R161) -/

/-- The parser has some bytes; one more completes the message, or does not. -/
theorem parseByte_assembling {now last : Micros} {got rest : List Byte} {b kind len : Byte}
    (hgot : got ++ [b] = kind :: len :: rest) : parseByte now (.assembling got last) b =
      if rest.length = len.toNat + 2 then (.waiting, some (kind :: len :: rest))
      else (.assembling (kind :: len :: rest) now, none) := by
  simp only [parseByte, hgot]

/-- The part with some bytes of a message assembled. -/
def State.holding (s : State) (got : List Byte) : State :=
  s.setRlc { s.rlc with parser := .assembling got s.now }

theorem setParser_waiting {s : State} (h : s.rlc.parser = .waiting) : s.setRlc { s.rlc with parser := .waiting } = s := by
  rw [← h]
  rfl

/-- The rest of a message's bytes complete it. -/
theorem receiveByte_rest {s : State} {kind len : Byte} {rest : List Byte} (hwaiting : s.rlc.parser = .waiting)
    (hrest : rest.length = len.toNat + 2) : ∀ tail got : List Byte, got ≠ [] → tail ≠ [] →
      got ++ tail = kind :: len :: rest →
      tail.foldl State.receiveByte (s.holding got) = s.completeMessage (kind :: len :: rest) := by
  intro tail
  induction tail with
  | nil => exact fun _ _ hne => absurd rfl hne
  | cons b tl ih =>
    intro got hgot _ hbytes
    obtain ⟨g, gs, rfl⟩ := List.exists_cons_of_ne_nil hgot
    obtain ⟨x, xs, hx⟩ : ∃ x xs, gs ++ [b] = x :: xs := List.exists_cons_of_ne_nil (by simp)
    have hsplit : g :: x :: (xs ++ tl) = kind :: len :: rest := by
      have hassoc : g :: (gs ++ [b]) ++ tl = kind :: len :: rest := by simpa using hbytes
      rw [hx] at hassoc
      simpa using hassoc
    simp only [List.cons.injEq] at hsplit
    obtain ⟨rfl, rfl, hrest'⟩ := hsplit
    have hparse := parseByte_assembling (now := s.now) (last := s.now) (got := g :: gs) (b := b) (congrArg (g :: ·) hx)
    rw [List.foldl_cons]
    by_cases hend : tl = []
    · subst hend
      obtain rfl : xs = rest := by simpa using hrest'
      rw [if_pos hrest] at hparse
      have hbyte : (s.holding (g :: gs)).receiveByte b =
          (s.setRlc { s.rlc with parser := .waiting }).completeMessage (g :: x :: xs) := by
        simp only [State.receiveByte, State.holding, State.setRlc_now, State.setRlc_rlc, hparse]
        rfl
      rw [List.foldl_nil, hbyte, setParser_waiting hwaiting]
    · have hshort : xs.length ≠ x.toNat + 2 := by
        have hlen := congrArg List.length hrest'
        have hpos := List.length_pos_iff.2 hend
        simp only [List.length_append] at hlen
        omega
      rw [if_neg hshort] at hparse
      have hbyte : (s.holding (g :: gs)).receiveByte b = s.holding (g :: x :: xs) := by
        simp only [State.receiveByte, State.holding, State.setRlc_now, State.setRlc_rlc, hparse]
        rfl
      rw [hbyte]
      exact ih _ (by simp) hend (by simp [hrest'])

/-- The bytes of one message are assembled into it and nothing else. -/
theorem receiveBytes_message {s : State} {kind len : Byte} {rest : List Byte} (hheld : s.pins.resetHeld = false)
    (hwaiting : s.rlc.parser = .waiting) (hrest : rest.length = len.toNat + 2) :
    s.receiveBytes (kind :: len :: rest) = s.completeMessage (kind :: len :: rest) := by
  have hfirst : s.receiveByte kind = s.holding [kind] := by
    simp only [State.receiveByte, hwaiting]
    rfl
  rw [State.receiveBytes, hheld, if_neg (by simp), List.foldl_cons, hfirst]
  exact receiveByte_rest hwaiting hrest (len :: rest) [kind] (by simp) (by simp) rfl

/-- Settles O16: the bytes are one message by their length, and come back as it. -/
theorem bytesAreTheMessage : Obligations.BytesAreTheMessage := by
  intro dt m s hm hheld hwaiting
  have hbyte := toNat_ofNat_byte (length_inboundBytes_le hm)
  have hcode : encodeInbound m = inboundKind m :: BitVec.ofNat 8 (inboundBytes m).length :: (inboundBytes m ++
      [hiByte (crc16 ([inboundKind m, BitVec.ofNat 8 (inboundBytes m).length] ++ inboundBytes m)),
        loByte (crc16 ([inboundKind m, BitVec.ofNat 8 (inboundBytes m).length] ++ inboundBytes m))]) := rfl
  have hread := messageRoundTrip m hm
  have hbytes : (s.advance dt).receiveBytes (encodeInbound m) = (s.advance dt).messageArrives m := by
    rw [hcode, receiveBytes_message (s := s.advance dt) hheld hwaiting (by simp [hbyte]), ← hcode, State.completeMessage,
      hread, State.messageArrives, if_neg (by simpa using hheld), State.checkedMessage, if_pos hm]
    exact congrArg (State.validMessage · m) (setParser_waiting (s := s.advance dt) hwaiting).symm
  exact congrArg done hbytes

end Sys2Proof.Machine
end

