-- ==== Sys2Proof/Proofs/LinkMessages.lean ====
section
/-!
PROOFS. Messages of the radio unit by run state (R161 to R163, R169 to R171, R173), and what RLC sends back: the statements
MessageHandling, RejectedMessages, StickyFlags and LinkCommands.
-/

namespace Sys2Proof.Machine

variable {s : State}

/-! ### A recorded occasion stays recorded -/

/-- RADIO BACK is recorded and its STATE REPORT waits (R170, R171). -/
def State.TellsBack (s : State) : Prop := s.rlc.occasions.radioBack = true ∧ ControlMsg.stateReport ∈ s.rlc.control

theorem Occasions.radioBack_add {x : Occasions} (h : x.radioBack = true) (o : Occasion) : (x.add o).radioBack = true := by
  cases o with
  | radioBack => rfl
  | listen | run | halt | faultStart | faultEnd | radioLost | flagSet | query => exact h

namespace State.TellsBack

theorem queueControl (h : s.TellsBack) (m : ControlMsg) : (s.queueControl m).TellsBack := by
  refine ⟨h.1, ?_⟩
  rw [State.queueControl_eq]
  exact List.mem_append_left _ ((mem_keptOf_of_neg (by simp [ControlMsg.isReport])).2 h.2)

theorem recordOccasion (h : s.TellsBack) (o : Occasion) : (s.recordOccasion o).TellsBack := by
  have hset : (s.setRlc { s.rlc with occasions := s.rlc.occasions.add o }).TellsBack :=
    ⟨Occasions.radioBack_add h.1 o, h.2⟩
  unfold State.recordOccasion
  dsimp only
  split
  · exact hset.queueControl _
  · exact hset

theorem setFlag (h : s.TellsBack) (k : Sticky) : (s.setFlag k).TellsBack := by
  have hset : (s.setRlc { s.rlc with flags := s.rlc.flags.set k }).TellsBack := h
  unfold State.setFlag
  split
  · exact h
  · exact hset.recordOccasion _

theorem applySample (h : s.TellsBack) (g margin : Byte) : (s.applySample g margin).TellsBack := by
  obtain ⟨cve, hs⟩ := s.applySample_frame g margin
  rwa [hs]

theorem setShadows (h : s.TellsBack) (m : Word16) : (s.setShadows m).TellsBack := by
  unfold State.setShadows
  split <;> exact h

theorem noticeIfChanged (h : s.TellsBack) : s.noticeIfChanged.TellsBack := by
  unfold State.noticeIfChanged
  dsimp only
  split
  · exact h
  · exact queueControl (by exact h) _

theorem departure (h : s.TellsBack) (g : Byte) : (s.departure g).TellsBack := by
  unfold State.departure
  split
  · split
    · exact noticeIfChanged (by exact h)
    · exact h
  · exact h

theorem freeContext (h : s.TellsBack) (c : Context) : (s.freeContext c).TellsBack := by
  unfold State.freeContext
  dsimp only
  split
  · exact departure (by exact h) _
  · exact h

theorem setPosition (h : s.TellsBack) (c : Context) (segment : Byte) : (s.setPosition c segment).TellsBack := by
  unfold State.setPosition
  dsimp only
  split
  · exact h
  · split
    · exact departure (by exact h) _
    · exact h

theorem attach (h : s.TellsBack) (crane segment : Byte) : (s.attach crane segment).TellsBack := by
  unfold State.attach
  split
  · exact h.queueControl _
  · split
    · split
      · exact h.setPosition _ _
      · exact h
    · split
      · exact h
      · exact h.queueControl _

theorem position (h : s.TellsBack) (crane segment : Byte) : (s.position crane segment).TellsBack := by
  unfold State.position
  split
  · exact h.setPosition _ _
  · exact h

theorem detach (h : s.TellsBack) (crane : Byte) : (s.detach crane).TellsBack := by
  unfold State.detach
  split
  · split
    · exact h.freeContext _
    · exact h
  · exact h

theorem giveCrane (h : s.TellsBack) (f : Frame) (life : Nat) : (s.giveCrane f life).TellsBack := by
  obtain ⟨lnc, cru, hs⟩ := s.giveCrane_frame f life
  rwa [hs]

theorem offerDiscarded (h : s.TellsBack) (crane token : Byte) : (s.offerDiscarded crane token).TellsBack := by
  unfold State.offerDiscarded
  split <;> exact h

theorem offerTo (h : s.TellsBack) (c : Context) (peer : Byte) : (s.offerTo c peer).TellsBack := by
  unfold State.offerTo State.giveHandover
  dsimp only
  split
  · rename_i hroom
    obtain ⟨lnc, hs, -⟩ := State.joinClass_frame _ .handover _
    rw [hs]
    exact h
  · exact offerDiscarded (by exact h) _ _

theorem handoverWindow (h : s.TellsBack) (crane : Byte) : (s.handoverWindow crane).TellsBack := by
  unfold State.handoverWindow
  split
  · split
    · split
      · exact h.offerTo _ _
      · exact h
    · exact h
  · exact h

theorem uplink (h : s.TellsBack) (crane seq : Byte) (payload : List Byte) : (s.uplink crane seq payload).TellsBack := by
  unfold State.uplink
  split
  · split
    case isTrue =>
      dsimp only
      refine handoverWindow ?_ _
      split
      · refine giveCrane ?_ _ _
        exact h
      · refine giveCrane ?_ _ _
        exact h
    case isFalse => exact h
  · exact h

theorem downlink (h : s.TellsBack) (crane seq : Byte) (deadline : Nat) (payload : List Byte) :
    (s.downlink crane seq deadline payload).TellsBack := by
  unfold State.downlink State.joinDownlink
  split
  · split
    · exact h.giveCrane _ _
    · exact h.giveCrane _ _
  · exact h.giveCrane _ _

theorem forward (h : s.TellsBack) (r : Report) : (s.forward r).TellsBack := by
  obtain ⟨bas, lnc, hs⟩ := s.forward_frame r
  rwa [hs]

theorem enterHoldback (h : s.TellsBack) (r : Report) (margin : Byte) : (s.enterHoldback r margin).TellsBack := by
  obtain ⟨rfi, hs, -⟩ := s.enterHoldback_frame r margin
  rwa [hs]

theorem routeReport (h : s.TellsBack) (r : Report) (margin : Byte) : (s.routeReport r margin).TellsBack := by
  unfold State.routeReport
  split
  · split
    · exact h
    · split
      · exact forward (by exact h) _
      · exact enterHoldback (by exact h) _ _
  · split
    · split
      · exact h
      · split
        · exact h
        · split
          · exact forward (by exact h) _
          · exact h.setFlag _
    · split
      · exact h.enterHoldback _ _
      · split
        · exact forward (by exact h) _
        · exact (h.setFlag _).enterHoldback _ _

theorem drainRequest (h : s.TellsBack) (limit : Nat) : (s.drainRequest limit).TellsBack := by
  unfold State.drainRequest State.takeInHand
  split
  · split
    · exact h
    · split <;> exact h
  · exact h

theorem dispatchMessage {m : Inbound} (h : s.TellsBack) (hm : m ≠ .restart) : (s.dispatchMessage m).TellsBack := by
  cases m with
  | radioStatus => exact h.setShadows _
  | qualitySample => exact h.applySample _ _
  | reeferReport =>
    unfold State.dispatchMessage State.reeferIntake
    dsimp only
    split
    · exact h.applySample _ _
    · exact (h.applySample _ _).routeReport _ _
  | craneAttach => exact h.attach _ _
  | cranePosition => exact h.position _ _
  | craneDetach => exact h.detach _
  | craneUplink crane =>
    unfold State.dispatchMessage
    dsimp only
    split
    · exact (h.applySample _ _).uplink _ _ _
    · exact h.uplink _ _ _
  | craneDownlink =>
    unfold State.dispatchMessage
    dsimp only
    split
    · exact h.downlink _ _ _ _
    · exact h.setFlag _
  | drain =>
    unfold State.dispatchMessage
    dsimp only
    split
    · exact h.drainRequest _
    · exact h.setFlag _
  | hold | resume => exact h
  | stateQuery => exact h.recordOccasion _
  | restart => exact absurd rfl hm

end State.TellsBack

/-! ### Messages by run state (R161 to R163, R169, R170) -/

/-- A row of the radio link is its message. -/
theorem exec_message {c : Instr} {m : Inbound} (h : c.message = some m) (s : State) :
    exec c s = done ((s.advance c.elapsed).messageArrives m) := by
  cases c <;> cases h <;> rfl

/-- While the reset input is inactive a message is checked and leaves the parser WAITING. -/
theorem messageArrives_of_released (h : s.pins.resetHeld = false) (m : Inbound) :
    s.messageArrives m = (s.setRlc { s.rlc with parser := .waiting }).checkedMessage m := by
  rw [State.messageArrives, if_neg (by simp [h])]

/-- What the owners of a message find. -/
theorem base_accepting (s : State) (dt : Micros) : (s.accepting dt).base = ((s.now + dt, s.pending), s.stc, s.pins, s.nbt,
    .waiting, false, some (s.now + dt + 1000 * s.cfg.radioWatch)) := by
  unfold State.accepting State.supervisionStep State.restartSupervision
  dsimp only
  split
  case isTrue =>
    rw [State.base_recordOccasion]
    rfl
  case isFalse hlost =>
    have hlost : s.rlc.radioLost = false := by simpa using hlost
    simp only [State.base, State.setRlc_rlc, State.advance_eq, hlost]
    rfl

/-- Under radio loss the message ends it, with RADIO BACK (R170). -/
theorem tellsBack_accepting {dt : Micros} (hrun : s.running = true) (hlost : s.rlc.radioLost = true) :
    (s.accepting dt).TellsBack := by
  have hstate : s.stc.runState ≠ .load := fun h => by simp [State.running, h] at hrun
  have heq : s.accepting dt = (((s.advance dt).setRlc { s.rlc with
      parser := .waiting, supervisionDue := some (s.now + dt + millis s.cfg.radioWatch),
      radioLost := false }).recordOccasion .radioBack) := by
    unfold State.accepting State.supervisionStep
    rw [State.setRlc_rlc, if_pos hlost]
    rfl
  rw [heq]
  exact ⟨congrArg (·.rlc.occasions.radioBack) (State.recordOccasion_frame _ .radioBack),
    State.report_of_recordOccasion hstate⟩

/-- Settles O22: by run state; in LISTEN and RUN nothing an owner does reaches the parser, supervision, STC, the neighbours
or the pins. -/
theorem messageHandling : Obligations.MessageHandling := by
  intro c m s hc hm hheld hrestart u
  have hchecked : (s.advance c.elapsed).messageArrives m = u.validMessage m := by
    rw [messageArrives_of_released (s := s.advance c.elapsed) hheld, State.checkedMessage, if_pos hm]
    rfl
  refine ⟨fun hrun hquery => ?_, fun hhalt hquery => ?_, fun hrun => ?_⟩
  · have hdiscarded : u.validMessage m = u := by
      have hstate : s.stc.runState = .load ∨ s.stc.runState = .halt := by
        cases hs : s.stc.runState <;> simp [State.running, hs] at hrun ⊢
      unfold State.validMessage
      split
      case h_1 => exact absurd rfl hrestart
      case h_2 =>
        have hu : u.stc.runState = s.stc.runState := rfl
        rcases hstate with hs | hs
        · simp [hu, hs]
        · have hm : m ≠ .stateQuery := fun h => hquery ⟨hs, h⟩
          simp [hu, hs, hm]
    rw [exec_message hc, hchecked, hdiscarded]
    rfl
  · subst hquery
    have hstate : u.stc.runState = .halt := hhalt
    have hasked : u.validMessage .stateQuery = u.recordOccasion .query := by simp [State.validMessage, hstate]
    refine ⟨?_, congrArg (·.rlc.occasions.query) (State.recordOccasion_frame _ .query),
      State.report_of_recordOccasion (by simp [hstate])⟩
    rw [exec_message hc, hchecked, hasked]
    rfl
  · have hsent := State.messageArrives_eq (dt := c.elapsed) ⟨hrun, hheld⟩ hm hrestart
    have hbase := (State.base_dispatchMessage (s.accepting c.elapsed) hrestart).trans (base_accepting s c.elapsed)
    refine ⟨_, (exec_message hc s).trans (congrArg done hsent), ?_⟩
    simp only [State.base, Prod.mk.injEq] at hbase
    obtain ⟨-, hstc, hpins, hnbt, hparser, hlost, hdue⟩ := hbase
    exact ⟨hparser, hlost, hdue, fun hlost => (tellsBack_accepting hrun hlost).dispatchMessage hrestart, hstc, hnbt, hpins⟩

/-- Settles O23: by the parser, and the checks of a complete message. -/
theorem rejectedMessages : Obligations.RejectedMessages := by
  intro dt s hheld u
  refine ⟨fun got last hparser => ?_, fun kind len rest hwaiting hrest => ?_, fun c m hc hdt hm => ?_⟩
  · have hpause : u.parserPause = if last + 2000 ≤ s.now + dt then u.setRlc { s.rlc with parser := .waiting } else u := by
      have hu : u.rlc.parser = .assembling got last := hparser
      simp only [State.parserPause, hu]
      rfl
    exact congrArg done hpause
  · have hbytes := receiveBytes_message (s := u) (kind := kind) hheld hwaiting hrest
    refine ⟨fun hbad => ?_, fun hmalformed => ?_⟩
    · rw [State.completeMessage, hbad] at hbytes
      exact congrArg done hbytes
    · rw [State.completeMessage, hmalformed] at hbytes
      exact congrArg done hbytes
  · subst hdt
    have hmalformed : u.messageArrives m = (u.setRlc { s.rlc with parser := .waiting }).setFlag .linkError := by
      rw [messageArrives_of_released (s := u) hheld, State.checkedMessage, if_neg (by simp [hm])]
      rfl
    rw [exec_message hc, hmalformed]
    rfl

/-! ### Sticky flags (R173) -/

theorem StickyFlags.get_set_self (f : StickyFlags) (k : Sticky) : (f.set k).get k = true := by cases k <;> rfl

theorem StickyFlags.get_set_of_ne (f : StickyFlags) {j k : Sticky} (h : j ≠ k) : (f.set k).get j = f.get j := by
  cases k <;> cases j <;> simp [StickyFlags.get, StickyFlags.set] at h ⊢

/-- A set flag changes nothing. -/
theorem State.setFlag_of_set {k : Sticky} (h : s.rlc.flags.get k = true) : s.setFlag k = s := by
  rw [State.setFlag, if_pos h]

/-- A clear flag is set and FLAG SET recorded. -/
theorem State.setFlag_of_clear {k : Sticky} (h : s.rlc.flags.get k = false) :
    s.setFlag k = (s.setRlc { s.rlc with flags := s.rlc.flags.set k }).recordOccasion .flagSet := by
  rw [State.setFlag, if_neg (by simp [h])]

/-- Where a STATE REPORT waits, or in LOAD, an occasion queues none (R171). -/
theorem State.control_recordOccasion {o : Occasion} (h : s.stc.runState = .load ∨ ControlMsg.stateReport ∈ s.rlc.control) :
    (s.recordOccasion o).rlc.control = s.rlc.control := by
  rw [State.recordOccasion]
  dsimp only
  rw [if_neg fun ⟨hload, hreport⟩ => h.elim hload hreport]
  rfl

/-- Settles O24: by whether the flag was set. -/
theorem stickyFlags : Obligations.StickyFlags := by
  intro k s t
  cases hk : s.rlc.flags.get k with
  | true =>
    have ht : t = s := State.setFlag_of_set hk
    rw [ht]
    exact ⟨hk, fun _ _ => rfl, fun _ => rfl, (fun h => by cases h), rfl⟩
  | false =>
    have ht : t = _ := State.setFlag_of_clear hk
    have hframe := State.recordOccasion_frame (s.setRlc { s.rlc with flags := s.rlc.flags.set k }) .flagSet
    have hflags : t.rlc.flags = s.rlc.flags.set k := by
      rw [ht, hframe]
      rfl
    have hocc : t.rlc.occasions = s.rlc.occasions.add .flagSet := by
      rw [ht, hframe]
      rfl
    refine ⟨by rw [hflags, StickyFlags.get_set_self], fun j hj => by rw [hflags, StickyFlags.get_set_of_ne _ hj],
      (fun h => by cases h), fun _ => ⟨hocc, by rw [hocc]; rfl, fun hload => ?_, fun hload => ?_⟩, s.setFlag_frame k⟩
    · rw [ht]
      exact State.report_of_recordOccasion hload
    · rw [ht]
      exact State.control_recordOccasion (s := s.setRlc { s.rlc with flags := s.rlc.flags.set k }) hload

/-! ### What goes out (Tables 11-6, 11-7) -/

theorem testBit_of_mod {n k : Nat} {b : Bool} (h : n / 2 ^ k % 2 = b.toNat) : n.testBit k = b := by
  rw [Nat.testBit_eq_decide_div_mod_eq, h]
  cases b <;> rfl

theorem bit_eq (b : Bool) (k : Nat) : bit b k = 2 ^ k * b.toNat := by cases b <;> simp [bit]

/-- The condition byte of a STATE REPORT. -/
theorem condition_bits (lost fault : Bool) (k : FaultKind) :
    let x : Byte := BitVec.ofNat 8 (bit lost 0 + bit fault 1 + 4 * faultCode k)
    x.getLsbD 0 = lost ∧ x.getLsbD 1 = fault ∧ x.toNat / 4 = faultCode k := by
  cases lost <;> cases fault <;> cases k <;> decide

/-- The flags byte. -/
theorem flag_bits (a b c d : Bool) :
    let x : Byte := BitVec.ofNat 8 (bit a 0 + bit b 1 + bit c 2 + bit d 3)
    x.getLsbD 0 = a ∧ x.getLsbD 1 = b ∧ x.getLsbD 2 = c ∧ x.getLsbD 3 = d ∧ x.toNat < 16 := by
  cases a <;> cases b <;> cases c <;> cases d <;> decide

/-- The occasions of a STATE REPORT. -/
theorem occasion_bits (o : Occasions) :
    let x : Word16 := BitVec.ofNat 16 (occasionBits o)
    x.getLsbD 0 = o.listen ∧ x.getLsbD 1 = o.run ∧ x.getLsbD 2 = o.halt ∧ x.getLsbD 3 = o.faultStart ∧
      x.getLsbD 4 = o.faultEnd ∧ x.getLsbD 5 = o.radioLost ∧ x.getLsbD 6 = o.radioBack ∧ x.getLsbD 7 = o.flagSet ∧
      x.getLsbD 8 = o.query ∧ x.toNat < 512 := by
  obtain ⟨a, b, c, d, e, f, g, h, i⟩ := o
  have ha := a.toNat_le
  have hb := b.toNat_le
  have hc := c.toNat_le
  have hd := d.toNat_le
  have he := e.toNat_le
  have hf := f.toNat_le
  have hg := g.toNat_le
  have hh := h.toNat_le
  have hi := i.toNat_le
  have hbit (x : Word16) (k : Nat) {v : Bool} (hv : x.toNat / 2 ^ k % 2 = v.toNat) : x.getLsbD k = v := testBit_of_mod hv
  simp only [occasionBits, bit_eq]
  refine ⟨hbit _ _ ?_, hbit _ _ ?_, hbit _ _ ?_, hbit _ _ ?_, hbit _ _ ?_, hbit _ _ ?_, hbit _ _ ?_, hbit _ _ ?_,
    hbit _ _ ?_, ?_⟩
  all_goals
    rw [BitVec.toNat_ofNat]
    omega

theorem alarmClassByte_toNat (a : BitVec 4) (k : ReportClass) :
    (alarmClassByte a k).toNat = a.toNat + if k = .alert then 128 else 0 := by
  cases k <;> revert a <;> decide

/-- What a waiting message leaves of a stopped link. -/
theorem linkTake_of_stopped (h : s.rlc.stopped = true) : s.linkTake = s := by simp [State.linkTake, h]

theorem runByte_eq (x : RunState) :
    (BitVec.ofNat 8 (runCode x) : Byte) = match x with | .load => 0 | .halt => 1 | .listen => 2 | .run => 3 := by
  cases x <;> rfl

theorem haltByte_eq (x : HaltReason) :
    (BitVec.ofNat 8 (haltCode x) : Byte) = match x with | .none => 0 | .configAbsent => 1 | .badAddress => 2 := by
  cases x <;> rfl

theorem causeByte_eq (x : ResetCause) :
    (BitVec.ofNat 8 (causeCode x) : Byte) = match x with | .cold => 0 | .request => 1 | .supervision => 2 := by
  cases x <;> rfl

/-- Settles O26: the commands by the message they are, the bytes table by table. -/
theorem linkCommands : Obligations.LinkCommands := by
  constructor
  · intro dt s u asked
    refine ⟨fun hattends => ?_, rfl⟩
    have harrives {m : Inbound} (hm : inboundWellFormed m = true) (hrestart : m ≠ .restart) :
        (s.advance dt).messageArrives m = u.dispatchMessage m := State.messageArrives_eq hattends hm hrestart
    have hstate : u.stc.runState ≠ .load := by
      have hbase := base_accepting s dt
      simp only [State.base, Prod.mk.injEq] at hbase
      obtain ⟨-, hstc, -⟩ := hbase
      intro hload
      have hrun := hattends.1
      rw [hstc] at hload
      simp [State.running, hload] at hrun
    refine ⟨?_, ?_, ?_, congrArg (·.rlc.occasions.query) (State.recordOccasion_frame u .query),
      State.report_of_recordOccasion hstate⟩
    · exact (congrArg done (harrives rfl (by simp))).trans (congrArg _ (linkTake_of_stopped rfl))
    · exact congrArg done (harrives rfl (by simp))
    · exact congrArg done (harrives rfl (by simp))
  · intro two message
    refine ⟨fun _ _ => rfl, fun _ _ _ => rfl, fun _ _ => rfl, fun _ => ⟨rfl, rfl, rfl⟩, fun _ _ _ _ _ _ => rfl,
      fun r station => ⟨_, alarmClassByte_toNat r.alarm r.cls, rfl⟩, fun count remaining status => by cases status <;> rfl,
      fun r hload => ?_⟩
    obtain ⟨hlost, hfault, hkind⟩ := condition_bits r.radioLost r.lineFault r.faultKind
    obtain ⟨hclash, hfull, hcustody, hlink, hflags⟩ :=
      flag_bits r.flags.addressClash r.flags.neighbourFull r.flags.custodyFull r.flags.linkError
    refine ⟨_, _, _, ?_, hlost, hfault, ?_, hclash, hfull, hcustody, hlink, hflags, occasion_bits r.occasions⟩
    · simp only [encodeOutbound, outboundKind, outboundBytes, stateReportBytes, runByte_eq, haltByte_eq, causeByte_eq]
      rfl
    · rw [hkind]
      cases r.faultKind <;> rfl

end Sys2Proof.Machine
end

