-- ==== Sys2Proof/Proofs/LinkQueues.lean ====
section
/-!
PROOFS. RLC's outbound queues: what a full one drops, which message is taken next, and the drain of the delivery store
(R158, R159, R165 to R168, R172); the statements QueueDrops, OutboundOrder and Draining.
-/

namespace Sys2Proof.Machine

variable {s : State}

/-! ### Full queues (R165, R166) -/

theorem keptOf_of_room {α : Type} {p : α → Bool} {q : List α} (h : q.length < 8) : keptOf p q = q := if_pos h

/-- Settles O25: a full queue splits at its oldest message that may go. -/
theorem queueDrops : Obligations.QueueDrops := by
  intro s
  refine ⟨fun m _ hone => ⟨fun hroom => ?_, fun hfull => ?_⟩, fun m _ hone => ⟨fun hroom => ?_, fun hfull => ?_⟩,
    fun m hlen => ?_⟩
  · rw [State.queueControl_eq]
    exact congrArg (· ++ [m]) (keptOf_of_room hroom)
  · obtain ⟨kept, x, later, hq, hkept, hx, hdrop⟩ :=
      exists_split_of_full (p := fun x : ControlMsg => !x.isReport) hfull (by simpa using hone)
    refine ⟨kept, x, later, hq, fun y hy => by simpa [ControlMsg.isReport] using hkept y hy,
      by simpa [ControlMsg.isReport] using hx, ?_⟩
    rw [State.queueControl_eq]
    exact congrArg (· ++ [m]) hdrop
  · rw [State.queueDrain_eq]
    exact congrArg (· ++ [m]) (keptOf_of_room hroom)
  · obtain ⟨kept, x, later, hq, hkept, hx, hdrop⟩ := exists_split_of_full hfull hone
    refine ⟨kept, x, later, hq, hkept, hx, ?_⟩
    rw [State.queueDrain_eq]
    exact congrArg (· ++ [m]) hdrop
  · refine ⟨length_pushDropOldest (by decide) hlen, ?_⟩
    by_cases hroom : s.rlc.terminal.length < 4
    · exact ⟨[], by simp [State.queueTerminal, pushDropOldest, Config.terminalCapacity, hroom], by simp [hroom], by simp⟩
    · obtain ⟨x, xs, hx⟩ := List.exists_cons_of_length_pos (l := s.rlc.terminal) (by omega)
      refine ⟨[x], ?_, by simp [hroom], by simp⟩
      simp [State.queueTerminal, pushDropOldest, Config.terminalCapacity, hx]
      rw [hx, List.length_cons] at hroom
      omega

/-! ### The downlink head due first (R166) -/

/-- One context's say in which downlink head is due first. -/
def dueFirst (best : Option (Context × Downlink)) (c : Context) : Option (Context × Downlink) :=
  match best, c.queue.head? with
  | _, none => best
  | none, some e => some (c, e)
  | some b, some e => if e.deadline < b.2.deadline then some (c, e) else some b

theorem State.downlinkHead_eq : s.downlinkHead = (s.cru.contexts.filter Context.active).foldl dueFirst none := rfl

theorem dueFirst_of_empty {best : Option (Context × Downlink)} {c : Context} (h : c.queue = []) :
    dueFirst best c = best := by
  unfold dueFirst
  rw [h]
  rfl

theorem dueFirst_none {c : Context} {e : Downlink} (h : c.queue.head? = some e) : dueFirst none c = some (c, e) := by
  unfold dueFirst
  rw [h]

theorem dueFirst_some {c : Context} {e : Downlink} (h : c.queue.head? = some e) (b : Context × Downlink) :
    dueFirst (some b) c = if e.deadline < b.2.deadline then some (c, e) else some b := by
  unfold dueFirst
  rw [h]

theorem foldl_dueFirst_of_empty {l : List Context} (h : ∀ c ∈ l, c.queue = []) (best : Option (Context × Downlink)) :
    l.foldl dueFirst best = best :=
  List.foldlRecOn (motive := (· = best)) l _ rfl fun x hx c hc => by rw [hx, dueFirst_of_empty (h c hc)]

/-- What every context before gives is due later, so the head at hand is taken; none after is due earlier. -/
theorem State.downlinkHead_eq_some {c : Context} {e : Downlink} {q : List Downlink}
    (hsorted : TableSorted Context.key s.cru.contexts) (hc : c ∈ s.cru.contexts) (hactive : c.active = true)
    (hq : c.queue = e :: q)
    (hfirst : ∀ d ∈ s.cru.contexts, d.active = true → d.crane ≠ c.crane → ∀ e', d.queue.head? = some e' →
      e.deadline < e'.deadline ∨ (e.deadline = e'.deadline ∧ c.crane.toNat < d.crane.toNat)) :
    s.downlinkHead = some (c, e) := by
  obtain ⟨before, after, hsplit⟩ := List.append_of_mem (List.mem_filter.2 ⟨hc, hactive⟩)
  have hpair : TableSorted Context.key (before ++ c :: after) := hsplit ▸ hsorted.filter _
  obtain ⟨-, hafter, hbefore⟩ := List.pairwise_append.1 hpair
  have hmem {d : Context} (hd : d ∈ before ++ c :: after) : d ∈ s.cru.contexts ∧ d.active = true := by
    rw [← hsplit] at hd
    exact List.mem_filter.1 hd
  have hlater (d : Context) (hd : d ∈ before) (e' : Downlink) (he : d.queue.head? = some e') : e.deadline < e'.deadline := by
    have hkey : d.crane.toNat < c.crane.toNat := hbefore d hd c List.mem_cons_self
    obtain ⟨hd', hactive'⟩ := hmem (List.mem_append_left _ hd)
    rcases hfirst d hd' hactive' (fun h => by rw [h] at hkey; exact absurd hkey (lt_irrefl _)) e' he with h | ⟨-, h⟩
    · exact h
    · omega
  have hnotearlier (d : Context) (hd : d ∈ after) (e' : Downlink) (he : d.queue.head? = some e') :
      ¬e'.deadline < e.deadline := by
    have hkey : c.crane.toNat < d.crane.toNat := (List.pairwise_cons.1 hafter).1 d hd
    obtain ⟨hd', hactive'⟩ := hmem (List.mem_append_right _ (List.mem_cons_of_mem _ hd))
    rcases hfirst d hd' hactive' (fun h => by rw [h] at hkey; exact absurd hkey (lt_irrefl _)) e' he with h | ⟨h, -⟩
    · exact Nat.not_lt.2 h.le
    · exact Nat.not_lt.2 h.le
  have hbest : ∀ b, before.foldl dueFirst none = some b → e.deadline < b.2.deadline := by
    refine List.foldlRecOn (motive := fun best => ∀ b : Context × Downlink, best = some b → e.deadline < b.2.deadline) before
      _ (fun b hb => by cases hb) fun best hb d hd x hx => ?_
    unfold dueFirst at hx
    split at hx
    case h_1 => exact hb x hx
    case h_2 he =>
      cases hx
      exact hlater d hd _ he
    case h_3 he =>
      split at hx
      · cases hx
        exact hlater d hd _ he
      · exact hb x hx
  have htaken : dueFirst (before.foldl dueFirst none) c = some (c, e) := by
    have hhead : c.queue.head? = some e := by simp [hq]
    cases hb : before.foldl dueFirst none with
    | none => exact dueFirst_none hhead
    | some b => rw [dueFirst_some hhead, if_pos (hbest b hb)]
  rw [State.downlinkHead_eq, hsplit, List.foldl_append, List.foldl_cons, htaken]
  refine List.foldlRecOn (motive := (· = some (c, e))) after _ rfl fun best hb d hd => ?_
  rw [hb]
  cases he : d.queue.head? with
  | none => exact dueFirst_of_empty (List.head?_eq_none_iff.1 he)
  | some e' => rw [dueFirst_some he, if_neg (hnotearlier d hd e' he)]

/-! ### Which message is taken (R167) -/

/-- A free link that is FLOWING takes the control message at the head. -/
theorem linkTake_of_control {m : ControlMsg} {rest : List ControlMsg} (hflowing : s.rlc.stopped = false)
    (hfree : s.rlc.inProgress = none) (h : s.rlc.control = m :: rest) :
    s.linkTake = (s.setRlc { s.rlc with control := rest }).takeControl m := by
  simp [State.linkTake, hflowing, hfree, h]

theorem linkTake_of_crane {t : State} (hflowing : s.rlc.stopped = false) (hfree : s.rlc.inProgress = none)
    (h : s.rlc.control = []) (ht : s.takeCrane = some t) : s.linkTake = t := by
  simp [State.linkTake, hflowing, hfree, h, ht]

theorem linkTake_of_drain {m : DrainMsg} {rest : List DrainMsg} (hflowing : s.rlc.stopped = false)
    (hfree : s.rlc.inProgress = none) (h : s.rlc.control = []) (ht : s.takeCrane = none)
    (hdrain : s.rlc.drainQueue = m :: rest) : s.linkTake = s.takeDrain m := by
  simp [State.linkTake, hflowing, hfree, h, ht, hdrain]

/-- A downlink head that is taken comes from an active context. -/
theorem State.active_of_downlinkHead {c : Context} {e : Downlink} (h : s.downlinkHead = some (c, e)) :
    c ∈ s.cru.contexts ∧ c.active = true := by
  have hall : ∀ x, s.downlinkHead = some x → x.1 ∈ s.cru.contexts ∧ x.1.active = true := by
    rw [State.downlinkHead_eq]
    refine List.foldlRecOn (motive := fun best => ∀ x : Context × Downlink, best = some x →
      x.1 ∈ s.cru.contexts ∧ x.1.active = true) _ _ (fun x hx => by cases hx) fun best hbest d hd x hx => ?_
    unfold dueFirst at hx
    split at hx
    · exact hbest x hx
    · cases hx
      exact List.mem_filter.1 hd
    · split at hx
      · cases hx
        exact List.mem_filter.1 hd
      · exact hbest x hx
  exact hall (c, e) h

/-- Settles O27: by the class that gives the message. -/
theorem outboundOrder : Obligations.OutboundOrder := by
  intro s
  refine ⟨fun hbusy => ?_, fun hflowing hfree => ⟨fun rest h => ?_, fun _ _ rest h => linkTake_of_control hflowing hfree h,
    fun _ _ rest h => linkTake_of_control hflowing hfree h, fun _ _ rest h => linkTake_of_control hflowing hfree h,
    fun hcontrol => ⟨fun m rest hterminal hfirst => ?_, fun c e q hsorted hc hactive hq hterminal hfirst => ?_,
      fun m rest hterminal hempty hdrain => ?_⟩⟩⟩
  · rcases hbusy with h | h
    · exact linkTake_of_stopped h
    · have hsome := Option.isSome_iff_ne_none.2 h
      simp [State.linkTake, hsome]
  · exact linkTake_of_control hflowing hfree h
  · refine linkTake_of_crane hflowing hfree hcontrol ?_
    have hdrop : s.rlc.terminal.drop 1 = rest := by simp [hterminal]
    cases hd : s.downlinkHead with
    | none => simp [State.takeCrane, hd, hterminal, State.takeTerminal]
    | some x =>
      obtain ⟨c, e⟩ := x
      obtain ⟨hc, hactive⟩ := s.active_of_downlinkHead hd
      have hle := hfirst c hc hactive e (s.head_of_downlinkHead hd)
      simp [State.takeCrane, hd, hterminal, State.takeTerminal, hle]
  · refine linkTake_of_crane hflowing hfree hcontrol ?_
    have hhead := State.downlinkHead_eq_some hsorted hc hactive hq hfirst
    have htake : s.takeDownlink c e = (s.putContext { c with queue := q }).setRlc { s.rlc with
        inProgress := some (.craneDeliver c.crane e.seq e.payload) } := by
      rw [State.takeDownlink, hq]
      rfl
    rw [← htake]
    cases ht : s.rlc.terminal.head? with
    | none => simp [State.takeCrane, ht, hhead]
    | some m =>
      have hlate := hterminal m ht
      simp [State.takeCrane, ht, hhead, Nat.not_le.2 hlate]
  · refine linkTake_of_drain hflowing hfree hcontrol ?_ hdrain
    have hnone : s.downlinkHead = none := by
      rw [State.downlinkHead_eq]
      exact foldl_dueFirst_of_empty (fun c hc => hempty c (List.mem_filter.1 hc).1 (List.mem_filter.1 hc).2) _
    simp [State.takeCrane, hterminal, hnone]

/-! ### The drain (R158, R159) -/

theorem clampLimit_eq (limit : Byte) :
    clampLimit limit = if limit = 0 then 1 else if 64 < limit.toNat then 64 else limit.toNat := by
  have h0 : limit = 0 ↔ limit.toNat = 0 := by
    rw [← BitVec.toNat_inj]
    rfl
  simp only [clampLimit, clampNat, h0]
  split
  · omega
  · split <;> omega

/-- Settles O28: by role, by what is stored, and by the record in hand. -/
theorem draining : Obligations.Draining := by
  refine ⟨fun dt limit s hattends => ?_, fun s a k x store r station rest hd hs hx hq => ⟨fun hlast => ?_,
    fun y ys ha hstore => ?_⟩, fun s count remaining status rest hq => ?_⟩
  · obtain ⟨rlc, hu, -⟩ := s.accepting_frame dt
    have hgds : (s.accepting dt).gds = s.gds := by rw [hu]; rfl
    have hcfg : (s.accepting dt).cfg = s.cfg := by rw [hu]; rfl
    have hdone := congrArg done (State.messageArrives_eq (dt := dt) (m := .drain limit) hattends rfl (by simp))
    refine ⟨fun hedge => ?_, fun hgateway => ?_⟩
    · have hflag : (s.accepting dt).dispatchMessage (.drain limit) = (s.accepting dt).setFlag .linkError := by
        simp [State.dispatchMessage, hcfg, hedge]
      exact hdone.trans (congrArg done hflag)
    · have hrequest : (s.accepting dt).dispatchMessage (.drain limit) =
          (s.accepting dt).drainRequest (clampLimit limit) := by
        simp [State.dispatchMessage, hcfg, hgateway]
      rw [← clampLimit_eq]
      refine ⟨fun x rest hidle hstore => ?_, fun hidle hstore => ?_, fun a k hdraining => ?_⟩
      · have hstarted : (s.accepting dt).drainRequest (clampLimit limit) = ((s.accepting dt).setGds { s.gds with
            drain := .draining (clampLimit limit) 0, store := { x with inHand := true } :: rest }).queueDrain
              (.record x.report x.station) := by
          simp [State.drainRequest, State.takeInHand, hgds, hidle, hstore]
        exact hdone.trans (congrArg done (hrequest.trans hstarted))
      · have hempty : (s.accepting dt).drainRequest (clampLimit limit) =
            (s.accepting dt).queueDrain (.ended 0 0 .done) := by
          simp [State.drainRequest, hgds, hidle, hstore]
        exact hdone.trans (congrArg done (hrequest.trans hempty))
      · have hbusy : (s.accepting dt).drainRequest (clampLimit limit) =
            (s.accepting dt).queueDrain (.ended 0 s.gds.store.length .busy) := by
          simp [State.drainRequest, hgds, hdraining]
        exact hdone.trans (congrArg done (hrequest.trans hbusy))
  · exact State.takeDrain_record_last hd hs hx hq hlast
  · exact State.takeDrain_record_next hd hs hx hq ha hstore
  · simp [State.takeDrain, hq]

end Sys2Proof.Machine
end

