-- ==== Sys2Proof/Proofs/SegmentRecords.lean ====
section
/-!
PROOFS. CVE: samples and shadows (R4 to R10), departures (R45), and the evaluation of an expiry (R36 to R54); the statements
SegmentMessages, Departures, EvaluationScores, EvaluationClaims and ExpiryBeacon.
-/

namespace Sys2Proof.Machine

variable {s : State}

/-! ### Samples and shadows (R4 to R10) -/

theorem running_accepting {dt : Micros} (h : s.attends) : (s.accepting dt).running = true := by
  obtain ⟨rlc, hu, -⟩ := s.accepting_frame dt
  rw [hu]
  exact h.1

theorem cfg_accepting (s : State) (dt : Micros) : (s.accepting dt).cfg = s.cfg := by
  obtain ⟨rlc, hu, -⟩ := s.accepting_frame dt
  rw [hu]
  rfl

theorem cve_accepting (s : State) (dt : Micros) : (s.accepting dt).cve = s.cve := by
  obtain ⟨rlc, hu, -⟩ := s.accepting_frame dt
  rw [hu]
  rfl

/-- A step of the accumulator rounds half away from zero, and never passes its goal (R7). -/
theorem steppedAcc_eq {k a m : Nat} (hk : 1 ≤ k) :
    (steppedAcc k a m : Int) = a + (16 * (m : Int) - a).sign *
      (((16 * (m : Int) - a).natAbs + 2 ^ (k - 1)) / 2 ^ k : Nat) := by
  have hstep (n : Nat) : (n + 2 ^ (k - 1)) / 2 ^ k ≤ n := by
    obtain ⟨j, rfl⟩ := Nat.exists_eq_add_of_le' hk
    have hpos : 0 < 2 ^ j := Nat.two_pow_pos j
    have hn : n ≤ 2 ^ j * n := Nat.le_mul_of_pos_left n hpos
    rw [Nat.add_sub_cancel, Nat.div_le_iff_le_mul_add_pred (Nat.two_pow_pos _), Nat.pow_succ, Nat.mul_right_comm]
    omega
  have hle := hstep (16 * (m : Int) - (a : Int)).natAbs
  unfold steppedAcc
  dsimp only
  generalize ((16 * (m : Int) - (a : Int)).natAbs + 2 ^ (k - 1)) / 2 ^ k = step at hle ⊢
  split
  case isTrue hneg =>
    rw [Int.sign_eq_neg_one_of_neg hneg]
    omega
  case isFalse hpos =>
    rcases Int.lt_or_eq_of_le (not_lt.1 hpos) with h | h
    · rw [Int.sign_eq_one_of_pos h]
      omega
    · rw [← h] at hle ⊢
      have hzero : step = 0 := by simpa using hle
      simp [hzero]

/-- A sample reaches the record of its home segment alone. -/
theorem applySample_getElem? {g m : Byte} {i : Nat} (hrun : s.running = true)
    (hlen : s.cve.segments.length = s.cfg.homeCount) :
    (s.applySample g m).cve.segments[i]? = (s.cve.segments[i]?).map fun r =>
      if s.cfg.homeFirst + i = g.toNat then r.sample s.cfg.qualShift m.toNat else r := by
  unfold State.applySample
  rw [if_pos hrun]
  split
  case h_1 j hj =>
    obtain ⟨hhome, rfl⟩ : (s.cfg.homeFirst ≤ g.toNat ∧ g.toNat < s.cfg.homeFirst + s.cfg.homeCount) ∧
        g.toNat - s.cfg.homeFirst = j := by simpa [homePosition] using hj
    have hplace : (s.cfg.homeFirst + i = g.toNat) ↔ (g.toNat - s.cfg.homeFirst = i) := by omega
    simp only [State.setCve_cve, List.getElem?_modify, hplace]
    rfl
  case h_2 hnone =>
    have hfar : ¬(s.cfg.homeFirst ≤ g.toNat ∧ g.toNat < s.cfg.homeFirst + s.cfg.homeCount) := by
      simpa [homePosition] using hnone
    cases hi : s.cve.segments[i]? with
    | none => rfl
    | some r =>
      have hlt : i < s.cve.segments.length := (List.getElem?_eq_some_iff.1 hi).1
      rw [Option.map_some, if_neg (by omega)]

/-- Settles O29: record by record. -/
theorem segmentMessages : Obligations.SegmentMessages := by
  intro dt s h hattends u
  have hrun : u.running = true := running_accepting hattends
  have hcve : u.cve = s.cve := cve_accepting s dt
  have hcfg : u.cfg = s.cfg := cfg_accepting s dt
  refine ⟨fun shadowMap => ?_, fun g m hg => ?_⟩
  · have hshadows : u.setShadows shadowMap = u.setCve { u.cve with
        segments := u.cve.segments.mapIdx fun i r => { r with shadow := shadowMap.getLsbD i } } := by
      rw [State.setShadows, if_pos hrun]
    refine ⟨u.setShadows shadowMap, congrArg done (State.messageArrives_eq hattends rfl (by simp)), ?_⟩
    rw [hshadows]
    exact ⟨rfl, rfl, List.length_mapIdx, fun i r hr => by simp [hr]⟩
  · intro t
    have hlen : u.cve.segments.length = u.cfg.homeCount := by
      rw [hcve, hcfg]
      exact h.segments.count hattends.1
    obtain ⟨segments, ht, hsame⟩ : ∃ segments, t = u.setCve { u.cve with segments := segments } ∧
        segments.length = u.cve.segments.length := by
      show ∃ segments, u.applySample g m = _ ∧ _
      unfold State.applySample
      rw [if_pos hrun]
      split
      · exact ⟨_, rfl, List.length_modify _ _ _⟩
      · exact ⟨u.cve.segments, rfl, rfl⟩
    refine ⟨congrArg done (State.messageArrives_eq hattends (decide_eq_true hg) (by simp)), by rw [ht]; rfl, by rw [ht]; rfl,
      by rw [ht]; exact hsame, fun i r hr =>
        ⟨if s.cfg.homeFirst + i = g.toNat then r.sample s.cfg.qualShift m.toNat else r, ?_, ?_⟩⟩
    · rw [show t = u.applySample g m from rfl, applySample_getElem? hrun hlen, hr, hcfg]
      rfl
    · refine ⟨fun hfar => if_neg hfar, fun hhere => ?_⟩
      rw [if_pos hhere]
      have hk : 1 ≤ s.cfg.qualShift := (h.live hattends.1).active.settings.qualShift.1
      refine ⟨rfl, rfl, rfl, fun hprimed => ?_, fun hprimed => ?_, rfl, rfl, rfl⟩
      · simp [Segment.sample, hprimed]
      · simp only [Segment.sample, hprimed, if_true]
        exact steppedAcc_eq hk

/-! ### Notices (R53, R54) -/

/-- A claim map that is not the notified one. -/
def State.noticeDue (s : State) : Prop :=
  ¬(claimMap .claimed s.cve.segments = s.cve.notifiedClaimed ∧ claimMap .held s.cve.segments = s.cve.notifiedHeld)

theorem State.noticeIfChanged_of_same (h : ¬s.noticeDue) : s.noticeIfChanged = s := if_pos (not_not.1 h)

theorem State.noticeIfChanged_of_due (h : s.noticeDue) : s.noticeIfChanged =
    (s.setCve { s.cve with
      notifiedClaimed := claimMap .claimed s.cve.segments, notifiedHeld := claimMap .held s.cve.segments }).queueControl
        (.coverageNotice (claimMap .claimed s.cve.segments) (claimMap .held s.cve.segments)) := if_neg h

/-- What joins the control queue depends on RLC alone. -/
theorem State.queueControl_rlc {t : State} (m : ControlMsg) (h : t.rlc = s.rlc) :
    (t.queueControl m).rlc = (s.queueControl m).rlc := by
  simp only [State.queueControl, State.setRlc_rlc, h]

/-- In either case the notified maps are then those of the claims. -/
theorem State.noticeIfChanged_exists (s : State) : ∃ rlc, s.noticeIfChanged = (s.setCve { s.cve with
    notifiedClaimed := claimMap .claimed s.cve.segments, notifiedHeld := claimMap .held s.cve.segments }).setRlc rlc ∧
    (¬s.noticeDue → rlc = s.rlc) ∧ (s.noticeDue → rlc = (s.queueControl
      (.coverageNotice (claimMap .claimed s.cve.segments) (claimMap .held s.cve.segments))).rlc) := by
  by_cases h : s.noticeDue
  · exact ⟨_, s.noticeIfChanged_of_due h, fun hn => absurd h hn, fun _ => rfl⟩
  · refine ⟨s.rlc, ?_, fun _ => rfl, fun hd => absurd hd h⟩
    rw [s.noticeIfChanged_of_same h]
    obtain ⟨hclaimed, hheld⟩ := not_not.1 h
    rw [hclaimed, hheld]
    rfl

/-! ### Departures (R45) -/

/-- Two home segments have one map position only if they are one. -/
theorem homePosition_inj {c : Settings} {g g' : Byte} {i : Nat} (h : homePosition c g = some i)
    (h' : homePosition c g' = some i) : g = g' :=
  (segmentAt_homePosition h).1.symm.trans (segmentAt_homePosition h').1

/-- The records after a hold has ended. -/
def State.released (s : State) (i : Nat) : List Segment :=
  s.cve.segments.modify i fun r => { r with claim := .unclaimed }

theorem State.departure_of_held {g : Byte} {i : Nat} (hi : homePosition s.cfg g = some i)
    (hheld : s.claimOf g = some .held) (hactive : s.activeAt g = false) :
    s.departure g = (s.setCve { s.cve with segments := s.released i }).noticeIfChanged := by
  unfold State.departure
  rw [hi]
  exact if_pos ⟨hheld, hactive⟩

theorem State.departure_of_other {g : Byte} (h : ¬(s.claimOf g = some .held ∧ s.activeAt g = false)) :
    s.departure g = s := by
  unfold State.departure
  split
  · exact if_neg h
  · rfl

/-- Settles O35: the hold that ends clears a bit of the map of holds, so a notice is queued. -/
theorem departures : Obligations.Departures := by
  intro s g hc hlen hnotices
  refine ⟨State.departure_of_other, fun hheld hactive => ?_⟩
  intro t
  obtain ⟨i, hi, r, hr, hclaim⟩ : ∃ i, homePosition s.cfg g = some i ∧ ∃ r, s.cve.segments[i]? = some r ∧
      r.claim = .held := by
    simp only [State.claimOf, Option.bind_eq_some_iff, Option.map_eq_some_iff] at hheld
    exact hheld
  have hmany : s.cve.segments.length ≤ 16 := hlen ▸ hc.homeCount
  have hsame : (s.released i).length = s.cve.segments.length := List.length_modify _ _ _
  have hcleared : (claimMap .held (s.released i)).getLsbD i = false := by
    rw [claimMap_getLsbD _ (hsame ▸ hmany)]
    simp [State.released, hr]
  have hnotified : s.cve.notifiedHeld.getLsbD i = true := by
    rw [hnotices.2, claimMap_getLsbD _ hmany]
    simp [hr, hclaim]
  have hdue : (s.setCve { s.cve with segments := s.released i }).noticeDue := fun ⟨_, hmap⟩ => by
    have hbit := congrArg (BitVec.getLsbD · i) hmap
    rw [← Bool.not_eq_true] at hcleared
    exact hcleared (hbit.trans hnotified)
  have ht : t = _ := (State.departure_of_held hi hheld hactive).trans (State.noticeIfChanged_of_due hdue)
  have hclaimOf (g' : Byte) : t.claimOf g' = (homePosition s.cfg g').bind fun j => ((s.released i)[j]?).map (·.claim) := by
    rw [ht]
    rfl
  refine ⟨claimMap .claimed (s.released i), claimMap .held (s.released i), ?_, fun g' hg => ?_, ?_, ?_, by rw [ht]; rfl,
    by rw [ht]; rfl, by rw [ht]; rfl, by rw [ht]; exact hsame, fun j x hx => ?_, by rw [ht]; exact State.queueControl_rlc _ rfl,
    by rw [ht]; rfl⟩
  · rw [hclaimOf, hi]
    simp [State.released, hr]
  · rw [hclaimOf]
    cases hj : homePosition s.cfg g' with
    | none => simp [State.claimOf, hj]
    | some j =>
      have hne : i ≠ j := fun h => hg (homePosition_inj hj (h ▸ hi))
      simp [State.claimOf, hj, State.released, hne]
  · rw [ht]
    exact claimMap_getLsbD _ (hsame ▸ hmany)
  · rw [ht]
    exact claimMap_getLsbD _ (hsame ▸ hmany)
  · rw [ht]
    refine ⟨if i = j then { x with claim := .unclaimed } else x, ?_, ?_⟩
    · show (s.released i)[j]? = _
      simp [State.released, List.getElem?_modify, hx]
    · split <;> rfl

end Sys2Proof.Machine
end

