-- ==== Sys2Proof/Proofs/Evaluation.lean ====
section
/-!
PROOFS. The evaluation of an expiry (R36 to R54): the decisions on the segments, the BEACON and its place, and the notice; the
statements EvaluationScores, EvaluationClaims and ExpiryBeacon.
-/

namespace Sys2Proof.Machine

variable {s : State}

/-! ### The BEACON's place (R49, R50) -/

/-- A BEACON enters the slot, or waits behind the one in transmission. -/
theorem State.putBeacon_exists (s : State) (f : Frame) : ∃ lnc successor,
    s.putBeacon f = (s.setCve { s.cve with successor := successor }).setLnc lnc ∧
      (s.lnc.transmitting .beacon = true → successor = some f ∧ lnc = s.lnc) ∧
      (s.lnc.transmitting .beacon = false → successor = s.cve.successor ∧ lnc.class2 = [newTx s.now f 0 0]) ∧
      lnc.class0 = s.lnc.class0 ∧ lnc.class1 = s.lnc.class1 ∧ lnc.class3 = s.lnc.class3 := by
  unfold State.putBeacon
  cases htransmitting : s.lnc.transmitting .beacon with
  | true => exact ⟨s.lnc, some f, rfl, fun _ => ⟨rfl, rfl⟩, (fun h => by cases h), rfl, rfl, rfl⟩
  | false =>
    simp only [Bool.false_eq_true, if_false]
    split
    · refine ⟨(State.reopenDefer (s.setLnc { s.lnc with class2 := [newTx s.now f 0 0] })).lnc, s.cve.successor, ?_,
        (fun h => by cases h), fun _ => ⟨rfl, ?_⟩, ?_, ?_, ?_⟩
      all_goals
        unfold State.reopenDefer
        rw [State.openDefer_frame]
        rfl
    · refine ⟨(State.openDefer (s.setLnc { s.lnc with class2 := [newTx s.now f 0 0] })).lnc, s.cve.successor, ?_,
        (fun h => by cases h), fun _ => ⟨rfl, ?_⟩, ?_, ?_, ?_⟩
      all_goals
        rw [State.openDefer_frame]
        rfl

/-! ### The whole evaluation -/

/-- The BEACON of an evaluation (R51, R52). -/
def State.evaluationBeacon (s : State) (gap : Nat) : Frame :=
  ⟨s.cfg.address, 63, .beacon (beaconFlags (s.stc.runState = .listen) s.rlc.radioLost (s.cfg.role = .gateway))
    (BitVec.ofNat 16 (gap / 10)) (BitVec.ofNat 8 s.activeCount) (beaconItems s.cfg s.decidedSegments)⟩

/-- RLC after the notice of an evaluation. -/
structure State.Noticed (s : State) (rlc : Rlc) : Prop where
  same : claimMap .claimed s.decidedSegments = s.cve.notifiedClaimed →
    claimMap .held s.decidedSegments = s.cve.notifiedHeld → rlc = s.rlc
  due : claimMap .claimed s.decidedSegments ≠ s.cve.notifiedClaimed ∨
    claimMap .held s.decidedSegments ≠ s.cve.notifiedHeld →
    rlc = (s.queueControl (.coverageNotice (claimMap .claimed s.decidedSegments) (claimMap .held s.decidedSegments))).rlc

/-- Where the BEACON of an evaluation goes (R49, R50). -/
structure State.Slotted (s : State) (f : Frame) (lnc : Lnc) (successor : Option Frame) : Prop where
  waits : s.lnc.transmitting .beacon = true → successor = some f ∧ lnc = s.lnc
  enters : s.lnc.transmitting .beacon = false → successor = s.cve.successor ∧ lnc.class2 = [newTx s.now f 0 0]
  others : lnc.class0 = s.lnc.class0 ∧ lnc.class1 = s.lnc.class1 ∧ lnc.class3 = s.lnc.class3

/-- The part with the decisions of an evaluation taken and a gap fixed. -/
def State.decidedWith (s : State) (gap : Nat) (due : Option Micros) : State :=
  (s.setCve { s.cve with segments := s.decidedSegments, beaconGap := gap, beaconDue := due }).setRfi s.keptRfi

/-- An evaluation with the gap given: at an expiry the new one, at the withdrawal the running one. -/
theorem State.evaluation_exists (s : State) (gap : Nat) (due : Option Micros) : ∃ lnc successor rlc,
      ((s.decidedWith gap due).putBeacon ((s.decidedWith gap due).beaconFrame s.activeCount)).noticeIfChanged =
      (((s.setCve { s.cve with
          segments := s.decidedSegments, beaconGap := gap, beaconDue := due, successor := successor,
          notifiedClaimed := claimMap .claimed s.decidedSegments, notifiedHeld := claimMap .held s.decidedSegments }).setRfi
        s.keptRfi).setLnc lnc).setRlc rlc ∧
      s.Slotted (s.evaluationBeacon gap) lnc successor ∧ s.Noticed rlc := by
  generalize hw : s.decidedWith gap due = w
  have hbeacon : w.beaconFrame s.activeCount = s.evaluationBeacon gap := by rw [← hw]; rfl
  obtain ⟨lnc, successor, hput, hwaits, henters, hothers⟩ := w.putBeacon_exists (s.evaluationBeacon gap)
  obtain ⟨rlc, hnotice, hsame, hdue⟩ := State.noticeIfChanged_exists (w.putBeacon (s.evaluationBeacon gap))
  rw [hput] at hnotice hsame hdue
  rw [hbeacon, hput]
  subst hw
  refine ⟨lnc, successor, rlc, hnotice, ⟨hwaits, henters, hothers⟩, fun hclaimed hheld => ?_, fun hne => ?_⟩
  · exact hsame fun hn => hn ⟨hclaimed, hheld⟩
  · exact (hdue fun ⟨hclaimed, hheld⟩ => hne.elim (· hclaimed) (· hheld)).trans (State.queueControl_rlc _ rfl)

/-- The part as an expiry's evaluation finds it (R37). -/
def State.counted (s : State) : State :=
  ((s.setCve { s.cve with
      listenCount := if s.stc.runState = .listen then s.cve.listenCount + 1 else s.cve.listenCount }).setStc
    { s.stc with runState := s.evaluatedIn }).setRlc s.countedRlc

theorem State.countListen_eq_counted (h : s.stc.runState = .listen → s.cve.listenCount < 12) :
    s.countListen = s.counted := by
  rw [s.countListen_eq h, State.counted, State.countedRlc, apply_ite State.rlc]

/-- Counting leaves the radio-lost condition. -/
theorem State.countedRlc_radioLost (s : State) : s.countedRlc.radioLost = s.rlc.radioLost := by
  unfold State.countedRlc
  split
  · rfl
  · rw [State.recordOccasion_frame]
    rfl

/-- A due expiry at a station with a home range. -/
theorem State.beaconExpiry_exists (hlisten : s.stc.runState = .listen → s.cve.listenCount < 12) (hrun : s.running = true)
    (hhome : s.cfg.homeCount ≠ 0) (hdue : ∃ d, s.cve.beaconDue = some d ∧ d ≤ s.now) :
    ∃ lnc successor rlc,
      s.beaconExpiry =
      (((s.counted.setCve { s.counted.cve with
          segments := s.counted.decidedSegments, beaconGap := s.cfg.beaconBase * (1 + loadClass s.penalty),
          beaconDue := some (s.now + millis (s.cfg.beaconBase * (1 + loadClass s.penalty))), successor := successor,
          notifiedClaimed := claimMap .claimed s.counted.decidedSegments,
          notifiedHeld := claimMap .held s.counted.decidedSegments }).setRfi s.counted.keptRfi).setLnc lnc).setRlc rlc ∧
      s.counted.Slotted (s.counted.evaluationBeacon (s.cfg.beaconBase * (1 + loadClass s.penalty))) lnc successor ∧
      s.counted.Noticed rlc := by
  have hfires : (s.running && dueBy s.now s.cve.beaconDue) = true := by
    rw [hrun, dueBy_eq_true.2 hdue]
    rfl
  have hexpiry : s.beaconExpiry = s.counted.evaluate := by
    rw [State.beaconExpiry, if_pos hfires, State.countListen_eq_counted hlisten]
  have hhome' : ¬s.counted.cfg.homeCount = 0 := hhome
  have hdecided : s.counted.decideAll.startGap s.counted.penalty = s.counted.decidedWith
      (s.cfg.beaconBase * (1 + loadClass s.penalty))
      (some (s.now + millis (s.cfg.beaconBase * (1 + loadClass s.penalty)))) := by
    rw [State.decideAll_eq]
    rfl
  rw [hexpiry, State.evaluate, if_neg hhome', hdecided]
  exact s.counted.evaluation_exists _ _

/-! ### Scores (R9, R11 to R15) -/

/-- Idle decay, and the clearing of heard (R9). -/
structure Segment.Decays (r d : Segment) : Prop where
  heard : d.heard = false
  kept : d.primed = r.primed ∧ d.shadow = r.shadow ∧ d.claim = r.claim
  quality : d.quality = (d.acc + 8) / 16
  still : r.heard = true ∨ r.acc = 0 → d.acc = r.acc
  least : r.heard = false → 0 < r.acc → r.acc < 8 → d.acc = r.acc - 1
  eighth : r.heard = false → 8 ≤ r.acc → d.acc = r.acc - r.acc / 8

theorem Segment.decays {r : Segment} (h : r.ok) : r.Decays r.decay := by
  obtain ⟨-, hquality, -⟩ := h
  by_cases hsilent : r.heard = false ∧ 0 < r.acc
  · have hd : r.decay = { r with
        acc := r.acc - max 1 (r.acc / 8), quality := qualityOf (r.acc - max 1 (r.acc / 8)), heard := false } := by
      simp [Segment.decay, hsilent]
    rw [hd]
    exact ⟨rfl, ⟨rfl, rfl, rfl⟩, rfl, fun hn => by rcases hn with hn | hn <;> simp [hn] at hsilent,
      fun _ _ _ => by dsimp only; omega, fun _ _ => by dsimp only; omega⟩
  · have hd : r.decay = { r with heard := false } := by
      unfold Segment.decay
      rw [if_neg (by simpa using hsilent)]
    rw [hd]
    exact ⟨rfl, ⟨rfl, rfl, rfl⟩, hquality, fun _ => rfl, fun hh hpos _ => absurd ⟨hh, hpos⟩ hsilent,
      fun hh hpos => absurd ⟨hh, by omega⟩ hsilent⟩

/-- The score in whole numbers (R12 to R15). -/
theorem scoreOf_eq (c : Settings) (p : Nat) (lost : Bool) (r : Segment) :
    let h : Int := if r.claim = .claimed then c.hyst else 0
    let clamped : Int := max 0 (min 511 (2 * r.quality - p + h))
    (scoreOf c p lost r : Int) = if lost then 0 else if r.shadow then min clamped c.shadowCap else clamped := by
  have hyst : (((if r.claim = .claimed then c.hyst else 0 : Nat)) : Int) = if r.claim = .claimed then (c.hyst : Int) else 0 := by
    split <;> rfl
  simp only [scoreOf, hyst]
  generalize (2 * (r.quality : Int) - p + if r.claim = .claimed then (c.hyst : Int) else 0) = x
  split
  · rfl
  · split <;> omega

/-- Settles O30: decay and score record by record. -/
theorem evaluationScores : Obligations.EvaluationScores := by
  intro dt s h hrun hhome hdue
  obtain ⟨lnc, successor, rlc, ht, -, -⟩ :=
    State.beaconExpiry_exists (s := s.advance dt) h.segments.listening hrun hhome hdue
  refine ⟨_, congrArg done ht, ?_, fun i r hr => ⟨(s.advance dt).counted.decided s.penalty i r, ?_, ?_⟩⟩
  · exact List.length_mapIdx
  · show (s.cve.segments.mapIdx ((s.advance dt).counted.decided s.penalty))[i]? = _
    simp [hr]
  · obtain ⟨hheard, ⟨hprimed, hshadow, hclaim⟩, hquality, hstill, hleast, heighth⟩ :=
      Segment.decays (h.segments.ranges r (List.mem_of_getElem? hr))
    refine ⟨hheard, hprimed, hshadow, hquality, hstill, hleast, heighth, ?_⟩
    have hscore := scoreOf_eq s.cfg s.penalty (s.advance dt).counted.rlc.radioLost r.decay
    have hlost : (s.advance dt).counted.rlc.radioLost = s.rlc.radioLost := (s.advance dt).countedRlc_radioLost
    have hpenalty : (s.penalty : Int) =
        32 * s.cru.contexts.countP Context.active + (s.rfi.custody.length / 4 : Nat) := by
      simp [State.penalty, State.activeCount, State.custodyCount]
    simp only [hclaim, hshadow, hlost, hpenalty] at hscore
    rw [← hlost] at hscore ⊢
    exact hscore

end Sys2Proof.Machine
end

