-- ==== Sys2Proof/Proofs/EvaluationAtExpiry.lean ====
section
/-!
PROOFS. What an evaluation at an expiry decides (R40 to R44, R53, R54, R129) and the BEACON it puts into the slot (R37, R50 to
R52): the statements EvaluationClaims and ExpiryBeacon.
-/

namespace Sys2Proof.Machine

variable {s : State}

/-! ### The decision of one segment (R41, R42) -/

/-- The part may claim at all: it is in RUN, and no radio loss stands. -/
def State.serves (s : State) : Prop := s.stc.runState = .run ∧ s.rlc.radioLost = false

theorem State.wouldClaim_iff {g : Byte} {score : Nat} : s.wouldClaim g score = true ↔
    s.serves ∧ s.cfg.claimFloor ≤ score ∧
      ∀ n ∈ s.claimants g, ¬(score < n.score ∨ (n.score = score ∧ n.address.toNat < s.cfg.address.toNat)) := by
  simp [State.wouldClaim, State.serves, outranks, and_assoc]

/-- The claim a segment comes to, by the two questions of R42. -/
theorem State.decideClaim_iff (s : State) (g : Byte) (score : Nat) :
    (s.decideClaim g score = .claimed ↔ s.wouldClaim g score = true) ∧
      (s.decideClaim g score = .held ↔ ¬s.wouldClaim g score = true ∧ s.serves ∧ s.activeAt g = true) := by
  unfold State.decideClaim
  by_cases hwould : s.wouldClaim g score = true
  · simp [hwould]
  · rw [if_neg hwould]
    by_cases hheld : (s.stc.runState = .run && !s.rlc.radioLost && s.activeAt g) = true
    · rw [if_pos hheld]
      simp only [Bool.and_eq_true, decide_eq_true_eq, Bool.not_eq_true'] at hheld
      simp [hwould, State.serves, hheld]
    · rw [if_neg hheld]
      simp only [Bool.and_eq_true, decide_eq_true_eq, Bool.not_eq_true'] at hheld
      simpa [hwould, State.serves] using hheld

/-- A decided record's claim is that of its score. -/
theorem State.claim_of_decided {i : Nat} {r : Segment} (h : s.decidedSegments[i]? = some r) :
    r.claim = s.decideClaim (segmentAt s.cfg i) r.score := by
  rw [State.decidedSegments, List.getElem?_mapIdx, Option.map_eq_some_iff] at h
  obtain ⟨before, -, rfl⟩ := h
  rfl

/-! ### Custody (R129) -/

/-- After an evaluation exactly the custody of the segments then CLAIMED is kept. -/
theorem State.mem_keptRfi (hc : SettingsOk s.cfg) (hcount : s.cve.segments.length = s.cfg.homeCount) (h : ReefersOk s)
    {x : Custody} : x ∈ s.keptRfi.custody ↔ x ∈ s.rfi.custody ∧
      ((s.setCve { s.cve with segments := s.decidedSegments }).setRfi s.keptRfi).claimedHere x.segment = true := by
  constructor
  · exact fun hx => ⟨(List.mem_filter.1 hx).1, (h.decided.custodyClaimed x hx).1⟩
  · rintro ⟨hx, hclaimed⟩
    refine List.mem_filter.2 ⟨hx, decide_eq_true fun hlost => ?_⟩
    obtain ⟨i, -, r, -, hr, -, hnot, hg⟩ := mem_lostSegments.1 hlost
    obtain ⟨j, r', hj, hr', hclaim⟩ := State.claimedHere_eq_true.1 hclaimed
    have hi : i < s.cfg.homeCount := by
      rw [← hcount, ← s.cve.segments.length_mapIdx (f := s.decided s.penalty)]
      exact (List.getElem?_eq_some_iff.1 hr).1
    rw [hg] at hj
    obtain rfl : i = j := Option.some.inj ((homePosition_segmentAt hc hi).symm.trans hj)
    exact hnot (Option.some.inj (hr.symm.trans hr') ▸ hclaim)

/-! ### The statements -/

/-- RLC as the count of LISTEN leaves it is that of the part with RUN recorded where the expiry enters it. -/
theorem State.countedRlc_eq (s : State) :
    s.countedRlc = (if s.evaluatedIn = s.stc.runState then s else State.recordOccasion .run s).rlc := by
  unfold State.countedRlc
  split <;> rfl

/-- Settles O31: the decisions of `State.decideClaim_iff`, segment by segment, and the notice of their maps. -/
theorem evaluationClaims : Obligations.EvaluationClaims := by
  intro dt s h hrun hhome hdue
  obtain ⟨c, hloaded, hc⟩ := h.start.loaded hrun
  have hcfg : s.cfg = c := by simp [State.cfg, hloaded]
  rw [← hcfg] at hc
  have hcount := h.segments.count hrun
  obtain ⟨lnc, successor, rlc, ht, -, hnoticed⟩ :=
    State.beaconExpiry_exists (s := s.advance dt) h.segments.listening hrun hhome hdue
  have hlost : (s.advance dt).counted.rlc.radioLost = s.rlc.radioLost := (s.advance dt).countedRlc_radioLost
  generalize hw : (s.advance dt).counted = w at ht hnoticed hlost
  have hlength : w.decidedSegments.length ≤ 16 := by
    subst hw
    exact List.length_mapIdx.trans_le (hcount.trans_le hc.homeCount)
  have hrlc : w.rlc = (if s.evaluatedIn = s.stc.runState then s else State.recordOccasion .run s).rlc := by
    subst hw
    exact ((s.countedRlc_advance dt).trans s.countedRlc_eq)
  refine ⟨_, congrArg done ht, fun i r hr => ?_, ⟨claimMap .claimed w.decidedSegments, claimMap .held w.decidedSegments,
    claimMap_getLsbD .claimed hlength, claimMap_getLsbD .held hlength, rfl, rfl, fun hclaimed hheld => ?_, fun hne => ?_⟩,
    fun x => ?_, ?_⟩
  · obtain ⟨hclaimed, hheld⟩ := w.decideClaim_iff (segmentAt w.cfg i) r.score
    rw [State.wouldClaim_iff, State.serves, hlost, ← State.claim_of_decided hr] at hclaimed hheld
    subst hw
    exact ⟨hclaimed, hheld⟩
  · subst hw
    exact (hnoticed.same hclaimed hheld).trans hrlc
  · have hdiffer := hnoticed.due (by subst hw; exact hne)
    exact hdiffer.trans (State.queueControl_rlc _ hrlc)
  · subst hw
    exact State.mem_keptRfi (s := (s.advance dt).counted) hc hcount { h.reefers with }
  · subst hw
    exact ⟨rfl, rfl, rfl, rfl, rfl⟩

/-- The flags of a BEACON, bit by bit (R51). -/
theorem beaconFlags_getLsbD (listen radioLost gateway : Bool) :
    (beaconFlags listen radioLost gateway).getLsbD 0 = listen ∧ (beaconFlags listen radioLost gateway).getLsbD 1 = radioLost ∧
      (beaconFlags listen radioLost gateway).getLsbD 2 = gateway := by
  cases listen <;> cases radioLost <;> cases gateway <;> decide

/-- The item of a home segment in a BEACON (R52). -/
theorem beaconItems_getElem? {c : Settings} {l : List Segment} (hc : SettingsOk c) (hcount : l.length = c.homeCount)
    (hscore : ∀ r ∈ l, r.score ≤ 511) {i : Nat} {r : Segment} (hr : l[i]? = some r) :
    ∃ x, (beaconItems c l)[i]? = some x ∧ x.segment.toNat = c.homeFirst + i ∧ x.score.toNat = r.score ∧
      x.kind = (match r.claim with | .unclaimed => 0 | .claimed => 1 | .held => 2) := by
  have hi : i < c.homeCount := hcount ▸ (List.getElem?_eq_some_iff.1 hr).1
  have hquay := hc.onQuay.2
  have hmax := hscore r (List.mem_of_getElem? hr)
  refine ⟨⟨segmentAt c i, claimKind r.claim, BitVec.ofNat 16 r.score⟩, by simp [beaconItems, hr], ?_, ?_, ?_⟩
  · exact Nat.mod_eq_of_lt (by omega)
  · exact Nat.mod_eq_of_lt (by omega)
  · cases r.claim <;> rfl

/-- Every score is within its bound (R13). -/
theorem State.decided_score_le (s : State) : ∀ r ∈ s.decidedSegments, r.score ≤ 511 := by
  intro r hr
  obtain ⟨i, before, -, rfl⟩ := List.mem_mapIdx.1 hr
  exact scoreOf_le _ _ _ _

/-- RUN is recorded and its STATE REPORT waits (R37, R171). -/
def Rlc.tellsRun (x : Rlc) : Prop := x.occasions.run = true ∧ ControlMsg.stateReport ∈ x.control

theorem Rlc.tellsRun_queueControl (h : s.rlc.tellsRun) (m : ControlMsg) : (s.queueControl m).rlc.tellsRun := by
  refine ⟨h.1, ?_⟩
  rw [State.queueControl_eq]
  exact List.mem_append_left _ ((mem_keptOf_of_neg (by simp [ControlMsg.isReport])).2 h.2)

/-- The expiry that enters RUN records it. -/
theorem State.countedRlc_tellsRun (hload : s.stc.runState ≠ .load) (hruns : s.evaluatedIn ≠ s.stc.runState) :
    s.countedRlc.tellsRun := by
  rw [State.countedRlc, if_neg hruns]
  refine ⟨?_, State.report_of_recordOccasion hload⟩
  rw [State.recordOccasion_frame]
  rfl

/-- A notice leaves a report that waits. -/
theorem State.Noticed.tellsRun {rlc : Rlc} (hn : s.Noticed rlc) (h : s.rlc.tellsRun) : rlc.tellsRun := by
  by_cases hsame : claimMap .claimed s.decidedSegments = s.cve.notifiedClaimed ∧
      claimMap .held s.decidedSegments = s.cve.notifiedHeld
  · rw [hn.same hsame.1 hsame.2]
    exact h
  · rw [hn.due (not_and_or.1 hsame)]
    exact Rlc.tellsRun_queueControl h _

/-- Settles O32, from the explicit form of a due expiry. -/
theorem expiryBeacon : Obligations.ExpiryBeacon := by
  intro dt s h hrun hhome hdue c p cls gap
  obtain ⟨settings, hloaded, hc⟩ := h.start.loaded hrun
  have hcfg : s.cfg = settings := by simp [State.cfg, hloaded]
  rw [← hcfg] at hc
  have hcount := h.segments.count hrun
  have hgap : (s.advance dt).cfg.beaconBase * (1 + loadClass (s.advance dt).penalty) = gap := by
    rw [loadClass_eq]
    rfl
  obtain ⟨lnc, successor, rlc, ht, hslot, hnoticed⟩ :=
    State.beaconExpiry_exists (s := s.advance dt) h.segments.listening hrun hhome hdue
  rw [hgap] at ht hslot
  obtain ⟨hflag0, hflag1, hflag2⟩ := beaconFlags_getLsbD (s.evaluatedIn = .listen) (s.advance dt).counted.rlc.radioLost
    (s.cfg.role = .gateway)
  have hlength : (s.advance dt).counted.decidedSegments.length = s.cfg.homeCount := List.length_mapIdx.trans hcount
  refine ⟨_, _, beaconItems s.cfg (s.advance dt).counted.decidedSegments, congrArg done ht, rfl, ?_, rfl, rfl, fun hne => ?_,
    hflag0, hflag1.trans (s.advance dt).countedRlc_radioLost, hflag2, ?_, fun i r hr => ?_, fun hsending => ?_, fun hfree => ?_⟩
  · rfl
  · have hload : (s.advance dt).stc.runState ≠ .load := by
      intro hload
      simp [State.running, show s.stc.runState = .load from hload] at hrun
    exact hnoticed.tellsRun ((s.advance dt).countedRlc_tellsRun hload hne)
  · exact List.length_mapIdx.trans hlength
  · exact beaconItems_getElem? hc hlength (State.decided_score_le _) hr
  · exact hslot.waits hsending
  · obtain ⟨hsuccessor, hclass2⟩ := hslot.enters hfree
    obtain ⟨hclass0, hclass1, hclass3⟩ := hslot.others
    exact ⟨hsuccessor, hclass2, hclass0, hclass1, hclass3⟩

end Sys2Proof.Machine
end

