-- ==== Sys2Proof/Proofs/RadioLoss.lean ====
section
/-!
PROOFS. The beginning of the radio-lost condition (R47, R83, R169): what departures leave, in whatever order, and what the
withdrawal among them decides; the statement RadioLossBegins.
-/

namespace Sys2Proof.Machine

variable {s t w : State}

/-! ### Departures, one after another (R45, R53, R54) -/

/-- Both notified maps are clear. -/
def State.mapsClear (s : State) : Prop := s.cve.notifiedClaimed = 0 ∧ s.cve.notifiedHeld = 0

/-- A record with its claim given up. -/
def Segment.unclaim (r : Segment) : Segment := { r with claim := .unclaimed }

/-- What departures leave of the part. -/
structure State.DepartsTo (s w : State) : Prop where
  form : ∃ segments claimed held contexts control,
    w = ((s.setCve { s.cve with segments := segments, notifiedClaimed := claimed, notifiedHeld := held }).setCru
      { s.cru with contexts := contexts }).setRlc { s.rlc with control := control }
  records : w.cve.segments.map Segment.unclaim = s.cve.segments.map Segment.unclaim
  contexts : w.cru.contexts.Sublist s.cru.contexts
  notices : NoticesOk w
  quiet : s.mapsClear → w.mapsClear ∧ w.rlc.control = s.rlc.control
  told : ¬s.mapsClear → w.mapsClear → w.rlc.control.getLast? = some (.coverageNotice 0 0)

theorem State.DepartsTo.refl (h : NoticesOk s) : s.DepartsTo s :=
  ⟨⟨_, _, _, _, _, rfl⟩, rfl, List.Sublist.refl _, h, fun hclear => ⟨hclear, rfl⟩, fun hn hclear => absurd hclear hn⟩

theorem State.DepartsTo.trans (h : s.DepartsTo t) (h' : t.DepartsTo w) : s.DepartsTo w where
  form := by
    obtain ⟨_, _, _, _, _, rfl⟩ := h.form
    obtain ⟨_, _, _, _, _, rfl⟩ := h'.form
    exact ⟨_, _, _, _, _, rfl⟩
  records := h'.records.trans h.records
  contexts := h'.contexts.trans h.contexts
  notices := h'.notices
  quiet := fun hclear =>
    have hfirst := h.quiet hclear
    have hsecond := h'.quiet hfirst.1
    ⟨hsecond.1, hsecond.2.trans hfirst.2⟩
  told := fun hn hclear => by
    by_cases hmiddle : t.mapsClear
    · rw [(h'.quiet hmiddle).2]
      exact h.told hn hmiddle
    · exact h'.told hmiddle hclear

theorem State.DepartsTo.length (h : s.DepartsTo w) : w.cve.segments.length = s.cve.segments.length := by
  simpa using congrArg List.length h.records

theorem State.DepartsTo.getElem? (h : s.DepartsTo w) {i : Nat} {r : Segment} (hr : s.cve.segments[i]? = some r) :
    ∃ x, w.cve.segments[i]? = some x ∧ x.unclaim = r.unclaim := by
  have hrecords := congrArg (·[i]?) h.records
  simpa [hr, List.getElem?_map, Option.map_eq_some_iff] using hrecords

/-- Maps that are clear and true leave nothing CLAIMED or HELD. -/
theorem State.unclaimed_of_mapsClear (hlen : s.cve.segments.length ≤ 16) (hnotices : NoticesOk s) (hclear : s.mapsClear) :
    ∀ r ∈ s.cve.segments, r.claim = .unclaimed := by
  intro r hr
  have hclaimed := (claimMap_eq_zero .claimed hlen).1 (hnotices.1.symm.trans hclear.1) r hr
  have hheld := (claimMap_eq_zero .held hlen).1 (hnotices.2.symm.trans hclear.2) r hr
  cases hclaim : r.claim with
  | unclaimed => rfl
  | claimed => exact absurd hclaim hclaimed
  | held => exact absurd hclaim hheld

/-- A context that leaves the table is one departure. -/
theorem State.DepartsTo.dropContext (h : NoticesOk s) (crane : Byte) : s.DepartsTo (s.dropContext crane) :=
  ⟨⟨s.cve.segments, s.cve.notifiedClaimed, s.cve.notifiedHeld, (s.dropContext crane).cru.contexts,
    s.rlc.control, rfl⟩, rfl, List.filter_sublist, h, fun hclear => ⟨hclear, rfl⟩, fun hn hclear => absurd hclear hn⟩

theorem State.DepartsTo.departure (hlen : s.cve.segments.length ≤ 16) (h : NoticesOk s) (g : Byte) :
    s.DepartsTo (s.departure g) := by
  by_cases hends : s.claimOf g = some .held ∧ s.activeAt g = false
  · obtain ⟨hheld, hactive⟩ := hends
    obtain ⟨i, hi, r, hr, hclaim⟩ : ∃ i, homePosition s.cfg g = some i ∧ ∃ r, s.cve.segments[i]? = some r ∧
        r.claim = .held := by
      simpa [State.claimOf, Option.bind_eq_some_iff, Option.map_eq_some_iff] using hheld
    have hnotclear : ¬s.mapsClear := fun hclear => by
      have := s.unclaimed_of_mapsClear hlen h hclear r (List.mem_of_getElem? hr)
      rw [hclaim] at this
      cases this
    obtain ⟨rlc, hform, hsame, hdue⟩ := State.noticeIfChanged_exists (s.setCve { s.cve with segments := s.released i })
    have hcontrol : ∃ control, rlc = { s.rlc with control := control } := by
      by_cases hn : State.noticeDue (s.setCve { s.cve with segments := s.released i })
      · exact ⟨_, hdue hn⟩
      · exact ⟨_, hsame hn⟩
    obtain ⟨control, rfl⟩ := hcontrol
    rw [State.departure_of_held hi hheld hactive, hform]
    refine ⟨⟨s.released i, claimMap .claimed (s.released i), claimMap .held (s.released i), s.cru.contexts, control, rfl⟩, ?_, List.Sublist.refl _, ⟨rfl, rfl⟩, fun hclear => absurd hclear hnotclear,
      fun _ hclear => ?_⟩
    · refine List.ext_getElem? fun j => ?_
      simp only [State.setRlc_cve, State.setCve_cve, State.released, List.getElem?_map, List.getElem?_modify]
      cases s.cve.segments[j]? with
      | none => rfl
      | some x =>
        by_cases hij : i = j
        · simp [hij, Segment.unclaim]
        · simp [hij]
    · obtain ⟨hclaimed, hheld0⟩ := hclear
      have hn : State.noticeDue (s.setCve { s.cve with segments := s.released i }) := fun ⟨hc, hh⟩ =>
        hnotclear ⟨hc.symm.trans hclaimed, hh.symm.trans hheld0⟩
      have hlast := congrArg (·.control.getLast?) (hdue hn)
      refine hlast.trans ?_
      rw [State.queueControl_eq]
      simp only [State.setRlc_rlc, List.getLast?_append, List.getLast?_singleton, Option.some_or]
      exact congrArg some (congrArg₂ ControlMsg.coverageNotice hclaimed hheld0)
  · rw [State.departure_of_other hends]
    exact State.DepartsTo.refl h

theorem State.DepartsTo.freeContext (hlen : s.cve.segments.length ≤ 16) (h : NoticesOk s) (c : Context) :
    s.DepartsTo (s.freeContext c) := by
  have hdrop := State.DepartsTo.dropContext h c.crane
  unfold State.freeContext
  dsimp only
  split
  · exact hdrop.trans (State.DepartsTo.departure (s := s.dropContext c.crane) hlen hdrop.notices _)
  · exact hdrop

theorem State.DepartsTo.freeContexts (hlen : s.cve.segments.length ≤ 16) (h : NoticesOk s) (cs : List Context) :
    s.DepartsTo (s.freeContexts cs) := by
  induction cs generalizing s with
  | nil => exact State.DepartsTo.refl h
  | cons c cs ih =>
    have hfirst := State.DepartsTo.freeContext hlen h c
    exact hfirst.trans (ih (hfirst.length ▸ hlen) hfirst.notices)

/-! ### The withdrawal (R47) -/

/-- A withdrawal, at a station with a home range or without: it is an evaluation with the gap left as it runs. -/
theorem State.withdraw_exists (hbare : s.cfg.homeCount = 0 → s.cve.segments = []) (hnotices : NoticesOk s) :
    ∃ lnc successor rlc,
      s.withdraw = (((s.setCve { s.cve with
        segments := s.decidedSegments, successor := successor,
        notifiedClaimed := claimMap .claimed s.decidedSegments,
        notifiedHeld := claimMap .held s.decidedSegments }).setRfi s.keptRfi).setLnc lnc).setRlc rlc ∧
      (s.cfg.homeCount = 0 → lnc = s.lnc ∧ successor = s.cve.successor) ∧
      (s.cfg.homeCount ≠ 0 → s.Slotted (s.evaluationBeacon s.cve.beaconGap) lnc successor) ∧
      (lnc.class0 = s.lnc.class0 ∧ lnc.class1 = s.lnc.class1 ∧ lnc.class3 = s.lnc.class3) ∧ s.Noticed rlc := by
  by_cases hhome : s.cfg.homeCount = 0
  · have hnil := hbare hhome
    have hdecided : s.decidedSegments = s.cve.segments := by rw [State.decidedSegments, hnil]; rfl
    have hlost : lostSegments s.cfg s.cve.segments s.decidedSegments = [] := by rw [hnil]; rfl
    have hkept : s.keptRfi = s.rfi := by simp [State.keptRfi, hlost]
    refine ⟨s.lnc, s.cve.successor, s.rlc, ?_, fun _ => ⟨rfl, rfl⟩, fun hn => absurd hhome hn, ⟨rfl, rfl, rfl⟩,
      fun _ _ => rfl, fun hn => ?_⟩
    · rw [State.withdraw, if_pos hhome, hdecided, hkept, ← hnotices.1, ← hnotices.2]
      rfl
    · rw [hdecided] at hn
      exact (hn.elim (· hnotices.1.symm) (· hnotices.2.symm)).elim
  · obtain ⟨lnc, successor, rlc, hform, hslot, hnoticed⟩ := s.evaluation_exists s.cve.beaconGap s.cve.beaconDue
    refine ⟨lnc, successor, rlc, ?_, fun h0 => absurd h0 hhome, fun _ => hslot, hslot.others, hnoticed⟩
    rw [State.withdraw, if_neg hhome, State.decideAll_eq]
    exact hform

/-- Under radio loss an evaluation gives up every segment, at score 0 (R15, R41). -/
theorem State.decidedSegments_of_lost (hlost : s.rlc.radioLost = true) :
    s.decidedSegments = s.cve.segments.map fun r => { r.decay with score := 0, claim := .unclaimed } := by
  refine List.ext_getElem? fun i => ?_
  simp only [State.decidedSegments, List.getElem?_mapIdx, List.getElem?_map]
  cases s.cve.segments[i]? with
  | none => rfl
  | some r => simp [State.decided, scoreOf, State.decideClaim, State.wouldClaim, hlost]

/-- What recording an occasion makes of the control queue depends on the run state and on that queue. -/
theorem State.recordOccasion_control {o : Occasion} (hstate : t.stc.runState = s.stc.runState)
    (hcontrol : t.rlc.control = s.rlc.control) : (t.recordOccasion o).rlc.control = (s.recordOccasion o).rlc.control := by
  simp only [State.recordOccasion, hstate, hcontrol]
  split
  · simp only [State.queueControl, State.setRlc_rlc]
    rfl
  · rfl

/-- The part as the radio-lost condition begins, before CVE and CRU are told (R169). -/
def State.silenced (s : State) : State :=
  s.setRlc { s.rlc with
    supervisionDue := some (s.now + millis s.cfg.radioWatch), radioLost := true,
    occasions := s.rlc.occasions.add .radioLost, control := (s.recordOccasion .radioLost).rlc.control }

theorem State.beginRadioLost_eq (s : State) : s.beginRadioLost = s.silenced.withdrawAndFree := by
  show State.withdrawAndFree (State.recordOccasion .radioLost
    (s.setRlc { s.rlc with supervisionDue := some (s.now + millis s.cfg.radioWatch), radioLost := true })) = _
  rw [State.recordOccasion_frame, State.recordOccasion_control (s := s) (t := s.setRlc _) (by rfl) (by rfl)]
  rfl

theorem State.supervisionExpiry_of_heard (hrun : s.running = true) (hlost : s.rlc.radioLost = false)
    (hdue : ∃ d, s.rlc.supervisionDue = some d ∧ d ≤ s.now) : s.supervisionExpiry = s.beginRadioLost := by
  have hfires : (s.running && dueBy s.now s.rlc.supervisionDue) = true := by
    rw [hrun, dueBy_eq_true.2 hdue]
    rfl
  rw [State.supervisionExpiry, if_pos hfires, if_neg (by simp [hlost])]

/-- The departures before the withdrawal, the withdrawal, and the departures after it. -/
theorem State.withdrawAndFree_exists (hlen : s.cve.segments.length ≤ 16) (hnotices : NoticesOk s) :
    ∃ v, (s.setChoices (s.choices + s.cru.contexts.length + 1)).DepartsTo v ∧
      ∃ later, s.withdrawAndFree = v.withdraw.freeContexts later :=
  ⟨_, State.DepartsTo.freeContexts (s := s.setChoices (s.choices + s.cru.contexts.length + 1)) hlen hnotices _, _, rfl⟩

/-- A notice changes the control queue alone. -/
theorem State.Noticed.form {rlc : Rlc} (h : s.Noticed rlc) : ∃ control, rlc = { s.rlc with control := control } := by
  by_cases hsame : claimMap .claimed s.decidedSegments = s.cve.notifiedClaimed ∧
      claimMap .held s.decidedSegments = s.cve.notifiedHeld
  · exact ⟨s.rlc.control, h.same hsame.1 hsame.2⟩
  · exact ⟨_, h.due (not_and_or.1 hsame)⟩

/-- A withdrawal that gives up every segment tells of it where anything was told before. -/
theorem State.Noticed.getLast? {rlc : Rlc} (h : s.Noticed rlc) (hclaimed : claimMap .claimed s.decidedSegments = 0)
    (hheld : claimMap .held s.decidedSegments = 0) (hmaps : ¬s.mapsClear) :
    rlc.control.getLast? = some (.coverageNotice 0 0) := by
  rw [h.due (by rw [hclaimed, hheld]; exact (not_and_or.1 hmaps).imp Ne.symm Ne.symm), hclaimed, hheld, State.queueControl_eq]
  simp

/-- Under radio loss every item of a BEACON is of kind NONE and score 0 (R52). -/
theorem beaconItems_of_lost {c : Settings} (hc : SettingsOk c) (hlost : s.rlc.radioLost = true)
    (hcount : s.cve.segments.length = c.homeCount) {i : Nat} {x : BeaconItem}
    (hx : (beaconItems c s.decidedSegments)[i]? = some x) :
    x.segment.toNat = c.homeFirst + i ∧ x.kind = 0 ∧ x.score = 0 := by
  rw [s.decidedSegments_of_lost hlost, beaconItems, List.getElem?_mapIdx, List.getElem?_map, Option.map_map,
    Option.map_eq_some_iff] at hx
  obtain ⟨r, hr, rfl⟩ := hx
  have hi : i < c.homeCount := hcount ▸ (List.getElem?_eq_some_iff.1 hr).1
  have hquay := hc.onQuay.2
  exact ⟨Nat.mod_eq_of_lt (by omega), rfl, rfl⟩

/-- One record under radio loss: decayed, given up, at score 0. -/
structure Segment.LostTo (r d : Segment) : Prop where
  claim : d.claim = .unclaimed
  score : d.score = 0
  heard : d.heard = false
  kept : d.primed = r.primed ∧ d.shadow = r.shadow
  quality : d.quality = (d.acc + 8) / 16
  still : r.heard = true ∨ r.acc = 0 → d.acc = r.acc
  least : r.heard = false → 0 < r.acc → r.acc < 8 → d.acc = r.acc - 1
  eighth : r.heard = false → 8 ≤ r.acc → d.acc = r.acc - r.acc / 8

/-- Neither a departure before the withdrawal nor one after it shows in the record. -/
theorem Segment.lostTo {r x d : Segment} (h : r.ok) (hx : x.unclaim = r.unclaim)
    (hd : d.unclaim = Segment.unclaim { x.decay with score := 0, claim := .unclaimed }) (hclaim : d.claim = .unclaimed) :
    r.LostTo d := by
  have hfields : x.acc = r.acc ∧ x.quality = r.quality ∧ x.heard = r.heard ∧ x.primed = r.primed ∧ x.shadow = r.shadow ∧
      x.score = r.score := by
    cases x
    cases r
    simp_all [Segment.unclaim]
  obtain ⟨hacc, hquality, hheard, hprimed, hshadow, hscore⟩ := hfields
  have hdecays := Segment.decays (r := x) ⟨hacc ▸ h.1, by rw [hquality, hacc]; exact h.2.1, hscore ▸ h.2.2⟩
  have hd' : d = { x.decay with score := 0, claim := .unclaimed } := by
    rw [← show d.unclaim = d by rw [Segment.unclaim, ← hclaim]]
    exact hd
  subst hd'
  exact ⟨rfl, rfl, hdecays.heard, ⟨hdecays.kept.1.trans hprimed, hdecays.kept.2.1.trans hshadow⟩, hdecays.quality,
    fun hs => (hdecays.still (by rwa [hheard, hacc])).trans hacc,
    fun h1 h2 h3 => by have := hdecays.least (hheard.trans h1) (by omega) (by omega); dsimp only; omega,
    fun h1 h2 => by have := hdecays.eighth (hheard.trans h1) (by omega); rw [hacc] at this; exact this⟩

/-- Settles O36: the withdrawal between two runs of departures, each `State.DepartsTo`. -/
theorem radioLossBegins : Obligations.RadioLossBegins := by
  intro dt s h hrun hheard hdue
  have hlive := (h.live hrun).advance dt
  obtain ⟨c, hloaded, hc⟩ := h.start.loaded hrun
  have hcfg : s.cfg = c := by simp [State.cfg, hloaded]
  rw [← hcfg] at hc
  have hcount := h.segments.count hrun
  have hlen : s.cve.segments.length ≤ 16 := hcount.trans_le hc.homeCount
  have hbare : s.cfg.homeCount = 0 → s.cve.segments = [] := fun h0 => List.eq_nil_of_length_eq_zero (hcount.trans h0)
  have hexpiry := State.supervisionExpiry_of_heard (s := s.advance dt) hrun hheard hdue
  have hend : Live [] (s.advance dt).supervisionExpiry := hexpiry ▸ hlive.beginRadioLost (by simp)
  have hnone : (s.advance dt).supervisionExpiry.cru.contexts = [] := by
    rw [hexpiry, State.beginRadioLost_eq]
    exact State.withdrawAndFree_contexts _
  obtain ⟨v, hbefore, later, hw⟩ := State.withdrawAndFree_exists (s := (s.advance dt).silenced) hlen h.notices
  rw [← State.beginRadioLost_eq, ← hexpiry] at hw
  generalize ht : (s.advance dt).supervisionExpiry = t at hend hnone hw
  have hcontrol : (s.advance dt).silenced.rlc.control = (s.recordOccasion .radioLost).rlc.control :=
    State.recordOccasion_control rfl rfl
  have hvlen := hbefore.length
  obtain ⟨segments, claimed, held, contexts, control, hv⟩ := hbefore.form
  have hvcfg : v.cfg = s.cfg := by rw [hv]; rfl
  have hvlost : v.rlc.radioLost = true := by rw [hv]; rfl
  obtain ⟨lnc, successor, rlc, hwithdraw, hslotless, hslot, hothers, hnoticed⟩ := v.withdraw_exists
    (fun h0 => List.eq_nil_of_length_eq_zero (hvlen.trans (hcount.trans (hvcfg ▸ h0)))) hbefore.notices
  have hdecided := v.decidedSegments_of_lost hvlost
  have hdlen : v.decidedSegments.length ≤ 16 := by
    rw [hdecided, List.length_map, hvlen]
    exact hlen
  have hgivenUp (k : Claim) (hk : k ≠ .unclaimed) : claimMap k v.decidedSegments = 0 := by
    refine (claimMap_eq_zero k hdlen).2 fun r hr => ?_
    rw [hdecided] at hr
    obtain ⟨x, -, rfl⟩ := List.mem_map.1 hr
    exact hk.symm
  have hclear : v.withdraw.mapsClear := by
    rw [hwithdraw]
    exact ⟨hgivenUp .claimed (by simp), hgivenUp .held (by simp)⟩
  have hafter : v.withdraw.DepartsTo t := by
    rw [hw]
    refine State.DepartsTo.freeContexts ?_ ?_ _
    · rw [hwithdraw]
      exact hdlen
    · rw [hwithdraw]
      exact ⟨rfl, rfl⟩
  obtain ⟨htclear, htcontrol⟩ := hafter.quiet hclear
  have hunclaimed := t.unclaimed_of_mapsClear (hafter.length.trans_le (by rw [hwithdraw]; exact hdlen)) hafter.notices htclear
  have hcustody : t.rfi.custody = [] := List.eq_nil_iff_forall_not_mem.2 fun x hx => by
    obtain ⟨i, r, -, hr, hclaimed⟩ := State.claimedHere_eq_true.1 (hend.reefers.custodyClaimed x hx).1
    rw [hunclaimed r (List.mem_of_getElem? hr)] at hclaimed
    cases hclaimed
  obtain ⟨vcontrol, hvrlc⟩ := hnoticed.form
  obtain ⟨tsegments, tclaimed, theld, tcontexts, tcontrol, htform⟩ := hafter.form
  have htform' := htform
  rw [hwithdraw, hvrlc, hv] at htform'
  have hvactive : v.activeCount ≤ s.cru.contexts.countP Context.active := hbefore.contexts.countP_le
  have hvtransmitting : v.lnc = s.lnc := by rw [hv]; rfl
  have hvgap : v.cve.beaconGap = s.cve.beaconGap := by rw [hv]; rfl
  have hvnow : v.now = s.now + dt := by rw [hv]; rfl
  have hvsuccessor : v.cve.successor = s.cve.successor := by rw [hv]; rfl
  have hvstate : v.stc = s.stc := by rw [hv]; rfl
  have htlnc : t.lnc = lnc := by rw [htform']; rfl
  have htsuccessor : t.cve.successor = successor := by rw [htform']; rfl
  have hreport : ControlMsg.stateReport ∈ t.rlc.control := by
    have hload : t.stc.runState ≠ .load := by rcases hend.active.runState with hs | hs <;> simp [hs]
    refine hend.link.owed hload fun hempty => ?_
    have hset : t.rlc.occasions.radioLost = true := by rw [htform']; rfl
    rw [hempty] at hset
    cases hset
  have htcontrol' : t.rlc.control = rlc.control := htcontrol.trans (by rw [hwithdraw]; rfl)
  have hsame (hvclear : v.mapsClear) : rlc = v.rlc :=
    hnoticed.same ((hgivenUp .claimed (by simp)).trans hvclear.1.symm) ((hgivenUp .held (by simp)).trans hvclear.2.symm)
  refine ⟨t, congrArg done ht, by rw [htform']; rfl, by rw [htform']; rfl, by rw [htform']; rfl, hreport,
    by rw [htform']; rfl, ?_, fun i r hr => ?_, fun h0 => ?_, fun hhome => ?_, htclear.1, htclear.2, fun hclaimed hheld => ?_,
    fun hne => ?_, by rw [htform']; rfl, by rw [htform']; rfl, by rw [htform']; rfl, hnone, by rw [htform']; rfl, hcustody,
    by rw [htform']; rfl, ?_, ?_, ?_, by rw [htform']; rfl, by rw [htform']; rfl, by rw [htform']; rfl,
    by rw [htform']; rfl, by rw [htform']; rfl⟩
  · rw [hafter.length, hwithdraw]
    show v.decidedSegments.length = _
    rw [hdecided, List.length_map, hvlen]
    rfl
  · obtain ⟨x, hx, hxr⟩ := hbefore.getElem? hr
    have hd : v.withdraw.cve.segments[i]? = some { x.decay with score := 0, claim := .unclaimed } := by
      rw [hwithdraw]
      show v.decidedSegments[i]? = _
      rw [hdecided, List.getElem?_map, hx]
      rfl
    obtain ⟨d, hdi, hdx⟩ := hafter.getElem? hd
    obtain ⟨hclaim, hscore, hheard, ⟨hprimed, hshadow⟩, hquality, hstill, hleast, heighth⟩ :=
      Segment.lostTo (h.segments.ranges r (List.mem_of_getElem? hr)) hxr hdx (hunclaimed d (List.mem_of_getElem? hdi))
    exact ⟨d, hdi, hclaim, hscore, hheard, hprimed, hshadow, hquality, hstill, hleast, heighth⟩
  · obtain ⟨hl, hs⟩ := hslotless (hvcfg ▸ h0)
    exact ⟨htlnc.trans (hl.trans hvtransmitting), htsuccessor.trans (hs.trans hvsuccessor)⟩
  · obtain ⟨hwaits, henters, -⟩ := hslot (hvcfg ▸ hhome)
    obtain ⟨hflag0, hflag1, hflag2⟩ := beaconFlags_getLsbD (s.stc.runState = .listen) true (s.cfg.role = .gateway)
    have hbeacon : v.evaluationBeacon v.cve.beaconGap = ⟨s.cfg.address, 63, .beacon
        (beaconFlags (s.stc.runState = .listen) true (s.cfg.role = .gateway)) (BitVec.ofNat 16 (s.cve.beaconGap / 10))
        (BitVec.ofNat 8 v.activeCount) (beaconItems s.cfg v.decidedSegments)⟩ := by
      rw [State.evaluationBeacon, hvcfg, hvlost, hvstate, hvgap]
    rw [hbeacon, hvtransmitting] at hwaits henters
    refine ⟨_, BitVec.ofNat 8 v.activeCount, beaconItems s.cfg v.decidedSegments, hflag0, hflag1, hflag2,
      (Nat.mod_le _ _).trans hvactive, ?_, fun i x hx => ?_, fun hsending => ?_, fun hfree => ?_⟩
    · rw [beaconItems, List.length_mapIdx, hdecided, List.length_map, hvlen]
      exact hcount
    · exact beaconItems_of_lost hc hvlost (hvlen.trans hcount) hx
    · obtain ⟨hs, hl⟩ := hwaits hsending
      exact ⟨htsuccessor.trans hs, htlnc.trans hl⟩
    · obtain ⟨hs, hclass2⟩ := henters hfree
      exact ⟨htsuccessor.trans (hs.trans hvsuccessor), by rw [htlnc, hclass2, hvnow]⟩
  · obtain ⟨hvclear, hvcontrol⟩ := hbefore.quiet ⟨hclaimed, hheld⟩
    rw [htcontrol', hsame hvclear, hvcontrol]
    exact hcontrol
  · have hnotclear : ¬State.mapsClear ((s.advance dt).silenced.setChoices
        ((s.advance dt).silenced.choices + (s.advance dt).silenced.cru.contexts.length + 1)) := not_and_or.2 hne
    rw [htcontrol']
    by_cases hvclear : v.mapsClear
    · rw [hsame hvclear]
      exact hbefore.told hnotclear hvclear
    · exact hnoticed.getLast? (hgivenUp .claimed (by simp)) (hgivenUp .held (by simp)) hvclear
  · rw [htlnc, hothers.1, hvtransmitting]
  · rw [htlnc, hothers.2.1, hvtransmitting]
  · rw [htlnc, hothers.2.2, hvtransmitting]

end Sys2Proof.Machine
end

