-- ==== Sys2Proof/Proofs/BeaconIntake.lean ====
section
/-!
PROOFS. Intake of a BEACON and aging of the table (R20, R23 to R30): the statements BeaconIntake and NeighbourAging.
-/

namespace Sys2Proof.Machine

variable {s : State}

/-! ### The first of the best -/

section

variable {α : Type} (before : α → α → Prop) [DecidableRel before]

/-- One item's say in which is best: it takes the place of one it stands strictly before. -/
def keepBest (best : Option α) (x : α) : Option α :=
  match best with
  | none => some x
  | some b => if before x b then some x else some b

variable {before}

/-- In a table, the item that no other stands before, and no equal under a lower key, is kept. -/
theorem foldl_keepBest {key : α → Nat} {l : List α} {c : α} (hsorted : TableSorted key l) (hc : c ∈ l)
    (hbest : ∀ d ∈ l, ¬before d c ∧ (before c d ∨ key c ≤ key d)) : l.foldl (keepBest before) none = some c := by
  obtain ⟨earlier, later, rfl⟩ := List.append_of_mem hc
  obtain ⟨-, -, hkeys⟩ := List.pairwise_append.1 hsorted
  have hearlier : ∀ d ∈ earlier, before c d := fun d hd =>
    (hbest d (List.mem_append_left _ hd)).2.resolve_right (Nat.not_le.2 (hkeys d hd c List.mem_cons_self))
  have hlater : ∀ d ∈ later, ¬before d c := fun d hd =>
    (hbest d (List.mem_append_right _ (List.mem_cons_of_mem _ hd))).1
  have hheld : ∀ b, earlier.foldl (keepBest before) none = some b → b ∈ earlier := by
    refine List.foldlRecOn (motive := fun best => ∀ b : α, best = some b → b ∈ earlier) earlier _ (fun b hb => by cases hb)
      fun best hbest d hd b hb => ?_
    unfold keepBest at hb
    split at hb
    · exact Option.some.inj hb ▸ hd
    · split at hb
      · exact Option.some.inj hb ▸ hd
      · exact hbest b hb
  have htaken : keepBest before (earlier.foldl (keepBest before) none) c = some c := by
    cases hb : earlier.foldl (keepBest before) none with
    | none => rfl
    | some b => exact if_pos (hearlier b (hheld b hb))
  rw [List.foldl_append, List.foldl_cons, htaken]
  exact List.foldlRecOn (motive := (· = some c)) later _ rfl fun best hbest d hd => by
    rw [hbest]
    exact if_neg (hlater d hd)

end

/-! ### Intake (R20, R23 to R27) -/

theorem displaced_eq (l : List Neighbour) :
    displaced l = (l.filter Neighbour.stale).foldl (keepBest fun e b => e.heardAt < b.heardAt) none := by
  unfold displaced
  congr 1
  funext best e
  cases best <;> rfl

/-- The longest-silent STALE entry gives way, the lowest address among equals (R26). -/
theorem displaced_eq_some {l : List Neighbour} {gone : Neighbour} (hsorted : TableSorted Neighbour.key l) (hmem : gone ∈ l)
    (hstale : gone.stale = true)
    (hfirst : ∀ e ∈ l, e.stale = true →
      gone.heardAt < e.heardAt ∨ (gone.heardAt = e.heardAt ∧ gone.address.toNat ≤ e.address.toNat)) :
    displaced l = some gone := by
  rw [displaced_eq]
  refine foldl_keepBest (key := Neighbour.key) (hsorted.filter _) (List.mem_filter.2 ⟨hmem, hstale⟩) fun e he => ?_
  obtain ⟨he, hs⟩ := List.mem_filter.1 he
  rcases hfirst e he hs with hlt | ⟨heq, hkey⟩
  · exact ⟨Nat.not_lt.2 hlt.le, .inl hlt⟩
  · exact ⟨Nat.not_lt.2 heq.le, .inr hkey⟩

theorem displaced_eq_none {l : List Neighbour} (hfresh : ∀ e ∈ l, e.stale = false) : displaced l = none := by
  have hnone : l.filter Neighbour.stale = [] := List.filter_eq_nil_iff.2 fun e he => by simp [hfresh e he]
  simp [displaced, hnone]

/-- The table with an entry put into it, at each address. -/
theorem tableFind_putEntry {l : List Neighbour} (h : TableSorted Neighbour.key l) (e : Neighbour) (a : Byte) :
    tableFind Neighbour.key a.toNat (tablePut Neighbour.key e l) =
      if a = e.address then some e else tableFind Neighbour.key a.toNat l := by
  rw [tableFind_put h]
  simp only [Neighbour.key, BitVec.toNat_inj, eq_comm (a := e.address)]

/-- The table without an address, at each address. -/
theorem tableFind_eraseEntry {l : List Neighbour} (h : TableSorted Neighbour.key l) (b a : Byte) :
    tableFind Neighbour.key a.toNat (tableErase Neighbour.key b.toNat l) =
      if a = b then none else tableFind Neighbour.key a.toNat l := by
  rw [tableFind_erase h]
  simp only [BitVec.toNat_inj]

/-- Settles O38: intake by its cases in Table 2-2, with `displaced_eq_some` for the entry that gives way. -/
theorem beaconIntake : Obligations.BeaconIntake := by
  intro dt sender dest flags c interval items s h hd hh u kept find
  obtain ⟨pins, lnc, ha⟩ := s.arriving_frame dt
  have hsorted := h.neighbours.sorted
  have hrunning : u.running = true := by
    have hand := hh
    simp only [State.hears, Bool.and_eq_true] at hand
    exact hand.1.1
  have hcfg : u.cfg = s.cfg := by rw [show u = _ from ha]; rfl
  have hnbt : u.nbt = s.nbt := by rw [show u = _ from ha]; rfl
  have hnow : u.now = s.now + dt := by rw [show u = _ from ha]; rfl
  have hexec : exec (.beacon dt sender dest flags interval c items) s =
      .next (u.beaconIntake sender flags interval c items).carrierEnds.linkTake := congrArg done (State.receive_eq hh hd)
  have hsender : sender ≠ s.cfg.address := hd.2.1
  refine ⟨fun h0 => ⟨?_, ?_⟩, fun hhome => ⟨_, hexec, ?_⟩⟩
  · refine List.eq_nil_iff_forall_not_mem.2 fun e he => ?_
    obtain ⟨x, hx⟩ := List.exists_mem_of_length_pos (h.neighbours.entries e he).count.1
    have hwatched := ((h.neighbours.entries e he).items x hx).1
    simp [inWatchRange, h0] at hwatched
  · rw [hexec, State.beaconIntake, if_pos (by simp [hcfg, h0])]
  · have htaken : ¬(!u.running || u.cfg.homeCount = 0 || sender = u.cfg.address) = true := by
      simp [hrunning, hcfg, hhome, hsender]
    have hput (l : List Neighbour) (hl : TableSorted Neighbour.key l) (a : Byte) : tableFind Neighbour.key a.toNat
        (tablePut Neighbour.key (beaconEntry (s.now + dt) sender flags interval c kept) l) = if a = sender then
          some (beaconEntry (s.now + dt) sender flags interval c kept) else tableFind Neighbour.key a.toNat l :=
      tableFind_putEntry hl _ a
    have hback (x : Nbt) : (u.setNbt x).setNbt s.nbt = u := by
      rw [State.setNbt_setNbt, ← hnbt, State.setNbt_self]
    rw [State.beaconIntake, if_neg htaken, hcfg, hnbt, hnow]
    refine ⟨fun hnone => ?_, fun hsome => ⟨fun hroom => ?_, fun gone hgone hnew hfull hstale hfirst => ?_,
      fun hnew hfull hfresh => ?_⟩⟩
    · rw [if_pos hnone]
      refine ⟨(tableFind_eraseEntry hsorted sender sender).trans (if_pos rfl), fun a ha => ?_, hback _⟩
      exact (tableFind_eraseEntry hsorted sender a).trans (if_neg ha)
    · rw [if_neg hsome, if_pos (by exact hroom)]
      refine ⟨⟨_, (hput _ hsorted sender).trans (if_pos rfl), rfl, rfl, rfl, rfl, rfl, rfl, rfl, rfl⟩, fun a ha => ?_, hback _⟩
      exact (hput _ hsorted a).trans (if_neg ha)
    · have hroom : ¬((tableFind Neighbour.key sender.toNat s.nbt.entries).isSome = true ∨
          s.nbt.entries.length < Config.neighbourCapacity) := by
        rw [show tableFind Neighbour.key sender.toNat s.nbt.entries = none from hnew, hfull]
        decide
      have herased := tableErase_sorted (k := gone.key) hsorted
      have hne : gone.address ≠ sender := fun heq => by
        have hkey := tableFind_eq_none.1 hnew gone hgone
        exact hkey (congrArg BitVec.toNat heq)
      rw [if_neg hsome, if_neg hroom, displaced_eq_some hsorted hgone hstale hfirst]
      refine ⟨⟨_, (hput _ herased sender).trans (if_pos rfl), rfl, rfl, rfl, rfl, rfl, rfl, rfl, rfl⟩, ?_,
        fun a hsent hgoneA => ?_, hback _⟩
      · exact ((hput _ herased gone.address).trans (if_neg hne)).trans
          ((tableFind_eraseEntry hsorted gone.address gone.address).trans (if_pos rfl))
      · exact ((hput _ herased a).trans (if_neg hsent)).trans
          ((tableFind_eraseEntry hsorted gone.address a).trans (if_neg hgoneA))
    · have hroom : ¬((tableFind Neighbour.key sender.toNat s.nbt.entries).isSome = true ∨
          s.nbt.entries.length < Config.neighbourCapacity) := by
        rw [show tableFind Neighbour.key sender.toNat s.nbt.entries = none from hnew, hfull]
        decide
      rw [if_neg hsome, if_neg hroom, displaced_eq_none hfresh]

/-! ### Aging (R28 to R30) -/

/-- Settles O39: each point reached or not. -/
theorem neighbourAging : Obligations.NeighbourAging := by
  intro dt a e s h he u silence
  have hsorted := h.neighbours.sorted
  have haddress : e.address = a := BitVec.toNat_inj.1 ((tableFind_eq_some hsorted).1 he).2
  have h3 : 3000 * e.interval = millis (3 * e.interval) := by unfold millis; omega
  have h6 : 6000 * e.interval = millis (6 * e.interval) := by unfold millis; omega
  have hstale : u.stalePoint a = if 3000 * e.interval < silence then
      u.setNbt { entries := tablePut Neighbour.key { e with stale := true } s.nbt.entries } else u := by
    rw [State.stalePoint, show tableFind Neighbour.key a.toNat u.nbt.entries = some e from he, h3]
    rfl
  have hremoved : u.removalPoint a = if 6000 * e.interval < silence then
      u.setNbt { entries := tableErase Neighbour.key a.toNat s.nbt.entries } else u := by
    rw [State.removalPoint, show tableFind Neighbour.key a.toNat u.nbt.entries = some e from he, h6]
    rfl
  refine ⟨⟨_, congrArg done hstale, fun hearly => if_neg (Nat.not_lt.2 hearly), fun hlate => ?_⟩,
    ⟨_, congrArg done hremoved, fun hearly => if_neg (Nat.not_lt.2 hearly), fun hlate => ?_⟩⟩
  · rw [if_pos hlate]
    refine ⟨(tableFind_putEntry hsorted _ a).trans (if_pos haddress.symm), fun b hb => ?_, rfl⟩
    exact (tableFind_putEntry hsorted _ b).trans (if_neg fun hba => hb (hba.trans haddress))
  · rw [if_pos hlate]
    refine ⟨(tableFind_eraseEntry hsorted a a).trans (if_pos rfl), fun b hb => ?_, rfl⟩
    exact (tableFind_eraseEntry hsorted a b).trans (if_neg hb)

end Sys2Proof.Machine
end

