-- ==== Sys2Proof/Proofs/TransmitClasses.lean ====
section
/-!
PROOFS. The classes and the candidate (R57 to R64, R87, R88, R94): the statements FramesJoin, Withdrawals and GapEnds.
-/

namespace Sys2Proof.Machine

variable {s : State}

/-! ### A crane frame lost (R87, R88, R94) -/

/-- A lost CRANE UP counts as late. -/
theorem State.craneFrameLost_of_up {f : TxFrame} {crane : Byte} (hsorted : TableSorted Context.key s.cru.contexts)
    (h : craneUpCrane f.frame.body = some crane) : s.countsLate (s.craneFrameLost f) crane := by
  rw [State.craneFrameLost, h]
  exact State.countsLate_countLate hsorted

/-- Any other frame belongs to no context. -/
theorem State.craneFrameLost_of_other {f : TxFrame} (h : craneUpCrane f.frame.body = none) : s.craneFrameLost f = s := by
  rw [State.craneFrameLost, h]

/-! ### Joining a class (R57, R62, R88) -/

theorem State.giveCrane_of_room {x : Frame} {life : Nat} (hroom : s.lnc.class0.length < 8) :
    s.giveCrane x life = (s.setLnc { s.lnc with class0 := s.lnc.class0 ++ [newTx s.now x life 0] }).openDefer :=
  if_pos hroom

/-- A full class whose head is not being transmitted gives that up. -/
theorem State.giveCrane_of_full {x : Frame} {life : Nat} {old : TxFrame} {rest : List TxFrame}
    (hclass : s.lnc.class0 = old :: rest) (hfull : rest.length = 7) (hline : s.lnc.transmitting .crane = false) :
    s.giveCrane x life =
      (let t := (s.setLnc { s.lnc with class0 := rest ++ [newTx s.now x life 0] }).craneFrameLost old
       if s.lnc.deferring .crane then t.reopenDefer else t) := by
  have hroom : ¬s.lnc.class0.length < Config.classCapacity := by
    rw [hclass, List.length_cons, hfull]
    decide
  rw [State.giveCrane]
  dsimp only
  rw [if_neg hroom, hline, hclass]
  rfl

/-- A full class whose head is being transmitted gives up the next. -/
theorem State.giveCrane_of_sending {x : Frame} {life : Nat} {sent old : TxFrame} {rest : List TxFrame}
    (hclass : s.lnc.class0 = sent :: old :: rest) (hfull : rest.length = 6) (hline : s.lnc.transmitting .crane = true) :
    s.giveCrane x life =
      (s.setLnc { s.lnc with class0 := sent :: rest ++ [newTx s.now x life 0] }).craneFrameLost old := by
  have hroom : ¬s.lnc.class0.length < Config.classCapacity := by
    rw [hclass, List.length_cons, List.length_cons, hfull]
    decide
  have hdeferring : s.lnc.deferring .crane = false := by
    unfold Lnc.transmitting at hline
    unfold Lnc.deferring
    split at hline
    · rename_i hsending
      rw [hsending]
    · cases hline
  rw [State.giveCrane]
  dsimp only
  rw [if_neg hroom, hline, hclass, hdeferring]
  rfl

/-- Settles O44, class by class. -/
theorem framesJoin : Obligations.FramesJoin := by
  intro s x hsorted fresh
  refine ⟨fun life => ?_, fun hroom => ⟨if_pos hroom, if_pos hroom⟩, fun hfull => ?_, fun hsending => if_pos hsending,
    fun hfree => if_neg (by simp [hfree])⟩
  · intro new
    refine ⟨State.giveCrane_of_room, fun old rest hclass hfull hline => ?_, fun sent old rest hclass hfull hline => ?_⟩
    · exact ⟨_, fun crane hcrane => State.craneFrameLost_of_up hsorted hcrane, State.craneFrameLost_of_other,
        State.giveCrane_of_full hclass hfull hline⟩
    · rw [State.giveCrane_of_sending hclass hfull hline]
      exact ⟨fun crane hcrane => State.craneFrameLost_of_up hsorted hcrane, State.craneFrameLost_of_other⟩
  · have hroom : ¬s.lnc.class1.length < Config.classCapacity := by
      rw [hfull]
      decide
    exact ⟨if_neg hroom, if_neg hroom⟩

/-! ### Withdrawals (R58, R87, R94) -/

/-- While the head is being transmitted its withdrawal is refused. -/
theorem State.withdrawCrane_of_sending {f : TxFrame} (hf : s.lnc.class0[0]? = some f)
    (hline : s.lnc.transmitting .crane = true) : s.withdrawCrane 0 =
      s.setLnc { s.lnc with class0 := s.lnc.class0.set 0 { f with withdrawRefused := true } } := by
  rw [State.withdrawCrane, hf]
  exact if_pos (by simp [hline])

theorem State.withdrawCrane_of_waiting {f : TxFrame} {place : Nat} (hf : s.lnc.class0[place]? = some f)
    (hline : ¬(place = 0 ∧ s.lnc.transmitting .crane = true)) : s.withdrawCrane place =
      (let t := (s.setLnc { s.lnc with class0 := s.lnc.class0.eraseIdx place }).craneFrameLost f
       if s.lnc.deferring .crane = true ∧ place = 0 then t.reopenDefer else t) := by
  rw [State.withdrawCrane, hf]
  dsimp only
  rw [if_neg (by simpa [and_comm] using hline)]
  simp only [Bool.and_eq_true, decide_eq_true_eq]

/-- The two commands act each on its own kind, when the frame's time has run out. -/
theorem State.uplinkAged_eq {f : TxFrame} {place : Nat} (hf : s.lnc.class0[place]? = some f) : s.uplinkAged place =
    if isCraneDown f.frame.body = false ∧ f.givenAt + 1000 * f.life ≤ s.now then s.withdrawCrane place else s := by
  rw [State.uplinkAged, hf]
  refine if_congr ?_ rfl rfl
  rw [Bool.and_eq_true, Bool.not_eq_true']
  exact and_congr_right fun _ => decide_eq_true_iff

theorem State.downlinkAged_eq {f : TxFrame} {place : Nat} (hf : s.lnc.class0[place]? = some f) : s.downlinkAged place =
    if isCraneDown f.frame.body = true ∧ f.givenAt + 1000 * f.life ≤ s.now then s.withdrawCrane place else s := by
  rw [State.downlinkAged, hf]
  refine if_congr ?_ rfl rfl
  rw [Bool.and_eq_true]
  exact and_congr_right fun _ => decide_eq_true_iff

/-- Settles O45: of each kind, due and refused, due and withdrawn, or idle. -/
theorem withdrawals : Obligations.Withdrawals := by
  intro dt place f s h hf u due onLine left refused gone up down
  have hup : up = .next (u.uplinkAged place).linkTake := rfl
  have hdown : down = .next (u.downlinkAged place).linkTake := rfl
  rw [State.uplinkAged_eq (s := u) hf] at hup
  rw [State.downlinkAged_eq (s := u) hf] at hdown
  have hrefused (honLine : onLine) : u.withdrawCrane place = refused := by
    obtain ⟨rfl, hline⟩ := honLine
    exact State.withdrawCrane_of_sending (s := u) hf hline
  have hleft (hwaiting : ¬onLine) : u.withdrawCrane place = gone (left.craneFrameLost f) :=
    State.withdrawCrane_of_waiting (s := u) hf hwaiting
  refine ⟨fun crane seq period late payload hbody => ?_, fun crane seq deadline payload hbody => ?_⟩
  · have hkind : isCraneDown f.frame.body = false := by rw [hbody]; rfl
    have hcrane : craneUpCrane f.frame.body = some crane := by rw [hbody]; rfl
    rw [hkind] at hup hdown
    refine ⟨by simpa using hdown, fun hearly => ?_, fun hdue honLine => ?_, fun hdue hwaiting => ?_⟩
    · rwa [if_neg fun hn => hearly hn.2] at hup
    · rwa [if_pos ⟨rfl, hdue⟩, hrefused honLine] at hup
    · rw [if_pos ⟨rfl, hdue⟩, hleft hwaiting] at hup
      exact ⟨_, State.craneFrameLost_of_up h.cranes.sorted hcrane, hup⟩
  · have hkind : isCraneDown f.frame.body = true := by rw [hbody]; rfl
    have hcrane : craneUpCrane f.frame.body = none := by rw [hbody]; rfl
    rw [hkind] at hup hdown
    refine ⟨by simpa using hup, fun hearly => ?_, fun hdue honLine => ?_, fun hdue hwaiting => ?_⟩
    · rwa [if_neg fun hn => hearly hn.2] at hdown
    · rwa [if_pos ⟨rfl, hdue⟩, hrefused honLine] at hdown
    · rwa [if_pos ⟨rfl, hdue⟩, hleft hwaiting, State.craneFrameLost_of_other hcrane] at hdown

/-! ### The end of a gap (R61, R64, R94, R150) -/

/-- The gap of a candidate has run out. -/
theorem State.gapEnds_of_due {c : TxClass} {gapEnd : Micros} {f : TxFrame} {rest : List TxFrame}
    (hline : s.lnc.line = .defer c gapEnd) (hclass : s.lnc.frames c = f :: rest) (hdue : gapEnd ≤ s.now) : s.gapEnds =
      if isCraneDown f.frame.body && decide (f.remaining s.now = 0) then s.withdrawCrane 0
      else if c = .bundle then
        (s.setLnc { s.lnc with line := .sending c (f.onLine s.now) }).bufferSending f.buffer
      else s.setLnc { s.lnc with line := .sending c (f.onLine s.now) } := by
  rw [State.gapEnds, hline]
  dsimp only
  rw [if_pos hdue, hclass]
  rfl

/-- A frame of another kind goes out as it is. -/
theorem TxFrame.onLine_of_other {f : TxFrame} (h : isCraneDown f.frame.body = false) (now : Micros) :
    f.onLine now = f.frame := by
  unfold TxFrame.onLine
  split
  · rename_i hbody
    rw [hbody] at h
    cases h
  · rfl

theorem State.gapEnds_of_other {c : TxClass} {gapEnd : Micros} {f : TxFrame} {rest : List TxFrame}
    (hline : s.lnc.line = .defer c gapEnd) (hclass : s.lnc.frames c = f :: rest) (hdue : gapEnd ≤ s.now)
    (hkind : isCraneDown f.frame.body = false) (hc : c ≠ .bundle) :
    s.gapEnds = s.setLnc { s.lnc with line := .sending c f.frame } := by
  rw [State.gapEnds_of_due hline hclass hdue, hkind, f.onLine_of_other hkind, if_neg (by simp), if_neg hc]

/-- A CRANE DOWN stands in class 0 alone. -/
theorem isCraneDown_of_holds {c : TxClass} {b : FrameBody} (h : c.holds b) (hc : c ≠ .crane) : isCraneDown b = false := by
  cases b with
  | craneDown => exact absurd h hc
  | beacon | craneUp | offer | take | refuse | commit | cancel | bundle => rfl

/-- The buffer whose bundle starts is SENDING; the others are as they were. -/
theorem State.bufferSending_getElem? (s : State) (i j : Nat) :
    (s.bufferSending i).bas.buffers[j]? = (s.bas.buffers[j]?).map fun b : Buffer =>
      if j = i then { b with state := .sending } else b := by
  rw [State.bufferSending, State.setBas_bas, List.getElem?_modify]
  by_cases hij : i = j
  · simp [hij]
  · simp [hij, Ne.symm hij]

/-- Settles O41, by the kind of the candidate. -/
theorem gapEnds : Obligations.GapEnds := by
  intro dt gapEnd c f rest s h hline hclass u e sends
  have hexec : e = .next u.gapEnds.linkTake := rfl
  have hholds : c.holds f.frame.body := (h.line.kinds c f (by rw [hclass]; exact List.mem_cons_self)).1
  refine ⟨fun hearly => ?_, fun hdue => ⟨fun hc => ?_, fun crane seq period late payload hbody => ?_,
    fun crane seq deadline payload hbody => ?_, fun hc => ?_⟩⟩
  · have hstill : u.gapEnds = u := by
      rw [State.gapEnds, show u.lnc.line = _ from hline]
      exact if_neg (Nat.not_le.2 hearly)
    rw [hexec, hstill]
  · have hkind : isCraneDown f.frame.body = false :=
      isCraneDown_of_holds hholds (by rcases hc with rfl | rfl <;> simp)
    rw [hexec, State.gapEnds_of_other (s := u) hline hclass hdue hkind (by rcases hc with rfl | rfl <;> simp)]
    rfl
  · rw [hbody] at hholds
    subst hholds
    rw [hexec, State.gapEnds_of_other (s := u) hline hclass hdue (by rw [hbody]; rfl) (by simp)]
    rfl
  · rw [hbody] at hholds
    subst hholds
    have hkind : isCraneDown f.frame.body = true := by rw [hbody]; rfl
    have hends := State.gapEnds_of_due (s := u) hline hclass hdue
    rw [hkind, Bool.true_and] at hends
    refine ⟨fun hleft => ?_, fun hnone => ?_⟩
    · have hremaining : ¬f.remaining u.now = 0 := Nat.ne_of_gt hleft
      rw [hexec, hends, if_neg (by simpa using hremaining), if_neg (by simp)]
      have honLine : f.onLine u.now = ⟨f.frame.sender, f.frame.dest, .craneDown crane seq
          (BitVec.ofNat 16 (f.life - (s.now + dt - f.givenAt) / 1000)) payload⟩ := by
        rw [TxFrame.onLine, hbody]
        rfl
      rw [honLine]
      rfl
    · have hremaining : f.remaining u.now = 0 := hnone
      have hfirst : u.lnc.class0[0]? = some f := by
        rw [show u.lnc.class0 = f :: rest from hclass]
        rfl
      have hwaiting : u.lnc.transmitting .crane = false := by
        rw [Lnc.transmitting, show u.lnc.line = _ from hline]
      have hcandidate : u.lnc.deferring .crane = true := by
        rw [Lnc.deferring, show u.lnc.line = _ from hline]
        rfl
      rw [hexec, hends, if_pos (by simpa using hremaining), State.withdrawCrane_of_waiting hfirst (by simp [hwaiting]),
        hcandidate, State.craneFrameLost_of_other (by rw [hbody]; rfl), show u.lnc.class0 = f :: rest from hclass]
      rfl
  · subst hc
    have hkind := isCraneDown_of_holds hholds (by simp)
    have hends := State.gapEnds_of_due (s := u) hline hclass hdue
    rw [hkind, f.onLine_of_other hkind, if_neg (by simp), if_pos rfl] at hends
    exact ⟨_, congrArg done hends, rfl, rfl, rfl, rfl, State.bufferSending_getElem? _ _⟩

end Sys2Proof.Machine
end

