-- ==== Sys2Proof/Proofs/Attempts.lean ====
section
/-!
PROOFS. Carrier, reception and the ends of an attempt (R50, R59 to R70, R87, R88, R94, R150): the statements CarrierChanges,
ReceivedFrames, TransmissionCompletes and CollisionEnds.
-/

namespace Sys2Proof.Machine

variable {s : State}

/-! ### Carrier (R59, R61, R67, R71, R74) -/

theorem State.carrierAppears_of_present (h : s.pins.carrier = true) : s.carrierAppears = s := if_pos h

theorem State.carrierEnds_of_absent (h : s.pins.carrier = false) : s.carrierEnds = s := if_pos (by simp [h])

/-- Where LNC follows the level alone. -/
theorem State.carrierAppears_of_deaf (hdeaf : s.running = false ∨ s.transmitEnable = true) (h : s.pins.carrier = false) :
    s.carrierAppears = s.setPins { s.pins with carrier := true } := by
  rw [State.carrierAppears, if_neg (by simp [h])]
  dsimp only
  cases hrun : s.running with
  | false => rfl
  | true =>
    have hsending := hdeaf.resolve_left (by simp [hrun])
    unfold State.transmitEnable at hsending
    cases hline : s.lnc.line with
    | sending => rfl
    | idle | defer | fault => simp [hline] at hsending

theorem State.carrierEnds_of_deaf (hdeaf : s.running = false ∨ s.transmitEnable = true) (h : s.pins.carrier = true) :
    s.carrierEnds = s.setPins { s.pins with carrier := false } := by
  rw [State.carrierEnds, if_neg (by simp [h])]
  dsimp only
  cases hrun : s.running with
  | false => rfl
  | true =>
    have hsending := hdeaf.resolve_left (by simp [hrun])
    unfold State.transmitEnable at hsending
    cases hline : s.lnc.line with
    | sending => rfl
    | idle | defer | fault => simp [hline] at hsending

/-- A reception begins in IDLE and ends a DEFER. -/
theorem State.carrierAppears_of_quiet (hrun : s.running = true) (h : s.pins.carrier = false)
    (hline : s.lnc.line = .idle ∨ ∃ c e, s.lnc.line = .defer c e) : s.carrierAppears =
      (s.setPins { s.pins with carrier := true }).setLnc
        { s.lnc with line := .idle, receiving := true, carrierSince := some s.now } := by
  rw [State.carrierAppears, if_neg (by simp [h])]
  dsimp only
  rw [if_neg (by simp [hrun])]
  rcases hline with hline | ⟨c, e, hline⟩
  · rw [hline]
  · rw [hline]

theorem State.carrierEnds_of_idle (hrun : s.running = true) (h : s.pins.carrier = true) (hline : s.lnc.line = .idle) :
    s.carrierEnds = ((s.setPins { s.pins with carrier := false }).setLnc
      { s.lnc with receiving := false, carrierSince := none }).openDefer := by
  rw [State.carrierEnds, if_neg (by simp [h])]
  dsimp only
  rw [if_neg (by simp [hrun]), hline]

theorem State.carrierAppears_of_fault (hrun : s.running = true) (h : s.pins.carrier = false) (hline : s.lnc.line = .fault) :
    s.carrierAppears = (s.setPins { s.pins with carrier := true }).setLnc
      { s.lnc with carrierSince := some s.now, recoverySince := none } := by
  rw [State.carrierAppears, if_neg (by simp [h])]
  dsimp only
  rw [if_neg (by simp [hrun]), hline]

theorem State.carrierEnds_of_fault (hrun : s.running = true) (h : s.pins.carrier = true) (hline : s.lnc.line = .fault)
    (hreceiving : s.lnc.receiving = false) : s.carrierEnds = (s.setPins { s.pins with carrier := false }).setLnc
      { s.lnc with carrierSince := none, recoverySince := if s.pins.lineOpen then none else some s.now } := by
  rw [State.carrierEnds, if_neg (by simp [h])]
  dsimp only
  rw [if_neg (by simp [hrun]), hline, ← hreceiving]

/-- Settles O46, edge by edge and line state by line state. -/
theorem carrierChanges : Obligations.CarrierChanges := by
  intro dt s h u level appears ends
  have happears {t : State} (ht : u.carrierAppears = t) : appears = .next t.linkTake := congrArg done ht
  have hends {t : State} (ht : u.carrierEnds = t) : ends = .next t.linkTake := congrArg done ht
  refine ⟨fun hc => happears (State.carrierAppears_of_present hc), fun hc => hends (State.carrierEnds_of_absent hc),
    fun hdeaf => ⟨fun hc => happears (State.carrierAppears_of_deaf hdeaf hc), fun hc =>
      hends (State.carrierEnds_of_deaf hdeaf hc)⟩,
    fun hrun => ⟨fun hc hline => happears (State.carrierAppears_of_quiet hrun hc hline), fun hc hline =>
      hends (State.carrierEnds_of_idle hrun hc hline), fun hline => ⟨fun hc =>
        happears (State.carrierAppears_of_fault hrun hc hline), fun hc => ?_⟩⟩⟩
  have hreceiving : s.lnc.receiving = false := by
    by_contra hr
    have hidle := (h.line.receiving (by simpa using hr)).2
    rw [hline] at hidle
    cases hidle
  exact hends (State.carrierEnds_of_fault hrun hc hline hreceiving)

/-! ### Received frames (R67 to R70) -/

/-- A row of received frames is received as its frame. -/
theorem exec_frame {c : Instr} {f : Frame} (h : c.frame = some f) (s : State) :
    exec c s = done ((s.advance c.elapsed).receive fun t => t.checkedFrame f) := by
  cases c <;> cases h <;> rfl

theorem State.receive_of_hears {dt : Micros} (h : (s.arriving dt).hears = true) (take : State → State) :
    (s.advance dt).receive take = (take (s.arriving dt)).carrierEnds := if_pos h

theorem State.receive_of_deaf {dt : Micros} (h : (s.arriving dt).hears = false) (take : State → State) :
    (s.advance dt).receive take = (s.arriving dt).carrierEnds := if_neg (by rw [← State.arriving, h]; simp)

theorem State.checkedFrame_of_malformed {f : Frame} (h : frameWellFormed f = false) : s.checkedFrame f = s :=
  if_pos (by simp [h])

theorem State.checkedFrame_of_clash {f : Frame} (h : frameWellFormed f = true) (hs : f.sender = s.cfg.address) :
    s.checkedFrame f = s.setFlag .addressClash := by
  rw [State.checkedFrame, if_neg (by simp [h]), if_pos hs]

theorem State.checkedFrame_of_foreign {f : Frame} (h : frameWellFormed f = true) (hs : f.sender ≠ s.cfg.address)
    (hd : f.dest ≠ s.cfg.address) (hd' : f.dest ≠ 63) : s.checkedFrame f = s := by
  rw [State.checkedFrame, if_neg (by simp [h]), if_neg hs, if_neg (not_or.2 ⟨hd, hd'⟩)]

/-- Settles O48: what `State.checkedFrame` does of each frame, where it is heard. -/
theorem receivedFrames : Obligations.ReceivedFrames := by
  intro dt s h u nothing clash
  have hcfg : u.cfg = s.cfg := by
    obtain ⟨pins, lnc, ha⟩ := s.arriving_frame dt
    rw [show u = _ from ha]
    rfl
  refine ⟨fun hh => ⟨congrArg done (State.receive_of_hears hh _), fun c f hf hdt => ?_, fun bytes hbytes => ?_⟩,
    fun hdeaf => ⟨congrArg done (State.receive_of_deaf hdeaf _), fun c f hf hdt => ?_, fun bytes =>
      congrArg done (State.receive_of_deaf hdeaf _)⟩, fun bytes c f hread hf hdt => ?_⟩
  · have hexec : exec c s = done (u.checkedFrame f).carrierEnds := by
      rw [exec_frame hf, hdt, State.receive_of_hears hh]
    rw [hexec]
    refine ⟨fun hw => congrArg (fun t : State => done t.carrierEnds) (State.checkedFrame_of_malformed hw),
      fun hw hs => congrArg (fun t : State => done t.carrierEnds) (State.checkedFrame_of_clash hw (hcfg ▸ hs)),
      fun hw hs hd hd' => congrArg (fun t : State => done t.carrierEnds)
        (State.checkedFrame_of_foreign hw (hcfg ▸ hs) (hcfg ▸ hd) hd')⟩
  · refine congrArg done ((State.receive_of_hears hh _).trans ?_)
    rcases hbytes with hbytes | hbytes
    · rw [State.checkedBytes, hbytes]
    · rw [State.checkedBytes, hbytes]
  · rw [exec_frame hf, hdt]
    exact congrArg done (State.receive_of_deaf hdeaf _)
  · rw [exec_frame hf, hdt]
    show done ((s.advance dt).receive fun t => t.checkedBytes bytes) = _
    simp only [State.checkedBytes, hread]

/-! ### The end of an attempt (R64, R65, R71) -/

/-- The end of an attempt, after an owner was told of its outcome: the clock and the pins are as they were. -/
theorem State.endAttempt_eq {t : State} (h : t.base = s.base) : t.endAttempt =
    (t.setLnc { t.lnc with
      line := .idle, carrierSince := if s.pins.carrier then some s.now else none }).openDefer := by
  have hnow : t.now = s.now := congrArg (·.1.1) h
  have hpins : t.pins = s.pins := congrArg (·.2.2.1) h
  rw [State.endAttempt, hnow, hpins]

/-- A frame sent whole has left its class. -/
theorem State.transmissionDone_eq {c : TxClass} {x : Frame} {f : TxFrame} {rest : List TxFrame}
    (hline : s.lnc.line = .sending c x) (hclass : s.lnc.frames c = f :: rest) :
    s.transmissionDone = ((s.setLnc (s.lnc.setFrames c rest)).frameSent c f).endAttempt := by
  rw [State.transmissionDone, hline]
  dsimp only
  rw [hclass]

theorem State.enterSuccessor_of_none (h : s.cve.successor = none) : s.enterSuccessor = s := by
  rw [State.enterSuccessor, h]

theorem State.enterSuccessor_of_some {b : Frame} (h : s.cve.successor = some b) : s.enterSuccessor =
    (s.setCve { s.cve with successor := none }).setLnc { s.lnc with class2 := [newTx s.now b 0 0] } := by
  rw [State.enterSuccessor, h]

/-- What a bundle's outcome does at the assembler. -/
theorem State.bundleOutcome_eq {i : Nat} {b : Buffer} (sent : Bool) (hb : s.bas.buffers[i]? = some b) :
    s.bundleOutcome sent i =
      (let t := if sent then s.gdsIntake s.cfg.address b.reports else s
       State.makeMoves (t.setBas { t.bas with buffers := t.bas.buffers.set i Buffer.reset })) := by
  rw [State.bundleOutcome, hb]

/-- Settles O42, class by class. -/
theorem transmissionCompletes : Obligations.TransmissionCompletes := by
  intro dt c x f rest s h hline hclass left ended e
  have hended {t : State} (ht : t.base = left.base) : t.endAttempt = ended t := State.endAttempt_eq (s := left) ht
  have hexec : e = .next ((left.frameSent c f).endAttempt).linkTake :=
    congrArg done (State.transmissionDone_eq (s := s.advance dt) hline hclass)
  rw [hended (State.base_frameSent left c f)] at hexec
  refine ⟨fun hc => ?_, fun hc => ?_, fun hc hnone => ?_, fun b hc hsome => ?_, fun b hc hb => ?_⟩ <;> subst hc
  · exact hexec
  · exact hexec
  · rwa [State.frameSent, State.enterSuccessor_of_none (s := left) hnone] at hexec
  · rwa [State.frameSent, State.enterSuccessor_of_some (s := left) (b := b) hsome] at hexec
  · rw [State.frameSent, State.bundleOutcome_eq (s := left) (b := b) true hb] at hexec
    rw [hexec]
    by_cases hrole : s.cfg.role = .gateway
    · have hintake : left.gdsIntake left.cfg.address b.reports =
          left.setGds (b.reports.foldl (fun g r => g.intake s.cfg.address r) s.gds) := if_pos hrole
      simp only [if_true, hintake, if_pos hrole]
      rfl
    · have hintake : left.gdsIntake left.cfg.address b.reports = left := if_neg hrole
      simp only [if_true, hintake, if_neg hrole]
      rfl

/-! ### Collisions (R65, R66) -/

/-- A collision that brings no successor BEACON into the slot: at the limit the frame is DISCARDED. -/
theorem State.collide_of_limit {c : TxClass} {x : Frame} {f : TxFrame} {rest : List TxFrame}
    (hline : s.lnc.line = .sending c x) (hclass : s.lnc.frames c = f :: rest)
    (hslot : ¬(c = .beacon ∧ s.cve.successor.isSome = true)) (hlimit : c.limit ≤ f.attempts + 1) :
    s.collide = ((s.setLnc (s.lnc.setFrames c rest)).frameDiscarded c f).endAttempt := by
  rw [State.collide, hline]
  dsimp only
  rw [hclass]
  dsimp only
  rw [if_neg hslot, if_pos hlimit]

/-- Below the limit it stays at the head, one attempt more. -/
theorem State.collide_of_below {c : TxClass} {x : Frame} {f : TxFrame} {rest : List TxFrame}
    (hline : s.lnc.line = .sending c x) (hclass : s.lnc.frames c = f :: rest)
    (hslot : ¬(c = .beacon ∧ s.cve.successor.isSome = true)) (hlimit : f.attempts + 1 < c.limit) :
    s.collide = ((s.setLnc (s.lnc.setFrames c ({ f with attempts := f.attempts + 1 } :: rest))).attemptCut c).endAttempt := by
  rw [State.collide, hline]
  dsimp only
  rw [hclass]
  dsimp only
  rw [if_neg hslot, if_neg (Nat.not_le.2 hlimit)]

theorem State.collide_of_successor {x b : Frame} {f : TxFrame} {rest : List TxFrame}
    (hline : s.lnc.line = .sending .beacon x) (hclass : s.lnc.frames .beacon = f :: rest)
    (hb : s.cve.successor = some b) :
    s.collide = State.endAttempt
      ((s.setCve { s.cve with successor := none }).setLnc { s.lnc with class2 := [newTx s.now b 0 0] }) := by
  rw [State.collide, hline]
  dsimp only
  rw [hclass]
  dsimp only
  rw [if_pos ⟨rfl, by rw [hb]; rfl⟩, State.enterSuccessor_of_some hb]

/-- A refused withdrawal is made again, and accepted. -/
theorem State.remakeWithdrawal_of_refused {f : TxFrame} {rest : List TxFrame} (hclass : s.lnc.class0 = f :: rest)
    (h : f.withdrawRefused = true) : s.remakeWithdrawal = (s.setLnc { s.lnc with class0 := rest }).craneFrameLost f := by
  rw [State.remakeWithdrawal, hclass]
  exact if_pos h

theorem State.remakeWithdrawal_of_wanted {f : TxFrame} {rest : List TxFrame} (hclass : s.lnc.class0 = f :: rest)
    (h : f.withdrawRefused = false) : s.remakeWithdrawal = s := by
  rw [State.remakeWithdrawal, hclass]
  exact if_neg (by simp [h])

/-- A crane frame at its limit, or with a refused withdrawal, is lost. -/
theorem State.collide_of_lost {x : Frame} {f : TxFrame} {rest : List TxFrame}
    (hline : s.lnc.line = .sending .crane x) (hclass : s.lnc.class0 = f :: rest)
    (h : 4 ≤ f.attempts + 1 ∨ f.withdrawRefused = true) : ∃ g : TxFrame, g.frame = f.frame ∧
      s.collide = ((s.setLnc { s.lnc with class0 := rest }).craneFrameLost g).endAttempt := by
  by_cases hlimit : 4 ≤ f.attempts + 1
  · exact ⟨f, rfl, State.collide_of_limit hline hclass (by simp) hlimit⟩
  · refine ⟨{ f with attempts := f.attempts + 1 }, rfl, ?_⟩
    rw [State.collide_of_below hline hclass (by simp) (Nat.not_le.1 hlimit), State.attemptCut,
      State.remakeWithdrawal_of_refused (f := { f with attempts := f.attempts + 1 }) (rest := rest) rfl
        (h.resolve_left hlimit)]
    rfl

/-- Settles O43, class by class, below the limit and at it. -/
theorem collisionEnds : Obligations.CollisionEnds := by
  intro dt c x f rest s h hline hclass u n left again ended e
  have hexec : e = .next u.collide.linkTake := rfl
  have hended {t : State} (ht : t.base = u.base) : t.endAttempt = ended t := State.endAttempt_eq (s := u) ht
  have hbelow (hslot : ¬(c = .beacon ∧ s.cve.successor.isSome = true)) (hlimit : n < c.limit) :
      e = .next (ended (again.attemptCut c)).linkTake := by
    have hcollide : u.collide = (again.attemptCut c).endAttempt := State.collide_of_below (s := u) hline hclass hslot hlimit
    rw [hexec, hcollide, hended (State.base_attemptCut again c)]
  have hlimited (hslot : ¬(c = .beacon ∧ s.cve.successor.isSome = true)) (hlimit : c.limit ≤ n) :
      e = .next (ended (left.frameDiscarded c f)).linkTake := by
    have hcollide : u.collide = (left.frameDiscarded c f).endAttempt :=
      State.collide_of_limit (s := u) hline hclass hslot hlimit
    rw [hexec, hcollide, hended (State.base_frameDiscarded left c f)]
  refine ⟨fun hc => ?_, fun hc => ?_, fun hc => ?_, fun hc => ?_⟩ <;> subst hc
  · refine ⟨fun hlimit hwanted => ?_, fun hlost => ?_⟩
    · have hb := hbelow (by simp) hlimit
      rwa [State.attemptCut, State.remakeWithdrawal_of_wanted (s := again) rfl (by exact hwanted)] at hb
    · obtain ⟨g, hg, hcollide⟩ := State.collide_of_lost (s := u) hline hclass hlost
      rw [hended (by simp)] at hcollide
      refine ⟨fun crane seq period late payload hbody => ⟨_, ?_, congrArg done hcollide⟩,
        fun crane seq deadline payload hbody => ?_⟩
      · exact State.craneFrameLost_of_up h.cranes.sorted (by rw [hg, hbody]; rfl)
      · rw [State.craneFrameLost_of_other (by rw [hg, hbody]; rfl)] at hcollide
        exact congrArg done hcollide
  · exact ⟨hbelow (by simp), hlimited (by simp)⟩
  · refine ⟨fun b hb => ?_, fun hnone hlimit => ?_, fun hnone hlimit => ?_⟩
    · rw [hexec, State.collide_of_successor (s := u) hline hclass hb, hended (by simp)]
      rfl
    · have hb := hbelow (by simp [hnone]) hlimit
      rwa [State.attemptCut, State.enterSuccessor_of_none (s := again) hnone] at hb
    · exact hlimited (by simp [hnone]) hlimit
  · refine ⟨hbelow (by simp), fun hlimit => ?_⟩
    obtain ⟨b, hb, -, -⟩ := h.owners.bundles f (by
      rw [show s.lnc.class3 = f :: rest from hclass]
      exact List.mem_cons_self)
    have hl := hlimited (by simp) hlimit
    rwa [State.frameDiscarded, State.bundleOutcome_eq (s := left) false hb] at hl

end Sys2Proof.Machine
end

