-- ==== Sys2Proof/Proofs/LineFaults.lean ====
section
/-!
PROOFS. JABBER and OPEN, and the recovery from them (R71 to R74): the statement LineFaults.
-/

namespace Sys2Proof.Machine

variable {s : State}

/-- LNC as a fault begins, with its report (R73, R74). -/
def State.faulted (s : State) (kind : FaultKind) (recovery : Option Micros) : State :=
  State.recordOccasion .faultStart
    (s.setLnc { s.lnc with line := .fault, faultKind := kind, receiving := false, recoverySince := recovery })

/-- The recovery timer does not run under carrier or on an open line. -/
theorem State.enterFault_eq (kind : FaultKind) (h : s.pins.carrier = true ∨ s.pins.lineOpen = true) :
    s.enterFault kind = s.faulted kind none := by
  have hnone : (if s.pins.carrier || s.pins.lineOpen then none else some s.now) = none :=
    if_pos (by rw [Bool.or_eq_true]; exact h)
  rw [State.enterFault, hnone]
  rfl

/-- An occasion recorded outside LOAD is in the set, and its report waits. -/
theorem State.recordOccasion_tells {o : Occasion} (hrun : s.running = true) :
    (s.recordOccasion o).rlc.occasions = s.rlc.occasions.add o ∧
      ControlMsg.stateReport ∈ (s.recordOccasion o).rlc.control := by
  refine ⟨congrArg (·.rlc.occasions) (s.recordOccasion_frame o), State.report_of_recordOccasion fun hload => ?_⟩
  simp [State.running, hload] at hrun

theorem State.jabber_of_idle {since : Micros} (hrun : s.running = true) (hline : s.lnc.line = .idle)
    (hsince : s.lnc.carrierSince = some since) :
    s.jabber = if since + 20000 < s.now then s.enterFault .jabber else s := by
  rw [State.jabber, hline, hsince]
  refine if_congr ?_ rfl rfl
  rw [hrun, Bool.true_and]
  exact decide_eq_true_iff

/-- A line reported open stops a DEFER or a reception. -/
theorem State.lineOpens_of_quiet (hrun : s.running = true)
    (hline : s.lnc.line = .idle ∨ ∃ c e, s.lnc.line = .defer c e) :
    s.lineOpens = (s.setPins { s.pins with lineOpen := true }).faulted .cut none := by
  rw [← State.enterFault_eq (s := s.setPins { s.pins with lineOpen := true }) .cut (.inr rfl), State.lineOpens]
  dsimp only
  rw [if_neg (by simp [hrun])]
  rcases hline with hline | ⟨c, e, hline⟩
  · rw [hline]
  · rw [hline]

/-- It cuts a transmission, without an outcome. -/
theorem State.lineOpens_of_sending {c : TxClass} {x : Frame} (hrun : s.running = true)
    (hline : s.lnc.line = .sending c x) :
    s.lineOpens = State.faulted (State.attemptCut ((s.setPins { s.pins with lineOpen := true }).setLnc { s.lnc with
      line := .idle, carrierSince := if s.pins.carrier then some s.now else none }) c) .cut none := by
  have hcut (t : State) (ht : t.pins.lineOpen = true) : (t.attemptCut c).enterFault .cut = (t.attemptCut c).faulted .cut none :=
    State.enterFault_eq .cut (.inr (by
      have hpins : (t.attemptCut c).pins = t.pins := congrArg (·.2.2.1) (State.base_attemptCut t c)
      rw [hpins, ht]))
  rw [State.lineOpens]
  dsimp only
  rw [if_neg (by simp [hrun]), hline]
  exact hcut _ rfl

theorem State.lineOpens_of_fault (hrun : s.running = true) (hline : s.lnc.line = .fault) :
    s.lineOpens = (s.setPins { s.pins with lineOpen := true }).setLnc { s.lnc with recoverySince := none } := by
  rw [State.lineOpens]
  dsimp only
  rw [if_neg (by simp [hrun]), hline]

theorem State.faultEnds_of_fault {since : Micros} (hrun : s.running = true) (hline : s.lnc.line = .fault)
    (hsince : s.lnc.recoverySince = some since) : s.faultEnds = if since + 50000 ≤ s.now then
      State.openDefer (State.recordOccasion .faultEnd (s.setLnc { s.lnc with line := .idle, recoverySince := none }))
    else s := by
  rw [State.faultEnds]
  refine if_congr ?_ rfl rfl
  rw [hrun, hline, hsince]
  exact decide_eq_true_iff

/-- Nothing ends while no recovery timer runs. -/
theorem State.faultEnds_of_none (h : s.lnc.line ≠ .fault ∨ s.lnc.recoverySince = none) : s.faultEnds = s := by
  refine if_neg fun hends => ?_
  simp only [Bool.and_eq_true, decide_eq_true_eq] at hends
  obtain ⟨⟨-, hline⟩, hdue⟩ := hends
  rcases h with h | h
  · exact h hline
  · rw [h] at hdue
    cases hdue

/-- The line is OK again: the recovery timer starts where no carrier stands. -/
theorem State.lineOk_of_fault (hrun : s.running = true) (hline : s.lnc.line = .fault) (hopen : s.pins.lineOpen = true)
    (hstopped : s.lnc.recoverySince = none) : s.lineOk = (s.setPins { s.pins with lineOpen := false }).setLnc
      { s.lnc with recoverySince := if s.pins.carrier then none else some s.now } := by
  rw [State.lineOk, if_neg (by simp [hopen])]
  dsimp only
  cases hcarrier : s.pins.carrier with
  | false =>
    rw [if_pos (by simp [hrun, hline])]
    rfl
  | true =>
    rw [if_neg (by simp), if_pos rfl, ← hstopped]
    rfl

theorem State.lineOk_of_other (hline : s.lnc.line ≠ .fault) : s.lineOk = s.setPins { s.pins with lineOpen := false } := by
  rw [State.lineOk]
  cases hopen : s.pins.lineOpen with
  | false =>
    rw [if_pos (by simp), ← hopen]
    rfl
  | true =>
    rw [if_neg (by simp)]
    exact if_neg (by simp [hline])

/-- Settles O47, by the line state. -/
theorem lineFaults : Obligations.LineFaults := by
  intro dt s h hrun u now fault opened healed jabber cut recovered good
  have hjabber {t : State} (ht : u.jabber = t) : jabber = .next t.linkTake := congrArg done ht
  have hcut {t : State} (ht : u.lineOpens = t) : cut = .next t.linkTake := congrArg done ht
  have hrecovered {t : State} (ht : u.faultEnds = t) : recovered = .next t.linkTake := congrArg done ht
  have hgood {t : State} (ht : u.lineOk = t) : good = .next t.linkTake := congrArg done ht
  refine ⟨fun t kind recovery ht => ?_, fun since hline hsince => ?_, fun hline => hcut (State.lineOpens_of_quiet hrun hline),
    fun c x hline => ?_, fun hline => ?_, fun hline =>
      ⟨hrecovered (State.faultEnds_of_none (.inl hline)), hgood (State.lineOk_of_other hline)⟩⟩
  · obtain ⟨hset, hreport⟩ := State.recordOccasion_tells (o := .faultStart) (s := t.setLnc { t.lnc with
      line := .fault, faultKind := kind, receiving := false, recoverySince := recovery }) ht
    exact ⟨by rw [hset]; rfl, hreport⟩
  · have hcarrier : s.pins.carrier = true := (h.timers.carrier.1 (by simp [hsince])).2.1
    have hrule := State.jabber_of_idle (s := u) hrun hline hsince
    refine ⟨fun hearly => hjabber (hrule.trans (if_neg (Nat.not_lt.2 hearly))), fun hlate => ?_⟩
    exact hjabber ((hrule.trans (if_pos hlate)).trans (State.enterFault_eq .jabber (.inl hcarrier)))
  · intro ended
    have hrule := State.lineOpens_of_sending (s := u) hrun hline
    refine ⟨fun hc => ?_, fun b hc hb => ?_, fun f rest hc hclass => ?_⟩
    · have hkept : ended.attemptCut c = ended := by
        rcases hc with rfl | rfl | ⟨rfl, hnone⟩
        · rfl
        · rfl
        · exact State.enterSuccessor_of_none (s := ended) hnone
      exact hcut (hrule.trans (congrArg (State.faulted · .cut none) hkept))
    · subst hc
      exact hcut (hrule.trans (congrArg (State.faulted · .cut none) (State.enterSuccessor_of_some (s := ended) hb)))
    · subst hc
      refine ⟨fun hwanted => ?_, fun hrefused => ?_⟩
      · exact hcut (hrule.trans (congrArg (State.faulted · .cut none)
          (State.remakeWithdrawal_of_wanted (s := ended) hclass hwanted)))
      · refine ⟨_, fun crane hcrane => State.craneFrameLost_of_up h.cranes.sorted hcrane, State.craneFrameLost_of_other, ?_⟩
        exact hcut (hrule.trans (congrArg (State.faulted · .cut none)
          (State.remakeWithdrawal_of_refused (s := ended) hclass hrefused)))
  · have hstill : u.jabber = u := by rw [State.jabber, show u.lnc.line = .fault from hline]
    obtain ⟨hset, hreport⟩ := State.recordOccasion_tells (o := .faultEnd)
      (s := u.setLnc { s.lnc with line := .idle, recoverySince := none }) hrun
    refine ⟨hjabber hstill, hcut (State.lineOpens_of_fault hrun hline), fun since hsince => ?_, by rw [hset]; rfl, hreport,
      fun hnone => hrecovered (State.faultEnds_of_none (.inr hnone)), fun hopen => ?_⟩
    · have hrule := State.faultEnds_of_fault (s := u) hrun hline hsince
      exact ⟨fun hearly => hrecovered (hrule.trans (if_neg (Nat.not_le.2 hearly))),
        fun hdue => hrecovered (hrule.trans (if_pos hdue))⟩
    · have hstopped : s.lnc.recoverySince = none := by
        by_contra hrunning
        have hok := (h.timers.recovery.1 hrunning).2.2
        rw [hopen] at hok
        cases hok
      exact hgood (State.lineOk_of_fault hrun hline hopen hstopped)

end Sys2Proof.Machine
end

