-- ==== Sys2Proof/Proofs/CraneContexts.lean ====
section
/-!
PROOFS. CRANE ATTACH, POSITION and DETACH, CRANE UPLINK, downlinks, and the timers of a context (R5, R79 to R96, R106, R114):
the statements CraneMessages, UplinkRelay, CraneTraffic and CraneTimers.
-/

namespace Sys2Proof.Machine

variable {s t : State} {crane g : Byte} {c c' : Context}

/-! ### One context changed -/

/-- The context of a crane replaced by another of the same crane. -/
theorem State.changesContext_of_put (h : TableSorted Context.key s.cru.contexts) (hc : s.contextOf crane = some c)
    (hkeep : c'.crane = c.crane) : s.changesContext (s.putContext c') crane (some c') := by
  rw [← (s.crane_of_contextOf hc).1, ← hkeep]
  exact State.changesContext_put h

/-- The context of a crane freed, said by the context. -/
theorem State.changesContext_of_drop (h : TableSorted Context.key s.cru.contexts) (hc : s.contextOf crane = some c) :
    s.changesContext (s.dropContext c.crane) crane none := by
  rw [(s.crane_of_contextOf hc).1]
  exact State.changesContext_drop h

theorem State.freeContext_of_active (h : c.active = true) :
    s.freeContext c = (s.dropContext c.crane).departure c.position := if_pos h

/-- A crane holds a context only in RUN (R77). -/
theorem CranesOk.run_of_contextOf (h : CranesOk s) (hc : s.contextOf crane = some c) : s.stc.runState = .run := by
  by_contra hrun
  have hmem := (s.crane_of_contextOf hc).2
  rw [h.free (.inl hrun)] at hmem
  exact List.not_mem_nil hmem

/-! ### Messages at their owners -/

/-- The contexts as the owners of a message find them. -/
theorem contextOf_accepting (s : State) (dt : Micros) (crane : Byte) :
    (s.accepting dt).contextOf crane = s.contextOf crane := by
  obtain ⟨rlc, hu, -⟩ := s.accepting_frame dt
  rw [hu]
  rfl

theorem cru_accepting (s : State) (dt : Micros) : (s.accepting dt).cru = s.cru := by
  obtain ⟨rlc, hu, -⟩ := s.accepting_frame dt
  rw [hu]
  rfl

theorem stc_accepting (s : State) (dt : Micros) : (s.accepting dt).stc = s.stc := by
  obtain ⟨rlc, hu, -⟩ := s.accepting_frame dt
  rw [hu]
  rfl

theorem now_accepting (s : State) (dt : Micros) : (s.accepting dt).now = s.now + dt := by
  obtain ⟨rlc, hu, -⟩ := s.accepting_frame dt
  rw [hu]
  rfl

theorem craneInRange_of_le (h1 : 1 ≤ crane.toNat) (h31 : crane.toNat ≤ 31) : craneInRange crane = true :=
  decide_eq_true ⟨h1, h31⟩

theorem payloadInRange_of_le {p : List Byte} (h1 : 1 ≤ p.length) (h48 : p.length ≤ 48) : payloadInRange p = true :=
  decide_eq_true ⟨h1, h48⟩

/-! ### Attach, position, detach (R79 to R82) -/

theorem State.attach_of_known (hrun : s.stc.runState = .run) (hc : s.contextOf crane = some c) : s.attach crane g =
    if c.active then s.setPosition c g else s.putContext { c with state := .anchored, position := g } := by
  rw [State.attach, if_neg (by simp [hrun]), hc]

theorem State.attach_of_new (hrun : s.stc.runState = .run) (hc : s.contextOf crane = none) : s.attach crane g =
    if s.cru.contexts.length < 4 then s.putContext (attachedContext s.now crane g)
    else s.queueControl (.craneReject crane .full) := by
  rw [State.attach, if_neg (by simp [hrun]), hc]
  rfl

theorem State.position_of_known (hc : s.contextOf crane = some c) : s.position crane g = s.setPosition c g := by
  rw [State.position, hc]

theorem State.setPosition_of_ne (h : c.position ≠ g) : s.setPosition c g =
    if c.active then (s.putContext { c with position := g }).departure c.position else s.putContext { c with position := g } :=
  if_neg h

theorem State.detach_of_known (hc : s.contextOf crane = some c) :
    s.detach crane = if c.active then s.freeContext c else s := by
  rw [State.detach, hc]

/-- Settles O49, by run state and by the context of the crane. -/
theorem craneMessages : Obligations.CraneMessages := by
  intro dt crane g s h hattends h1 h31 hg u now attach position detach
  have hcrane := craneInRange_of_le h1 h31
  have hsegment : segmentInRange g = true := decide_eq_true hg
  have hattach : attach = .next (u.attach crane g).linkTake := congrArg done
    (State.messageArrives_eq hattends (m := .craneAttach crane g) (by simp [inboundWellFormed, hcrane, hsegment]) (by simp))
  have hposition : position = .next (u.position crane g).linkTake := congrArg done
    (State.messageArrives_eq hattends (m := .cranePosition crane g) (by simp [inboundWellFormed, hcrane, hsegment]) (by simp))
  have hdetach : detach = .next (u.detach crane).linkTake := congrArg done
    (State.messageArrives_eq hattends (m := .craneDetach crane) hcrane (by simp))
  have hcontext : u.contextOf crane = s.contextOf crane := contextOf_accepting s dt crane
  have hstc : u.stc = s.stc := stc_accepting s dt
  have hcru : u.cru = s.cru := cru_accepting s dt
  have hsorted : TableSorted Context.key u.cru.contexts := hcru ▸ h.cranes.sorted
  refine ⟨fun hlisten => ?_, fun hrun hnone => ⟨fun hfull => ?_, fun hroom => ?_⟩, fun hnone => ⟨?_, ?_⟩, fun c hc => ?_⟩
  · rw [hattach, State.attach, if_pos (by rw [hstc, hlisten]; simp)]
  · rw [hattach, State.attach_of_new (hstc ▸ hrun) (hcontext.trans hnone), if_neg (by rw [hcru, hfull]; simp)]
  · rw [State.attach_of_new (hstc ▸ hrun) (hcontext.trans hnone), if_pos (by rwa [hcru]), now_accepting] at hattach
    exact ⟨_, hattach, State.changesContext_put hsorted⟩
  · rw [hposition, State.position, hcontext, hnone]
  · rw [hdetach, State.detach, hcontext, hnone]
  · have hrun := hstc ▸ h.cranes.run_of_contextOf hc
    rw [State.attach_of_known hrun (hcontext.trans hc)] at hattach
    rw [State.position_of_known (hcontext.trans hc)] at hposition
    rw [State.detach_of_known (hcontext.trans hc)] at hdetach
    refine ⟨fun hpending => ⟨?_, ?_⟩, fun hactive => ⟨?_, ?_⟩, fun hsame => ?_, fun hne => ?_⟩
    · rw [hpending, if_neg (by simp)] at hattach
      exact ⟨_, hattach, State.changesContext_of_put hsorted (hcontext.trans hc) rfl⟩
    · rwa [hpending, if_neg (by simp)] at hdetach
    · rw [hattach, hposition, if_pos hactive]
    · rw [if_pos hactive, State.freeContext_of_active hactive] at hdetach
      exact ⟨_, State.changesContext_of_drop hsorted (hcontext.trans hc), hdetach⟩
    · rw [hposition, State.setPosition, if_pos hsame]
    · rw [State.setPosition_of_ne hne] at hposition
      exact ⟨_, State.changesContext_of_put (c' := { c with position := g }) hsorted (hcontext.trans hc) rfl, hposition⟩

/-! ### Uplinks (R5, R84, R85, R95) -/

/-- An active context relays an uplink. -/
theorem State.uplink_of_active {seq : Byte} {payload : List Byte} (hc : s.contextOf crane = some c)
    (hactive : c.active = true) : s.uplink crane seq payload =
      (let d := c.relayed s.now
       let given := (s.putContext d).giveCrane
         ⟨s.cfg.address, 63, .craneUp crane seq (periodField d.period) (lateField d.late) payload⟩
         (d.period.getD s.cfg.craneStale)
       let queued := if s.cfg.role = .gateway then
           given.queueTerminal ⟨crane, seq, s.cfg.address, periodField d.period, lateField d.late, payload, s.now⟩
         else given
       queued.handoverWindow crane) := by
  rw [State.uplink, hc]
  exact if_pos hactive

/-- Settles O50: the sample for the context's position, and the relay. -/
theorem uplinkRelay : Obligations.UplinkRelay := by
  intro dt crane seq margin payload s h hattends h1 h31 hp1 hp48 u now e
  have hexec : e = .next (u.dispatchMessage (.craneUplink crane seq margin payload)).linkTake := congrArg done
    (State.messageArrives_eq hattends (by simp [inboundWellFormed, craneInRange_of_le h1 h31, payloadInRange_of_le hp1 hp48])
      (by simp))
  have hcontext : u.contextOf crane = s.contextOf crane := contextOf_accepting s dt crane
  rw [State.dispatchMessage, hcontext] at hexec
  refine ⟨fun hnone => ?_, fun old hold => ?_⟩
  · rw [hnone, State.uplink, hcontext, hnone] at hexec
    exact hexec
  · intro sampled
    rw [hold] at hexec
    have hexec : e = .next (sampled.uplink crane seq payload).linkTake := hexec
    obtain ⟨cve, hsample⟩ := u.applySample_frame old.position margin
    obtain ⟨rlc, hu, -⟩ := s.accepting_frame dt
    have hsampled : sampled = ((s.setNow (s.now + dt)).setRlc rlc).setCve cve := hsample.trans (congrArg (State.setCve · cve) hu)
    have hfound : sampled.contextOf crane = some old := by rw [hsampled]; exact hold
    refine ⟨fun hpending => ?_, fun hactive => ?_⟩
    · have hstill : sampled.uplink crane seq payload = sampled := by
        rw [State.uplink, hfound]
        exact if_neg (by simp [hpending])
      exact hexec.trans (congrArg done hstill)
    · intro period field late
      refine ⟨sampled.putContext (old.relayed sampled.now), ?_, ?_⟩
      · have hnow : sampled.now = now := by rw [hsampled]; rfl
        rw [hnow]
        exact State.changesContext_of_put (c' := old.relayed now) (by rw [hsampled]; exact h.cranes.sorted) hfound rfl
      · refine (hexec.trans (congrArg done (State.uplink_of_active hfound hactive))).trans ?_
        rw [hsampled]
        rfl

/-- Twice the guard from now. -/
theorem State.backoffEnd_eq (s : State) : s.backoffEnd = s.now + 2000 * s.cfg.handoverGuard := by
  have hspan : millis (2 * s.cfg.handoverGuard) = 2000 * s.cfg.handoverGuard := by
    show (1000 * (2 * s.cfg.handoverGuard) : Nat) = (2000 * s.cfg.handoverGuard : Nat)
    omega
  rw [State.backoffEnd, hspan]

/-! ### Timers (R86, R106, R114) -/

/-- Settles O53, timer by timer. -/
theorem craneTimers : Obligations.CraneTimers := by
  intro dt crane c s h hc u now
  have hsorted := h.cranes.sorted
  have hfound : u.contextOf crane = some c := hc
  refine ⟨?_, fun peer token due hstate => ?_, fun peer token due hstate => ?_⟩
  · intro passed
    have hwatch : u.staleWatch crane = if passed then
        u.putContext { c with stale := true, period := none, measuring := false } else u := by
      rw [State.staleWatch, hfound]
      refine if_congr ?_ rfl rfl
      rw [Bool.and_eq_true, Bool.not_eq_true']
      exact and_congr_right fun _ => decide_eq_true_iff
    exact ⟨fun hn => congrArg done (hwatch.trans (if_neg hn)), fun hp =>
      ⟨_, congrArg done (hwatch.trans (if_pos hp)), State.changesContext_of_put (s := u) hsorted hfound rfl⟩⟩
  · have hbackoff : now + 2000 * s.cfg.handoverGuard = u.backoffEnd := u.backoffEnd_eq.symm
    have hguard : u.offerGuard crane = if due ≤ now then u.returnToAnchored c u.backoffEnd else u := by
      rw [State.offerGuard, hfound]
      dsimp only
      rw [hstate]
      rfl
    refine ⟨fun hearly => congrArg done (hguard.trans (if_neg (Nat.not_le.2 hearly))), fun hdue => ?_⟩
    rw [hbackoff]
    exact ⟨_, congrArg done (hguard.trans (if_pos hdue)), State.changesContext_of_put (s := u) hsorted hfound rfl⟩
  · have hguard : u.pendingGuard crane = if due ≤ now then u.dropContext crane else u := by
      rw [State.pendingGuard, hfound]
      dsimp only
      rw [hstate]
      rfl
    exact ⟨fun hearly => congrArg done (hguard.trans (if_neg (Nat.not_le.2 hearly))), fun hdue =>
      ⟨_, congrArg done (hguard.trans (if_pos hdue)), State.changesContext_drop (s := u) hsorted⟩⟩

end Sys2Proof.Machine
end

