-- ==== Sys2Proof/Proofs/Downlinks.lean ====
section
/-!
PROOFS. Downlinks and received uplinks (R90 to R96, R164): the statement CraneTraffic.
-/

namespace Sys2Proof.Machine

variable {s : State} {crane seq : Byte} {c : Context} {payload : List Byte}

/-! ### A downlink queue (R90 to R92) -/

/-- A context with one more late frame. -/
theorem Context.addLate_eq (c : Context) : c.addLate = { c with late := if c.late < 255 then c.late + 1 else 255 } := by
  unfold Context.addLate
  split <;> congr 1 <;> omega

/-- A deadline in ms as a downlink queue takes it. -/
theorem clampDeadline_eq (d : Word16) :
    clampDeadline d = if d = 0 then 1 else if 1000 < d.toNat then 1000 else d.toNat := by
  unfold clampDeadline clampNat
  by_cases h0 : d = 0
  · rw [if_pos h0, h0]
    rfl
  · have hpos : 0 < d.toNat := Nat.pos_of_ne_zero fun hz => h0 (BitVec.eq_of_toNat_eq hz)
    rw [if_neg h0]
    split <;> omega

/-- A downlink for a crane with no active context is passed over. -/
theorem State.joinDownlink_of_none {deadline : Nat} (h : ∀ c, s.contextOf crane = some c → c.active = false) :
    s.joinDownlink crane seq deadline payload = s := by
  unfold State.joinDownlink
  split
  · rename_i c hc
    exact if_neg (by simp [h c hc])
  · rfl

/-- What a downlink leaves of the queue of an active context. -/
theorem State.joinDownlink_of_active {deadline : Nat} (hc : s.contextOf crane = some c) (hactive : c.active = true) :
    s.joinDownlink crane seq deadline payload = s.putContext
      (if c.queue.length < 4 then { c with queue := c.queue ++ [⟨seq, payload, s.now + 1000 * deadline⟩] }
       else { c with
        queue := c.queue.drop 1 ++ [⟨seq, payload, s.now + 1000 * deadline⟩],
        late := if c.late < 255 then c.late + 1 else 255 }) := by
  rw [State.joinDownlink, hc]
  dsimp only
  rw [if_pos hactive, pushDropOldest, c.addLate_eq]
  by_cases hroom : c.queue.length < 4
  · rw [if_pos hroom, if_pos (by exact hroom), if_pos (by exact hroom)]
    rfl
  · rw [if_neg hroom]
    have hfull : ¬c.queue.length < Config.downlinkCapacity := hroom
    rw [if_neg hfull, if_neg hfull]
    rfl

/-- A late frame more leaves the contexts in their table. -/
theorem State.craneFrameLost_sorted (h : TableSorted Context.key s.cru.contexts) (f : TxFrame) :
    TableSorted Context.key (s.craneFrameLost f).cru.contexts := by
  unfold State.craneFrameLost State.countLate
  split
  · split
    · exact tablePut_sorted h
    · exact h
  · exact h

/-- A frame given to class 0 leaves them there too. -/
theorem State.giveCrane_sorted (h : TableSorted Context.key s.cru.contexts) (x : Frame) (life : Nat) :
    TableSorted Context.key (s.giveCrane x life).cru.contexts := by
  have hreopen (t : State) (ht : TableSorted Context.key t.cru.contexts) (b : Bool) :
      TableSorted Context.key (if b then t.reopenDefer else t).cru.contexts := by
    split
    · obtain ⟨lnc, hl⟩ := t.reopenDefer_frame
      rwa [hl]
    · exact ht
  unfold State.giveCrane
  dsimp only
  split
  · obtain ⟨lnc, hl, -⟩ := s.joinClass_frame .crane (newTx s.now x life 0)
    rwa [hl]
  · refine hreopen _ ?_ _
    split
    · exact State.craneFrameLost_sorted (by exact h) _
    · exact h

/-- Settles O52, row by row. -/
theorem craneTraffic : Obligations.CraneTraffic := by
  intro dt crane seq deadline payload s h h1 h31 hp1 hp48 now ms entry late joins
  have hms : clampDeadline deadline = ms := clampDeadline_eq deadline
  have hjoins (u : State) (hsorted : TableSorted Context.key u.cru.contexts) (hnow : u.now = now) :
      joins u (u.joinDownlink crane seq ms payload) := by
    refine ⟨State.joinDownlink_of_none, fun c hc hactive => ?_⟩
    rw [State.joinDownlink_of_active hc hactive, hnow]
    exact State.changesContext_of_put hsorted hc (by split <;> rfl)
  refine ⟨fun sender dest hd hh => ⟨_, hjoins (s.arriving dt) ?_ ?_, ?_⟩,
    fun hattends => ⟨fun hrole => ?_, fun hrole => ⟨_, hjoins _ ?_ ?_, ?_⟩⟩, fun place c x hc hx => ?_,
    fun sender dest period n hd hh => ?_⟩
  · obtain ⟨pins, lnc, ha⟩ := s.arriving_frame dt
    rw [ha]
    exact h.cranes.sorted
  · obtain ⟨pins, lnc, ha⟩ := s.arriving_frame dt
    rw [ha]
    rfl
  · rw [← hms]
    exact congrArg done (State.receive_eq hh hd)
  · exact congrArg done ((State.messageArrives_eq hattends (m := .craneDownlink crane seq deadline payload)
      (by simp [inboundWellFormed, craneInRange_of_le h1 h31, payloadInRange_of_le hp1 hp48]) (by simp)).trans
      (if_neg (by simp [cfg_accepting, hrole])))
  · exact State.giveCrane_sorted (by rw [cru_accepting]; exact h.cranes.sorted) _ _
  · exact (congrArg (·.1.1) (State.base_giveCrane _ _ _)).trans (now_accepting s dt)
  · have hdownlink : (s.accepting dt).dispatchMessage (.craneDownlink crane seq deadline payload) =
        (s.accepting dt).downlink crane seq ms payload := by
      rw [← hms]
      exact if_pos (by rw [cfg_accepting, hrole])
    have hexec := congrArg done ((State.messageArrives_eq hattends (m := .craneDownlink crane seq deadline payload)
      (by simp [inboundWellFormed, craneInRange_of_le h1 h31, payloadInRange_of_le hp1 hp48]) (by simp)).trans hdownlink)
    rw [State.downlink, State.ownFrame, cfg_accepting] at hexec
    exact hexec
  · have hdue : (s.advance dt).downlinkDue crane place = if x.deadline ≤ now then
        (s.advance dt).putContext { c.addLate with queue := c.queue.eraseIdx place } else s.advance dt := by
      rw [State.downlinkDue, show (s.advance dt).contextOf crane = some c from hc]
      dsimp only
      rw [hx]
      rfl
    refine ⟨_, congrArg done hdue, fun hearly => if_neg (Nat.not_le.2 hearly), fun hpassed => ?_⟩
    rw [if_pos hpassed, c.addLate_eq]
    exact State.changesContext_of_put (s := s.advance dt) h.cranes.sorted hc rfl
  · have hexec : exec (.craneUp dt sender dest crane seq period n payload) s =
        done ((s.arriving dt).passUplink sender crane seq period n payload).carrierEnds :=
      congrArg done (State.receive_eq hh hd)
    obtain ⟨pins, lnc, ha⟩ := s.arriving_frame dt
    have hcfg : (s.arriving dt).cfg = s.cfg := by rw [ha]; rfl
    have hnow : (s.arriving dt).now = now := by rw [ha]; rfl
    rw [hexec, State.passUplink, hcfg, hnow]
    rfl

end Sys2Proof.Machine
end

