-- ==== Sys2Proof/Proofs/HandoverFrames.lean ====
section
/-!
PROOFS. Anchor handover (R101 to R113): what outcomes, OFFERs and replies do to the contexts they match; the statements
HandoverOutcomes, OfferAnswers and HandoverReplies.
-/

namespace Sys2Proof.Machine

variable {s t : State} {sender crane token : Byte} {c : Context}

/-! ### Which context a frame matches (R101, R102, R112) -/

theorem State.offeringWith_eq_some {peer : Byte} {phase : OfferPhase} :
    s.offeringWith crane token = some (c, peer, phase) ↔
      s.contextOf crane = some c ∧ c.state = .offering peer token phase := by
  rw [State.offeringWith, Option.bind_eq_some_iff]
  constructor
  · rintro ⟨d, hd, hmatch⟩
    split at hmatch
    · rename_i hstate
      split at hmatch
      · rename_i htoken
        cases hmatch
        exact ⟨hd, htoken ▸ hstate⟩
      · cases hmatch
    · cases hmatch
  · rintro ⟨hc, hstate⟩
    refine ⟨c, hc, ?_⟩
    rw [hstate]
    exact if_pos rfl

theorem State.matchingOffer_eq_some : s.matchingOffer sender crane token = some c ↔
    ∃ phase, (s.contextOf crane = some c ∧ c.state = .offering sender token phase) ∧ phase ≠ .committing := by
  rw [State.matchingOffer, Option.bind_eq_some_iff]
  constructor
  · rintro ⟨⟨d, peer, phase⟩, hd, hmatch⟩
    simp only [Option.ite_none_right_eq_some, Option.some.injEq] at hmatch
    obtain ⟨⟨rfl, hphase⟩, rfl⟩ := hmatch
    exact ⟨phase, State.offeringWith_eq_some.1 hd, hphase⟩
  · rintro ⟨phase, hoffering, hphase⟩
    exact ⟨_, State.offeringWith_eq_some.2 hoffering, if_pos ⟨rfl, hphase⟩⟩

theorem State.repeatedTake_eq_true : s.repeatedTake sender crane token = true ↔
    ∃ c, s.contextOf crane = some c ∧ c.state = .offering sender token .committing := by
  rw [State.repeatedTake]
  constructor
  · intro hmatch
    split at hmatch
    · rename_i hd
      exact ⟨_, State.offeringWith_eq_some.1 (of_decide_eq_true hmatch ▸ hd)⟩
    · cases hmatch
  · rintro ⟨c, hoffering⟩
    rw [State.offeringWith_eq_some.2 hoffering]
    exact decide_eq_true rfl

theorem State.matchingPending_eq_some : s.matchingPending sender crane token = some c ↔
    s.contextOf crane = some c ∧ ∃ due, c.state = .pending sender token due := by
  rw [State.matchingPending, Option.bind_eq_some_iff]
  constructor
  · rintro ⟨d, hd, hmatch⟩
    split at hmatch
    · rename_i hstate
      simp only [Option.ite_none_right_eq_some, Option.some.injEq] at hmatch
      obtain ⟨⟨rfl, rfl⟩, rfl⟩ := hmatch
      exact ⟨hd, _, hstate⟩
    · cases hmatch
  · rintro ⟨hc, due, hstate⟩
    refine ⟨c, hc, ?_⟩
    rw [hstate]
    exact if_pos ⟨rfl, rfl⟩

/-! ### Outcomes (R101, R103, R104, R111) -/

theorem State.offerSent_of_match {peer : Byte} (hc : s.contextOf crane = some c)
    (hstate : c.state = .offering peer token .sendingOffer) : s.offerSent crane token =
      s.putContext { c with state := .offering peer token (.awaitingReply (s.now + 1000 * s.cfg.handoverGuard)) } := by
  rw [State.offerSent, State.offeringWith_eq_some.2 ⟨hc, hstate⟩]
  rfl

theorem State.offerDiscarded_of_match {peer : Byte} (hc : s.contextOf crane = some c)
    (hstate : c.state = .offering peer token .sendingOffer) : s.offerDiscarded crane token =
      s.returnToAnchored c s.backoffEnd := by
  rw [State.offerDiscarded, State.offeringWith_eq_some.2 ⟨hc, hstate⟩]

theorem State.offerSent_of_other
    (h : ∀ c peer, s.contextOf crane = some c → c.state ≠ .offering peer token .sendingOffer) :
    s.offerSent crane token = s := by
  unfold State.offerSent
  split
  · rename_i hmatch
    obtain ⟨hc, hstate⟩ := State.offeringWith_eq_some.1 hmatch
    exact absurd hstate (h _ _ hc)
  · rfl

theorem State.offerDiscarded_of_other
    (h : ∀ c peer, s.contextOf crane = some c → c.state ≠ .offering peer token .sendingOffer) :
    s.offerDiscarded crane token = s := by
  unfold State.offerDiscarded
  split
  · rename_i hmatch
    obtain ⟨hc, hstate⟩ := State.offeringWith_eq_some.1 hmatch
    exact absurd hstate (h _ _ hc)
  · rfl

theorem State.commitSent_of_match {peer : Byte} (hc : s.contextOf crane = some c)
    (hstate : c.state = .offering peer token .committing) : s.commitSent crane token =
      ((s.queueControl (.craneRedirect crane peer)).dropContext c.crane).departure c.position := by
  rw [State.commitSent, State.offeringWith_eq_some.2 ⟨hc, hstate⟩]
  exact State.freeContext_of_active (by simp [Context.active, hstate])

theorem State.commitSent_of_other
    (h : ∀ c peer, s.contextOf crane = some c → c.state ≠ .offering peer token .committing) :
    s.commitSent crane token = s := by
  unfold State.commitSent
  split
  · rename_i hmatch
    obtain ⟨hc, hstate⟩ := State.offeringWith_eq_some.1 hmatch
    exact absurd hstate (h _ _ hc)
  · rfl

/-- Beside its CANCEL, a COMMIT discarded returns the context it matches. -/
theorem State.commitDiscarded_of_match {peer d : Byte}
    (hc : (s.giveAnswer (s.ownFrame d (.cancel crane token))).contextOf crane = some c)
    (hstate : c.state = .offering peer token .committing) : s.commitDiscarded d crane token =
      (s.giveAnswer (s.ownFrame d (.cancel crane token))).returnToAnchored c
        (s.giveAnswer (s.ownFrame d (.cancel crane token))).backoffEnd := by
  rw [State.commitDiscarded, State.offeringWith_eq_some.2 ⟨hc, hstate⟩]

theorem State.commitDiscarded_of_other {d : Byte}
    (h : ∀ c peer, (s.giveAnswer (s.ownFrame d (.cancel crane token))).contextOf crane = some c →
      c.state ≠ .offering peer token .committing) :
    s.commitDiscarded d crane token = s.giveAnswer (s.ownFrame d (.cancel crane token)) := by
  unfold State.commitDiscarded
  dsimp only
  split
  · rename_i hmatch
    obtain ⟨hc, hstate⟩ := State.offeringWith_eq_some.1 hmatch
    exact absurd hstate (h _ _ hc)
  · rfl

theorem State.takeDiscarded_of_match {peer : Byte} {due : Micros} (hc : s.contextOf crane = some c)
    (hstate : c.state = .pending peer token due) : s.takeDiscarded crane token = s.dropContext crane := by
  rw [State.takeDiscarded, hc]
  dsimp only
  rw [hstate]
  exact if_pos rfl

theorem State.takeDiscarded_of_other
    (h : ∀ c peer due, s.contextOf crane = some c → c.state ≠ .pending peer token due) :
    s.takeDiscarded crane token = s := by
  unfold State.takeDiscarded
  split
  · rename_i hc
    split
    · rename_i hstate
      exact if_neg fun htoken => h _ _ _ hc (htoken ▸ hstate)
    · rfl
  · rfl

/-- Settles O54, by the kind of the frame and the context it matches. -/
theorem handoverOutcomes : Obligations.HandoverOutcomes := by
  intro a d crane token s hsorted guard commit cancelled
  have hbackoff : s.now + 2000 * guard = s.backoffEnd := s.backoffEnd_eq.symm
  obtain ⟨lnc, hcancelled⟩ := s.giveAnswer_frame (s.ownFrame d (.cancel crane token))
  have hcancelled : cancelled = s.setLnc lnc := hcancelled
  have hfound : cancelled.contextOf crane = s.contextOf crane := by rw [hcancelled]; rfl
  rw [hbackoff]
  refine ⟨fun g period late => ⟨fun c peer hc hstate => ⟨?_, ?_⟩, fun hother => ⟨?_, ?_⟩⟩,
    fun c peer hc hstate => ⟨⟨_, ?_, State.commitSent_of_match hc hstate⟩, ?_⟩, fun hother => ⟨?_, ?_⟩,
    ⟨rfl, fun c peer due hc hstate => ?_, fun hother => State.takeDiscarded_of_other hother⟩, fun body hbody => ?_⟩
  · show s.changesContext (s.offerSent crane token) crane _
    rw [State.offerSent_of_match hc hstate]
    exact State.changesContext_of_put hsorted hc rfl
  · show s.changesContext (s.offerDiscarded crane token) crane _
    rw [State.offerDiscarded_of_match hc hstate]
    exact State.changesContext_of_put hsorted hc rfl
  · exact State.offerSent_of_other hother
  · exact State.offerDiscarded_of_other hother
  · exact State.changesContext_of_drop (s := s.queueControl _) hsorted hc
  · have hlost : s.handoverDiscarded commit = cancelled.returnToAnchored c cancelled.backoffEnd :=
      State.commitDiscarded_of_match (hfound.trans hc) hstate
    have hend : cancelled.backoffEnd = s.backoffEnd := by rw [hcancelled]; rfl
    rw [hlost, hend]
    exact State.changesContext_of_put (by rw [hcancelled]; exact hsorted) (hfound.trans hc) rfl
  · exact State.commitSent_of_other hother
  · exact State.commitDiscarded_of_other fun c peer hc => hother c peer (hfound.symm.trans hc)
  · show s.changesContext (s.takeDiscarded crane token) crane none
    rw [State.takeDiscarded_of_match hc hstate]
    exact State.changesContext_drop hsorted
  · rcases hbody with ⟨reason, rfl⟩ | rfl
    · exact ⟨rfl, rfl⟩
    · exact ⟨rfl, rfl⟩

/-! ### Answers to an OFFER (R109 to R111) -/

/-- What a frame finds at its owner is what the part held before its carrier. -/
theorem State.arriving_same (s : State) (dt : Micros) : (s.arriving dt).cfg = s.cfg ∧ (s.arriving dt).now = s.now + dt ∧
    (s.arriving dt).stc = s.stc ∧ (s.arriving dt).rlc = s.rlc ∧ (s.arriving dt).cru = s.cru ∧
    (∀ k, (s.arriving dt).contextOf k = s.contextOf k) ∧ (∀ g, (s.arriving dt).claimedHere g = s.claimedHere g) ∧
    (s.arriving dt).choices = s.choices := by
  obtain ⟨pins, lnc, ha⟩ := s.arriving_frame dt
  rw [ha]
  exact ⟨rfl, rfl, rfl, rfl, rfl, fun _ => rfl, fun _ => rfl, rfl⟩

/-- A departure leaves the own address. -/
theorem State.departure_cfg (s : State) (g : Byte) : (s.departure g).cfg = s.cfg := by
  obtain ⟨cve, rlc, hd⟩ := s.departure_frame g
  rw [hd]
  rfl

section

variable {g : Byte} {period : Word16} {late : Byte}

theorem State.offerReceived_of_stopped (h : s.stc.runState ≠ .run ∨ s.rlc.radioLost = true) :
    s.offerReceived sender crane token g period late = s.refuseOffer sender crane token .notRunning := if_pos h

theorem State.offerReceived_of_held (hrun : s.stc.runState = .run) (hlost : s.rlc.radioLost = false)
    (hc : s.contextOf crane = some c) : s.offerReceived sender crane token g period late =
      if c.active then
        if s.cfg.address.toNat < sender.toNat then s.refuseOffer sender crane token .anchoredHere
        else ((s.freeContext c).queueControl (.craneReject crane .yielded)).refuseOffer sender crane token .yielded
      else s.refuseOffer sender crane token .pendingOther := by
  rw [State.offerReceived, if_neg (by simp [hrun, hlost]), hc]

theorem State.offerReceived_of_free (hrun : s.stc.runState = .run) (hlost : s.rlc.radioLost = false)
    (hc : s.contextOf crane = none) : s.offerReceived sender crane token g period late =
      if s.claimedHere g = false then s.refuseOffer sender crane token .notClaimed
      else if 4 ≤ s.cru.contexts.length then s.refuseOffer sender crane token .full
      else
        (s.putContext (pendingContext s.now s.cfg.handoverGuard sender crane token g period late)).giveHandover
          (s.ownFrame sender (.take crane token)) := by
  rw [State.offerReceived, if_neg (by simp [hrun, hlost]), hc]
  simp only [Bool.not_eq_true']
  rfl

end

/-- Settles O55, check by check of Table 6-3. -/
theorem offerAnswers : Obligations.OfferAnswers := by
  intro dt sender dest crane token g period late s h hd hh u refusing e
  obtain ⟨hcfg, hnow, hstc, hrlc, hcru, hcontext, hclaimed, -⟩ := s.arriving_same dt
  have hsorted : TableSorted Context.key u.cru.contexts := hcru ▸ h.cranes.sorted
  have hexec : e = .next (u.offerReceived sender crane token g period late).carrierEnds.linkTake :=
    congrArg done (State.receive_eq hh hd)
  have hrefusing {t : State} (ht : t.cfg = s.cfg) (reason : RefuseReason) :
      t.refuseOffer sender crane token reason = refusing t reason := by
    rw [State.refuseOffer, State.ownFrame, ht]
  refine ⟨fun hstopped => ?_, fun hrun hlost => ⟨fun c hc => ?_, fun hnone => ?_⟩⟩
  · have hu : u.stc.runState ≠ .run ∨ u.rlc.radioLost = true := by
      rw [show u.stc = s.stc from hstc, show u.rlc = s.rlc from hrlc]
      exact hstopped.imp_left fun hl => by simp [hl]
    rw [hexec, State.offerReceived_of_stopped hu, hrefusing hcfg]
  · have hanswer := State.offerReceived_of_held (s := u) (sender := sender) (token := token) (g := g) (period := period)
      (late := late) (hstc ▸ hrun) (hrlc ▸ hlost) ((hcontext crane).trans hc)
    refine ⟨fun hpending => ?_, fun hactive hlower => ?_, fun hactive hhigher => ?_⟩
    · rw [hexec, hanswer, if_neg (by simp [hpending]), hrefusing hcfg]
    · rw [hexec, hanswer, if_pos hactive, if_pos (by rw [show u.cfg = s.cfg from hcfg]; exact hlower), hrefusing hcfg]
    · rw [if_pos hactive, if_neg (by rw [show u.cfg = s.cfg from hcfg]; omega), State.freeContext_of_active hactive] at hanswer
      refine ⟨_, State.changesContext_of_drop hsorted ((hcontext crane).trans hc), ?_⟩
      rw [hexec, hanswer, hrefusing]
      exact (State.departure_cfg _ _).trans hcfg
  · have hanswer := State.offerReceived_of_free (s := u) (sender := sender) (token := token) (g := g) (period := period)
      (late := late) (hstc ▸ hrun) (hrlc ▸ hlost) ((hcontext crane).trans hnone)
    rw [show u.claimedHere g = s.claimedHere g from hclaimed g, show u.cru = s.cru from hcru,
      show u.cfg = s.cfg from hcfg, show u.now = _ from hnow] at hanswer
    refine ⟨fun hn => ?_, fun hy hfull => ?_, fun hy hroom => ⟨_, State.changesContext_put
      (c := pendingContext (s.now + dt) s.cfg.handoverGuard sender crane token g period late) hsorted, ?_⟩⟩
    · rw [hexec, hanswer, if_pos hn, hrefusing hcfg]
    · rw [hexec, hanswer, if_neg (by simp [hy]), if_pos hfull.ge, hrefusing hcfg]
    · rw [hexec, hanswer, if_neg (by simp [hy]), if_neg (Nat.not_le.2 hroom), State.ownFrame, show u.cfg = s.cfg from hcfg]

/-! ### Replies (R102 to R106, R112, R113) -/

theorem State.takeReply_of_match (hc : s.matchingOffer sender crane token = some c) : s.takeReply sender crane token =
    (s.putContext { c with state := .offering sender token .committing }).giveHandover
      ⟨s.cfg.address, sender, .commit crane token⟩ := by
  rw [State.takeReply, hc]
  rfl

theorem State.takeReply_of_other (hc : s.matchingOffer sender crane token = none) : s.takeReply sender crane token =
    if s.repeatedTake sender crane token then s else s.giveAnswer ⟨s.cfg.address, sender, .cancel crane token⟩ := by
  rw [State.takeReply, hc]
  rfl

theorem State.refuseReply_of_other (hc : s.matchingOffer sender crane token = none) (reason : RefuseReason) :
    s.refuseReply sender crane token reason = s := by
  rw [State.refuseReply, hc]

/-- Every reason but two is answered with a backoff. -/
theorem State.refuseReply_of_match {reason : RefuseReason} (hc : s.matchingOffer sender crane token = some c)
    (hyielded : reason ≠ .yielded) (hanchored : reason ≠ .anchoredHere) :
    s.refuseReply sender crane token reason = s.returnToAnchored c s.backoffEnd := by
  rw [State.refuseReply, hc]
  cases reason with
  | anchoredHere => exact absurd rfl hanchored
  | yielded => exact absurd rfl hyielded
  | full | notClaimed | pendingOther | notRunning => rfl

/-- On ANCHORED HERE the context is given up and the crane rejected, in one order or the other (log 6). -/
theorem State.refuseReply_of_anchored (hc : s.matchingOffer sender crane token = some c) :
    s.refuseReply sender crane token .anchoredHere =
        ((s.setChoices (s.choices + 1)).freeContext c).queueControl (.craneReject crane .yielded) ∨
      s.refuseReply sender crane token .anchoredHere =
        ((s.setChoices (s.choices + 1)).queueControl (.craneReject crane .yielded)).freeContext c := by
  rw [State.refuseReply, hc]
  dsimp only [State.eitherOrder]
  split
  · exact .inl rfl
  · exact .inr rfl

/-- Settles O56: each reply by whether crane, peer and token match. -/
theorem handoverReplies : Obligations.HandoverReplies := by
  intro dt sender dest crane token s h hh hd u nothing take refuse offering pending
  obtain ⟨hcfg, hnow, -, -, hcru, hcontext, -, hchoices⟩ := s.arriving_same dt
  have hsorted : TableSorted Context.key u.cru.contexts := hcru ▸ h.cranes.sorted
  have hbackoff : s.now + dt + 2000 * s.cfg.handoverGuard = u.backoffEnd := by
    rw [u.backoffEnd_eq, show u.now = _ from hnow, show u.cfg = _ from hcfg]
  have htake : take = .next (u.takeReply sender crane token).carrierEnds.linkTake := congrArg done (State.receive_eq hh hd)
  have hrefuse (reason : RefuseReason) :
      refuse reason = .next (u.refuseReply sender crane token reason).carrierEnds.linkTake :=
    congrArg done (State.receive_eq (f := ⟨sender, dest, .refuse crane token reason⟩) hh hd)
  have hcommit : exec (.commit dt sender dest crane token) s =
      .next (u.commitReceived sender crane token).carrierEnds.linkTake :=
    congrArg done (State.receive_eq (f := ⟨sender, dest, .commit crane token⟩) hh hd)
  have hcancel : exec (.cancel dt sender dest crane token) s =
      .next (u.cancelReceived sender crane token).carrierEnds.linkTake :=
    congrArg done (State.receive_eq (f := ⟨sender, dest, .cancel crane token⟩) hh hd)
  have hnomatch (hother : ∀ c phase, offering c phase → phase = .committing) : u.matchingOffer sender crane token = none :=
    Option.eq_none_iff_forall_ne_some.2 fun c hc => by
      obtain ⟨phase, ⟨hfound, hstate⟩, hphase⟩ := State.matchingOffer_eq_some.1 hc
      exact hphase (hother c phase ⟨(hcontext crane).symm.trans hfound, hstate⟩)
  refine ⟨fun c phase hoffer hphase => ?_, fun hother reason => ?_, fun c hoffer => ?_, fun hnone => ?_,
    fun c hpend => ?_, fun hnone => ?_⟩
  · obtain ⟨hc, hstate⟩ := hoffer
    have hfound : u.contextOf crane = some c := (hcontext crane).trans hc
    have hmatch := State.matchingOffer_eq_some.2 ⟨phase, ⟨hfound, hstate⟩, hphase⟩
    have hactive : c.active = true := (State.contextOf_of_matchingOffer hmatch).2
    refine ⟨⟨_, State.changesContext_of_put (c' := { c with state := .offering sender token .committing }) hsorted hfound rfl,
        ?_⟩,
      ⟨_, State.changesContext_of_put (c' := { c with state := .anchored }) hsorted hfound rfl, ?_⟩,
      fun reason hyielded hanchored => ⟨_, State.changesContext_of_put
        (c' := { c with state := .anchored, retryAt := s.now + dt + 2000 * s.cfg.handoverGuard }) hsorted hfound rfl, ?_⟩, ?_⟩
    · rw [htake, State.takeReply_of_match hmatch, show u.cfg = _ from hcfg]
    · rw [hrefuse, State.refuseReply, hmatch]
      rfl
    · rw [hrefuse, State.refuseReply_of_match hmatch hyielded hanchored, ← hbackoff]
      rfl
    · intro v w
      have hv : u.setChoices (u.choices + 1) = v := congrArg (fun n => u.setChoices (n + 1)) hchoices
      rcases State.refuseReply_of_anchored hmatch with horder | horder
      · rw [hv, State.freeContext_of_active hactive] at horder
        exact .inl ⟨_, State.changesContext_of_drop (s := v) hsorted hfound, by rw [hrefuse, horder]⟩
      · rw [hv, State.freeContext_of_active hactive] at horder
        exact .inr ⟨_, State.changesContext_of_drop (s := w) hsorted hfound, by rw [hrefuse, horder]⟩
  · rw [hrefuse, State.refuseReply_of_other (hnomatch hother)]
  · obtain ⟨hc, hstate⟩ := hoffer
    have hrepeated : u.repeatedTake sender crane token = true :=
      State.repeatedTake_eq_true.2 ⟨c, (hcontext crane).trans hc, hstate⟩
    have hnomatch := hnomatch fun d phase ⟨hd, hphase⟩ => by
      obtain rfl : c = d := Option.some.inj (hc.symm.trans hd)
      rw [hstate] at hphase
      cases hphase
      rfl
    rw [htake, State.takeReply_of_other hnomatch, if_pos hrepeated]
  · have hrepeated : ¬u.repeatedTake sender crane token = true := fun hr => by
      obtain ⟨c, hc, hstate⟩ := State.repeatedTake_eq_true.1 hr
      exact hnone c _ ⟨(hcontext crane).symm.trans hc, hstate⟩
    rw [htake, State.takeReply_of_other (hnomatch fun c phase ho => absurd ho (hnone c phase)), if_neg hrepeated,
      show u.cfg = _ from hcfg]
  · obtain ⟨hc, hstate⟩ := hpend
    have hfound : u.contextOf crane = some c := (hcontext crane).trans hc
    have hmatch := State.matchingPending_eq_some.2 ⟨hfound, hstate⟩
    refine ⟨⟨_, State.changesContext_of_put (c' := { c with state := .anchored }) hsorted hfound rfl, ?_⟩,
      ⟨_, State.changesContext_drop hsorted, ?_⟩⟩
    · rw [hcommit, State.commitReceived, hmatch]
    · rw [hcancel, State.cancelReceived, hmatch]
  · have hnomatch : u.matchingPending sender crane token = none := Option.eq_none_iff_forall_ne_some.2 fun c hc => by
      obtain ⟨hfound, hstate⟩ := State.matchingPending_eq_some.1 hc
      exact hnone c ⟨(hcontext crane).symm.trans hfound, hstate⟩
    exact ⟨by rw [hcommit, State.commitReceived, hnomatch], by rw [hcancel, State.cancelReceived, hnomatch]⟩

end Sys2Proof.Machine
end

