-- ==== Sys2Proof/Proofs/Holdback.lean ====
section
/-!
PROOFS. Custody and holdback, tag by tag (R124 to R137): the statement Holdback.
-/

namespace Sys2Proof.Machine

variable {s t w : State} {r : Report} {tag k : Tag}

/-! ### One tag changed -/

theorem State.custodyOf_putCustody (h : TableSorted Custody.key s.rfi.custody) (r : Report) (k : Tag) :
    (s.putCustody r).custodyOf k = if k = r.tag then some (custodyFrom r) else s.custodyOf k := by
  refine (tableFind_put h).trans ?_
  simp only [Custody.key, custodyFrom, BitVec.toNat_inj, eq_comm (a := r.tag)]
  rfl

theorem State.custodyOf_dropCustody (h : TableSorted Custody.key s.rfi.custody) (tag k : Tag) :
    (s.dropCustody tag).custodyOf k = if k = tag then none else s.custodyOf k := by
  refine (tableFind_erase h).trans ?_
  simp only [BitVec.toNat_inj]
  rfl

/-- `s` with an entry in its holdback list. -/
def State.putHeld (s : State) (e : Held) : State :=
  s.setRfi { s.rfi with holdback := tablePut Held.key e s.rfi.holdback }

theorem State.heldOf_putHeld (h : TableSorted Held.key s.rfi.holdback) (e : Held) (k : Tag) :
    (s.putHeld e).heldOf k = if k = e.report.tag then some e else s.heldOf k := by
  refine (tableFind_put h).trans ?_
  simp only [Held.key, BitVec.toNat_inj, eq_comm (a := e.report.tag)]
  rfl

theorem State.heldOf_dropHeld (h : TableSorted Held.key s.rfi.holdback) (tag k : Tag) :
    (s.dropHeld tag).heldOf k = if k = tag then none else s.heldOf k := by
  refine (tableFind_erase h).trans ?_
  simp only [BitVec.toNat_inj]
  rfl

/-- Two changes of one tag, one after the other, are one change. -/
theorem State.changesTag.trans {c c' : Option Custody} {e e' : Option Held} (h : s.changesTag t tag c e)
    (h' : t.changesTag w tag c' e') : s.changesTag w tag c' e' := by
  obtain ⟨-, -, hothers, hframe⟩ := h
  obtain ⟨hc', he', hothers', hframe'⟩ := h'
  refine ⟨hc', he', fun k hk => ⟨(hothers' k hk).1.trans (hothers k hk).1, (hothers' k hk).2.trans (hothers k hk).2⟩, ?_⟩
  have htwice := congrArg (State.setRfi · s.rfi) hframe'
  exact htwice.trans hframe

theorem State.changesTag_putCustody (h : TableSorted Custody.key s.rfi.custody) (r : Report) :
    s.changesTag (s.putCustody r) r.tag (some (custodyFrom r)) (s.heldOf r.tag) :=
  ⟨(s.custodyOf_putCustody h r r.tag).trans (if_pos rfl), rfl,
    fun k hk => ⟨(s.custodyOf_putCustody h r k).trans (if_neg hk), rfl⟩, rfl⟩

theorem State.changesTag_dropCustody (h : TableSorted Custody.key s.rfi.custody) (tag : Tag) :
    s.changesTag (s.dropCustody tag) tag none (s.heldOf tag) :=
  ⟨(s.custodyOf_dropCustody h tag tag).trans (if_pos rfl), rfl,
    fun k hk => ⟨(s.custodyOf_dropCustody h tag k).trans (if_neg hk), rfl⟩, rfl⟩

theorem State.changesTag_putHeld (h : TableSorted Held.key s.rfi.holdback) (e : Held) :
    s.changesTag (s.putHeld e) e.report.tag (s.custodyOf e.report.tag) (some e) :=
  ⟨rfl, (s.heldOf_putHeld h e e.report.tag).trans (if_pos rfl),
    fun k hk => ⟨rfl, (s.heldOf_putHeld h e k).trans (if_neg hk)⟩, rfl⟩

theorem State.changesTag_dropHeld (h : TableSorted Held.key s.rfi.holdback) (tag : Tag) :
    s.changesTag (s.dropHeld tag) tag (s.custodyOf tag) none :=
  ⟨rfl, (s.heldOf_dropHeld h tag tag).trans (if_pos rfl),
    fun k hk => ⟨rfl, (s.heldOf_dropHeld h tag k).trans (if_neg hk)⟩, rfl⟩

/-! ### The holdback list (R131, R135) -/

/-- A table with an entry taken out and put back is the same. -/
theorem tablePut_tableErase {α : Type} {key : α → Nat} {l : List α} {x : α} (h : TableSorted key l) (hx : x ∈ l) :
    tablePut key x (tableErase key (key x) l) = l := by
  refine table_ext (tablePut_sorted (tableErase_sorted h)) h fun k => ?_
  rw [tableFind_put (tableErase_sorted h), tableFind_erase h]
  by_cases hk : key x = k
  · rw [if_pos hk]
    exact ((tableFind_eq_some h).2 ⟨hx, hk⟩).symm
  · rw [if_neg hk, if_neg (Ne.symm hk)]

/-- An entry taken out of a table leaves one fewer. -/
theorem length_tableErase {α : Type} {key : α → Nat} {l : List α} {x : α} (h : TableSorted key l) (hx : x ∈ l) :
    (tableErase key (key x) l).length + 1 = l.length := by
  have hnone : (tableFind key (key x) (tableErase key (key x) l)).isSome = false := by
    rw [tableFind_erase h, if_pos rfl]
    rfl
  have hlen := length_tablePut (x := x) (tableErase_sorted (k := key x) h)
  rw [hnone, tablePut_tableErase h hx] at hlen
  exact hlen.symm

theorem routineVictim_eq (l : List Held) : routineVictim l =
    (l.filter fun e => e.report.cls = .routine).foldl (keepBest fun e b => b.expiry < e.expiry) none := by
  unfold routineVictim
  congr 1
  funext best e
  cases best <;> rfl

/-- The ROUTINE entry due last gives way, the lowest tag among equals (R135). -/
theorem routineVictim_eq_some {l : List Held} {v : Held} (h : TableSorted Held.key l) (hv : v ∈ l)
    (hroutine : v.report.cls = .routine)
    (hlast : ∀ x ∈ l, x.report.cls = .routine →
      x.expiry < v.expiry ∨ (x.expiry = v.expiry ∧ v.report.tag.toNat ≤ x.report.tag.toNat)) :
    routineVictim l = some v := by
  rw [routineVictim_eq]
  refine foldl_keepBest (key := Held.key) (h.filter _) (List.mem_filter.2 ⟨hv, decide_eq_true hroutine⟩) fun x hx => ?_
  obtain ⟨hx, hr⟩ := List.mem_filter.1 hx
  rcases hlast x hx (of_decide_eq_true hr) with hlt | ⟨heq, hkey⟩
  · exact ⟨Nat.not_lt.2 hlt.le, .inl hlt⟩
  · exact ⟨Nat.not_lt.2 heq.le, .inr hkey⟩

theorem routineVictim_eq_none {l : List Held} (h : ∀ x ∈ l, x.report.cls = .alert) : routineVictim l = none := by
  have hnone : (l.filter fun e => e.report.cls = .routine) = [] :=
    List.filter_eq_nil_iff.2 fun e he => by simp [h e he]
  simp [routineVictim, hnone]

theorem State.enterHoldback_of_room {margin : Byte} (h : s.rfi.holdback.length < 32) :
    s.enterHoldback r margin = s.putHeld (s.heldEntry r margin) := if_pos h

/-- A full list takes an ALERT alone, and only for a ROUTINE entry. -/
theorem State.enterHoldback_of_full {margin : Byte} (h : s.rfi.holdback.length = 32)
    (hlost : r.cls = .routine ∨ routineVictim s.rfi.holdback = none) : s.enterHoldback r margin = s := by
  rw [State.enterHoldback]
  dsimp only
  rw [if_neg (by rw [h]; simp [Config.holdbackCapacity])]
  split
  · rename_i hcls hvictim
    rcases hlost with hlost | hlost
    · rw [hlost] at hcls
      cases hcls
    · rw [hlost] at hvictim
      cases hvictim
  · rfl

theorem State.enterHoldback_of_victim {margin : Byte} {v : Held} (h : s.rfi.holdback.length = 32) (hcls : r.cls = .alert)
    (hv : routineVictim s.rfi.holdback = some v) :
    s.enterHoldback r margin = (s.dropHeld v.report.tag).putHeld (s.heldEntry r margin) := by
  rw [State.enterHoldback]
  dsimp only
  rw [if_neg (by rw [h]; simp [Config.holdbackCapacity]), hcls, hv]
  rfl

theorem State.holdbackDue_of_held {x : Held} (h : s.heldOf tag = some x) :
    s.holdbackDue tag = if x.expiry ≤ s.now then (s.dropHeld tag).forward x.report else s := by
  rw [State.holdbackDue, h]

/-- Settles O58. -/
theorem holdback : Obligations.Holdback := by
  refine ⟨fun margin g s => ⟨rfl, fun hnone => if_pos hnone, fun hsome => if_neg hsome⟩,
    fun r margin s h hnew => ?_, fun dt tag x s h hx => ⟨fun hearly => ?_, fun hdue => ?_⟩⟩
  · intro t entry
    refine ⟨fun hroom => ?_, fun hfull => ⟨fun hlost => ?_, fun v hv hcls hroutine hlast => ?_⟩⟩
    · have ht : t = s.putHeld entry := State.enterHoldback_of_room hroom
      rw [ht]
      exact State.changesTag_putHeld h.heldSorted entry
    · exact State.enterHoldback_of_full hfull (hlost.imp_right routineVictim_eq_none)
    · have ht : t = (s.dropHeld v.report.tag).putHeld entry :=
        State.enterHoldback_of_victim hfull hcls (routineVictim_eq_some h.heldSorted hv hroutine hlast)
      have hsorted : TableSorted Held.key (s.dropHeld v.report.tag).rfi.holdback := tableErase_sorted h.heldSorted
      have hheld (k : Tag) : t.heldOf k =
          if k = r.tag then some entry else if k = v.report.tag then none else s.heldOf k := by
        rw [ht, State.heldOf_putHeld hsorted, State.heldOf_dropHeld h.heldSorted]
      have hne : v.report.tag ≠ r.tag := fun heq => State.heldOf_eq_none.1 hnew v hv heq
      refine ⟨(hheld _).trans (if_pos rfl), ((hheld _).trans (if_neg hne)).trans (if_pos rfl),
        fun k hk hkv => ((hheld k).trans (if_neg hk)).trans (if_neg hkv), by rw [ht]; rfl, ?_, by rw [ht]; rfl⟩
      have hleft := length_tableErase h.heldSorted hv
      have hfree : (tableFind Held.key r.tag.toNat (tableErase Held.key v.key s.rfi.holdback)).isSome = false := by
        have hnone : (s.dropHeld v.report.tag).heldOf r.tag = none := by
          rw [State.heldOf_dropHeld h.heldSorted, if_neg (Ne.symm hne)]
          exact hnew
        exact congrArg Option.isSome hnone
      have hlen := length_tablePut (x := entry) hsorted
      rw [ht]
      refine hlen.trans ((if_neg ?_).trans (hleft.trans hfull))
      exact Bool.eq_false_iff.1 hfree
  · exact congrArg done ((State.holdbackDue_of_held (s := s.advance dt) hx).trans (if_neg (Nat.not_le.2 hearly)))
  · exact ⟨_, State.changesTag_dropHeld (s := s.advance dt) h.reefers.heldSorted tag,
      congrArg done ((State.holdbackDue_of_held (s := s.advance dt) hx).trans (if_pos hdue))⟩

end Sys2Proof.Machine
end

