-- ==== Sys2Proof/Proofs/ReportsAndBundles.lean ====
section
/-!
PROOFS. The path of a REEFER REPORT (R120 to R128, R134) and of a received BUNDLE (R130, R137, R154 to R157): the statements
ReportsRouted and BundleReceived.
-/

namespace Sys2Proof.Machine

variable {s t : State} {r : Report} {tag : Tag} {margin : Byte}

/-! ### Sequence numbers (R121) -/

/-- A sequence number is newer by its distance modulo 256. -/
theorem newerSeq_iff (x y : Byte) : newerSeq x y = true ↔
    1 ≤ (256 + x.toNat - y.toNat) % 256 ∧ (256 + x.toNat - y.toNat) % 256 ≤ 127 := by
  have hdistance : (x - y).toNat = (256 + x.toNat - y.toNat) % 256 := by
    rw [BitVec.toNat_sub]
    have := y.isLt
    congr 1
    omega
  rw [newerSeq, decide_eq_true_iff, hdistance]

theorem newerSeq_eq_false (x y : Byte) : newerSeq x y = false ↔
    ¬(1 ≤ (256 + x.toNat - y.toNat) % 256 ∧ (256 + x.toNat - y.toNat) % 256 ≤ 127) := by
  rw [← newerSeq_iff, Bool.not_eq_true]

/-! ### Table 7-1 -/

/-- A report of a tag in custody. -/
theorem State.routeReport_of_custody {x : Custody} (h : s.custodyOf r.tag = some x) : s.routeReport r margin =
    if newerSeq r.seq x.seq = false then s
    else if s.rfiClaims r.segment = true then (s.putCustody r).forward r
    else (s.dropCustody r.tag).enterHoldback r margin := by
  rw [State.routeReport, h]
  simp only [Bool.not_eq_true']

/-- A report of a tag in holdback. -/
theorem State.routeReport_of_held {x : Held} (h : s.custodyOf r.tag = none) (hx : s.heldOf r.tag = some x) :
    s.routeReport r margin =
      if newerSeq r.seq x.report.seq = false then s
      else if s.rfiClaims r.segment = false then s.replaceHeld x r margin
      else if s.rfi.custody.length < 384 then
        State.forward ((s.dropHeld r.tag).putCustody r) (if x.report.cls = .alert then { r with cls := .alert } else r)
      else (s.setFlag .custodyFull).replaceHeld x r margin := by
  rw [State.routeReport, h, hx]
  simp only [Bool.not_eq_true']
  rfl

/-- A report of a new tag. -/
theorem State.routeReport_of_new (h : s.custodyOf r.tag = none) (hx : s.heldOf r.tag = none) :
    s.routeReport r margin =
      if s.rfiClaims r.segment = false then s.enterHoldback r margin
      else if s.rfi.custody.length < 384 then (s.putCustody r).forward r
      else (s.setFlag .custodyFull).enterHoldback r margin := by
  rw [State.routeReport, h, hx]
  simp only [Bool.not_eq_true']
  rfl

/-- A segment counts as claimed for RFI in RUN alone (R123). -/
theorem State.rfiClaims_iff {g : Byte} : s.rfiClaims g = true ↔ s.stc.runState = .run ∧ s.claimedHere g = true := by
  simp [State.rfiClaims]

/-- A sample leaves every claim. -/
theorem State.applySample_claimedHere (s : State) (g margin k : Byte) :
    (s.applySample g margin).claimedHere k = s.claimedHere k := by
  unfold State.applySample
  split
  · split
    · have hclaims (i : Nat) : (s.cve.segments.modify i (Segment.sample s.cfg.qualShift margin.toNat)).map (·.claim) =
          s.cve.segments.map (·.claim) := List.ext_getElem? fun j => by
        cases hj : s.cve.segments[j]? <;> simp [List.getElem?_modify, hj, apply_ite Segment.claim, Segment.sample]
      rw [State.claimedHere, State.claimOf_setSegments (hclaims _)]
      rfl
    · rfl
  · rfl

theorem State.setFlag_now (s : State) (k : Sticky) : (s.setFlag k).now = s.now := by
  have hframe : ((s.setFlag k).setRlc s.rlc).now = s.now := by rw [State.setFlag_frame]
  exact hframe

/-- The report RFI makes of a REEFER REPORT (R120, R122). -/
def State.intakeReport (s : State) (tag : Tag) (g seq : Byte) (sp su : Word16) (alarm : Byte) : Report :=
  { tag := tag, segment := g, seq := seq, setPoint := clampTemp sp, supply := clampTemp su,
    alarm := BitVec.ofNat 4 alarm.toNat, cls := s.classOf tag (BitVec.ofNat 4 alarm.toNat) }

theorem State.reeferIntake_of_known {g seq alarm : Byte} {sp su : Word16} (htag : tag ≠ 0) (halarm : alarm.toNat ≤ 15) :
    s.reeferIntake tag g seq sp su alarm margin =
      s.routeReport (s.intakeReport tag g seq sp su alarm) margin := by
  have hcode : alarm.extractLsb' 0 4 = BitVec.ofNat 4 alarm.toNat := by
    refine BitVec.eq_of_toNat_eq ?_
    simp
  rw [State.reeferIntake, if_neg (not_or.2 ⟨htag, Nat.not_lt.2 halarm⟩), hcode]
  rfl

/-- Settles O57, along Table 7-1. -/
theorem reportsRouted : Obligations.ReportsRouted := by
  intro dt tag g seq sp su alarm margin s h hattends hg u e
  have hexec : e = .next (u.reeferIntake tag g seq sp su alarm margin).linkTake := congrArg done
    (State.messageArrives_eq hattends (m := .reeferReport tag g seq sp su alarm margin) (decide_eq_true hg) (by simp))
  obtain ⟨rlc, hu, -⟩ := s.accepting_frame dt
  obtain ⟨cve, hsample⟩ := (s.accepting dt).applySample_frame g margin
  have hframe : u = ((s.setNow (s.now + dt)).setRlc rlc).setCve cve := hsample.trans (congrArg (State.setCve · cve) hu)
  have hclaimed : u.claimedHere g = s.claimedHere g := by
    rw [State.applySample_claimedHere, hu]
    rfl
  have hstc : u.stc = s.stc := by rw [hframe]; rfl
  have hrfi : u.rfi = s.rfi := by rw [hframe]; rfl
  have hnow : u.now = s.now + dt := by rw [hframe]; rfl
  have hcustody : u.custodyOf tag = s.custodyOf tag := by rw [hframe]; rfl
  have hheld : u.heldOf tag = s.heldOf tag := by rw [hframe]; rfl
  refine ⟨fun hbad => ?_, fun htag halarm => ?_⟩
  · rw [hexec, State.reeferIntake, if_pos hbad]
  · intro temp code custody held last r mine room newer record
    have hr : u.intakeReport tag g seq sp su alarm = r := by
      have hsame : u.classOf tag code = s.classOf tag code := by
        rw [State.classOf, State.classOf, hcustody, hheld]
      have hcls : u.classOf tag code = if code = last then .routine else .alert := hsame.trans rfl
      rw [State.intakeReport, show u.classOf tag (BitVec.ofNat 4 alarm.toNat) = _ from hcls]
      rfl
    have hmine : u.rfiClaims g = true ↔ mine := by
      rw [State.rfiClaims_iff, hstc, hclaimed]
    have hnotmine : u.rfiClaims g = false ↔ ¬mine := by
      rw [← hmine, Bool.not_eq_true]
    rw [State.reeferIntake_of_known htag halarm, hr] at hexec
    have hcs : TableSorted Custody.key u.rfi.custody := hrfi ▸ h.reefers.custodySorted
    have hhs : TableSorted Held.key u.rfi.holdback := hrfi ▸ h.reefers.heldSorted
    have hroom : u.rfi.custody.length < 384 ↔ room := by rw [hrfi]
    refine ⟨fun x hx => ?_, fun hnone => ⟨fun x hx => ?_, fun hnew => ?_⟩⟩
    · have hroute := State.routeReport_of_custody (s := u) (r := r) (margin := margin) (hcustody.trans hx)
      refine ⟨fun hold => ?_, fun hnewer hm => ?_, fun hnewer hn => ?_⟩
      · rw [hexec, hroute, if_pos ((newerSeq_eq_false _ _).2 hold)]
      · rw [if_neg (by rw [(newerSeq_iff _ _).2 hnewer]; simp), if_pos (hmine.2 hm)] at hroute
        exact ⟨_, hheld ▸ State.changesTag_putCustody hcs r, by rw [hexec, hroute]⟩
      · rw [if_neg (by rw [(newerSeq_iff _ _).2 hnewer]; simp), if_neg fun hm => hn (hmine.1 hm)] at hroute
        exact ⟨_, hheld ▸ State.changesTag_dropCustody hcs tag, by rw [hexec, hroute]⟩
    · intro kept
      have hroute := State.routeReport_of_held (s := u) (r := r) (margin := margin) (hcustody.trans hnone) (hheld.trans hx)
      refine ⟨fun hold => ?_, fun hnewer hm hr => ?_, fun hnewer hno => ?_⟩
      · rw [hexec, hroute, if_pos ((newerSeq_eq_false _ _).2 hold)]
      · rw [if_neg (by rw [(newerSeq_iff _ _).2 hnewer]; simp), if_neg (by rw [hmine.2 hm]; simp),
          if_pos (hroom.2 hr)] at hroute
        have hput := State.changesTag_putCustody (s := u.dropHeld tag) hcs r
        rw [show (u.dropHeld tag).heldOf r.tag = none from (State.heldOf_dropHeld hhs tag tag).trans (if_pos rfl)] at hput
        exact ⟨(u.dropHeld tag).putCustody r, (State.changesTag_dropHeld hhs tag).trans hput, by rw [hexec, hroute]⟩
      · intro v
        have hreplace : u.routeReport r margin = v.replaceHeld x r margin := by
          rw [hroute, if_neg (by rw [(newerSeq_iff _ _).2 hnewer]; simp)]
          by_cases hm : mine
          · rw [if_neg (by rw [hmine.2 hm]; simp), if_neg fun hr => hno ⟨hm, hroom.1 hr⟩]
            exact (congrArg (State.replaceHeld · x r margin) (if_pos hm)).symm
          · rw [if_pos (hnotmine.2 hm)]
            exact (congrArg (State.replaceHeld · x r margin) (if_neg hm)).symm
        have hvrfi : v.rfi = u.rfi := (apply_ite State.rfi _ _ _).trans (by rw [State.setFlag_rfi, ite_self])
        have hvnow : v.now = u.now := (apply_ite State.now _ _ _).trans (by
          rw [State.setFlag_now, ite_self])
        have htag : kept.tag = tag := (apply_ite Report.tag _ _ _).trans (ite_self _)
        have hsegment : kept.segment = g := (apply_ite Report.segment _ _ _).trans (ite_self _)
        have hentry : v.heldEntry kept margin = ⟨kept, s.now + dt + 1000 * v.holdbackTime margin g kept.cls⟩ := by
          rw [State.heldEntry, hsegment, hvnow, hnow]
          rfl
        have hput := State.changesTag_putHeld (s := v) (hvrfi ▸ hhs) (v.heldEntry kept margin)
        have hfree : v.custodyOf tag = none := by
          rw [State.custodyOf, hvrfi]
          exact hcustody.trans hnone
        rw [hentry, show (Held.mk kept (s.now + dt + 1000 * v.holdbackTime margin g kept.cls)).report.tag = tag from htag,
          hfree, ← hentry] at hput
        exact ⟨v.replaceHeld x r margin, hentry ▸ hput, by rw [hexec, hreplace]⟩
    · have hroute := State.routeReport_of_new (s := u) (r := r) (margin := margin) (hcustody.trans hnone) (hheld.trans hnew)
      refine ⟨fun hm hr => ?_, fun hm hr => ?_, fun hm => ?_⟩
      · rw [if_neg (by rw [hmine.2 hm]; simp), if_pos (hroom.2 hr)] at hroute
        have hput := State.changesTag_putCustody (s := u) hcs r
        rw [show u.heldOf r.tag = none from hheld.trans hnew] at hput
        exact ⟨u.putCustody r, hput, by rw [hexec, hroute]⟩
      · rw [hexec, hroute, if_neg (by rw [hmine.2 hm]; simp), if_neg fun h => hr (hroom.1 h)]
      · rw [hexec, hroute, if_pos (hnotmine.2 hm)]

/-! ### Overheard bundles (R130, R137) -/

theorem State.overheard_of_custody {x : Custody} (h : s.custodyOf r.tag = some x) : s.overheard r =
    if newerSeq r.seq x.seq = true ∧ s.claimedHere r.segment = false then s.dropCustody r.tag else s := by
  rw [State.overheard, h]
  simp only [Bool.and_eq_true, Bool.not_eq_true']

theorem State.overheard_of_held {x : Held} (h : s.custodyOf r.tag = none) (hx : s.heldOf r.tag = some x) :
    s.overheard r = if newerSeq x.report.seq r.seq = true then s else s.dropHeld r.tag := by
  rw [State.overheard, h, hx]

theorem State.overheard_of_unknown (h : s.custodyOf r.tag = none) (hx : s.heldOf r.tag = none) : s.overheard r = s := by
  rw [State.overheard, h, hx]

/-! ### The delivery store (R156, R157) -/

theorem mayGiveWay_iff {k : ReportClass} {x : Stored} :
    x.mayGiveWay k = true ↔ x.report.cls = k ∧ x.inHand = false := by
  simp [Stored.mayGiveWay]

theorem any_mayGiveWay_eq_false {k : ReportClass} {store : List Stored}
    (h : ∀ y ∈ store, ¬(y.report.cls = k ∧ y.inHand = false)) : store.any (Stored.mayGiveWay k) = false :=
  List.any_eq_false.2 fun y hy hfree => h y hy (mayGiveWay_iff.1 hfree)

/-- The oldest record that may give way leaves, the others stay in order. -/
theorem eraseP_mayGiveWay {k : ReportClass} {kept later : List Stored} {x : Stored}
    (hx : x.report.cls = k ∧ x.inHand = false) (h : ∀ y ∈ kept, ¬(y.report.cls = k ∧ y.inHand = false)) :
    (kept ++ x :: later).eraseP (Stored.mayGiveWay k) = kept ++ later := by
  rw [List.eraseP_append_right _ fun y hy hfree => h y hy (mayGiveWay_iff.1 hfree),
    List.eraseP_cons_of_pos (mayGiveWay_iff.2 hx)]

/-- A full store with a ROUTINE record that may give way. -/
theorem offerStore_of_routine {x new : Stored} {kept later : List Stored} (hfull : 256 ≤ (kept ++ x :: later).length)
    (hx : x.report.cls = .routine ∧ x.inHand = false)
    (h : ∀ y ∈ kept, ¬(y.report.cls = .routine ∧ y.inHand = false)) :
    offerStore new (kept ++ x :: later) = some (kept ++ later ++ [new]) := by
  have hany : (kept ++ x :: later).any (Stored.mayGiveWay .routine) = true :=
    List.any_eq_true.2 ⟨x, by simp, mayGiveWay_iff.2 hx⟩
  rw [offerStore, if_neg (show ¬_ < Config.storeCapacity from Nat.not_lt.2 hfull), if_pos hany, eraseP_mayGiveWay hx h]

/-- A full store with no such ROUTINE record gives up an ALERT for an ALERT. -/
theorem offerStore_of_alert {x new : Stored} {kept later : List Stored} (hfull : 256 ≤ (kept ++ x :: later).length)
    (hnone : ∀ y ∈ kept ++ x :: later, ¬(y.report.cls = .routine ∧ y.inHand = false)) (hnew : new.report.cls = .alert)
    (hx : x.report.cls = .alert ∧ x.inHand = false) (h : ∀ y ∈ kept, ¬(y.report.cls = .alert ∧ y.inHand = false)) :
    offerStore new (kept ++ x :: later) = some (kept ++ later ++ [new]) := by
  have hany : (kept ++ x :: later).any (Stored.mayGiveWay .alert) = true :=
    List.any_eq_true.2 ⟨x, by simp, mayGiveWay_iff.2 hx⟩
  rw [offerStore, if_neg (show ¬_ < Config.storeCapacity from Nat.not_lt.2 hfull), if_neg (by simp [any_mayGiveWay_eq_false hnone]), if_pos ⟨hnew, hany⟩,
    eraseP_mayGiveWay hx h]

/-- A full store turns a report away when no record may give way to it. -/
theorem offerStore_refused {new : Stored} {store : List Stored} (hfull : 256 ≤ store.length)
    (hnone : ∀ y ∈ store, ¬(y.report.cls = .routine ∧ y.inHand = false))
    (h : new.report.cls = .routine ∨ ∀ y ∈ store, ¬(y.report.cls = .alert ∧ y.inHand = false)) :
    offerStore new store = none := by
  rw [offerStore, if_neg (show ¬_ < Config.storeCapacity from Nat.not_lt.2 hfull), if_neg (by simp [any_mayGiveWay_eq_false hnone]), if_neg]
  rintro ⟨hcls, hany⟩
  rcases h with hroutine | halerts
  · rw [hroutine] at hcls
    cases hcls
  · rw [any_mayGiveWay_eq_false halerts] at hany
    cases hany

/-- A list with room keeps its oldest entry, a full one loses it. -/
theorem pushDropOldest_eq {α : Type} {n : Nat} {x : α} {q : List α} :
    pushDropOldest n x q = (if q.length < n then q else q.drop 1) ++ [x] := by
  rw [pushDropOldest]
  split <;> rfl

/-- GDS takes a report that is new to it as the store takes it. -/
theorem Gds.intake_of_stored {g : Gds} {station : Byte} {store : List Stored} (htag : r.tag ≠ 0)
    (hseen : (r.tag, r.seq) ∉ g.seen) (h : offerStore ⟨clampReport r, station, false⟩ g.store = some store) :
    g.intake station r = { g with
      store := store
      seen := (if g.seen.length < 256 then g.seen else g.seen.drop 1) ++ [(r.tag, r.seq)] } := by
  rw [Gds.intake, if_neg htag, if_neg hseen, h]
  exact congrArg (Gds.mk · store g.drain) pushDropOldest_eq

theorem Gds.intake_of_refused {g : Gds} {station : Byte} (htag : r.tag ≠ 0) (hseen : (r.tag, r.seq) ∉ g.seen)
    (h : offerStore ⟨clampReport r, station, false⟩ g.store = none) : g.intake station r = g := by
  rw [Gds.intake, if_neg htag, if_neg hseen, h]

/-- Settles O60: RFI and GDS report by report, then the store's order of giving way. -/
theorem bundleReceived : Obligations.BundleReceived := by
  refine ⟨fun dt sender dest reports s h hd hh => ?_, fun r s h => ?_, fun station r g => ?_⟩
  · intro t g
    obtain ⟨rfi, ht⟩ := State.overheardBundle_frame reports (s.arriving dt)
    obtain ⟨pins, lnc, hs⟩ := s.arriving_frame dt
    have hcfg : t.cfg = s.cfg := (congrArg State.cfg (show t = _ from ht)).trans (by rw [hs]; rfl)
    have hgds : t.gds = s.gds := (congrArg State.gds (show t = _ from ht)).trans (by rw [hs]; rfl)
    have hdispatch : (s.arriving dt).dispatchFrame sender (.bundle reports) = t.setGds g := by
      show t.gdsIntake sender reports = _
      by_cases hrole : s.cfg.role = .gateway
      · rw [State.gdsIntake, hcfg, hgds, if_pos hrole]
        exact (congrArg t.setGds (if_pos hrole)).symm
      · rw [State.gdsIntake, hcfg, if_neg hrole, show g = t.gds from (if_neg hrole).trans hgds.symm]
        rfl
    exact congrArg done ((State.receive_eq hh hd).trans (congrArg State.carrierEnds hdispatch))
  · intro t newer
    refine ⟨fun x hx => ⟨fun hnewer hclaim => ?_, fun hstays => ?_⟩, fun x hnone hx => ⟨fun hnewer => ?_, fun hold => ?_⟩,
      State.overheard_of_unknown⟩
    · have ht : t = s.dropCustody r.tag :=
        (State.overheard_of_custody hx).trans (if_pos ⟨(newerSeq_iff _ _).2 hnewer, hclaim⟩)
      exact ht ▸ State.changesTag_dropCustody h.custodySorted r.tag
    · refine (State.overheard_of_custody hx).trans (if_neg ?_)
      rintro ⟨hnewer, hclaim⟩
      rcases hstays with hold | hmine
      · exact hold ((newerSeq_iff _ _).1 hnewer)
      · rw [hmine] at hclaim
        cases hclaim
    · exact (State.overheard_of_held hnone hx).trans (if_pos ((newerSeq_iff _ _).2 hnewer))
    · have ht : t = s.dropHeld r.tag :=
        (State.overheard_of_held hnone hx).trans (if_neg fun hnewer => hold ((newerSeq_iff _ _).1 hnewer))
      have hdrop := State.changesTag_dropHeld h.heldSorted r.tag
      rw [hnone] at hdrop
      exact ht ▸ hdrop
  · intro t temp new seen free
    refine ⟨fun hpassed => ?_, fun htag hseen => ⟨fun hroom => ?_, fun hfull => ⟨fun kept x later hstore hx hkept => ?_,
      fun kept x later hstore hnone hcls hx hkept => ?_, fun hnone hrefused => ?_⟩⟩⟩
    · rcases hpassed with htag | hseen
      · exact if_pos htag
      · exact (ite_congr rfl (fun _ => rfl) fun _ => if_pos hseen).trans (ite_self _)
    · exact Gds.intake_of_stored htag hseen (if_pos hroom)
    · rw [hstore] at hfull
      exact Gds.intake_of_stored htag hseen (hstore ▸ offerStore_of_routine hfull hx hkept)
    · rw [hstore] at hfull hnone
      exact Gds.intake_of_stored htag hseen (hstore ▸ offerStore_of_alert hfull hnone hcls hx hkept)
    · exact Gds.intake_of_refused htag hseen (offerStore_refused hfull hnone hrefused)

end Sys2Proof.Machine
end

