-- ==== Sys2Proof/Proofs/BundleBuffers.lean ====
section
/-!
PROOFS. How reports fill the buffers, one move after another (R142 to R149): the statement BuffersFill.
-/

namespace Sys2Proof.Machine

variable {s : State} {i : Nat} {b : Buffer} {r : Report}

/-! ### The receiving buffer -/

/-- The effective limit is the configured one, or the capacity where none is configured (R143). -/
theorem effectiveLimit_eq {c : Settings} (h : c.bundleLimit ≤ if c.bundleMode = .split then 12 else 24) :
    effectiveLimit c = if 1 ≤ c.bundleLimit then c.bundleLimit else if c.bundleMode = .split then 12 else 24 := by
  have hcapacity : bufferCapacity c.bundleMode = if c.bundleMode = .split then 12 else 24 := by
    cases c.bundleMode <;> rfl
  rw [effectiveLimit, hcapacity]
  exact if_congr (and_iff_left h) rfl rfl

/-- Of buffers of which one at most is FILLING, that one is found. -/
theorem findIdx?_filling {bs : List Buffer} (hb : bs[i]? = some b) (hs : b.state = .filling)
    (hone : (bs.countP fun b => b.state = .filling) ≤ 1) : (bs.findIdx? fun b => b.state = .filling) = some i := by
  obtain ⟨hi, rfl⟩ := List.getElem?_eq_some_iff.1 hb
  rw [List.findIdx?_eq_some_iff_getElem]
  refine ⟨hi, decide_eq_true hs, fun j hj hfilling => ?_⟩
  have hcount := countP_set (b' := Buffer.reset) (fun b => decide (b.state = .filling)) hb
  rw [if_pos (decide_eq_true hs), if_neg (by decide)] at hcount
  have hleft : 0 < (bs.set i Buffer.reset).countP fun b => b.state = .filling :=
    List.countP_pos_iff.2 ⟨bs[j], List.mem_iff_getElem.2 ⟨j, by rw [List.length_set]; omega,
      List.getElem_set_ne (by omega) _⟩, hfilling⟩
  omega

/-- The first EMPTY buffer receives while none is FILLING (log 24). -/
theorem receivingBuffer_of_empty {bs : List Buffer} (hb : bs[i]? = some b) (hs : b.state = .empty)
    (hnone : ∀ x ∈ bs, x.state ≠ .filling) (hfirst : ∀ (j : Nat) (x : Buffer), j < i → bs[j]? = some x → x.state ≠ .empty) :
    receivingBuffer bs = some i := by
  obtain ⟨hi, rfl⟩ := List.getElem?_eq_some_iff.1 hb
  have hno : (bs.findIdx? fun b => b.state = .filling) = none :=
    List.findIdx?_eq_none_iff.2 fun x hx => decide_eq_false (hnone x hx)
  rw [receivingBuffer, hno]
  refine List.findIdx?_eq_some_iff_getElem.2 ⟨hi, decide_eq_true hs, fun j hj hempty => ?_⟩
  exact hfirst j bs[j] hj (List.getElem?_eq_getElem (by omega)) (of_decide_eq_true hempty)

/-- Every buffer but one place's is CLOSED or SENDING. -/
def OthersGiven (bs : List Buffer) (i : Nat) : Prop :=
  ∀ (j : Nat) (x : Buffer), j ≠ i → bs[j]? = some x → x.state = .closed ∨ x.state = .sending

theorem OthersGiven.set {bs : List Buffer} (h : OthersGiven bs i) (b : Buffer) : OthersGiven (bs.set i b) i := by
  intro j x hj hx
  rw [List.getElem?_set_ne (Ne.symm hj)] at hx
  exact h j x hj hx

/-- No buffer receives once the last free one is CLOSED. -/
theorem OthersGiven.receivingBuffer_set {bs : List Buffer} (h : OthersGiven bs i) (hclosed : b.state = .closed) :
    receivingBuffer (bs.set i b) = none := by
  refine receivingBuffer_eq_none fun x hx => ?_
  obtain ⟨j, hj⟩ := List.mem_iff_getElem?.1 hx
  by_cases hji : j = i
  · subst hji
    obtain ⟨hlt, -⟩ := List.getElem?_eq_some_iff.1 hj
    rw [List.length_set] at hlt
    rw [List.getElem?_set_self hlt] at hj
    cases hj
    exact .inl hclosed
  · exact h.set b j x hji hj

/-! ### One report -/

/-- `s` with other intakes, and the buffer at a place FILLING. -/
def State.filling (s : State) (i : Nat) (alerts routines : List Report) (room : Nat) (reports : List Report)
    (wait : Option Micros) : State :=
  s.setBas { alertIntake := alerts, routineIntake := routines, buffers := s.bas.buffers.set i ⟨.filling, room, reports⟩,
             waitDue := wait }

/-- `s` with other intakes, and the buffer at a place CLOSED with its bundle in class 3. -/
def State.closing (s : State) (i : Nat) (alerts routines : List Report) (room : Nat) (reports : List Report) : State :=
  ((s.setBas { alertIntake := alerts, routineIntake := routines,
               buffers := s.bas.buffers.set i ⟨.closed, room, reports⟩, waitDue := none }).setLnc
    { s.lnc with
      class3 := s.lnc.class3 ++ [newTx s.now ⟨s.cfg.address, 63, .bundle reports⟩ 0 i] }).openDefer

theorem State.closing_bas (s : State) (i : Nat) (alerts routines : List Report) (room : Nat) (reports : List Report) :
    (s.closing i alerts routines room reports).bas =
      ⟨alerts, routines, s.bas.buffers.set i ⟨.closed, room, reports⟩, none⟩ := State.openDefer_bas _

/-- A report opens an EMPTY buffer. -/
theorem State.fillBuffer_of_empty (hb : s.bas.buffers[i]? = some b) (hs : b.state = .empty) (r : Report) :
    s.fillBuffer i r =
      if effectiveLimit s.cfg - 1 = 0 ∨ r.cls = .alert then
        s.closing i s.bas.alertIntake s.bas.routineIntake (effectiveLimit s.cfg - 1) [r]
      else
        s.filling i s.bas.alertIntake s.bas.routineIntake (effectiveLimit s.cfg - 1) [r]
          (some (s.now + 1000 * s.cfg.bundleWait)) := by
  rw [State.fillBuffer_eq r hb]
  simp only [hs, if_true]
  rfl

/-- A report joins a FILLING buffer. -/
theorem State.fillBuffer_of_filling (hb : s.bas.buffers[i]? = some b) (hs : b.state = .filling) (r : Report) :
    s.fillBuffer i r =
      if b.room - 1 = 0 ∨ r.cls = .alert then
        s.closing i s.bas.alertIntake s.bas.routineIntake (b.room - 1) (b.reports ++ [r])
      else
        s.filling i s.bas.alertIntake s.bas.routineIntake (b.room - 1) (b.reports ++ [r]) s.bas.waitDue := by
  rw [State.fillBuffer_eq r hb]
  simp only [hs, reduceCtorEq, if_false]
  rfl

/-! ### One move -/

theorem State.movesUpTo_of_routine {rest : List Report} (hi : receivingBuffer s.bas.buffers = some i)
    (ha : s.bas.alertIntake = []) (hr : s.bas.routineIntake = r :: rest) (n : Nat) :
    s.movesUpTo (n + 1) = ((s.setBas { s.bas with routineIntake := rest }).fillBuffer i r).movesUpTo n := by
  have hmove : s.oneMove = some ((s.setBas { s.bas with routineIntake := rest }).fillBuffer i r) := by
    simp only [State.oneMove, hi, Option.bind_some, ha, hr]
  rw [State.movesUpTo, hmove]

/-- The alert at the head of its intake moves first (R145). -/
theorem State.makeMoves_of_alert {rest : List Report} (hi : receivingBuffer s.bas.buffers = some i)
    (ha : s.bas.alertIntake = r :: rest) :
    s.makeMoves =
      ((s.setBas { s.bas with alertIntake := rest }).fillBuffer i r).movesUpTo
        (rest.length + s.bas.routineIntake.length) := by
  have hmove : s.oneMove = some ((s.setBas { s.bas with alertIntake := rest }).fillBuffer i r) := by
    simp only [State.oneMove, hi, Option.bind_some, ha]
  rw [State.makeMoves, ha, List.length_cons, Nat.add_right_comm, State.movesUpTo, hmove]

theorem State.makeMoves_of_routine {rest : List Report} (hi : receivingBuffer s.bas.buffers = some i)
    (ha : s.bas.alertIntake = []) (hr : s.bas.routineIntake = r :: rest) :
    s.makeMoves = ((s.setBas { s.bas with routineIntake := rest }).fillBuffer i r).movesUpTo rest.length := by
  rw [State.makeMoves, ha, hr, List.length_cons, List.length_nil, Nat.zero_add, State.movesUpTo_of_routine hi ha hr]

theorem State.makeMoves_of_none (h : receivingBuffer s.bas.buffers = none) : s.makeMoves = s :=
  State.movesUpTo_of_none h _

theorem State.makeMoves_of_empty (ha : s.bas.alertIntake = []) (hr : s.bas.routineIntake = []) : s.makeMoves = s :=
  State.movesUpTo_of_empty ha hr _

theorem State.forward_of_alert (h : r.cls = .alert) : s.forward r = State.makeMoves
    (s.setBas { s.bas with alertIntake := pushDropOldest Config.alertCapacity r s.bas.alertIntake }) := by
  rw [State.forward, h]

theorem State.forward_of_routine (h : r.cls = .routine) : s.forward r = State.makeMoves
    (s.setBas { s.bas with routineIntake := pushDropOldest Config.routineCapacity r s.bas.routineIntake }) := by
  rw [State.forward, h]

/-- A report forwarded to a receiving buffer goes straight into it (R142, R145). -/
theorem State.forward_of_receiving (hi : receivingBuffer s.bas.buffers = some i) (ha : s.bas.alertIntake = [])
    (hr : s.bas.routineIntake = []) (r : Report) : s.forward r = s.fillBuffer i r := by
  have hself : s.setBas ⟨[], [], s.bas.buffers, s.bas.waitDue⟩ = s := by
    calc s.setBas ⟨[], [], s.bas.buffers, s.bas.waitDue⟩
        = s.setBas ⟨s.bas.alertIntake, s.bas.routineIntake, s.bas.buffers, s.bas.waitDue⟩ := by rw [ha, hr]
      _ = s := rfl
  cases hcls : r.cls with
  | alert =>
    have hmoves := State.makeMoves_of_alert (s := s.setBas ⟨[r], [], s.bas.buffers, s.bas.waitDue⟩) hi rfl
    have hpush : s.setBas ⟨pushDropOldest Config.alertCapacity r s.bas.alertIntake, s.bas.routineIntake, s.bas.buffers,
        s.bas.waitDue⟩ = s.setBas ⟨[r], [], s.bas.buffers, s.bas.waitDue⟩ := by
      rw [ha, hr]
      rfl
    calc s.forward r = _ := (State.forward_of_alert hcls).trans (congrArg State.makeMoves hpush)
      _ = _ := hmoves
      _ = s.fillBuffer i r := congrArg (State.fillBuffer · i r) hself
  | routine =>
    have hmoves := State.makeMoves_of_routine (s := s.setBas ⟨[], [r], s.bas.buffers, s.bas.waitDue⟩) hi rfl rfl
    have hpush : s.setBas ⟨s.bas.alertIntake, pushDropOldest Config.routineCapacity r s.bas.routineIntake, s.bas.buffers,
        s.bas.waitDue⟩ = s.setBas ⟨[], [r], s.bas.buffers, s.bas.waitDue⟩ := by
      rw [ha, hr]
      rfl
    calc s.forward r = _ := (State.forward_of_routine hcls).trans (congrArg State.makeMoves hpush)
      _ = _ := hmoves
      _ = s.fillBuffer i r := congrArg (State.fillBuffer · i r) hself

/-! ### Moves after an outcome -/

/-- The buffer that has closed receives nothing more. -/
theorem State.movesUpTo_closing (h : OthersGiven s.bas.buffers i) (alerts routines : List Report) (room : Nat)
    (reports : List Report) (n : Nat) :
    (s.closing i alerts routines room reports).movesUpTo n = s.closing i alerts routines room reports := by
  refine State.movesUpTo_of_none ?_ n
  rw [State.closing_bas]
  exact h.receivingBuffer_set rfl

theorem State.filling_filling {a q a' q' rs rs' : List Report} {n n' : Nat} {w w' : Option Micros} :
    (s.filling i a q n rs w).filling i a' q' n' rs' w' = s.filling i a' q' n' rs' w' :=
  congrArg (fun bs => s.setBas ⟨a', q', bs, w'⟩) (List.set_set ..)

theorem State.filling_closing {a q a' q' rs rs' : List Report} {n n' : Nat} {w : Option Micros} :
    (s.filling i a q n rs w).closing i a' q' n' rs' = s.closing i a' q' n' rs' := by
  rw [State.closing, State.filling, State.setBas_bas, List.set_set]
  rfl

/-- The routine reports move into the FILLING buffer until its room or their intake is used up (R145, R147). -/
theorem State.movesUpTo_filling {rs : List Report} (h : OthersGiven s.bas.buffers i) (hi : i < s.bas.buffers.length)
    (hrs : ∀ r ∈ rs, r.cls = .routine) (room : Nat) (reports : List Report) (wait : Option Micros) :
    (s.filling i [] rs (room + 1) reports wait).movesUpTo rs.length =
      if rs.length ≤ room then s.filling i [] [] (room + 1 - rs.length) (reports ++ rs) wait
      else s.closing i [] (rs.drop (room + 1)) 0 (reports ++ rs.take (room + 1)) := by
  induction rs generalizing room reports with
  | nil => simp [State.movesUpTo]
  | cons r rest ih =>
    obtain ⟨hr, hrest⟩ := List.forall_mem_cons.1 hrs
    have hb (q : List Report) :
        (s.filling i [] q (room + 1) reports wait).bas.buffers[i]? = some ⟨.filling, room + 1, reports⟩ :=
      List.getElem?_set_self hi
    have hfill := State.fillBuffer_of_filling (hb rest) rfl r
    rw [State.filling_closing, State.filling_filling] at hfill
    rw [List.length_cons, State.movesUpTo_of_routine (receivingBuffer_eq_some (hb _) (.inr rfl) (h.set _)) rfl rfl]
    refine (congrArg (State.movesUpTo rest.length) hfill).trans ?_
    cases room with
    | zero =>
      rw [if_pos (.inl rfl), State.movesUpTo_closing h, if_neg (by omega)]
      rfl
    | succ room =>
      rw [if_neg (by simp [hr])]
      refine (ih hrest room (reports ++ [r])).trans (if_congr (by omega) ?_ ?_)
      · simp
      · simp

/-- The alert at the head of its intake closes the EMPTY buffer alone (R145, R147). -/
theorem State.makeMoves_alert {rest : List Report} (h : OthersGiven s.bas.buffers i) (hb : s.bas.buffers[i]? = some b)
    (hs : b.state = .empty) (ha : s.bas.alertIntake = r :: rest) (hr : r.cls = .alert) :
    s.makeMoves = s.closing i rest s.bas.routineIntake (effectiveLimit s.cfg - 1) [r] := by
  have hfill := State.fillBuffer_of_empty (s := s.setBas { s.bas with alertIntake := rest }) hb hs r
  rw [if_pos (.inr hr)] at hfill
  rw [State.makeMoves_of_alert (receivingBuffer_eq_some hb (.inl hs) h) ha]
  exact (congrArg (State.movesUpTo _) hfill).trans (State.movesUpTo_closing h ..)

/-- Routine reports fill the EMPTY buffer up to the effective limit (R143, R145, R147). -/
theorem State.makeMoves_routine (h : OthersGiven s.bas.buffers i) (hb : s.bas.buffers[i]? = some b)
    (hs : b.state = .empty) (ha : s.bas.alertIntake = []) (hne : s.bas.routineIntake ≠ [])
    (hrs : ∀ r ∈ s.bas.routineIntake, r.cls = .routine) :
    s.makeMoves =
      if s.bas.routineIntake.length < effectiveLimit s.cfg then
        s.filling i [] [] (effectiveLimit s.cfg - s.bas.routineIntake.length) s.bas.routineIntake
          (some (s.now + 1000 * s.cfg.bundleWait))
      else
        s.closing i [] (s.bas.routineIntake.drop (effectiveLimit s.cfg)) 0
          (s.bas.routineIntake.take (effectiveLimit s.cfg)) := by
  obtain ⟨hi, -⟩ := List.getElem?_eq_some_iff.1 hb
  obtain ⟨r, rest, hcons⟩ := List.exists_cons_of_ne_nil hne
  rw [hcons, List.forall_mem_cons] at hrs
  obtain ⟨hr, hrest⟩ := hrs
  have hfill := State.fillBuffer_of_empty (s := s.setBas { s.bas with routineIntake := rest }) hb hs r
  rw [show (s.setBas { s.bas with routineIntake := rest }).bas.alertIntake = [] from ha] at hfill
  rw [State.makeMoves_of_routine (receivingBuffer_eq_some hb (.inl hs) h) ha hcons, hcons]
  refine (congrArg (State.movesUpTo _) hfill).trans ?_
  show State.movesUpTo _ (if effectiveLimit s.cfg - 1 = 0 ∨ r.cls = .alert then
    s.closing i [] rest (effectiveLimit s.cfg - 1) [r]
    else s.filling i [] rest (effectiveLimit s.cfg - 1) [r] (some (s.now + 1000 * s.cfg.bundleWait))) = _
  obtain ⟨limit, hlimit⟩ := Nat.exists_eq_add_of_le' (effectiveLimit_bounds s.cfg).1
  rw [hlimit]
  cases limit with
  | zero =>
    rw [if_pos (.inl rfl), State.movesUpTo_closing h, if_neg (by simp)]
    rfl
  | succ limit =>
    rw [if_neg (by simp [hr])]
    refine (State.movesUpTo_filling h hi hrest limit [r] _).trans ?_
    by_cases hroom : rest.length ≤ limit
    · rw [if_pos hroom, if_pos (by simp; omega)]
      simp
    · rw [if_neg hroom, if_neg (by simp; omega)]
      simp

/-! ### The wait timer (R147) -/

theorem State.bundleWait_of_early {due : Micros} (hwait : s.bas.waitDue = some due) (h : s.now < due) :
    s.bundleWait = s := by
  rw [State.bundleWait, hwait, dueBy, decide_eq_false (Nat.not_le.2 h)]
  rfl

/-- The FILLING buffer closes, and with both intakes empty nothing moves. -/
theorem State.bundleWait_of_due {due : Micros} (hwait : s.bas.waitDue = some due) (h : due ≤ s.now)
    (hi : (s.bas.buffers.findIdx? fun b => b.state = .filling) = some i) (hb : s.bas.buffers[i]? = some b)
    (ha : s.bas.alertIntake = []) (hr : s.bas.routineIntake = []) :
    s.bundleWait = s.closing i s.bas.alertIntake s.bas.routineIntake b.room b.reports := by
  have hclose : s.closeBuffer i = s.closing i s.bas.alertIntake s.bas.routineIntake b.room b.reports := by
    rw [State.closeBuffer, hb]
    rfl
  have hbas := s.closing_bas i s.bas.alertIntake s.bas.routineIntake b.room b.reports
  rw [State.bundleWait, if_pos (dueBy_eq_true.2 ⟨due, hwait, h⟩), hi]
  refine (congrArg State.makeMoves hclose).trans (State.makeMoves_of_empty ?_ ?_)
  · rw [hbas, ha]
  · rw [hbas, hr]

/-- Settles O59: a forwarded report, the wait timer, and the moves after an outcome. -/
theorem buffersFill : Obligations.BuffersFill := by
  refine ⟨fun r s h hrunning => ?_, fun dt due i b s h hwait hb hs => ?_, fun s => State.makeMoves_of_empty, fun i b s => ?_⟩
  · intro t limit bs
    refine ⟨fun hcapacity i b hb hreceives => ?_, fun hgiven => ⟨fun hcls => ?_, fun hcls => ?_⟩⟩
    · intro room reports
      have hi : receivingBuffer bs = some i := by
        rcases hreceives with hs | ⟨hs, hnone, hfirst⟩
        · rw [receivingBuffer, findIdx?_filling hb hs h.oneFilling]
        · exact receivingBuffer_of_empty hb hs hnone hfirst
      obtain ⟨ha, hr⟩ := h.moved (by rw [hi]; simp)
      have ht : t = s.fillBuffer i r := State.forward_of_receiving hi ha hr r
      have hfill := State.fillBuffer_eq r hb
      have hroom : (if b.state = .empty then effectiveLimit s.cfg else b.room) - 1 = room := by
        rw [effectiveLimit_eq hcapacity]
        exact apply_ite (· - 1) _ _ _
      have hreports : (if b.state = .empty then [] else b.reports) ++ [r] = reports := apply_ite (· ++ [r]) _ _ _
      simp only [hroom, hreports] at hfill
      refine ⟨fun hnot hcls => ?_, fun hcloses => ?_⟩
      · exact ht.trans (hfill.trans (if_neg (by simp [hnot, hcls])))
      · exact ht.trans (hfill.trans (if_pos hcloses))
    · rw [← pushDropOldest_eq]
      refine (State.forward_of_alert hcls).trans ?_
      exact State.makeMoves_of_none (receivingBuffer_eq_none hgiven)
    · rw [← pushDropOldest_eq]
      refine (State.forward_of_routine hcls).trans ?_
      exact State.makeMoves_of_none (receivingBuffer_eq_none hgiven)
  · intro u
    have hi := findIdx?_filling hb hs h.bundles.oneFilling
    refine ⟨fun hearly => congrArg done (State.bundleWait_of_early (s := u) hwait hearly), fun hdue => ?_⟩
    obtain ⟨ha, hr⟩ := h.bundles.moved (by rw [receivingBuffer, hi]; simp)
    exact congrArg done (State.bundleWait_of_due (s := u) hwait hdue hi hb ha hr)
  · intro capacity limit bs closing hcapacity hb hs hothers halerts hroutines
    have hlimit : effectiveLimit s.cfg = limit := effectiveLimit_eq hcapacity
    refine ⟨fun r rest ha => ?_, fun ha => ⟨fun hfull => ?_, fun hne hless => ?_⟩⟩
    · have hmoves := State.makeMoves_alert hothers hb hs ha (halerts r (by simp [ha]))
      exact hlimit ▸ hmoves
    · have hne : s.bas.routineIntake ≠ [] := fun hnil => by
        have hpos := (effectiveLimit_bounds s.cfg).1
        rw [hnil, ← hlimit, List.length_nil] at hfull
        omega
      have hmoves := State.makeMoves_routine hothers hb hs ha hne hroutines
      rw [hlimit, if_neg (Nat.not_lt.2 hfull)] at hmoves
      exact hmoves
    · have hmoves := State.makeMoves_routine hothers hb hs ha hne hroutines
      rw [hlimit, if_pos hless] at hmoves
      exact hmoves

end Sys2Proof.Machine
end
